-- ==== Sys2Proof/Word.lean ====
section
/-! DEFINITION. The words the block handles: the 32-bit command and register word, the byte, and the bit string
(00_scope.md R8 to R11). -/

namespace Sys2Proof

/-- A command word or a window register: 32 bits, bit 0 least significant (R9, R18, R73). -/
abbrev Word := BitVec 32

/-- A byte value, also called a symbol (R6 `SYMS`, R11). -/
abbrev Byte := BitVec 8

/-- A bit string, the first bit first (R10): a code, a trie path, a piece of a stream. -/
abbrev Bits := List Bool

/-- The 256 byte values in ascending order: the index set of `for s in 0..255` (R12). -/
def allBytes : List Byte := (List.range 256).map (BitVec.ofNat 8)

end Sys2Proof
end

