-- ==== Sys2Proof/Machine/Operands.lean ====
section
/-! DEFINITION. The opcode map and the operand forms: the fields of a command word (30_encoding.md R73), the five
formats with their masks (R74), operand assembly (R75), and the columns of the opcode map (R76). -/

namespace Sys2Proof.Machine

/-! ### The fields of a command word (R73) -/

/-- OPC, bits 31:24. -/
def opcField (w : Word) : BitVec 8 := w.extractLsb' 24 8

/-- RSV, bits 23:16. -/
def rsvField (w : Word) : BitVec 8 := w.extractLsb' 16 8

/-! ### Operand assembly (R75): unsigned fields taken straight from IMM -/

/-- `b = w[0]` (formats B). -/
def operandB (w : Word) : Bool := w.getLsbD 0

/-- `y = w[7:0]` (format Y). -/
def operandY (w : Word) : Byte := w.extractLsb' 0 8

/-- `v = w[15:0]` (format S). -/
def operandV (w : Word) : BitVec 16 := w.extractLsb' 0 16

/-- `s = w[15:8]` (format P). -/
def operandS (w : Word) : Byte := w.extractLsb' 8 8

/-- `i = w[7:0]` (format P). -/
def operandI (w : Word) : Byte := w.extractLsb' 0 8

/-! ### Formats (R74) -/

/-- The five formats. -/
inductive Format where
  | n | b | y | s | p
  deriving DecidableEq, Repr, Inhabited

/-- The mask of a format: a 1 at every bit whose value is fixed (R74). -/
def Format.mask : Format → Word
  | .n => 0xFFFFFFFF#32
  | .b => 0xFFFFFFFE#32
  | .y => 0xFFFFFF00#32
  | .s => 0xFFFF0000#32
  | .p => 0xFFFF0000#32

/-- For each operand of a format, in assembler order, the first number too large for it (R80). -/
def Format.bounds : Format → List Nat
  | .n => []
  | .b => [2]
  | .y => [256]
  | .s => [65536]
  | .p => [256, 256]

/-- The operands of a word under a format, in assembler order, as numbers (R74, R75). -/
def Format.operands (f : Format) (w : Word) : List Nat :=
  match f with
  | .n => []
  | .b => [(operandB w).toNat]
  | .y => [(operandY w).toNat]
  | .s => [(operandV w).toNat]
  | .p => [(operandS w).toNat, (operandI w).toNat]

/-! ### The opcode map (R76) -/

/-- The 27 mnemonics. -/
inductive Mnemonic where
  | SRESET | SETCTRL | FCLEAR | FADD | FSCAN | FGET | TBUILD | CGEN | CLEN | CBIT | HWRITE | HREAD
  | WBIT | WBYTE | WSHORT | WFLUSH | ROPEN | RHASNEXT | RBIT | RBYTE | RSHORT | RALIGNED
  | ESYM | ESCAN | DTRIE | DSYM | DSCAN
  deriving DecidableEq, Repr, Inhabited

/-- The rows of the map, in ascending OPC. -/
def Mnemonic.all : List Mnemonic :=
  [.SRESET, .SETCTRL, .FCLEAR, .FADD, .FSCAN, .FGET, .TBUILD, .CGEN, .CLEN, .CBIT, .HWRITE, .HREAD,
   .WBIT, .WBYTE, .WSHORT, .WFLUSH, .ROPEN, .RHASNEXT, .RBIT, .RBYTE, .RSHORT, .RALIGNED,
   .ESYM, .ESCAN, .DTRIE, .DSYM, .DSCAN]

/-- The column OPC. -/
def Mnemonic.opc : Mnemonic → BitVec 8
  | .SRESET => 0x01#8
  | .SETCTRL => 0x02#8
  | .FCLEAR => 0x10#8
  | .FADD => 0x11#8
  | .FSCAN => 0x12#8
  | .FGET => 0x13#8
  | .TBUILD => 0x20#8
  | .CGEN => 0x30#8
  | .CLEN => 0x31#8
  | .CBIT => 0x32#8
  | .HWRITE => 0x40#8
  | .HREAD => 0x41#8
  | .WBIT => 0x50#8
  | .WBYTE => 0x51#8
  | .WSHORT => 0x52#8
  | .WFLUSH => 0x53#8
  | .ROPEN => 0x60#8
  | .RHASNEXT => 0x61#8
  | .RBIT => 0x62#8
  | .RBYTE => 0x63#8
  | .RSHORT => 0x64#8
  | .RALIGNED => 0x65#8
  | .ESYM => 0x70#8
  | .ESCAN => 0x71#8
  | .DTRIE => 0x80#8
  | .DSYM => 0x81#8
  | .DSCAN => 0x82#8

/-- The column format. -/
def Mnemonic.format : Mnemonic → Format
  | .SETCTRL | .WBIT => .b
  | .FADD | .FGET | .CLEN | .WBYTE | .ESYM => .y
  | .WSHORT => .s
  | .CBIT => .p
  | .SRESET | .FCLEAR | .FSCAN | .TBUILD | .CGEN | .HWRITE | .HREAD | .WFLUSH | .ROPEN | .RHASNEXT
  | .RBIT | .RBYTE | .RSHORT | .RALIGNED | .ESCAN | .DTRIE | .DSYM | .DSCAN => .n

/-- The column match: OPC in bits 31:24 and zeros below. -/
def Mnemonic.matchWord (m : Mnemonic) : Word := m.opc ++ 0#24

/-- The column reader: the command needs RD_OPEN = 1 (R76, R78). -/
def Mnemonic.needsReader : Mnemonic → Bool
  | .FSCAN | .HREAD | .RHASNEXT | .RBIT | .RBYTE | .RSHORT | .RALIGNED | .ESCAN | .DSYM | .DSCAN => true
  | .SRESET | .SETCTRL | .FCLEAR | .FADD | .FGET | .TBUILD | .CGEN | .CLEN | .CBIT | .HWRITE
  | .WBIT | .WBYTE | .WSHORT | .WFLUSH | .ROPEN | .ESYM | .DTRIE => false

/-- The column result: the command writes RESULT (R22, R76). -/
def Mnemonic.writesResult : Mnemonic → Bool
  | .FGET | .CLEN | .CBIT | .RHASNEXT | .RBIT | .RBYTE | .RSHORT | .RALIGNED | .DSYM => true
  | .SRESET | .SETCTRL | .FCLEAR | .FADD | .FSCAN | .TBUILD | .CGEN | .HWRITE | .HREAD
  | .WBIT | .WBYTE | .WSHORT | .WFLUSH | .ROPEN | .ESYM | .ESCAN | .DTRIE | .DSCAN => false

end Sys2Proof.Machine
end

