-- ==== Sys2Proof/Syntax.lean ====
section
/-! DEFINITION. The command set: one constructor for each row of spec/opcode_table.json, with the operands of its
format (30_encoding.md R74 to R76). Operands are typed by their field widths, so every term is an encodable command. -/

namespace Sys2Proof

/-- A command of the block (R76). The families follow the high nibble of OPC. -/
inductive Instr where
  /-- Soft reset (R83). -/
  | sreset
  /-- Set CTRL.SINGLE1 to `b` (R84). -/
  | setctrl (b : Bool)
  /-- Clear the frequency table (R86). -/
  | fclear
  /-- Count the byte `y` (R87). -/
  | fadd (y : Byte)
  /-- Count every remaining source byte (R88). -/
  | fscan
  /-- Read the count of `y` (R89). -/
  | fget (y : Byte)
  /-- Build the tree from the counts (R92). -/
  | tbuild
  /-- Derive the code table from the tree (R99). -/
  | cgen
  /-- Read the length of `y`'s code (R101). -/
  | clen (y : Byte)
  /-- Read bit `i` of the code of `s` (R102). -/
  | cbit (s i : Byte)
  /-- Serialize the code table (R106). -/
  | hwrite
  /-- Parse a header into the code table (R107). -/
  | hread
  /-- Append one bit (R109). -/
  | wbit (b : Bool)
  /-- Append one byte (R110). -/
  | wbyte (y : Byte)
  /-- Append a 16-bit value, low byte first (R111). -/
  | wshort (v : BitVec 16)
  /-- Deliver the partially filled buffer (R112). -/
  | wflush
  /-- Open the source (R115). -/
  | ropen
  /-- Ask whether an unread bit remains (R116). -/
  | rhasnext
  /-- Read the next bit (R117). -/
  | rbit
  /-- Read the next byte (R118). -/
  | rbyte
  /-- Read a 16-bit value (R119). -/
  | rshort
  /-- Ask whether the reader is byte-aligned (R120). -/
  | raligned
  /-- Append the code of `y` (R124). -/
  | esym (y : Byte)
  /-- Encode every remaining source byte (R125). -/
  | escan
  /-- Rebuild the decoding trie (R128). -/
  | dtrie
  /-- Decode one symbol (R130). -/
  | dsym
  /-- Decode to the end of the source (R131). -/
  | dscan
  deriving DecidableEq, Repr, Inhabited

end Sys2Proof
end

