-- ==== Sys2Proof/WellFormed.lean ====
section
/-! DEFINITION. Which assembler lines are commands (30_encoding.md R80). A term of Instr is well-formed by its type;
what can be ill-formed is a line of the assembler, whose operands are plain numbers. -/

namespace Sys2Proof

open Sys2Proof.Machine

/-- One assembler line (R80): a mnemonic and its operands, in order. -/
structure Line where
  mnemonic : Mnemonic
  operands : List Nat
  deriving DecidableEq, Repr, Inhabited

/-- The line has as many operands as its format takes (R80). -/
def Line.arityOk (l : Line) : Bool := l.operands.length == l.mnemonic.format.bounds.length

/-- Each operand is in range: "An operand out of range is an assembly error, not an encoding" (R80). -/
def Line.rangesOk (l : Line) : Bool := (l.operands.zip l.mnemonic.format.bounds).all fun p => p.1 < p.2

/-- The line is a command (R80). -/
def Line.wellFormed (l : Line) : Bool := l.arityOk && l.rangesOk

end Sys2Proof
end

