-- ==== Sys2Proof/Decode.lean ====
section
/-! DEFINITION. Decoding a command word, total and refusing by name (30_encoding.md R77, R79); encoding a command
(R73 to R76, R80); assembling a line (R80) and the two pseudo-instructions (R81, R82). -/

namespace Sys2Proof

open Sys2Proof.Machine

/-- Why a word is illegal (R79): both raise E_ILLEGAL with the whole word. -/
inductive DecodeError where
  /-- OPC is in no row of the map. -/
  | unassignedOpcode
  /-- RSV or a must-be-zero IMM bit is set. -/
  | fixedBitSet
  deriving DecidableEq, Repr, Inhabited

/-- The row of an OPC, where the map has one (R76). -/
def rowOf (op : BitVec 8) : Option Mnemonic := Mnemonic.all.find? fun m => m.opc == op

/-- The command of a row with the operands of the word `w` (R75). -/
def buildInstr (w : Word) : Mnemonic → Instr
  | .SRESET => .sreset
  | .SETCTRL => .setctrl (operandB w)
  | .FCLEAR => .fclear
  | .FADD => .fadd (operandY w)
  | .FSCAN => .fscan
  | .FGET => .fget (operandY w)
  | .TBUILD => .tbuild
  | .CGEN => .cgen
  | .CLEN => .clen (operandY w)
  | .CBIT => .cbit (operandS w) (operandI w)
  | .HWRITE => .hwrite
  | .HREAD => .hread
  | .WBIT => .wbit (operandB w)
  | .WBYTE => .wbyte (operandY w)
  | .WSHORT => .wshort (operandV w)
  | .WFLUSH => .wflush
  | .ROPEN => .ropen
  | .RHASNEXT => .rhasnext
  | .RBIT => .rbit
  | .RBYTE => .rbyte
  | .RSHORT => .rshort
  | .RALIGNED => .raligned
  | .ESYM => .esym (operandY w)
  | .ESCAN => .escan
  | .DTRIE => .dtrie
  | .DSYM => .dsym
  | .DSCAN => .dscan

/-- `Decode(w)` (R77). -/
def decode (w : Word) : Except DecodeError Instr :=
  match rowOf (opcField w) with
  | none => .error .unassignedOpcode
  | some m => if w &&& m.format.mask = m.matchWord then .ok (buildInstr w m) else .error .fixedBitSet

/-- The row a command belongs to. -/
def Instr.mnemonic : Instr → Mnemonic
  | .sreset => .SRESET
  | .setctrl _ => .SETCTRL
  | .fclear => .FCLEAR
  | .fadd _ => .FADD
  | .fscan => .FSCAN
  | .fget _ => .FGET
  | .tbuild => .TBUILD
  | .cgen => .CGEN
  | .clen _ => .CLEN
  | .cbit _ _ => .CBIT
  | .hwrite => .HWRITE
  | .hread => .HREAD
  | .wbit _ => .WBIT
  | .wbyte _ => .WBYTE
  | .wshort _ => .WSHORT
  | .wflush => .WFLUSH
  | .ropen => .ROPEN
  | .rhasnext => .RHASNEXT
  | .rbit => .RBIT
  | .rbyte => .RBYTE
  | .rshort => .RSHORT
  | .raligned => .RALIGNED
  | .esym _ => .ESYM
  | .escan => .ESCAN
  | .dtrie => .DTRIE
  | .dsym => .DSYM
  | .dscan => .DSCAN

/-- The operands of a command, in assembler order, as numbers (R80). -/
def Instr.operands : Instr → List Nat
  | .setctrl b | .wbit b => [b.toNat]
  | .fadd y | .fget y | .clen y | .wbyte y | .esym y => [y.toNat]
  | .wshort v => [v.toNat]
  | .cbit s i => [s.toNat, i.toNat]
  | .sreset | .fclear | .fscan | .tbuild | .cgen | .hwrite | .hread | .wflush | .ropen | .rhasnext
  | .rbit | .rbyte | .rshort | .raligned | .escan | .dtrie | .dsym | .dscan => []

/-- The 16 bits a command puts in IMM (R74): every IMM bit that is no operand is 0. -/
def Instr.imm : Instr → BitVec 16
  | .setctrl b | .wbit b => (BitVec.ofBool b).setWidth 16
  | .fadd y | .fget y | .clen y | .wbyte y | .esym y => y.setWidth 16
  | .wshort v => v
  | .cbit s i => s ++ i
  | .sreset | .fclear | .fscan | .tbuild | .cgen | .hwrite | .hread | .wflush | .ropen | .rhasnext
  | .rbit | .rbyte | .rshort | .raligned | .escan | .dtrie | .dsym | .dscan => 0#16

/-- The word of a command: OPC, RSV = 0, IMM (R73). -/
def encode (i : Instr) : Word := i.mnemonic.opc ++ (0#8 ++ i.imm)

/-- "The encoder of a line is `match | operand bits`" (R80), for a well-formed line. -/
def assemble (l : Line) : Option Word :=
  if l.wellFormed then
    match l.operands with
    | [] => some l.mnemonic.matchWord
    | [a] => some (l.mnemonic.matchWord ||| BitVec.ofNat 32 a)
    | a :: b :: _ => some (l.mnemonic.matchWord ||| BitVec.ofNat 32 (256 * a + b))
  else none

/-- The pseudo-instruction COMPRESS: nine commands (R81). -/
def compressCommands : List Instr :=
  [.sreset, .ropen, .fscan, .tbuild, .cgen, .hwrite, .ropen, .escan, .wflush]

/-- The pseudo-instruction DECOMPRESS: six commands (R82). -/
def decompressCommands : List Instr :=
  [.sreset, .ropen, .hread, .dtrie, .dscan, .wflush]

/-- The instruction this decoder reads from the command whose bits are `w`, in the opcode table's numbering. A command
is one 32-bit word, so that numbering is the word's own. -/
def decodeTableWord (nbits w : Nat) : Option Instr :=
  if nbits ≤ 32 ∧ w < 2 ^ nbits then
    match decode (BitVec.ofNat 32 w) with
    | .ok i => some i
    | .error _ => none
  else none

end Sys2Proof
end

