-- ==== Sys2Proof/Machine/Stores.lean ====
section
/-! DEFINITION. The shapes of the block's internal stores (10_state.md R32 to R37) and of the host's side of the two
ports and of the register window (R19, R43), each with its own reads and writes. -/

namespace Sys2Proof.Machine

/-! ### 256-entry tables, one cell per byte value -/

/-- A table with one cell for each of the 256 byte values (R32 FREQ, R35 CT). -/
abbrev Table (α : Type) := Vector α 256

/-- `T[y]`: the cell of byte value `y`. -/
def cell {α : Type} (t : Table α) (y : Byte) : α := t[y.toNat]'y.isLt

/-- `T[y] <- a`. -/
def setCell {α : Type} (t : Table α) (y : Byte) (a : α) : Table α := t.set y.toNat a y.isLt

/-- A table whose every cell holds `a`. -/
def constTable {α : Type} (a : α) : Table α := Vector.replicate 256 a

/-! ### The code table CT -/

/-- One entry of CT (R35): `none` is `{valid: 0, len: 0, code: []}`; `some c` is `{valid: 1, len: len(c), code: c}`.
The length is the bit string's own, so it is stored once. -/
abbrev CodeEntry := Option Bits

/-! ### The tree store TREE -/

/-- A node slot (R33): a LEAF holds a symbol and its count; an INTERNAL node holds its two children's slot indexes and
the sum of their weights. -/
inductive Node where
  | leaf (sym : Byte) (weight : Nat)
  | internal (zeroChild oneChild : Nat) (weight : Nat)
  deriving DecidableEq, Repr, Inhabited

/-- `NODE[k].weight` (R33). -/
def Node.weight : Node → Nat
  | .leaf _ w => w
  | .internal _ _ w => w

/-! ### The decoding trie TRIE -/

/-- The kind of a present trie node (R37). -/
inductive TrieKind where
  | inner
  | term (sym : Byte)
  deriving DecidableEq, Repr, Inhabited

/-- The decoding trie (R37): a finite map from paths to kinds whose set of present paths is closed under taking
initial segments. Each such map is exactly one value of this type, so equal tries are equal data. -/
inductive Trie where
  | absent
  | node (kind : TrieKind) (zeroChild oneChild : Trie)
  deriving DecidableEq, Repr, Inhabited

/-- The trie `{[] -> INNER}` (R37): an empty root. -/
def Trie.empty : Trie := .node .inner .absent .absent

/-- The number of present nodes: the slots of the physical store in use (R37). -/
def Trie.size : Trie → Nat
  | .absent => 0
  | .node _ z o => z.size + o.size + 1

/-- `TRIE[p]`: the kind at path `p`, or `none` where `p` is not present (R37). -/
def Trie.lookup : Trie → Bits → Option TrieKind
  | .absent, _ => none
  | .node k _ _, [] => some k
  | .node _ z o, b :: p => (if b then o else z).lookup p

/-- `Insert(c, s)` (R127) below one node: walk down the path, create INNER nodes on demand, place `TERM(s)` at its
end. `none` is the conflict: a TERM on the way, or the end already TERM, or the end with a child. -/
def Trie.insert (sym : Byte) : Bits → Trie → Option Trie
  | [], .absent => some (.node (.term sym) .absent .absent)
  | [], .node .inner .absent .absent => some (.node (.term sym) .absent .absent)
  | [], .node _ _ _ => none
  | _ :: _, .node (.term _) _ _ => none
  | b :: c, .absent =>
    if b then (insert sym c .absent).map fun o => .node .inner .absent o
    else (insert sym c .absent).map fun z => .node .inner z .absent
  | b :: c, .node .inner z o =>
    if b then (insert sym c o).map fun o' => .node .inner z o'
    else (insert sym c z).map fun z' => .node .inner z' o

/-! ### The host's side -/

/-- One presentation of the source (R6, R43): the bytes `SRC_i`, and `SRC_ERR_i`, the index at which it fails. -/
structure Presentation where
  bytes : List Byte
  failAt : Option Nat
  deriving DecidableEq, Repr, Inhabited

/-- What a source with no listed presentation holds: no byte and no failure. -/
def Presentation.none : Presentation := ⟨[], Option.none⟩

/-- What the host does to the block (R5, R19, R150): a read or a write of the register window, of some width in bits
at some byte offset, or a pulse of the reset input. -/
inductive HostAction where
  | read (width offset : Nat)
  | write (width offset : Nat) (value : Word)
  | resetInput
  deriving DecidableEq, Repr, Inhabited

end Sys2Proof.Machine
end

