-- ==== Sys2Proof/Config.lean ====
section
/-! DEFINITION. The build parameters and fixed sizes (00_scope.md R6), the constant of the ID register (R31), and the
free values: what the spec says may be any value (93_implementation_defined.md P5 to P7, P10). -/

namespace Sys2Proof.Config

open Sys2Proof Sys2Proof.Machine

/-- `BIT_ORDER` (R6, R49): which bit of a byte holds the first stream bit. -/
inductive BitOrder where
  | msbFirst
  | lsbFirst
  deriving DecidableEq, Repr, Inhabited

/-- The build parameters of one block (R6). They are fixed for a machine: State holds them and no step changes them, so
that a statement about every state is a statement about every legal build. -/
structure Params where
  /-- `BUF_BYTES`, the capacity of the writer's and of the reader's buffer. -/
  bufBytes : Nat
  /-- `BIT_ORDER`. -/
  bitOrder : BitOrder
  /-- `W_CNT`, the width in bits of a count and of a tree weight. -/
  wCnt : Nat
  deriving DecidableEq, Repr, Inhabited

/-- The defaults of R6. -/
def Params.default : Params := ⟨1024, .msbFirst, 32⟩

/-- The legal values of R6. -/
def Params.legal (p : Params) : Bool :=
  decide (1 ≤ p.bufBytes) && decide (p.bufBytes ≤ 8191) && decide (16 ≤ p.wCnt) && decide (p.wCnt ≤ 64)

/-- `MAX_LEN` (R6): the longest code, in bits. -/
def maxLen : Nat := 255

/-- `TREE_NODES` (R6): the slots of the tree store. -/
def treeNodes : Nat := 511

/-- `TRIE_NODES` (R6): the slots of the decoding-trie store. It is one root and at most 255 nodes for each of 256 codes, so
no table fills it and no capacity fault exists (R37); that every step keeps the trie within it is a clause of `StoresOk`. -/
def trieNodes : Nat := 65281

/-- The constant the ID register holds (R31). -/
def idValue : Word := 0x48554646#32

/-! ### Free values

After a fault the block state other than FAULT, FINFO, BUSY, SNK, SNK_COUNT and ID holds any value until reset (R136).
Each piece is an uninterpreted constant applied to the model's counter `State.freeIdx`, which every use advances:
nothing can be proved of it beyond its type. Log entry 3. -/

opaque freeResult : Nat → Word
opaque freeCtrl : Nat → Word
opaque freeFreq : Nat → Table Nat
opaque freeNodes : Nat → List Node
opaque freeRoot : Nat → Option Nat
opaque freeCt : Nat → Table CodeEntry
opaque freeTrie : Nat → Trie
opaque freeWrBuf : Nat → List Byte
opaque freeWrOff : Nat → Nat
opaque freeRdOpen : Nat → Bool
opaque freeRdOpens : Nat → Word
opaque freeRdBuf : Nat → List Byte
opaque freeRdChunk : Nat → Nat
opaque freeRdOff : Nat → Nat

/-- STATUS bits 6:2 while the block is in the fault state (R21, P6). -/
opaque freeStatusBits : Nat → BitVec 5

/-- NFREQ, NCODE and the WR_OFF and RD_OFF registers while the block is in the fault state (R136, P5). -/
opaque freeNfreq : Nat → Word
opaque freeNcode : Nat → Word
opaque freeWrOffWord : Nat → Word
opaque freeRdOffWord : Nat → Word

/-- STATUS bits 6:1 read while BUSY = 1 (R153, P10). -/
opaque freeBusyStatus : Nat → BitVec 6

/-- Any other register read while BUSY = 1, by its offset (R153, P10). -/
opaque freeBusyRead : Nat → Nat → Word

/-- FINFO for a source failure index of 2^32 or more, which no 32-bit word holds (R55). -/
opaque freeFailureInfo : Nat → Word

end Sys2Proof.Config
end

