-- ==== Sys2Proof/Machine/State.lean ====
section
/-! DEFINITION. The machine's state as plain data (10_state.md R15 to R45), its state right after reset, and the names
of the ways a step can stop. -/

namespace Sys2Proof.Machine

open Sys2Proof

/-- The state: the block's own state (R15), the host's side of the ports and of the register window (R19, R43), the
build parameters (R6), and the model's counter of free values. Every register the spec computes from other state
(STATUS, NFREQ, NCODE, WR_OFF, RD_OFF, ID, FAULTED) is computed in Machine/Flags.lean. -/
structure State where
  /-- The build parameters `BUF_BYTES`, `BIT_ORDER`, `W_CNT` (R6); no step changes them. -/
  params : Config.Params
  /-- RESULT (R22). -/
  result : Word
  /-- FAULT; CODE is bits 7:0 (R23). -/
  fault : Word
  /-- FINFO (R24). -/
  finfo : Word
  /-- CTRL; SINGLE1 is bit 0 (R25). -/
  ctrl : Word
  /-- SNK_COUNT, modulo 2^32 (R30). -/
  snkCount : Word
  /-- The flag BUSY (R42). -/
  busy : Bool
  /-- FREQ, 256 counters (R32). -/
  freq : Table Nat
  /-- NODE[0] to NODE[TN - 1]; TN is the list's length, and a slot at index TN or above holds no node (R33). -/
  nodes : List Node
  /-- ROOT: NONE, or a slot index (R33). -/
  root : Option Nat
  /-- CT, 256 entries (R35). -/
  ct : Table CodeEntry
  /-- TRIE (R37). -/
  trie : Trie
  /-- WR_BUF, `BUF_BYTES` bytes (R38). -/
  wrBuf : List Byte
  /-- WR_OFF, the writer's bit offset (R38). -/
  wrOff : Nat
  /-- RD_OPEN (R40). -/
  rdOpen : Bool
  /-- RD_OPENS, the number of opens since reset (R40). -/
  rdOpens : Word
  /-- The valid bytes of RD_BUF; RD_VALID is the list's length, and no byte beyond it is ever read (R40). -/
  rdBuf : List Byte
  /-- RD_CHUNK (R40). -/
  rdChunk : Nat
  /-- RD_OFF, the reader's bit offset (R40). -/
  rdOff : Nat
  /-- Host side: the bytes delivered to SNK, oldest first (R43). -/
  snk : List Byte
  /-- Host side: the presentations SRC_1, SRC_2, ... with their failure indexes (R6, R43). -/
  srcs : List Presentation
  /-- Host side: SNK_ERR, the index of the first byte the sink refuses (R6). -/
  snkErr : Option Nat
  /-- Host side: what the host will do, in order; its position plays the part of a program counter (R17). -/
  host : List HostAction
  /-- Host side: the values its register reads returned, oldest first (R19). -/
  hostReads : List Word
  /-- The model's own: how many times a free value has been used (Config). -/
  freeIdx : Nat
  deriving DecidableEq, Repr

/-- Why the machine itself could stop with no next state. There is no such reason: a fault of the block is a STATE, with
FAULT and FINFO written (R136), so no step and no command ever answers with one. -/
inductive Fault where
  deriving DecidableEq, Repr

/-- What the model gives no meaning. -/
inductive Refusal where
  /-- Raised by `exec` for a command that has no meaning in this model yet; no arm uses it. Safe. -/
  | notModelled (mnemonic : String)
  /-- Raised by a step whose host action is an access that is not a 32-bit access at a multiple of 4 from 0x00 to 0x2C:
  "the model gives it no meaning, and a host that makes one leaves the run outside this spec" (R19, P12). Safe. -/
  | hostAccess (width offset : Nat)
  deriving DecidableEq, Repr

/-- The faults of the block (R134). -/
inductive ErrorCode where
  /-- E_ILLEGAL: the command word is no command. -/
  | illegal
  /-- E_BUSY: a CMD write while BUSY = 1. -/
  | busy
  /-- E_STATE: a reader command while RD_OPEN = 0. -/
  | state
  /-- E_ALIGN: a byte access at an unaligned cursor. -/
  | align
  /-- E_EXH: a read when nothing remains. -/
  | exh
  /-- E_FMT: the source ends inside the header. -/
  | fmt
  /-- E_SRC_IO: the source failed. -/
  | srcIo
  /-- E_SNK_IO: the sink failed. -/
  | snkIo
  /-- E_TRIE: a conflicting code (subcode 1) or a missing child (subcode 2). -/
  | trie
  /-- E_NOCODE: a byte to encode has no code. -/
  | noCode
  /-- E_OVF: a count (subcode 1) or a merged weight (subcode 2) passes W_CNT bits. -/
  | ovf
  deriving DecidableEq, Repr, Inhabited

/-- The machine right after reset (R45, R149), with the default build parameters (R6), nothing presented, nothing
delivered and nothing for the host to do. -/
def State.reset : State where
  params := Config.Params.default
  result := 0#32
  fault := 0#32
  finfo := 0#32
  ctrl := 1#32
  snkCount := 0#32
  busy := false
  freq := constTable 0
  nodes := []
  root := none
  ct := constTable none
  trie := Trie.empty
  wrBuf := List.replicate Config.Params.default.bufBytes 0#8
  wrOff := 0
  rdOpen := false
  rdOpens := 0#32
  rdBuf := []
  rdChunk := 0
  rdOff := 0
  snk := []
  srcs := []
  snkErr := none
  host := []
  hostReads := []
  freeIdx := 0

end Sys2Proof.Machine
end

