-- ==== Sys2Proof/Machine/Ops.lean ====
section
/-! DEFINITION. The operations the commands share: updates of State by name, raising a fault and entering the fault
state (60_exceptions.md R136), reset (70_reset_and_hazards.md R149), and the stream primitives of the reader and the
writer (20_memory.md R54 to R66). -/

namespace Sys2Proof.Machine

open Sys2Proof

/-! ### Updates of State by name -/

/-- `RESULT <- v`. -/
def State.setResult (s : State) (v : Word) : State := { s with result := v }

/-- `CTRL <- v`. -/
def State.setCtrl (s : State) (v : Word) : State := { s with ctrl := v }

/-- A new FREQ table. -/
def State.setFreq (s : State) (t : Table Nat) : State := { s with freq := t }

/-- A new TREE and ROOT. -/
def State.setTree (s : State) (ns : List Node) (r : Option Nat) : State := { s with nodes := ns, root := r }

/-- A new CT. -/
def State.setCt (s : State) (t : Table CodeEntry) : State := { s with ct := t }

/-- A new TRIE. -/
def State.setTrie (s : State) (t : Trie) : State := { s with trie := t }

/-- A new writer cursor. -/
def State.setWriter (s : State) (buf : List Byte) (off : Nat) : State := { s with wrBuf := buf, wrOff := off }

/-- One more byte in SNK; SNK_COUNT counts it modulo 2^32 (R30, R65). -/
def State.pushSnk (s : State) (y : Byte) : State :=
  { s with snk := s.snk ++ [y], snkCount := s.snkCount + 1#32 }

/-- A new position of the reader in the current presentation: chunk bytes, chunk number, bit offset. -/
def State.setReader (s : State) (buf : List Byte) (chunk off : Nat) : State :=
  { s with rdBuf := buf, rdChunk := chunk, rdOff := off }

/-- The reader is open on the next presentation (R54). -/
def State.nextOpen (s : State) : State := { s with rdOpen := true, rdOpens := s.rdOpens + 1#32 }

/-- The host has read the value `v` (R19). -/
def State.pushRead (s : State) (v : Word) : State := { s with hostReads := s.hostReads ++ [v] }

/-- A free value has been used. -/
def State.bumpFree (s : State) : State := { s with freeIdx := s.freeIdx + 1 }

/-- What the host has left to do. -/
def State.setHost (s : State) (h : List HostAction) : State := { s with host := h }

/-! ### Names the spec gives to what is computed from State -/

/-- `B`, the buffer capacity in bytes (R6). -/
def State.bufBytes (s : State) : Nat := s.params.bufBytes

/-- `TN`, the node count (R33). -/
def State.tn (s : State) : Nat := s.nodes.length

/-- `RD_VALID`, the number of valid bytes in RD_BUF (R40). -/
def State.rdValid (s : State) : Nat := s.rdBuf.length

/-- FAULT.CODE (R23). -/
def State.faultCode (s : State) : BitVec 8 := s.fault.extractLsb' 0 8

/-- FAULTED: `FAULT.CODE != 0` (R21). -/
def State.faulted (s : State) : Bool := s.faultCode != 0#8

/-- CTRL.SINGLE1 (R25). -/
def State.single1 (s : State) : Bool := s.ctrl.getLsbD 0

/-- The presentation of the `i`-th open, counting from 1; one the host has not listed is empty (log entry 5). -/
def presentation (srcs : List Presentation) (i : Word) : Presentation :=
  if i = 0#32 then Presentation.none else srcs.getD (i.toNat - 1) Presentation.none

/-- `SRC_i` with `i = RD_OPENS` (R40). -/
def State.src (s : State) : Presentation := presentation s.srcs s.rdOpens

/-! ### Raising a fault -/

/-- The CODE of a fault (R134). -/
def ErrorCode.code : ErrorCode → BitVec 8
  | .illegal => 0x01#8
  | .busy => 0x02#8
  | .state => 0x03#8
  | .align => 0x04#8
  | .exh => 0x05#8
  | .fmt => 0x06#8
  | .srcIo => 0x07#8
  | .snkIo => 0x08#8
  | .trie => 0x09#8
  | .noCode => 0x0A#8
  | .ovf => 0x0B#8

/-- `FaultEntry(code, info)` (R136): FAULT and FINFO are written and BUSY falls; SNK, SNK_COUNT and the host's side stay;
every other piece of block state holds any value until reset, a free value. -/
def faultEntry (e : ErrorCode) (info : Word) (s : State) : State :=
  { s with
    fault := e.code.setWidth 32
    finfo := info
    busy := false
    result := Config.freeResult s.freeIdx
    ctrl := Config.freeCtrl s.freeIdx
    freq := Config.freeFreq s.freeIdx
    nodes := Config.freeNodes s.freeIdx
    root := Config.freeRoot s.freeIdx
    ct := Config.freeCt s.freeIdx
    trie := Config.freeTrie s.freeIdx
    wrBuf := Config.freeWrBuf s.freeIdx
    wrOff := Config.freeWrOff s.freeIdx
    rdOpen := Config.freeRdOpen s.freeIdx
    rdOpens := Config.freeRdOpens s.freeIdx
    rdBuf := Config.freeRdBuf s.freeIdx
    rdChunk := Config.freeRdChunk s.freeIdx
    rdOff := Config.freeRdOff s.freeIdx
    freeIdx := s.freeIdx + 1 }

/-- What a piece of a command ends in: a value and the state so far, or a `raise` (R12) with the state at that point. -/
inductive Res (α : Type) where
  | ok (a : α) (s : State)
  | raised (e : ErrorCode) (info : Word) (s : State)
  deriving DecidableEq, Repr

/-- Do one piece after another: "No statement after a `raise` executes" (R12). -/
def Res.bind {α β : Type} (r : Res α) (f : α → State → Res β) : Res β :=
  match r with
  | .ok a s => f a s
  | .raised e info s => .raised e info s

/-- The end of a command: with no fault its state is the next one; a `raise` enters the fault state (R78, R136). -/
def finish (r : Res Unit) : Host.Outcome State Fault Refusal :=
  match r with
  | .ok _ s => .next s
  | .raised e info s => .next (faultEntry e info s)

/-- A command that needs the reader: with RD_OPEN = 0 it raises E_STATE with its OPC and does nothing (R78). -/
def withReader (opc : BitVec 8) (body : State → Res Unit) (s : State) : Res Unit :=
  if s.rdOpen then body s else .raised .state (opc.setWidth 32) s

/-! ### Reset -/

/-- `ResetState()` (R149): every piece of block state at its reset value; the host's side and the build parameters stay.
It is the one way out of the fault state (R138). -/
def resetState (s : State) : State :=
  { s with
    fault := 0#32
    finfo := 0#32
    result := 0#32
    ctrl := 1#32
    freq := constTable 0
    nodes := []
    root := none
    ct := constTable none
    trie := Trie.empty
    wrBuf := List.replicate s.params.bufBytes 0#8
    wrOff := 0
    rdOpen := false
    rdOpens := 0#32
    rdBuf := []
    rdChunk := 0
    rdOff := 0
    snkCount := 0#32
    busy := false }

/-! ### Bits inside a byte array (R38, R49) -/

/-- The bit of its byte that holds stream bit `k`. -/
def bitPos (o : Config.BitOrder) (k : Nat) : Nat :=
  match o with
  | .msbFirst => 7 - k % 8
  | .lsbFirst => k % 8

/-- `bitAt(buf, k)`: stream bit `k` of a byte array. -/
def bitAt (o : Config.BitOrder) (buf : List Byte) (k : Nat) : Bool :=
  (buf.getD (k / 8) 0#8).getLsbD (bitPos o k)

/-- `setBit(buf, k)`: stream bit `k` becomes 1. -/
def setBit (o : Config.BitOrder) (buf : List Byte) (k : Nat) : List Byte :=
  buf.set (k / 8) (buf.getD (k / 8) 0#8 ||| (1#8 <<< bitPos o k))

/-! ### Reader primitives (R54 to R61) -/

/-- Chunk `j` of the presentation: up to `B` bytes from byte `j * B` on. -/
def chunkOf (b j : Nat) (bytes : List Byte) : List Byte := (bytes.drop (j * b)).take b

/-- The presentation fails inside the chunk `j`: at the index it gives (R55). -/
def failsIn (b j : Nat) (p : Presentation) : Option Nat :=
  match p.failAt with
  | some k => if j * b ≤ k ∧ k < j * b + b then some k else none
  | none => none

/-- The information word of a source failure at byte index `k`: `zext_32(k)` (R55). An index of 2^32 or more fits no word,
and the spec does not say what FINFO then holds: any value (log entry 15). -/
def failureInfo (k : Nat) : Word := if k < 2 ^ 32 then BitVec.ofNat 32 k else Config.freeFailureInfo k

/-- `Refill(j)` (R55). -/
def refill (j : Nat) (s : State) : Res Unit :=
  match failsIn s.bufBytes j s.src with
  | some k => .raised .srcIo (failureInfo k) s
  | none => .ok () (s.setReader (chunkOf s.bufBytes j s.src.bytes) j 0)

/-- `OpenP()` (R54). -/
def openSource (s : State) : Res Unit := refill 0 s.nextOpen

/-- `Advance(n)` (R56). -/
def advance (n : Nat) (s : State) : Res Unit :=
  if s.rdOff + n = 8 * s.bufBytes then
    refill (s.rdChunk + 1) (s.setReader s.rdBuf s.rdChunk (s.rdOff + n))
  else .ok () (s.setReader s.rdBuf s.rdChunk (s.rdOff + n))

/-- `HasNextP()` (R57). -/
def hasNext (s : State) : Bool := decide (s.rdOff < 8 * s.rdValid)

/-- `AlignedP()` (R58). -/
def rdAligned (s : State) : Bool := decide (s.rdOff % 8 = 0)

/-- The information word of a cursor offset: `zext_32(RD_OFF)` or `zext_32(WR_OFF)` (R134). -/
def offsetInfo (off : Nat) : Word := BitVec.ofNat 32 off

/-- The information word of an unaligned reader: `0x80000000 | zext_32(RD_OFF)` (R60, R134). -/
def rdAlignInfo (s : State) : Word := 0x80000000#32 ||| offsetInfo s.rdOff

/-- `ReadBitP()` (R59): the bit is taken before the refill that follows it can fault (R135). -/
def readBit (s : State) : Res Bool :=
  if hasNext s then
    (advance 1 s).bind fun _ t => .ok (bitAt s.params.bitOrder s.rdBuf s.rdOff) t
  else .raised .exh (offsetInfo s.rdOff) s

/-- `ReadByteP()` (R60): alignment is checked before exhaustion (R135). -/
def readByte (s : State) : Res Byte :=
  if rdAligned s then
    if hasNext s then
      (advance 8 s).bind fun _ t => .ok (s.rdBuf.getD (s.rdOff / 8) 0#8) t
    else .raised .exh (offsetInfo s.rdOff) s
  else .raised .align (rdAlignInfo s) s

/-- `ReadShortP()` (R61): low byte, then high byte. -/
def readShort (s : State) : Res (BitVec 16) :=
  (readByte s).bind fun lo s1 =>
    (readByte s1).bind fun hi s2 => .ok (hi ++ lo) s2

/-- At least as many reads as the open presentation can still give: the bytes of the buffer and of the source. It bounds
the loops that run to the end of the source (R162). -/
def bytesLeft (s : State) : Nat := s.rdBuf.length + s.src.bytes.length

/-- `while HasNextP(): y <- ReadByteP(); body(y)`, for at most as many bytes as the first argument says. FSCAN (R88) and
ESCAN (R125) run it with `bytesLeft`, which is enough. -/
def scanBytes (body : Byte → State → Res Unit) : Nat → State → Res Unit
  | 0, s => .ok () s
  | n + 1, s =>
    if hasNext s then
      (readByte s).bind fun y s1 => (body y s1).bind fun _ s2 => scanBytes body n s2
    else .ok () s

/-! ### Writer primitives (R62 to R66) -/

/-- `Deliver(n)` over the `n` bytes given (R65). -/
def deliver : List Byte → State → Res Unit
  | [], s => .ok () s
  | y :: ys, s =>
    if s.snkErr = some s.snkCount.toNat then .raised .snkIo s.snkCount s
    else deliver ys (s.pushSnk y)

/-- `WR_BUF <- all 0; WR_OFF <- 0` (R65, R66). -/
def clearWriter (s : State) : State := s.setWriter (List.replicate s.bufBytes 0#8) 0

/-- Deliver the first `n` bytes of WR_BUF and begin a fresh zeroed buffer (R65, R66). -/
def emitBuffer (n : Nat) (s : State) : Res Unit :=
  (deliver (s.wrBuf.take n) s).bind fun _ t => .ok () (clearWriter t)

/-- `if WR_OFF = 8 * B: BufferFull()` (R62, R63, R65). -/
def flushIfFull (s : State) : Res Unit :=
  if s.wrOff = 8 * s.bufBytes then emitBuffer s.bufBytes s else .ok () s

/-- `WriteBitP(b)` (R62): a 0 leaves the zero that is already there. -/
def writeBit (b : Bool) (s : State) : Res Unit :=
  flushIfFull
    (s.setWriter (if b then setBit s.params.bitOrder s.wrBuf s.wrOff else s.wrBuf) (s.wrOff + 1))

/-- The writer is byte-aligned (R21, R63). -/
def wrAligned (s : State) : Bool := decide (s.wrOff % 8 = 0)

/-- `WriteByteP(y)` (R63). -/
def writeByte (y : Byte) (s : State) : Res Unit :=
  if wrAligned s then flushIfFull (s.setWriter (s.wrBuf.set (s.wrOff / 8) y) (s.wrOff + 8))
  else .raised .align (offsetInfo s.wrOff) s

/-- `WriteShortP(v)` (R64): low byte first. -/
def writeShort (v : BitVec 16) (s : State) : Res Unit :=
  (writeByte (v.extractLsb' 0 8) s).bind fun _ t => writeByte (v.extractLsb' 8 8) t

/-- Append the bits of a bit string, first bit first. -/
def writeBits : Bits → State → Res Unit
  | [], s => .ok () s
  | b :: bs, s => (writeBit b s).bind fun _ t => writeBits bs t

/-- `FlushP()` (R66). -/
def flush (s : State) : Res Unit := emitBuffer ((s.wrOff + 7) / 8) s

end Sys2Proof.Machine
end

