-- ==== Sys2Proof/Machine/CodeTable.lean ====
section
/-! DEFINITION. The code-table generator (43_codetable.md): CGEN, CLEN, CBIT. -/

namespace Sys2Proof.Machine

open Sys2Proof

/-- `Walk(k, p)` (R97): the zero child first; the path at a leaf is its symbol's code. The first argument bounds the
depth; CGEN allows the number of nodes, which is enough for a tree TBUILD built. -/
def walk (ns : List Node) : Nat → Nat → Bits → Table CodeEntry → Table CodeEntry
  | 0, _, _, t => t
  | n + 1, k, p, t =>
    match ns[k]? with
    | none => t
    | some (.leaf y _) => setCell t y (some p)
    | some (.internal z o _) => walk ns n o (p ++ [true]) (walk ns n z (p ++ [false]) t)

/-- The code table of a tree (R98, R99): empty with no root; for a root that is a leaf the 1-bit code [0] or the empty
code, as CTRL.SINGLE1 says; otherwise the walk's. -/
def codesOf (single1 : Bool) (ns : List Node) (root : Option Nat) : Table CodeEntry :=
  match root with
  | none => constTable none
  | some r =>
    match ns[r]? with
    | some (.leaf y _) => setCell (constTable none) y (some (if single1 then [false] else []))
    | _ => walk ns ns.length r [] (constTable none)

/-- CGEN (R99). -/
def execCgen (s : State) : Host.Outcome State Fault Refusal :=
  finish (.ok () (s.setCt (codesOf s.single1 s.nodes s.root)))

/-- The value CLEN reads (R101): bit 8 = valid, bits 7:0 = len. -/
def lenWord (e : CodeEntry) : Word :=
  match e with
  | none => 0#32
  | some c => (1#1 ++ BitVec.ofNat 8 c.length).setWidth 32

/-- CLEN y (R101). -/
def execClen (y : Byte) (s : State) : Host.Outcome State Fault Refusal :=
  finish (.ok () (s.setResult (lenWord (cell s.ct y))))

/-- The value CBIT reads (R102): bit 1 = in range, bit 0 = the code bit; 0 out of range. -/
def bitWord (e : CodeEntry) (i : Nat) : Word :=
  match e with
  | none => 0#32
  | some code =>
    match code[i]? with
    | none => 0#32
    | some b => (1#1 ++ BitVec.ofBool b).setWidth 32

/-- CBIT s, i (R102). -/
def execCbit (y i : Byte) (s : State) : Host.Outcome State Fault Refusal :=
  finish (.ok () (s.setResult (bitWord (cell s.ct y) i.toNat)))

end Sys2Proof.Machine
end

