-- ==== Sys2Proof/Machine/Control.lean ====
section
/-! DEFINITION. Block control (40_control.md): SRESET, SETCTRL. -/

namespace Sys2Proof.Machine

open Sys2Proof

/-- SRESET (R83). -/
def execSreset (s : State) : Host.Outcome State Fault Refusal := finish (.ok () (resetState s))

/-- SETCTRL b (R84): `CTRL <- zext_32(b)`. -/
def execSetctrl (b : Bool) (s : State) : Host.Outcome State Fault Refusal :=
  finish (.ok () (s.setCtrl ((BitVec.ofBool b).setWidth 32)))

end Sys2Proof.Machine
end

