-- ==== Sys2Proof/Machine/Encode.lean ====
section
/-! DEFINITION. The encode commands (47_encode.md): ESYM, ESCAN. -/

namespace Sys2Proof.Machine

open Sys2Proof

/-- `EmitCode(y)` (R123): the check comes before any bit is written. -/
def emitCode (y : Byte) (s : State) : Res Unit :=
  match cell s.ct y with
  | none => .raised .noCode (y.setWidth 32) s
  | some c => writeBits c s

/-- ESYM y (R124). -/
def execEsym (y : Byte) (s : State) : Host.Outcome State Fault Refusal := finish (emitCode y s)

/-- ESCAN (R125). -/
def execEscan (s : State) : Host.Outcome State Fault Refusal :=
  finish (withReader 0x71#8 (fun s => scanBytes emitCode (bytesLeft s) s) s)

end Sys2Proof.Machine
end

