-- ==== Sys2Proof/Machine/Frequency.lean ====
section
/-! DEFINITION. The frequency table (41_frequency.md): FCLEAR, FADD, FSCAN, FGET. -/

namespace Sys2Proof.Machine

open Sys2Proof

/-- `Count(y)` (R85): one more, or E_OVF where the count would pass `2^W_CNT - 1`. -/
def countByte (y : Byte) (s : State) : Res Unit :=
  if 2 ^ s.params.wCnt ≤ cell s.freq y + 1 then .raised .ovf (0x01000000#32 ||| y.setWidth 32) s
  else .ok () (s.setFreq (setCell s.freq y (cell s.freq y + 1)))

/-- FCLEAR (R86). -/
def execFclear (s : State) : Host.Outcome State Fault Refusal := finish (.ok () (s.setFreq (constTable 0)))

/-- FADD y (R87). -/
def execFadd (y : Byte) (s : State) : Host.Outcome State Fault Refusal := finish (countByte y s)

/-- FSCAN (R88). -/
def execFscan (s : State) : Host.Outcome State Fault Refusal :=
  finish (withReader 0x12#8 (fun s => scanBytes countByte (bytesLeft s) s) s)

/-- FGET y (R89): the low 32 bits of the count. -/
def execFget (y : Byte) (s : State) : Host.Outcome State Fault Refusal :=
  finish (.ok () (s.setResult (BitVec.ofNat 32 (cell s.freq y))))

end Sys2Proof.Machine
end

