-- ==== Sys2Proof/Machine/Flags.lean ====
section
/-! DEFINITION. The registers of the window as a host reads them (10_state.md R18 to R31): the STATUS flags, the count
registers, and the value at each offset. -/

namespace Sys2Proof.Machine

open Sys2Proof

/-- RD_HASNEXT (R21): 1 when RD_OPEN = 1 and RD_OFF < 8 * RD_VALID. -/
def flagRdHasNext (s : State) : Bool := s.rdOpen && hasNext s

/-- RD_ALIGNED (R21): 1 when RD_OPEN = 1 and RD_OFF mod 8 = 0. -/
def flagRdAligned (s : State) : Bool := s.rdOpen && rdAligned s

/-- TREE_VALID (R21): 1 when ROOT != NONE. -/
def flagTreeValid (s : State) : Bool := s.root.isSome

/-- STATUS bits 6:2, TREE_VALID down to RD_OPEN (R21). In the fault state they are any value (R136). -/
def statusFlags (s : State) : BitVec 5 :=
  if s.faulted then Config.freeStatusBits s.freeIdx
  else
    BitVec.ofBool (flagTreeValid s) ++ BitVec.ofBool (wrAligned s) ++ BitVec.ofBool (flagRdAligned s) ++
      BitVec.ofBool (flagRdHasNext s) ++ BitVec.ofBool s.rdOpen

/-- STATUS (R21). While BUSY = 1 its bits 6:1 are any value (R153). -/
def statusWord (s : State) : Word :=
  if s.busy then 0#25 ++ (Config.freeBusyStatus s.freeIdx ++ 1#1)
  else 0#25 ++ (statusFlags s ++ (BitVec.ofBool s.faulted ++ 0#1))

/-- NFREQ (R26): the number of symbols with a non-zero count; in the fault state any value (R136). -/
def nfreqWord (s : State) : Word :=
  if s.faulted then Config.freeNfreq s.freeIdx else BitVec.ofNat 32 (s.freq.toList.countP (· != 0))

/-- The number of symbols with a code. -/
def codeCount (t : Table CodeEntry) : Nat := t.toList.countP (·.isSome)

/-- NCODE (R27): the number of symbols with a code; in the fault state any value (R136). -/
def ncodeWord (s : State) : Word :=
  if s.faulted then Config.freeNcode s.freeIdx else BitVec.ofNat 32 (codeCount s.ct)

/-- An offset register's layout: bits 15:0 hold the offset, zero-extended (R28, R29). -/
def offsetWord (off : Nat) : Word := (BitVec.ofNat 16 off).setWidth 32

/-- The WR_OFF register (R28); in the fault state any value (R136). -/
def wrOffWord (s : State) : Word := if s.faulted then Config.freeWrOffWord s.freeIdx else offsetWord s.wrOff

/-- The RD_OFF register (R29); in the fault state any value (R136). -/
def rdOffWord (s : State) : Word := if s.faulted then Config.freeRdOffWord s.freeIdx else offsetWord s.rdOff

/-- The value of the register at a word offset of the window (R18). CMD reads 0 (R19). -/
def regValue (offset : Nat) (s : State) : Word :=
  match offset with
  | 0x04 => statusWord s
  | 0x08 => s.result
  | 0x0C => s.fault
  | 0x10 => s.finfo
  | 0x14 => s.ctrl
  | 0x18 => nfreqWord s
  | 0x1C => ncodeWord s
  | 0x20 => wrOffWord s
  | 0x24 => rdOffWord s
  | 0x28 => s.snkCount
  | 0x2C => Config.idValue
  | _ => 0#32

/-- What a host read of a word offset returns: the register's value, or, while BUSY = 1, any value of every register but
STATUS (R153). -/
def readValue (offset : Nat) (s : State) : Word :=
  if s.busy && offset != 0x04 then Config.freeBusyRead offset s.freeIdx else regValue offset s

end Sys2Proof.Machine
end

