-- ==== Sys2Proof/Machine/Header.lean ====
section
/-! DEFINITION. The header codec (44_header.md): HWRITE, HREAD. -/

namespace Sys2Proof.Machine

open Sys2Proof

/-- `while WR_OFF mod 8 != 0: WriteBitP(0)` (R106), for at most as many bits as the first argument says; at most 7 are
ever needed. -/
def padWriter : Nat → State → Res Unit
  | 0, s => .ok () s
  | n + 1, s => if wrAligned s then .ok () s else (writeBit false s).bind fun _ t => padWriter n t

/-- One entry (R103, R106): symbol, length, code, padding. -/
def writeEntry (y : Byte) (c : Bits) (s : State) : Res Unit :=
  (writeByte y s).bind fun _ s1 =>
    (writeByte (BitVec.ofNat 8 c.length) s1).bind fun _ s2 =>
      (writeBits c s2).bind fun _ s3 => padWriter 8 s3

/-- The entries of the symbols of a list that have a code, in the list's order. -/
def writeEntries (t : Table CodeEntry) : List Byte → State → Res Unit
  | [], s => .ok () s
  | y :: ys, s =>
    match cell t y with
    | none => writeEntries t ys s
    | some c => (writeEntry y c s).bind fun _ s1 => writeEntries t ys s1

/-- HWRITE (R106): the count, then the entries in ascending symbol value (R105). -/
def execHwrite (s : State) : Host.Outcome State Fault Refusal :=
  finish
    ((writeShort (BitVec.ofNat 16 (codeCount s.ct)) s).bind fun _ s1 =>
      writeEntries s.ct allBytes s1)

/-- `HdrByte(info)` (R107): exhaustion is a format error here. -/
def headerByte (info : Word) (s : State) : Res Byte :=
  if hasNext s then readByte s else .raised .fmt info s

/-- `len` bits of entry `e`'s code, first bit first (R107). -/
def readCode (e : Nat) : Nat → State → Res Bits
  | 0, s => .ok [] s
  | n + 1, s =>
    if hasNext s then
      (readBit s).bind fun b s1 => (readCode e n s1).bind fun c s2 => .ok (b :: c) s2
    else .raised .fmt (BitVec.ofNat 32 e) s

/-- `while not AlignedP(): ReadBitP()` (R107): padding is skipped and its value ignored (R104). At most 7 bits are ever
needed. -/
def skipPadding : Nat → State → Res Unit
  | 0, s => .ok () s
  | n + 1, s => if rdAligned s then .ok () s else (readBit s).bind fun _ t => skipPadding n t

/-- Entry `e` of a header (R107); a later entry for a symbol replaces an earlier one. -/
def readEntry (e : Nat) (s : State) : Res Unit :=
  (headerByte (BitVec.ofNat 32 e) s).bind fun y s1 =>
    (headerByte (BitVec.ofNat 32 e) s1).bind fun len s2 =>
      (readCode e len.toNat s2).bind fun c s3 =>
        (skipPadding 8 s3).bind fun _ s4 => .ok () (s4.setCt (setCell s4.ct y (some c)))

/-- `n` entries, the first of them entry `e`. -/
def readEntries : Nat → Nat → State → Res Unit
  | _, 0, s => .ok () s
  | e, n + 1, s => (readEntry e s).bind fun _ t => readEntries (e + 1) n t

/-- The body of HREAD (R107). -/
def readHeader (s : State) : Res Unit :=
  let s0 := s.setCt (constTable none)
  if rdAligned s0 then
    (headerByte 0x80000000#32 s0).bind fun lo s1 =>
      (headerByte 0x80000000#32 s1).bind fun hi s2 => readEntries 0 (hi ++ lo).toNat s2
  else .raised .align (rdAlignInfo s0) s0

/-- HREAD (R107). -/
def execHread (s : State) : Host.Outcome State Fault Refusal := finish (withReader 0x41#8 readHeader s)

end Sys2Proof.Machine
end

