-- ==== Sys2Proof/Machine/Reader.lean ====
section
/-! DEFINITION. The bit-stream reader's commands (46_bitreader.md): ROPEN, RHASNEXT, RBIT, RBYTE, RSHORT, RALIGNED. -/

namespace Sys2Proof.Machine

open Sys2Proof

/-- ROPEN (R115). -/
def execRopen (s : State) : Host.Outcome State Fault Refusal := finish (openSource s)

/-- RHASNEXT (R116). -/
def execRhasnext (s : State) : Host.Outcome State Fault Refusal :=
  finish (withReader 0x61#8 (fun s => .ok () (s.setResult ((BitVec.ofBool (hasNext s)).setWidth 32))) s)

/-- RBIT (R117). -/
def execRbit (s : State) : Host.Outcome State Fault Refusal :=
  finish
    (withReader 0x62#8
      (fun s => (readBit s).bind fun b t => .ok () (t.setResult ((BitVec.ofBool b).setWidth 32))) s)

/-- RBYTE (R118). -/
def execRbyte (s : State) : Host.Outcome State Fault Refusal :=
  finish (withReader 0x63#8 (fun s => (readByte s).bind fun y t => .ok () (t.setResult (y.setWidth 32))) s)

/-- RSHORT (R119). -/
def execRshort (s : State) : Host.Outcome State Fault Refusal :=
  finish (withReader 0x64#8 (fun s => (readShort s).bind fun v t => .ok () (t.setResult (v.setWidth 32))) s)

/-- RALIGNED (R120). -/
def execRaligned (s : State) : Host.Outcome State Fault Refusal :=
  finish (withReader 0x65#8 (fun s => .ok () (s.setResult ((BitVec.ofBool (rdAligned s)).setWidth 32))) s)

end Sys2Proof.Machine
end

