-- ==== Sys2Proof/Machine/Tree.lean ====
section
/-! DEFINITION. The tree builder (42_tree.md): TBUILD. -/

namespace Sys2Proof.Machine

open Sys2Proof

/-- The leaves: one per symbol with a non-zero count, in ascending byte value (R90, R92). -/
def leavesOf (t : Table Nat) : List Node :=
  (allBytes.filter fun y => cell t y != 0).map fun y => .leaf y (cell t y)

/-- The weight of slot `k`. -/
def weightAt (ns : List Node) (k : Nat) : Nat := (ns.getD k default).weight

/-- `Key(j) < Key(k)` (R90): the smaller weight first, and at equal weight the smaller slot index. -/
def keyLess (ns : List Node) (j k : Nat) : Bool :=
  decide (weightAt ns j < weightAt ns k) || (weightAt ns j == weightAt ns k && decide (j < k))

/-- "the element of Q with least Key" (R92), where Q has one. -/
def leastKey (ns : List Node) : List Nat → Option Nat
  | [] => none
  | k :: q =>
    match leastKey ns q with
    | none => some k
    | some j => if keyLess ns j k then some j else some k

/-- What the merges end in: the nodes and the root, or the slot whose weight would reach `2^W_CNT`. -/
inductive MergeResult where
  | tree (nodes : List Node) (root : Option Nat)
  | overflow (slot : Nat)
  deriving DecidableEq, Repr

/-- `while |Q| >= 2: merge` and `ROOT <- the single element of Q` (R91, R92), for at most as many merges as the second
argument says. TBUILD allows as many as there are leaves, which is enough. -/
def mergeAll (w : Nat) : Nat → List Node → List Nat → MergeResult
  | 0, ns, q => .tree ns q.head?
  | n + 1, ns, q =>
    match leastKey ns q with
    | none => .tree ns none
    | some a =>
      match leastKey ns (q.erase a) with
      | none => .tree ns (some a)
      | some b =>
        if 2 ^ w ≤ weightAt ns a + weightAt ns b then .overflow ns.length
        else
          mergeAll w n (ns ++ [.internal a b (weightAt ns a + weightAt ns b)])
            ((q.erase a).erase b ++ [ns.length])

/-- The tree of a frequency table (R92): its nodes and its root. -/
def buildTree (w : Nat) (t : Table Nat) : MergeResult :=
  mergeAll w (leavesOf t).length (leavesOf t) (List.range (leavesOf t).length)

/-- TBUILD (R92). -/
def execTbuild (s : State) : Host.Outcome State Fault Refusal :=
  finish
    (match buildTree s.params.wCnt s.freq with
    | .tree ns r => .ok () (s.setTree ns r)
    | .overflow k => .raised .ovf (0x02000000#32 ||| BitVec.ofNat 32 k) s)

end Sys2Proof.Machine
end

