-- ==== Sys2Proof/Machine/TrieWalk.lean ====
section
/-! DEFINITION. The decode commands (48_decode.md): DTRIE, DSYM, DSCAN. -/

namespace Sys2Proof.Machine

open Sys2Proof

/-- Insert the codes of the symbols of a list, in its order: the trie, or the first symbol whose code conflicts with one
inserted before it (R127, R128). -/
def insertCodes (t : Table CodeEntry) : List Byte → Trie → Except Byte Trie
  | [], u => .ok u
  | y :: ys, u =>
    match cell t y with
    | none => insertCodes t ys u
    | some c =>
      match u.insert y c with
      | none => .error y
      | some u' => insertCodes t ys u'

/-- DTRIE (R128). -/
def execDtrie (s : State) : Host.Outcome State Fault Refusal :=
  finish
    (match insertCodes s.ct allBytes Trie.empty with
    | .ok u => .ok () (s.setTrie u)
    | .error y => .raised .trie (0x01000000#32 ||| y.setWidth 32) s)

/-- `Step(p)` (R129), with the kind of the node it reaches. -/
def trieStep (p : Bits) (s : State) : Res (Bits × TrieKind) :=
  (readBit s).bind fun b t =>
    match t.trie.lookup (p ++ [b]) with
    | none => .raised .trie (0x02000000#32 ||| BitVec.ofNat 32 (p ++ [b]).length) t
    | some k => .ok (p ++ [b], k) t

/-- At least as many bits as the open presentation can still give. -/
def bitsLeft (s : State) : Nat := 8 * bytesLeft s

/-- The loop of DSYM (R130), for at most as many bits as the first argument says. -/
def decodeOne : Nat → Bits → State → Res Unit
  | 0, _, s => .ok () s
  | n + 1, p, s =>
    if hasNext s then
      (trieStep p s).bind fun q t =>
        match q.2 with
        | .term y => .ok () (t.setResult (0x00000100#32 ||| y.setWidth 32))
        | .inner => decodeOne n q.1 t
    else .ok () (s.setResult (if p = [] then 0x00000000#32 else 0x00000200#32))

/-- DSYM (R130). One pass more than there are bits, to see the end. -/
def execDsym (s : State) : Host.Outcome State Fault Refusal :=
  finish (withReader 0x81#8 (fun s => decodeOne (bitsLeft s + 1) [] s) s)

/-- The loop of DSCAN (R131), for at most as many bits as the first argument says. -/
def decodeAll : Nat → Bits → State → Res Unit
  | 0, _, s => .ok () s
  | n + 1, p, s =>
    if hasNext s then
      (trieStep p s).bind fun q t =>
        match q.2 with
        | .term y => (writeByte y t).bind fun _ u => decodeAll n [] u
        | .inner => decodeAll n q.1 t
    else .ok () s

/-- DSCAN (R131). -/
def execDscan (s : State) : Host.Outcome State Fault Refusal :=
  finish (withReader 0x82#8 (fun s => decodeAll (bitsLeft s) [] s) s)

end Sys2Proof.Machine
end

