-- ==== Sys2Proof/Machine/Writer.lean ====
section
/-! DEFINITION. The bit-stream writer's commands (45_bitwriter.md): WBIT, WBYTE, WSHORT, WFLUSH. -/

namespace Sys2Proof.Machine

open Sys2Proof

/-- WBIT b (R109). -/
def execWbit (b : Bool) (s : State) : Host.Outcome State Fault Refusal := finish (writeBit b s)

/-- WBYTE y (R110). -/
def execWbyte (y : Byte) (s : State) : Host.Outcome State Fault Refusal := finish (writeByte y s)

/-- WSHORT v (R111). -/
def execWshort (v : BitVec 16) (s : State) : Host.Outcome State Fault Refusal := finish (writeShort v s)

/-- WFLUSH (R112). -/
def execWflush (s : State) : Host.Outcome State Fault Refusal := finish (flush s)

end Sys2Proof.Machine
end

