-- ==== Sys2Proof/Machine/Dispatch.lean ====
section
/-! DEFINITION. The one dispatch: each command to its meaning. -/

namespace Sys2Proof.Machine

open Sys2Proof

/-- Execute the rule of a command (R78, last steps). -/
def exec (i : Instr) (s : State) : Host.Outcome State Fault Refusal :=
  match i with
  | .sreset => Sys2Proof.Machine.execSreset s
  | .setctrl b => Sys2Proof.Machine.execSetctrl b s
  | .fclear => Sys2Proof.Machine.execFclear s
  | .fadd y => Sys2Proof.Machine.execFadd y s
  | .fscan => Sys2Proof.Machine.execFscan s
  | .fget y => Sys2Proof.Machine.execFget y s
  | .tbuild => Sys2Proof.Machine.execTbuild s
  | .cgen => Sys2Proof.Machine.execCgen s
  | .clen y => Sys2Proof.Machine.execClen y s
  | .cbit y j => Sys2Proof.Machine.execCbit y j s
  | .hwrite => Sys2Proof.Machine.execHwrite s
  | .hread => Sys2Proof.Machine.execHread s
  | .wbit b => Sys2Proof.Machine.execWbit b s
  | .wbyte y => Sys2Proof.Machine.execWbyte y s
  | .wshort v => Sys2Proof.Machine.execWshort v s
  | .wflush => Sys2Proof.Machine.execWflush s
  | .ropen => Sys2Proof.Machine.execRopen s
  | .rhasnext => Sys2Proof.Machine.execRhasnext s
  | .rbit => Sys2Proof.Machine.execRbit s
  | .rbyte => Sys2Proof.Machine.execRbyte s
  | .rshort => Sys2Proof.Machine.execRshort s
  | .raligned => Sys2Proof.Machine.execRaligned s
  | .esym y => Sys2Proof.Machine.execEsym y s
  | .escan => Sys2Proof.Machine.execEscan s
  | .dtrie => Sys2Proof.Machine.execDtrie s
  | .dsym => Sys2Proof.Machine.execDsym s
  | .dscan => Sys2Proof.Machine.execDscan s

end Sys2Proof.Machine
end

