-- ==== Sys2Proof/Machine/Issue.lean ====
section
/-! DEFINITION. What one host action does to the machine: issuing a command word (30_encoding.md R78), reading and
writing the register window (10_state.md R19), and the reset input (70_reset_and_hazards.md R150). -/

namespace Sys2Proof.Machine

open Sys2Proof

/-- The word of SRESET, the one word the fault state accepts (R78, R138). -/
def sresetWord : Word := 0x01000000#32

/-- `Issue(w)` (R78), in the order of R135: E_BUSY, the fault-state filter, E_ILLEGAL, then the command (which checks
E_STATE first). BUSY rises and falls inside the one step (R42). -/
def issue (w : Word) (s : State) : Host.Outcome State Fault Refusal :=
  if s.busy then .next (faultEntry .busy w s)
  else if s.faulted then
    if w = sresetWord then exec .sreset s else .next s
  else
    match decode w with
    | .error _ => .next (faultEntry .illegal w s)
    | .ok i => exec i s

/-- A host access the spec gives a meaning: 32 bits at a multiple of 4 from 0x00 to 0x2C (R19). -/
def accessOk (width offset : Nat) : Bool :=
  decide (width = 32) && decide (offset % 4 = 0) && decide (offset ≤ 0x2C)

/-- A host read (R19): it has no side effect on the block. While BUSY = 1, and in the fault state for the registers the
spec computes from other state, what it returns holds a free value, so the model's counter moves on. -/
def hostRead (width offset : Nat) (s : State) : Host.Outcome State Fault Refusal :=
  if accessOk width offset then
    let t := s.pushRead (readValue offset s)
    .next (if s.busy || s.faulted then t.bumpFree else t)
  else .refused (.hostAccess width offset)

/-- A host write (R19): to CMD it issues the word; to any other register of the window, all of them read-only, it is
ignored. -/
def hostWrite (width offset : Nat) (v : Word) (s : State) : Host.Outcome State Fault Refusal :=
  if accessOk width offset then
    if offset = 0 then issue v s else .next s
  else .refused (.hostAccess width offset)

/-- One host action. The reset input acts in every state (R150). -/
def hostAct (a : HostAction) (s : State) : Host.Outcome State Fault Refusal :=
  match a with
  | .read width offset => hostRead width offset s
  | .write width offset v => hostWrite width offset v s
  | .resetInput => .next (resetState s)

end Sys2Proof.Machine
end

