-- ==== Sys2Proof/Machine/Step.lean ====
section
/-! DEFINITION. One step of the machine: the host's next action, or idling where the host has nothing left to do. -/

namespace Sys2Proof.Machine

open Sys2Proof

/-- One step. The block fetches nothing: commands come one at a time from the host (R17, R72). With no host action the
block is idle and holds its state (R148, R161). -/
def step (s : State) : Host.Outcome State Fault Refusal :=
  match s.host with
  | [] => .next s
  | a :: rest => hostAct a (s.setHost rest)

/-- `s` with the host's next action being the CMD write of the word `w` (R20, R78). -/
def State.withFetchWord (s : State) (nbits w : Nat) : State :=
  s.setHost (.write 32 0 (BitVec.ofNat 32 (w % 2 ^ nbits)) :: s.host)

end Sys2Proof.Machine
end

