-- ==== Sys2Proof/Safety.lean ====
section
/-! DEFINITION. The terms claims about the machine are stated in: the invariants of the stores and cursors
(10_state.md R34 to R41), the bit streams the two ports carry (20_memory.md R49, R50, R68, R69), the header format
(44_header.md R103), and when a run has succeeded and what its
result is (70_reset_and_hazards.md R161). -/

namespace Sys2Proof.Machine

open Sys2Proof

/-! ### Streams as bit strings -/

/-- The eight stream bits of a byte, first bit first (R49). -/
def byteBits (o : Config.BitOrder) (y : Byte) : Bits := (List.range 8).map fun k => y.getLsbD (bitPos o k)

/-- The stream bits of a byte sequence. -/
def bytesBits (o : Config.BitOrder) (ys : List Byte) : Bits := ys.flatMap (byteBits o)

/-- The bits in the writer's buffer that are not yet delivered (R39). -/
def pendingBits (s : State) : Bits := (bytesBits s.params.bitOrder s.wrBuf).take s.wrOff

/-- All the bits that have gone out: those in SNK and those still in the writer's buffer. -/
def sentBits (s : State) : Bits := bytesBits s.params.bitOrder s.snk ++ pendingBits s

/-- "The total number of source bits consumed since the current open" (R41). -/
def consumed (s : State) : Nat := 8 * s.bufBytes * s.rdChunk + s.rdOff

/-- The bits of the open presentation that are not yet read. -/
def unreadBits (s : State) : Bits := (bytesBits s.params.bitOrder s.src.bytes).drop (consumed s)

/-- The bytes of the open presentation that are not yet read, at an aligned position. -/
def unreadBytes (s : State) : List Byte := s.src.bytes.drop (consumed s / 8)

/-- `P = (8 - L mod 8) mod 8`, the padding of `L` bits to whole bytes (R103). -/
def padLen (len : Nat) : Nat := (8 - len % 8) % 8

/-- One header entry (R103): symbol, length, code, zero padding. -/
def entryBits (o : Config.BitOrder) (y : Byte) (c : Bits) : Bits :=
  byteBits o y ++ byteBits o (BitVec.ofNat 8 c.length) ++ c ++ List.replicate (padLen c.length) false

/-- The entries of the symbols of a list that have a code. -/
def entriesBits (o : Config.BitOrder) (t : Table CodeEntry) (ys : List Byte) : Bits :=
  ys.flatMap fun y => match cell t y with
    | none => []
    | some c => entryBits o y c

/-- The two count bytes, low byte first. -/
def countBits (o : Config.BitOrder) (n : Nat) : Bits :=
  byteBits o ((BitVec.ofNat 16 n).extractLsb' 0 8) ++ byteBits o ((BitVec.ofNat 16 n).extractLsb' 8 8)

/-- The header of a code table (R103, R105): the 16-bit count, low byte first, and the entries in ascending symbol
value. -/
def headerBits (o : Config.BitOrder) (t : Table CodeEntry) : Bits :=
  countBits o (codeCount t) ++ entriesBits o t allBytes

/-- One entry as a header on input may hold it (R103, R104): a symbol, its code, and padding bits of any value. -/
structure HeaderEntry where
  sym : Byte
  code : Bits
  padding : Bits
  deriving DecidableEq, Repr

/-- The entry has a length the 1-byte field can hold and the padding the format asks for. -/
def HeaderEntry.ok (e : HeaderEntry) : Prop :=
  e.code.length ≤ Config.maxLen ∧ e.padding.length = padLen e.code.length

/-- The entry's bits. -/
def HeaderEntry.bits (o : Config.BitOrder) (e : HeaderEntry) : Bits :=
  byteBits o e.sym ++ byteBits o (BitVec.ofNat 8 e.code.length) ++ e.code ++ e.padding

/-- The code table a list of entries gives: a later entry for a symbol replaces an earlier one (R107). -/
def parsedTable (es : List HeaderEntry) : Table CodeEntry :=
  es.foldl (fun t e => setCell t e.sym (some e.code)) (constTable none)

/-- The codes of a byte sequence one after another (R126); a byte without a code gives none. -/
def payloadBits (t : Table CodeEntry) (ys : List Byte) : Bits := ys.flatMap fun y => (cell t y).getD []

/-! ### Invariants -/

/-- The writer cursor (R38, R39): a buffer of `BUF_BYTES` bytes, an offset inside it, and zeros from the offset on. -/
def WriterOk (s : State) : Prop :=
  s.wrBuf.length = s.bufBytes ∧ s.wrOff < 8 * s.bufBytes ∧
    ∀ k, s.wrOff ≤ k → bitAt s.params.bitOrder s.wrBuf k = false

/-- The open reader's cursor (R40, R41): the buffer is the chunk it is said to hold, and the offset lies inside it. -/
def ReaderOk (s : State) : Prop :=
  s.rdBuf = chunkOf s.bufBytes s.rdChunk s.src.bytes ∧ s.rdChunk * s.bufBytes ≤ s.src.bytes.length ∧
    s.rdOff ≤ 8 * s.rdValid ∧ s.rdOff < 8 * s.bufBytes

/-- No failure index lies in a chunk that the open reader has yet to request before fewer than `left` bits of its source stay
unread (R55, R56): chunk `j` is requested when `8 * B * j` bits have been consumed. -/
def SoundUntil (left : Nat) (s : State) : Prop :=
  ∀ j, s.rdChunk < j → 8 * s.bufBytes * j + left ≤ 8 * s.src.bytes.length → failsIn s.bufBytes j s.src = none

/-- No failure index lies in a chunk the open reader has yet to request on the way to the end of its source (R55, R56): every
chunk after the one in the buffer that begins inside the source or at its end. -/
def SourceSound (s : State) : Prop := SoundUntil 0 s

/-- A reader that can go on to the end of its source: a consistent cursor and no source failure ahead. -/
structure Ready (s : State) : Prop where
  ok : ReaderOk s
  sound : SourceSound s

/-- The failure index that the read of `n` bits meets at the buffer's end: that of the chunk it has to load (R55, R56). -/
def boundaryFailure (n : Nat) (s : State) : Option Nat :=
  if s.rdOff + n = 8 * s.bufBytes then failsIn s.bufBytes (s.rdChunk + 1) s.src else none

/-- Every count fits `W_CNT` bits (R32). -/
def CountsOk (s : State) : Prop := ∀ y, cell s.freq y < 2 ^ s.params.wCnt

/-- Every code has at most 255 bits (R35). -/
def CodesOk (t : Table CodeEntry) : Prop := ∀ y c, cell t y = some c → c.length ≤ Config.maxLen

/-- A node is a leaf. -/
def Node.isLeaf : Node → Bool
  | .leaf _ _ => true
  | .internal _ _ _ => false

/-- Slot `c` is a child of the node. -/
def Node.hasChild (nd : Node) (c : Nat) : Prop :=
  match nd with
  | .leaf _ _ => False
  | .internal z o _ => c = z ∨ c = o

/-- A tree of `n` leaves as TBUILD leaves it (R34, R90). -/
structure TreeOf (n : Nat) (ns : List Node) (root : Option Nat) : Prop where
  /-- `2n - 1` slots, none for no leaf. -/
  size : ns.length = 2 * n - 1
  /-- The last slot is the root. -/
  top : root = (if n = 0 then none else some (2 * n - 2))
  /-- The leaves take slots 0 to `n` - 1, the internal nodes the slots above. -/
  leaf : ∀ k nd, ns[k]? = some nd → nd.isLeaf = decide (k < n)
  /-- The leaves stand in ascending byte value. -/
  ascending : ∀ (j k : Nat) (x y : Byte) (v w : Nat), j < k → ns[j]? = some (Node.leaf x v) → ns[k]? = some (Node.leaf y w) → x.toNat < y.toNat
  /-- An internal node has two children in lower slots, and its weight is the sum of theirs. -/
  inner : ∀ k z o w, ns[k]? = some (Node.internal z o w) →
    z < k ∧ o < k ∧ z ≠ o ∧ w = weightAt ns z + weightAt ns o
  /-- Every slot but the root is a child. -/
  child : ∀ k, k + 1 < ns.length → ∃ (j : Nat) (nd : Node), ns[j]? = some nd ∧ nd.hasChild k
  /-- No slot is the child of two nodes. -/
  parent : ∀ (i j k : Nat) (ni nj : Node), ns[i]? = some ni → ns[j]? = some nj → ni.hasChild k → nj.hasChild k → i = j

/-- Each merge took the two nodes of least key, the least first (R90, R91): of an internal node's children the zero child
has the smaller key, and every other slot that was there and was no child yet has a larger key than both. -/
def LeastFirst (ns : List Node) : Prop :=
  ∀ k z o w, ns[k]? = some (Node.internal z o w) →
    keyLess ns z o = true ∧
      ∀ j, j < k → j ≠ z → j ≠ o →
        (∀ (m : Nat) (nd : Node), m < k → ns[m]? = some nd → ¬ nd.hasChild j) → keyLess ns o j = true

/-- The sum of all counts. -/
def totalCount (t : Table Nat) : Nat := (allBytes.map (cell t)).sum

/-- The symbols with a non-zero count. -/
def countedSymbols (t : Table Nat) : List Byte := allBytes.filter fun y => cell t y != 0

/-- The slot reached from slot `k` along a path: 0 to the zero child, 1 to the one child (R97). -/
def slotAt (ns : List Node) : Nat → Bits → Option Nat
  | k, [] => some k
  | k, b :: p =>
    match ns[k]? with
    | some (.internal z o _) => slotAt ns (if b then o else z) p
    | _ => none

/-- The path `p` from slot `k` ends at a leaf of symbol `y`. -/
def leafAt (ns : List Node) (k : Nat) (p : Bits) (y : Byte) : Prop :=
  ∃ j w, slotAt ns k p = some j ∧ ns[j]? = some (Node.leaf y w)

/-- No code of one symbol begins the code of another (R36). -/
def PrefixFree (t : Table CodeEntry) : Prop :=
  ∀ y z c d, y ≠ z → cell t y = some c → cell t z = some d → ¬ c <+: d

/-- The codes of two symbols conflict: one begins the other (R127). -/
def Conflict (t : Table CodeEntry) (x y : Byte) : Prop :=
  ∃ c d, cell t x = some c ∧ cell t y = some d ∧ (c <+: d ∨ d <+: c)

/-- A trie whose TERM nodes have no child and stand at paths of at most `n` bits, and whose INNER nodes stand at shorter ones
(R37, R127). -/
def Trie.okBelow : Nat → Trie → Prop
  | _, .absent => True
  | _, .node (.term _) z o => z = .absent ∧ o = .absent
  | 0, .node .inner _ _ => False
  | n + 1, .node .inner z o => z.okBelow n ∧ o.okBelow n

/-- The decoding trie (R37): the root is present, TERM nodes have no child, no path is longer than 255 bits. -/
def TrieOk (s : State) : Prop := s.trie ≠ .absent ∧ s.trie.okBelow Config.maxLen

/-- The trie a code table stands for (R128): exactly the codes lead to TERM nodes, each to its own symbol's. -/
def TrieHolds (u : Trie) (t : Table CodeEntry) : Prop :=
  ∀ p y, u.lookup p = some (.term y) ↔ cell t y = some p

/-- The tree store holds no tree or a tree of at most 256 leaves, every weight of `W_CNT` bits (R33, R34). -/
def TreeOk (s : State) : Prop :=
  ∃ n, n ≤ 256 ∧ TreeOf n s.nodes s.root ∧ ∀ nd ∈ s.nodes, nd.weight < 2 ^ s.params.wCnt

/-- What the model keeps in every state between steps, the fault state included: the build is legal, BUSY is 0, FAULT holds a
code the table lists, and with no fault FINFO is 0 and CTRL's reserved bits read 0 (R6, R23, R24, R25, R42, R134). In the
fault state CTRL is any value (R136). -/
def ControlOk (s : State) : Prop :=
  s.params.legal = true ∧ s.busy = false ∧ s.fault.toNat ≤ 0x0B ∧
    (s.fault = 0#32 → s.finfo = 0#32 ∧ (s.ctrl = 0#32 ∨ s.ctrl = 1#32))

/-- Outside the fault state the two cursors keep their invariants (R38 to R41); a reader that is not open holds no byte
(R149). -/
def CursorsOk (s : State) : Prop :=
  s.params.legal = true ∧ s.busy = false ∧
    (s.faulted = false → WriterOk s ∧ (s.rdOpen = true → ReaderOk s) ∧
      (s.rdOpen = false → s.rdBuf = [] ∧ s.rdChunk = 0 ∧ s.rdOff = 0))

/-- Outside the fault state the four stores keep theirs (R32 to R37), and the trie fits its `TRIE_NODES` slots (R6, R37). -/
def StoresOk (s : State) : Prop :=
  s.params.legal = true ∧ s.busy = false ∧
    (s.faulted = false → CountsOk s ∧ TreeOk s ∧ CodesOk s.ct ∧ TrieOk s ∧ s.trie.size ≤ Config.trieNodes)

/-! ### What a command leaves alone -/

/-- Nothing differs but the writer's cursor and what it has delivered. -/
def onlyWriter (s t : State) : Prop :=
  t = { s with wrBuf := t.wrBuf, wrOff := t.wrOff, snk := t.snk, snkCount := t.snkCount }

/-- Nothing differs but the reader's position. -/
def onlyReader (s t : State) : Prop := t = s.setReader t.rdBuf t.rdChunk t.rdOff

/-- Nothing differs but the reader's position and CT. -/
def readerAndCt (s t : State) : Prop := t = (s.setReader t.rdBuf t.rdChunk t.rdOff).setCt t.ct

/-- The state after the bytes `ys` have been delivered to SNK (R65). -/
def delivered (ys : List Byte) (s : State) : State :=
  { s with snk := s.snk ++ ys, snkCount := s.snkCount + BitVec.ofNat 32 ys.length }

/-- The sink takes the next `n` bytes (R6 SNK_ERR, R65). -/
def sinkTakes (n : Nat) (s : State) : Prop :=
  ∀ j, j < n → s.snkErr ≠ some (s.snkCount + BitVec.ofNat 32 j).toNat

/-- The bytes that go out when `n` more bits are appended: the buffers that fill (R62, R65). -/
def outBytes (n : Nat) (s : State) : Nat := (s.wrOff + n) / (8 * s.bufBytes) * s.bufBytes

/-- From `s` the writer has appended the bits `bs` (R39, R62, R65): the stream is longer by them, the buffers that filled
have gone out, and nothing but the writer has moved. -/
structure Appended (bs : Bits) (s t : State) : Prop where
  frame : onlyWriter s t
  ok : WriterOk t
  stream : sentBits t = sentBits s ++ bs
  sent : t.snk.length = s.snk.length + outBytes bs.length s
  offset : t.wrOff = (s.wrOff + bs.length) % (8 * s.bufBytes)
  count : t.snkCount = s.snkCount + BitVec.ofNat 32 (outBytes bs.length s)

/-- Which parts of the block's state a command may write (R32, R35, R37, R38, R40, R155). -/
structure Footprint where
  result : Bool := false
  ctrl : Bool := false
  freq : Bool := false
  tree : Bool := false
  ct : Bool := false
  trie : Bool := false
  writer : Bool := false
  /-- RD_BUF, RD_VALID, RD_CHUNK, RD_OFF. -/
  position : Bool := false
  /-- RD_OPEN, RD_OPENS. -/
  opening : Bool := false
  deriving DecidableEq, Repr

/-- The footprint of each command but SRESET, which writes every piece of block state (R83). -/
def footprint : Mnemonic → Footprint
  | .SRESET => {}
  | .SETCTRL => { ctrl := true }
  | .FCLEAR | .FADD => { freq := true }
  | .FSCAN => { freq := true, position := true }
  | .FGET | .CLEN | .CBIT | .RHASNEXT | .RALIGNED => { result := true }
  | .TBUILD => { tree := true }
  | .CGEN => { ct := true }
  | .HWRITE | .WBIT | .WBYTE | .WSHORT | .WFLUSH | .ESYM => { writer := true }
  | .HREAD => { ct := true, position := true }
  | .ROPEN => { position := true, opening := true }
  | .RBIT | .RBYTE | .RSHORT | .DSYM => { result := true, position := true }
  | .ESCAN | .DSCAN => { writer := true, position := true }
  | .DTRIE => { trie := true }

/-- `t` differs from `s` inside the footprint only: everything else the block holds is the same, and so are the build
parameters, the presentations, the failure indexes, what the host has left to do and what it has read. SNK and
SNK_COUNT belong to the writer's part. -/
structure Frame (fp : Footprint) (s t : State) : Prop where
  params : t.params = s.params
  srcs : t.srcs = s.srcs
  snkErr : t.snkErr = s.snkErr
  host : t.host = s.host
  hostReads : t.hostReads = s.hostReads
  freeIdx : t.freeIdx = s.freeIdx
  fault : t.fault = s.fault
  finfo : t.finfo = s.finfo
  busy : t.busy = s.busy
  result : fp.result = false → t.result = s.result
  ctrl : fp.ctrl = false → t.ctrl = s.ctrl
  freq : fp.freq = false → t.freq = s.freq
  tree : fp.tree = false → t.nodes = s.nodes ∧ t.root = s.root
  ct : fp.ct = false → t.ct = s.ct
  trie : fp.trie = false → t.trie = s.trie
  writer : fp.writer = false → t.wrBuf = s.wrBuf ∧ t.wrOff = s.wrOff ∧ t.snk = s.snk ∧ t.snkCount = s.snkCount
  position : fp.position = false → t.rdBuf = s.rdBuf ∧ t.rdChunk = s.rdChunk ∧ t.rdOff = s.rdOff
  opening : fp.opening = false → t.rdOpen = s.rdOpen ∧ t.rdOpens = s.rdOpens

/-- The faults each command can raise (R134, column "raised by"), E_ILLEGAL and E_BUSY apart, which issuing raises. -/
def raisedBy : Mnemonic → List ErrorCode
  | .SRESET | .SETCTRL | .FCLEAR | .FGET | .CGEN | .CLEN | .CBIT => []
  | .FADD | .TBUILD => [.ovf]
  | .FSCAN => [.state, .align, .srcIo, .ovf]
  | .HWRITE | .WBYTE | .WSHORT => [.align, .snkIo]
  | .HREAD => [.state, .align, .fmt, .srcIo]
  | .WBIT | .WFLUSH => [.snkIo]
  | .ROPEN => [.srcIo]
  | .RHASNEXT | .RALIGNED => [.state]
  | .RBIT => [.state, .exh, .srcIo]
  | .RBYTE | .RSHORT => [.state, .align, .exh, .srcIo]
  | .ESYM => [.snkIo, .noCode]
  | .ESCAN => [.state, .align, .srcIo, .snkIo, .noCode]
  | .DTRIE => [.trie]
  | .DSYM => [.state, .srcIo, .trie]
  | .DSCAN => [.state, .align, .srcIo, .snkIo, .trie]

/-- The commands whose E_ALIGN is the reader's (R134). -/
def alignsReader (m : Mnemonic) : Bool := decide (m ∈ [.RBYTE, .RSHORT, .FSCAN, .HREAD, .ESCAN])

/-- The presentation a command reads: ROPEN the one it opens, every other command the open one (R54, R55). -/
def readsFrom (m : Mnemonic) (s : State) : Presentation :=
  if m = .ROPEN then presentation s.srcs (s.rdOpens + 1#32) else s.src

/-- What FINFO tells of a fault the command raises (R134): `s` is the state the command starts in, `u` the state at the
raise. -/
def FaultInfo (m : Mnemonic) (e : ErrorCode) (info : Word) (s u : State) : Prop :=
  match e with
  | .illegal | .busy => False
  | .state => s.rdOpen = false ∧ info = m.opc.setWidth 32
  | .align =>
    if alignsReader m then s.rdOff % 8 ≠ 0 ∧ info = 0x80000000#32 ||| BitVec.ofNat 32 s.rdOff
    else s.wrOff % 8 ≠ 0 ∧ info = BitVec.ofNat 32 s.wrOff
  | .exh => info = BitVec.ofNat 32 s.rdOff ∨
      (m = .RSHORT ∧ info = BitVec.ofNat 32 (if s.rdOff + 8 = 8 * s.bufBytes then 0 else s.rdOff + 8))
  | .fmt => info = 0x80000000#32 ∨ info.toNat ≤ 65534
  | .srcIo => ∃ k, (readsFrom m s).failAt = some k ∧ info = failureInfo k
  | .snkIo => s.snkErr = some info.toNat ∧ info = u.snkCount
  | .trie =>
    if m = .DTRIE then ∃ y : Byte, info = 0x01000000#32 ||| y.setWidth 32
    else ∃ d : Nat, 1 ≤ d ∧ (TrieOk s → d ≤ 255) ∧ info = 0x02000000#32 ||| BitVec.ofNat 32 d
  | .noCode => ∃ y : Byte, info = y.setWidth 32 ∧ cell s.ct y = none
  | .ovf =>
    if m = .TBUILD then ∃ k : Nat, k < 511 ∧ info = 0x02000000#32 ||| BitVec.ofNat 32 k
    else ∃ y : Byte, info = 0x01000000#32 ||| y.setWidth 32

/-- SNK has grown by some bytes, perhaps none, and SNK_COUNT has counted them (R30, R43, R68). -/
def Grows (s t : State) : Prop := ∃ ys, t.snk = s.snk ++ ys ∧ t.snkCount = s.snkCount + BitVec.ofNat 32 ys.length

/-! ### Runs -/

/-- The host writes one word after another to CMD (R78, R81). -/
def issueAll : List Word → State → Host.Outcome State Fault Refusal
  | [], s => .next s
  | w :: ws, s =>
    match issue w s with
    | .next t => issueAll ws t
    | .fault r => .fault r
    | .refused r => .refused r

/-- The host issues one command after another. -/
def runCommands (is : List Instr) (s : State) : Host.Outcome State Fault Refusal := issueAll (is.map encode) s

/-! ### The end of an operation (R161) -/

/-- The words the host writes to CMD in a list of actions, in order (R20). -/
def commandWords (acts : List HostAction) : List Word :=
  acts.filterMap fun a => match a with
    | .write width offset w => if width = 32 ∧ offset = 0 then some w else none
    | .read _ _ | .resetInput => none

/-- The action begins a fresh operation: the SRESET word, or the reset input (R150, R152). -/
def isReset (a : HostAction) : Bool := a == .resetInput || a == .write 32 0 sresetWord

/-- The actions of the last operation in a list of actions: those after its last reset, or all where there is none. -/
def lastOperation (acts : List HostAction) : List HostAction :=
  acts.foldl (fun op a => if isReset a then [] else op ++ [a]) []

/-- What the host still has to do in the present operation: its actions up to the next reset, which begins another. -/
def restOfOperation (acts : List HostAction) : List HostAction := acts.takeWhile fun a => !isReset a

/-- "An operation has ended when the host has issued its last command and BUSY = 0" (R161): the host may still read, and
another operation may follow. -/
def operationEnded (t : State) : Bool := (commandWords (restOfOperation t.host)).isEmpty && !t.busy

/-- "It succeeded when STATUS.FAULTED = 0 and its final command was WFLUSH" (R161): `acts` is what the host has done up to
`t`. -/
def operationSucceeded (acts : List HostAction) (t : State) : Bool :=
  operationEnded t && !t.faulted && (commandWords (lastOperation acts)).getLast? == some (encode .wflush)

/-- The bytes delivered since the SRESET that began the operation, SNK_COUNT of them (R161): its output where it succeeded;
after a fault, what was delivered before the fault. -/
def outputBytes (s : State) : List Byte := s.snk.drop (s.snk.length - s.snkCount.toNat)

/-- The result of an operation (R161): its output where it has ended and succeeded; else it has none. -/
def operationResult (acts : List HostAction) (t : State) : Option (List Byte) :=
  if operationSucceeded acts t then some (outputBytes t) else none

end Sys2Proof.Machine
end

