-- ==== Sys2Proof/Certificates/Slice0/Obligations.lean ====
section
/-! DEFINITION. The statements about the machine that the provers are asked to settle. Each docstring names the rule of
spec/ it formalises. A fault is stated through `faultEntry`; FaultEntryDefines says what that operation leaves defined. -/

section Statements

open Sys2Proof Sys2Proof.Machine

/-! ### Encoding -/

/-- A word decodes to a command just where the command's encoding is the word, for every operand at every value
(R73 to R77): no bit of a word is dropped and no two words mean one command. -/
def Obligations.DecodeInvertsEncode : Prop :=
  ∀ (w : Word) (i : Instr), decode w = .ok i ↔ encode i = w

/-- "Decoding is total: every 32-bit word either selects exactly one row or raises E_ILLEGAL" (R77). The row's operands are
those R75 takes from the word. -/
def Obligations.EveryWordSelectsOneRowOrFaults : Prop :=
  ∀ (w : Word) (s : State), s.busy = false → s.faulted = false →
    ((∃! m : Mnemonic, m.opc = opcField w ∧ w &&& m.format.mask = m.matchWord) ∧
      ∃ i, decode w = .ok i ∧ i.mnemonic.opc = opcField w ∧ w &&& i.mnemonic.format.mask = i.mnemonic.matchWord ∧
        i.operands = i.mnemonic.format.operands w ∧ issue w s = exec i s) ∨
    ((∀ m : Mnemonic, ¬ (m.opc = opcField w ∧ w &&& m.format.mask = m.matchWord)) ∧
      issue w s = .next (faultEntry .illegal w s))

/-- The illegal words are those with an unassigned OPC, with RSV not 0 or with a must-be-zero IMM bit set, and each enters
the fault state with the whole word as FINFO (R79, R74). -/
def Obligations.IllegalEncodings : Prop :=
  ∀ (w : Word) (s : State), s.busy = false → s.faulted = false →
    (((opcField w).toNat ∈ [0x00] ++ List.range' 0x03 13 ++ List.range' 0x14 12 ++ List.range' 0x21 15 ++
          List.range' 0x33 13 ++ List.range' 0x42 14 ++ List.range' 0x54 12 ++ List.range' 0x66 10 ++
          List.range' 0x72 14 ++ List.range' 0x83 125 ∨
        rsvField w ≠ 0#8 ∨
        ∃ m : Mnemonic, m.opc = opcField w ∧
          ((m.format = .n ∧ w.extractLsb' 0 16 ≠ 0#16) ∨ (m.format = .b ∧ w.extractLsb' 1 15 ≠ 0#15) ∨
            (m.format = .y ∧ w.extractLsb' 8 8 ≠ 0#8))) ↔
      ∃ e, decode w = .error e) ∧
    ((∃ e, decode w = .error e) →
      ∃ t, issue w s = .next t ∧ t.fault = 0x00000001#32 ∧ t.finfo = w ∧ t.busy = false ∧ t.snk = s.snk ∧
        t.snkCount = s.snkCount)

/-- The assembler's encoder (R80): a line in range becomes the word of its command, and that word decodes back to the line;
a line with an operand out of range, or with the wrong number of operands, has no word; every command is some line. -/
def Obligations.AssemblerEncodesLines : Prop :=
  (∀ l : Line, l.wellFormed = true →
    ∃ i, assemble l = some (encode i) ∧ decode (encode i) = .ok i ∧ i.mnemonic = l.mnemonic ∧
      i.operands = l.operands) ∧
  (∀ l : Line, l.wellFormed = false → assemble l = none) ∧
  ∀ i : Instr, (Line.mk i.mnemonic i.operands).wellFormed = true ∧
    assemble ⟨i.mnemonic, i.operands⟩ = some (encode i)

/-- The words the spec writes out (R80 to R84 and the family files) decode to the commands they stand for. -/
def Obligations.WrittenWordsDecode : Prop :=
  decode 0x01000000#32 = .ok .sreset ∧ decode 0x02000001#32 = .ok (.setctrl true) ∧
  decode 0x11000041#32 = .ok (.fadd 0x41#8) ∧ decode 0x20000000#32 = .ok .tbuild ∧
  decode 0x32004103#32 = .ok (.cbit 0x41#8 3#8) ∧ decode 0x40000000#32 = .ok .hwrite ∧
  decode 0x51000041#32 = .ok (.wbyte 0x41#8) ∧ decode 0x52000100#32 = .ok (.wshort 256#16) ∧
  decode 0x60000000#32 = .ok .ropen ∧ decode 0x70000043#32 = .ok (.esym 0x43#8) ∧
  decode 0x81000000#32 = .ok .dsym

/-! ### Issue, the register window, one step -/

/-- The CMD write of a word that decodes to a command runs that command, on the state with the host moved on (R78). -/
def Obligations.StepRunsDecodedCommand : Prop :=
  ∀ (s : State) (rest : List HostAction) (w : Word) (i : Instr),
    s.host = .write 32 0x00 w :: rest → s.busy = false → s.faulted = false → decode w = .ok i →
      step s = exec i { s with host := rest }

/-- Faults are sticky (R138). In the fault state every CMD write is dropped, no state changing, but for the exact word
0x01000000, which runs SRESET; FAULT and FINFO hold whatever the host does, until that word or the reset input clears
them. -/
def Obligations.FaultsAreSticky : Prop :=
  (∀ (s : State) (rest : List HostAction) (w : Word),
    s.host = .write 32 0x00 w :: rest → s.busy = false → s.faulted = true →
      (w ≠ 0x01000000#32 → step s = .next { s with host := rest }) ∧
      (w = 0x01000000#32 → step s = exec .sreset { s with host := rest })) ∧
  ∀ (s t : State) (a : HostAction) (rest : List HostAction),
    s.host = a :: rest → s.busy = false → s.faulted = true → step s = .next t →
      ((a = .resetInput ∨ a = .write 32 0x00 0x01000000#32) → t.fault = 0#32 ∧ t.finfo = 0#32) ∧
      ((a ≠ .resetInput ∧ a ≠ .write 32 0x00 0x01000000#32) → t.fault = s.fault ∧ t.finfo = s.finfo)

/-- A CMD write while BUSY = 1 is not executed: the block enters the fault state with E_BUSY and the word (R153). A read of
STATUS while BUSY = 1 shows BUSY = 1 and zeros above bit 6 (R153). -/
def Obligations.BusyHazard : Prop :=
  (∀ (s : State) (rest : List HostAction) (w : Word), s.host = .write 32 0x00 w :: rest → s.busy = true →
    ∃ t, step s = .next t ∧ t.fault = 0x00000002#32 ∧ t.finfo = w ∧ t.busy = false ∧ t.snk = s.snk ∧
      t.snkCount = s.snkCount ∧ t.host = rest) ∧
  ∀ (s : State) (rest : List HostAction), s.host = .read 32 0x04 :: rest → s.busy = true →
    ∃ v t, step s = .next t ∧ t.hostReads = s.hostReads ++ [v] ∧ v.getLsbD 0 = true ∧
      (∀ k, 7 ≤ k → v.getLsbD k = false) ∧ t.busy = true

/-- The reset input runs ResetState in every state, a busy or a faulted one included (R149, R150). -/
def Obligations.ResetInputResets : Prop :=
  ∀ (s : State) (rest : List HostAction), s.host = .resetInput :: rest →
    step s = exec .sreset { s with host := rest }

/-- With BUSY = 0 and no fault a host read of a register returns the value the window's table gives it (R18, R19), and changes
nothing on the block; the model's counter of free values is all that may move besides. In the fault state it has a next state
too, in which what R136 defines is as before, and the registers R136 defines read as the table says: the others read as any
value. -/
def Obligations.HostReadReturnsTheRegister : Prop :=
  ∀ (s : State) (rest : List HostAction) (offset : Nat) (v : Word),
    s.host = .read 32 offset :: rest → s.busy = false →
    (s.faulted = false →
      (offset, v) ∈ [(0x00, 0#32), (0x04, statusWord s), (0x08, s.result), (0x0C, s.fault), (0x10, s.finfo),
        (0x14, s.ctrl), (0x18, nfreqWord s), (0x1C, ncodeWord s),
        (0x20, BitVec.setWidth 32 (BitVec.ofNat 16 s.wrOff)), (0x24, BitVec.setWidth 32 (BitVec.ofNat 16 s.rdOff)),
        (0x28, s.snkCount), (0x2C, 0x48554646#32)] →
      ∃ k, step s = .next { s with host := rest, hostReads := s.hostReads ++ [v], freeIdx := k }) ∧
    (s.faulted = true →
      offset ∈ [0x00, 0x04, 0x08, 0x0C, 0x10, 0x14, 0x18, 0x1C, 0x20, 0x24, 0x28, 0x2C] →
      ∃ x t, step s = .next t ∧ t.hostReads = s.hostReads ++ [x] ∧ t.host = rest ∧ t.fault = s.fault ∧
        t.finfo = s.finfo ∧ t.busy = false ∧ t.snk = s.snk ∧ t.snkCount = s.snkCount ∧ t.srcs = s.srcs ∧
        t.snkErr = s.snkErr ∧ t.params = s.params ∧
        ((offset, v) ∈ [(0x00, 0#32), (0x04, statusWord s), (0x0C, s.fault), (0x10, s.finfo), (0x28, s.snkCount),
          (0x2C, 0x48554646#32)] → x = v))

/-- A host write to a register other than CMD is ignored (R19). A step stops only on an access that is not a 32-bit access
at a multiple of 4 from 0x00 to 0x2C, which the spec refuses; every other step has a next state (R19, R162). -/
def Obligations.StepsStopOnlyOnRefusedAccesses : Prop :=
  (∀ (s : State) (rest : List HostAction) (offset : Nat) (v : Word), s.host = .write 32 offset v :: rest →
    offset ∈ [0x04, 0x08, 0x0C, 0x10, 0x14, 0x18, 0x1C, 0x20, 0x24, 0x28, 0x2C] →
      step s = .next { s with host := rest }) ∧
  ∀ s : State,
    (∃ t, step s = .next t) ↔
      ¬ ∃ (width offset : Nat) (v : Word) (rest : List HostAction),
        (s.host = .read width offset :: rest ∨ s.host = .write width offset v :: rest) ∧
          (width ≠ 32 ∨ offset % 4 ≠ 0 ∨ 0x2C < offset)

/-- With nothing left for the host to do the block is idle and holds its state (R148, R161). -/
def Obligations.IdleBlockHoldsItsState : Prop :=
  ∀ s : State, s.host = [] → step s = .next s

/-- STATUS, field by field (R21): with no fault, in the fault state (its bits 6:2 unsaid), and while busy. -/
def Obligations.StatusFields : Prop :=
  ∀ s : State,
    (s.busy = false → s.faulted = false →
      (statusWord s).getLsbD 0 = false ∧ (statusWord s).getLsbD 1 = false ∧
      (statusWord s).getLsbD 2 = s.rdOpen ∧
      ((statusWord s).getLsbD 3 = true ↔ s.rdOpen = true ∧ s.rdOff < 8 * s.rdValid) ∧
      ((statusWord s).getLsbD 4 = true ↔ s.rdOpen = true ∧ s.rdOff % 8 = 0) ∧
      ((statusWord s).getLsbD 5 = true ↔ s.wrOff % 8 = 0) ∧
      ((statusWord s).getLsbD 6 = true ↔ s.root ≠ none) ∧
      ∀ k, 7 ≤ k → (statusWord s).getLsbD k = false) ∧
    (s.busy = false → s.faulted = true →
      (statusWord s).getLsbD 0 = false ∧ (statusWord s).getLsbD 1 = true ∧
      ∀ k, 7 ≤ k → (statusWord s).getLsbD k = false) ∧
    (s.busy = true → (statusWord s).getLsbD 0 = true ∧ ∀ k, 7 ≤ k → (statusWord s).getLsbD k = false)

/-- With no fault NFREQ and NCODE count the symbols with a non-zero count and with a code, from 0 to 256, in bits 8:0; they
reset to 0 (R26, R27). In the fault state they hold any value (R136). -/
def Obligations.CountRegistersCount : Prop :=
  (∀ s : State, s.faulted = false →
    (regValue 0x18 s).toNat = (allBytes.filter fun y => cell s.freq y ≠ 0).length ∧ (regValue 0x18 s).toNat ≤ 256 ∧
    (∀ k, 9 ≤ k → (regValue 0x18 s).getLsbD k = false) ∧
    (regValue 0x1C s).toNat = (allBytes.filter fun y => cell s.ct y ≠ none).length ∧ (regValue 0x1C s).toNat ≤ 256 ∧
    ∀ k, 9 ≤ k → (regValue 0x1C s).getLsbD k = false) ∧
  regValue 0x18 State.reset = 0#32 ∧ regValue 0x1C State.reset = 0#32

/-- WR_OFF and RD_OFF read the cursors' offsets, which fit their 16 bits in every legal build, and reset to 0
(R6, R28, R29). -/
def Obligations.OffsetRegistersHoldTheCursors : Prop :=
  ∀ s : State, CursorsOk s → s.faulted = false →
    (regValue 0x20 s).toNat = s.wrOff ∧ (regValue 0x24 s).toNat = s.rdOff ∧
    regValue 0x20 State.reset = 0#32 ∧ regValue 0x24 State.reset = 0#32

/-! ### Faults and reset -/

/-- Entering the fault state writes FAULT and FINFO, lowers BUSY, and leaves SNK, SNK_COUNT, ID and the host's side as they
were at the raise; FAULTED reads 1 (R136). -/
def Obligations.FaultEntryDefines : Prop :=
  ∀ (e : ErrorCode) (info : Word) (s : State),
    (faultEntry e info s).fault = e.code.setWidth 32 ∧ (faultEntry e info s).finfo = info ∧
    (faultEntry e info s).busy = false ∧ (faultEntry e info s).faulted = true ∧
    (faultEntry e info s).snk = s.snk ∧ (faultEntry e info s).snkCount = s.snkCount ∧
    regValue 0x2C (faultEntry e info s) = 0x48554646#32 ∧
    (faultEntry e info s).srcs = s.srcs ∧ (faultEntry e info s).snkErr = s.snkErr ∧
    (faultEntry e info s).host = s.host ∧ (faultEntry e info s).hostReads = s.hostReads ∧
    (faultEntry e info s).params = s.params

/-- A command that needs the reader, issued with RD_OPEN = 0, raises E_STATE with its OPC and does nothing else
(R76, R78). -/
def Obligations.MissingReaderFaults : Prop :=
  ∀ (i : Instr) (s : State), i.mnemonic.needsReader = true → s.rdOpen = false →
    exec i s = .next (faultEntry .state (i.mnemonic.opc.setWidth 32) s)

/-- From a state with no fault, a command that enters the fault state does so with a code the table lists for it (R134), and
FINFO tells what the table says of that code for that command: the OPC (E_STATE); the offset the command starts at, bit 31
telling reader from writer (E_ALIGN); the reader's offset (E_EXH); the count or an entry number (E_FMT); the failure index of
the presentation read, for ROPEN the one it opens (E_SRC_IO), or of the sink (E_SNK_IO); a byte with no code; and with the
command's own subcode the symbol, depth, byte or slot (E_TRIE, E_OVF). What it had written stays inside its footprint. -/
def Obligations.FaultsAreThoseListed : Prop :=
  ∀ (i : Instr) (s t : State), s.fault = 0#32 → exec i s = .next t →
    t.fault = 0#32 ∨
      ∃ e info u, e ∈ raisedBy i.mnemonic ∧ FaultInfo i.mnemonic e info s u ∧ t = faultEntry e info u ∧
        Frame (footprint i.mnemonic) s u

/-- A command that ends with no fault writes nothing outside its footprint: the tables of R155 say who writes which store,
R22 who writes RESULT, R25 who writes CTRL. SRESET, which writes everything, has its own statement. -/
def Obligations.CommandFootprints : Prop :=
  ∀ (i : Instr) (s t : State), i ≠ .sreset → s.fault = 0#32 → exec i s = .next t → t.fault = 0#32 →
    Frame (footprint i.mnemonic) s t

/-- Only RHASNEXT, RBIT, RBYTE, RSHORT, RALIGNED, FGET, CLEN, CBIT and DSYM write RESULT, SRESET's reset of it apart
(R22). -/
def Obligations.OnlyNineCommandsWriteResult : Prop :=
  ∀ (i : Instr) (s t : State), s.fault = 0#32 → exec i s = .next t → t.fault = 0#32 → t.result ≠ s.result →
    i = .sreset ∨ i.mnemonic ∈
      [.RHASNEXT, .RBIT, .RBYTE, .RSHORT, .RALIGNED, .FGET, .CLEN, .CBIT, .DSYM]

/-- Whatever the host does, a step only ever appends to SNK, and leaves the presentations, the failure indexes and the build
as they are (R43, R68). SNK_COUNT counts, modulo 2^32, every byte appended, and becomes 0 at a reset, which appends none
(R30). -/
def Obligations.SnkCountCountsTheDeliveredBytes : Prop :=
  State.reset.snkCount = 0#32 ∧
  ∀ s t : State, step s = .next t →
    (∃ ys, t.snk = s.snk ++ ys ∧
      ((∃ rest, s.host = .resetInput :: rest ∨
          (s.host = .write 32 0x00 0x01000000#32 :: rest ∧ s.busy = false)) →
        ys = [] ∧ t.snkCount = 0#32) ∧
      ((¬ ∃ rest, s.host = .resetInput :: rest ∨
          (s.host = .write 32 0x00 0x01000000#32 :: rest ∧ s.busy = false)) →
        t.snkCount.toNat = (s.snkCount.toNat + ys.length) % 2 ^ 32)) ∧
    t.srcs = s.srcs ∧ t.snkErr = s.snkErr ∧ t.params = s.params

/-- SRESET loads the reset value of every piece of block state and leaves the host's side alone, from every state (R45,
R83, R149). -/
def Obligations.SresetLoadsTheResetValues : Prop :=
  ∀ s : State, ∃ t, exec .sreset s = .next t ∧
    regValue 0x04 t = 0x00000020#32 ∧ regValue 0x08 t = 0#32 ∧ regValue 0x0C t = 0#32 ∧ regValue 0x10 t = 0#32 ∧
    regValue 0x14 t = 1#32 ∧ regValue 0x18 t = 0#32 ∧ regValue 0x1C t = 0#32 ∧ regValue 0x20 t = 0#32 ∧
    regValue 0x24 t = 0#32 ∧ regValue 0x28 t = 0#32 ∧ regValue 0x2C t = 0x48554646#32 ∧
    (∀ y, cell t.freq y = 0) ∧ t.tn = 0 ∧ t.root = none ∧ (∀ y, cell t.ct y = none) ∧ t.trie = Trie.empty ∧
    t.wrBuf = List.replicate s.params.bufBytes 0#8 ∧ t.wrOff = 0 ∧ t.rdOpen = false ∧ t.rdOpens = 0#32 ∧
    t.rdValid = 0 ∧ t.rdChunk = 0 ∧ t.rdOff = 0 ∧ t.busy = false ∧ t.faulted = false ∧
    t.snk = s.snk ∧ t.srcs = s.srcs ∧ t.snkErr = s.snkErr ∧ t.host = s.host ∧ t.hostReads = s.hostReads ∧
    t.params = s.params

/-- The state right after reset, and the state SRESET leaves in a legal build, meet every invariant the steps keep. That the
reset state has the default build parameters is the model's choice (log entry 1). -/
def Obligations.ResetMeetsTheInvariants : Prop :=
  (ControlOk State.reset ∧ CursorsOk State.reset ∧ StoresOk State.reset) ∧
  ∀ s : State, s.params.legal = true →
    ∃ t, exec .sreset s = .next t ∧ ControlOk t ∧ CursorsOk t ∧ StoresOk t

/-! ### Invariants -/

/-- Every step keeps the build legal, BUSY at 0 between steps, FAULT a listed code, and, with no fault, FINFO 0 and CTRL's
reserved bits 0 (R6, R23, R24, R25, R42, R134). In the fault state CTRL holds any value (R136). -/
def Obligations.EveryStepKeepsControlOk : Prop :=
  ∀ s t : State, ControlOk s → step s = .next t → ControlOk t

/-- Every step keeps the cursors' invariants (R38, R39, R41). -/
def Obligations.EveryStepKeepsCursorsOk : Prop :=
  ∀ s t : State, CursorsOk s → step s = .next t → CursorsOk t

/-- Every step keeps the stores' invariants (R32, R33, R34, R35, R37, R95), the trie's bound of `TRIE_NODES` = 65281 nodes among
them (R6, R37): no command can run out of trie slots. -/
def Obligations.EveryStepKeepsStoresOk : Prop :=
  ∀ s t : State, StoresOk s → step s = .next t → StoresOk t

/-! ### Block control and readout -/

/-- SETCTRL writes CTRL and nothing else (R84). -/
def Obligations.SetctrlWritesCtrl : Prop :=
  ∀ (b : Bool) (s : State), exec (.setctrl b) s = .next { s with ctrl := if b then 1#32 else 0#32 }

/-- The readout commands (R89, R101, R102): FGET reads the low 32 bits of a count; CLEN reads {valid, len}; CBIT reads
{1, bit} in range and 0 out of range, and index 255 is never in range. Each writes RESULT and nothing else. -/
def Obligations.ReadoutCommands : Prop :=
  (∀ (y : Byte) (s : State), ∃ v : Word, exec (.fget y) s = .next { s with result := v } ∧
    v.toNat = cell s.freq y % 2 ^ 32) ∧
  (∀ (y : Byte) (s : State), CodesOk s.ct → ∃ v : Word, exec (.clen y) s = .next { s with result := v } ∧
    (cell s.ct y = none → v = 0#32) ∧ ∀ c, cell s.ct y = some c → v.toNat = 256 + c.length) ∧
  ∀ (y i : Byte) (s : State), CodesOk s.ct → ∃ v : Word, exec (.cbit y i) s = .next { s with result := v } ∧
    (∀ code b, cell s.ct y = some code → code[i.toNat]? = some b → v.toNat = 2 + b.toNat) ∧
    (cell s.ct y = none → v = 0#32) ∧ (∀ code, cell s.ct y = some code → code.length ≤ i.toNat → v = 0#32) ∧
    (i = 255#8 → v = 0#32)

/-! ### The frequency table -/

/-- FCLEAR makes every count 0, so that NFREQ reads 0 where no fault stands, and touches nothing else (R26, R86). -/
def Obligations.FclearZeroesTheCounts : Prop :=
  ∀ s : State, ∃ t, exec .fclear s = .next t ∧ Frame (footprint .FCLEAR) s t ∧ (∀ y, cell t.freq y = 0) ∧
    (s.faulted = false → regValue 0x18 t = 0#32)

/-- FADD adds 1 to one count, and NFREQ, where no fault stands, rises by 1 when that count was 0; at the largest count of the
width it raises E_OVF with the byte instead (R26, R85, R87). -/
def Obligations.FaddCountsOneByte : Prop :=
  ∀ (y : Byte) (s : State),
    (cell s.freq y + 1 < 2 ^ s.params.wCnt →
      ∃ t, exec (.fadd y) s = .next t ∧ Frame (footprint .FADD) s t ∧
        (∀ z, cell t.freq z = if z = y then cell s.freq y + 1 else cell s.freq z) ∧
        (s.faulted = false →
          (regValue 0x18 t).toNat = (regValue 0x18 s).toNat + (if cell s.freq y = 0 then 1 else 0))) ∧
    (cell s.freq y + 1 = 2 ^ s.params.wCnt →
      exec (.fadd y) s = .next (faultEntry .ovf (0x01000000#32 ||| y.setWidth 32) s))

/-- FSCAN over an open, aligned reader adds to each count the number of times the byte stands in what is unread, and ends
with nothing unread (R88). It stops at the first byte whose count would pass the width (E_OVF with the byte), at a source
failure that lies ahead (E_SRC_IO with its index), and with E_ALIGN on an unaligned reader. -/
def Obligations.FscanCountsTheRestOfTheSource : Prop :=
  ∀ s : State, s.rdOpen = true → ReaderOk s →
    (s.rdOff % 8 ≠ 0 →
      exec .fscan s = .next (faultEntry .align (0x80000000#32 ||| BitVec.ofNat 32 s.rdOff) s)) ∧
    (s.rdOff % 8 = 0 → SourceSound s →
      (∀ y, cell s.freq y + (unreadBytes s).count y < 2 ^ s.params.wCnt) →
      ∃ t, exec .fscan s = .next t ∧ Frame (footprint .FSCAN) s t ∧ ReaderOk t ∧ unreadBits t = [] ∧
        ∀ y, cell t.freq y = cell s.freq y + (unreadBytes s).count y) ∧
    (s.rdOff % 8 = 0 → SourceSound s → CountsOk s →
      ∀ pre y post, unreadBytes s = pre ++ y :: post →
        (∀ z, cell s.freq z + pre.count z < 2 ^ s.params.wCnt) →
        2 ^ s.params.wCnt ≤ cell s.freq y + pre.count y + 1 →
        exec .fscan s = .next (faultEntry .ovf (0x01000000#32 ||| y.setWidth 32) s)) ∧
    (s.rdOff % 8 = 0 → ¬ SourceSound s →
      (∀ y, cell s.freq y + (unreadBytes s).count y < 2 ^ s.params.wCnt) →
      ∃ k, s.src.failAt = some k ∧ exec .fscan s = .next (faultEntry .srcIo (failureInfo k) s))

/-! ### The tree -/

/-- TBUILD (R90 to R95): where the counts' sum fits the width it completes, leaving the leaves in ascending byte value, the
shape R34 gives, and a root whose weight is the sum of all counts; where it does not, it raises E_OVF with the slot of a
merge. It completes for no symbol and for one symbol too. -/
def Obligations.TbuildBuildsTheTree : Prop :=
  ∀ s : State, CountsOk s →
    (totalCount s.freq < 2 ^ s.params.wCnt →
      ∃ t, exec .tbuild s = .next t ∧ Frame (footprint .TBUILD) s t ∧
        TreeOf (countedSymbols s.freq).length t.nodes t.root ∧ TreeOk t ∧
        (∀ (k : Nat) (y : Byte), (countedSymbols s.freq)[k]? = some y → t.nodes[k]? = some (Node.leaf y (cell s.freq y))) ∧
        (∀ r, t.root = some r → weightAt t.nodes r = totalCount s.freq)) ∧
    (2 ^ s.params.wCnt ≤ totalCount s.freq →
      ∃ k, (countedSymbols s.freq).length ≤ k ∧ k + 1 < 2 * (countedSymbols s.freq).length ∧
        exec .tbuild s = .next (faultEntry .ovf (0x02000000#32 ||| BitVec.ofNat 32 k) s))

/-- Every merge of a TBUILD that completes took the two nodes of least key, the first extracted as the zero child: weight
first, then slot index (R90, R91, R92). -/
def Obligations.TbuildMergesLeastKeysFirst : Prop :=
  ∀ s : State, CountsOk s → totalCount s.freq < 2 ^ s.params.wCnt →
    ∃ t, exec .tbuild s = .next t ∧ LeastFirst t.nodes

/-! ### The code table -/

/-- CGEN (R97 to R99): an empty table from no tree; the 1-bit code [0], or with SINGLE1 = 0 the empty code, for a tree that
is one leaf; otherwise exactly the paths from the root to the leaves, none empty and none longer than 255 bits. -/
def Obligations.CgenReadsThePaths : Prop :=
  ∀ (s : State) (n : Nat), n ≤ 256 → TreeOf n s.nodes s.root →
    ∃ t, exec .cgen s = .next t ∧ Frame (footprint .CGEN) s t ∧ CodesOk t.ct ∧
      (n = 0 → ∀ y, cell t.ct y = none) ∧
      (n = 1 → ∃ x w, s.nodes[0]? = some (Node.leaf x w) ∧
        ∀ y, cell t.ct y = if y = x then some (if s.single1 then [false] else []) else none) ∧
      (2 ≤ n → ∀ y c, cell t.ct y = some c ↔ leafAt s.nodes (2 * n - 2) c y) ∧
      (2 ≤ n → ∀ y c, cell t.ct y = some c → c ≠ [])

/-- From every state CGEN completes and leaves a table in which no symbol's code begins another's (R36, R100). That it
completes whatever the tree store holds, one no TBUILD leaves included, is the model's choice: its walk is bounded by the
number of nodes, where R97's would not end on a cycle (log entry 9). -/
def Obligations.CgenIsPrefixFree : Prop :=
  ∀ s : State, ∃ t, exec .cgen s = .next t ∧ PrefixFree t.ct

/-- The codes of a tree of two leaves or more are complete (R100): every bit string of 255 bits begins with exactly one of
them; so exactly one code is all zeros. -/
def Obligations.CgenCodesAreComplete : Prop :=
  ∀ (s : State) (n : Nat), 2 ≤ n → n ≤ 256 → TreeOf n s.nodes s.root →
    ∃ t, exec .cgen s = .next t ∧
      (∀ p : Bits, 255 ≤ p.length → ∃! yc : Byte × Bits, cell t.ct yc.1 = some yc.2 ∧ yc.2 <+: p) ∧
      ∃! yc : Byte × Bits, cell t.ct yc.1 = some yc.2 ∧ yc.2 = List.replicate yc.2.length false

/-! ### The header -/

/-- HWRITE from an aligned writer appends the header of the code table, bit for bit as R103 lays it out in ascending symbol
value, and leaves the writer aligned; where the sink refuses one of the bytes that go out it raises E_SNK_IO with the byte's
index; from an unaligned writer it raises E_ALIGN (R103 to R106). -/
def Obligations.HwriteWritesTheHeader : Prop :=
  ∀ s : State, WriterOk s →
    (s.wrOff % 8 ≠ 0 → exec .hwrite s = .next (faultEntry .align (BitVec.ofNat 32 s.wrOff) s)) ∧
    (s.wrOff % 8 = 0 → sinkTakes (outBytes (headerBits s.params.bitOrder s.ct).length s) s →
      ∃ t, exec .hwrite s = .next t ∧ Frame (footprint .HWRITE) s t ∧
        Appended (headerBits s.params.bitOrder s.ct) s t ∧ t.wrOff % 8 = 0) ∧
    (s.wrOff % 8 = 0 → ¬ sinkTakes (outBytes (headerBits s.params.bitOrder s.ct).length s) s →
      ∃ t, exec .hwrite s = .next t ∧ t.fault = 0x00000008#32 ∧ s.snkErr = some t.finfo.toNat ∧
        t.finfo = t.snkCount ∧ Grows s t)

/-- HREAD over an open, aligned reader with a whole header unread gives CT the header's entries, a later entry for a symbol
replacing an earlier one, whatever the padding bits, and leaves the reader aligned at the first payload bit (R103, R104,
R107). A failure in a chunk it requests on the way is E_SRC_IO with its index (R55, R56); one beyond is not met. -/
def Obligations.HreadParsesTheHeader : Prop :=
  ∀ (s : State) (entries : List HeaderEntry) (rest : Bits), s.rdOpen = true → ReaderOk s → s.rdOff % 8 = 0 →
    entries.length ≤ 65535 → (∀ e ∈ entries, e.ok) →
    unreadBits s = countBits s.params.bitOrder entries.length ++
      entries.flatMap (HeaderEntry.bits s.params.bitOrder) ++ rest →
    (SoundUntil rest.length s →
      ∃ t, exec .hread s = .next t ∧ Frame (footprint .HREAD) s t ∧ ReaderOk t ∧ (SourceSound s → SourceSound t) ∧
        t.rdOff % 8 = 0 ∧ unreadBits t = rest ∧ t.ct = parsedTable entries) ∧
    (¬ SoundUntil rest.length s →
      ∃ k, s.src.failAt = some k ∧ exec .hread s = .next (faultEntry .srcIo (failureInfo k) s))

/-- HREAD over a source that ends inside the count raises E_FMT with 0x80000000; inside an entry, E_FMT with the number of
entries completely parsed; over an unaligned reader, E_ALIGN (R107). A failure in a chunk it requests before it reaches the
end is E_SRC_IO instead (R55). -/
def Obligations.HreadFaultsOnAShortHeader : Prop :=
  ∀ s : State, s.rdOpen = true → ReaderOk s →
    (s.rdOff % 8 ≠ 0 →
      exec .hread s = .next (faultEntry .align (0x80000000#32 ||| BitVec.ofNat 32 s.rdOff) s)) ∧
    (s.rdOff % 8 = 0 → (unreadBits s).length < 16 →
      (SourceSound s → exec .hread s = .next (faultEntry .fmt 0x80000000#32 s)) ∧
      (¬ SourceSound s →
        ∃ k, s.src.failAt = some k ∧ exec .hread s = .next (faultEntry .srcIo (failureInfo k) s))) ∧
    (s.rdOff % 8 = 0 → ∀ (entries : List HeaderEntry) (n : Nat) (part : Bits),
      n ≤ 65535 → entries.length < n → (∀ e ∈ entries, e.ok) →
      unreadBits s = countBits s.params.bitOrder n ++
        entries.flatMap (HeaderEntry.bits s.params.bitOrder) ++ part →
      (part.length < 16 ∨ ∃ y len c, part =
        byteBits s.params.bitOrder y ++ byteBits s.params.bitOrder len ++ c ∧ c.length < len.toNat) →
      (SourceSound s → exec .hread s = .next (faultEntry .fmt (BitVec.ofNat 32 entries.length) s)) ∧
      (¬ SourceSound s →
        ∃ k, s.src.failAt = some k ∧ exec .hread s = .next (faultEntry .srcIo (failureInfo k) s)))

/-- The header round trip (R108): what HWRITE and WFLUSH deliver from an empty writer, presented whole to a block of the
same bit order, gives ROPEN and HREAD the same code table, with nothing left unread. -/
def Obligations.HeaderRoundTrip : Prop :=
  ∀ s r : State, WriterOk s → s.wrOff = 0 → CodesOk s.ct → s.snkErr = none → s.busy = false → s.faulted = false →
    ∃ t, runCommands [.hwrite, .wflush] s = .next t ∧ t.faulted = false ∧
      ∃ stream, t.snk = s.snk ++ stream ∧
        (r.params.bitOrder = s.params.bitOrder → r.params.legal = true → r.busy = false → r.faulted = false →
          presentation r.srcs (r.rdOpens + 1#32) = ⟨stream, none⟩ →
          ∃ u, runCommands [.ropen, .hread] r = .next u ∧ u.faulted = false ∧ u.ct = s.ct ∧ unreadBits u = [])

/-! ### The writer -/

/-- WBIT, WBYTE, WSHORT and ESYM append exactly their bits to the stream wherever the sink takes the bytes that go out:
WBIT its bit, and WBYTE and WSHORT, from an aligned writer, their byte or their two bytes low first, and ESYM its byte's
code (R48, R62 to R65, R109 to R111, R123, R124). -/
def Obligations.WriterCommandsAppendTheirBits : Prop :=
  ∀ (s : State) (i : Instr) (bits : Bits), WriterOk s →
    ((∃ b, i = .wbit b ∧ bits = [b]) ∨
      (s.wrOff % 8 = 0 ∧ ∃ y, i = .wbyte y ∧ bits = byteBits s.params.bitOrder y) ∨
      (s.wrOff % 8 = 0 ∧ ∃ v : BitVec 16, i = .wshort v ∧
        bits = byteBits s.params.bitOrder (v.extractLsb' 0 8) ++ byteBits s.params.bitOrder (v.extractLsb' 8 8)) ∨
      ∃ y, i = .esym y ∧ cell s.ct y = some bits) →
    (sinkTakes (outBytes bits.length s) s →
      ∃ t, exec i s = .next t ∧ Frame (footprint i.mnemonic) s t ∧ Appended bits s t) ∧
    (¬ sinkTakes (outBytes bits.length s) s →
      ∃ t, exec i s = .next t ∧ t.fault = 0x00000008#32 ∧ s.snkErr = some t.finfo.toNat ∧ t.finfo = t.snkCount ∧
        Grows s t)

/-- A byte or 16-bit write, or a header, at an unaligned cursor raises E_ALIGN with WR_OFF and writes nothing; a byte with no
code raises E_NOCODE before any bit is written (R51, R63, R106, R110, R111, R123, R124). -/
def Obligations.WritesThatAreRefused : Prop :=
  ∀ s : State,
    (s.wrOff % 8 ≠ 0 →
      (∀ (y : Byte) (v : BitVec 16),
        exec (.wbyte y) s = .next (faultEntry .align (BitVec.ofNat 32 s.wrOff) s) ∧
        exec (.wshort v) s = .next (faultEntry .align (BitVec.ofNat 32 s.wrOff) s)) ∧
      exec .hwrite s = .next (faultEntry .align (BitVec.ofNat 32 s.wrOff) s)) ∧
    ∀ y, cell s.ct y = none → exec (.esym y) s = .next (faultEntry .noCode (y.setWidth 32) s)

/-- WFLUSH delivers the pending bytes, the last one padded with zero bits, and begins an empty buffer; where the sink refuses
one of them it raises E_SNK_IO and the bytes before it are in SNK (R65, R66, R112). -/
def Obligations.WflushDeliversThePendingBytes : Prop :=
  ∀ s : State, WriterOk s →
    (sinkTakes ((s.wrOff + 7) / 8) s →
      ∃ t, exec .wflush s = .next t ∧ Frame (footprint .WFLUSH) s t ∧ WriterOk t ∧ t.wrOff = 0 ∧
        t.snk = s.snk ++ s.wrBuf.take ((s.wrOff + 7) / 8) ∧
        t.snkCount = s.snkCount + BitVec.ofNat 32 ((s.wrOff + 7) / 8) ∧
        bytesBits s.params.bitOrder t.snk = sentBits s ++ List.replicate (padLen s.wrOff) false) ∧
    ∀ j, j < (s.wrOff + 7) / 8 → sinkTakes j s → s.snkErr = some (s.snkCount + BitVec.ofNat 32 j).toNat →
      ∃ t, exec .wflush s = .next t ∧ t.fault = 0x00000008#32 ∧ t.finfo = s.snkCount + BitVec.ofNat 32 j ∧
        t.snk = s.snk ++ s.wrBuf.take j ∧ t.snkCount = s.snkCount + BitVec.ofNat 32 j

/-- A byte write at an aligned position leaves the very state that eight bit writes of the byte's bits leave, in the order
BIT_ORDER gives them (R49, R50). -/
def Obligations.WbyteIsEightWbits : Prop :=
  ∀ (s : State) (y : Byte), WriterOk s → s.wrOff % 8 = 0 → s.busy = false → s.fault = 0#32 →
    sinkTakes (outBytes 8 s) s →
    ∃ t, exec (.wbyte y) s = .next t ∧
      runCommands (((List.range 8).map fun k => match s.params.bitOrder with
        | .msbFirst => y.getLsbD (7 - k)
        | .lsbFirst => y.getLsbD k).map Instr.wbit) s = .next t

/-! ### The reader -/

/-- ROPEN opens the next presentation from its first byte, with up to one buffer of it read ahead (R54, R55, R115). A failure
inside the first chunk is E_SRC_IO with its index. -/
def Obligations.RopenOpensTheNextPresentation : Prop :=
  ∀ (s : State) (p : Presentation), 0 < s.params.bufBytes → presentation s.srcs (s.rdOpens + 1#32) = p →
    ((∀ k, p.failAt = some k → s.params.bufBytes ≤ k) →
      ∃ t, exec .ropen s = .next t ∧ Frame (footprint .ROPEN) s t ∧ t.rdOpen = true ∧ t.rdOpens = s.rdOpens + 1#32 ∧
        t.rdBuf = p.bytes.take s.params.bufBytes ∧ t.rdChunk = 0 ∧ t.rdOff = 0 ∧ ReaderOk t ∧
        unreadBytes t = p.bytes) ∧
    ∀ k, p.failAt = some k → k < s.params.bufBytes →
      exec .ropen s = .next (faultEntry .srcIo (failureInfo k) s) ∧ (k < 2 ^ 32 → (failureInfo k).toNat = k)

/-- RHASNEXT reads 1 just where a bit of the source is unread, at chunk boundaries too; RALIGNED reads 1 just where a whole
number of bytes has been consumed. Each writes RESULT and nothing else (R41, R57, R58, R116, R120). -/
def Obligations.ReaderQueriesAreExact : Prop :=
  ∀ s : State, s.rdOpen = true → ReaderOk s →
    exec .rhasnext s =
      .next { s with result := if consumed s < 8 * s.src.bytes.length then 1#32 else 0#32 } ∧
    exec .raligned s = .next { s with result := if consumed s % 8 = 0 then 1#32 else 0#32 }

/-- RBIT reads the next unread bit of the source and consumes it, across chunk boundaries (R59, R117); with nothing unread it
raises E_EXH with RD_OFF; and where the bit was the last of a full chunk and the next chunk fails, E_SRC_IO (R55, R56). -/
def Obligations.RbitReadsTheNextBit : Prop :=
  ∀ s : State, s.rdOpen = true → ReaderOk s →
    (unreadBits s = [] → exec .rbit s = .next (faultEntry .exh (BitVec.ofNat 32 s.rdOff) s)) ∧
    ∀ b rest, unreadBits s = b :: rest →
      (boundaryFailure 1 s = none →
        ∃ t, exec .rbit s = .next t ∧ Frame (footprint .RBIT) s t ∧ t.result = (if b then 1#32 else 0#32) ∧
          ReaderOk t ∧ unreadBits t = rest ∧ consumed t = consumed s + 1) ∧
      ∀ k, boundaryFailure 1 s = some k →
        exec .rbit s = .next (faultEntry .srcIo (failureInfo k) s)

/-- RBYTE at an aligned position reads the next source byte unchanged (R60, R118). The alignment check comes first; then
exhaustion; the refill's failure last (R135). -/
def Obligations.RbyteReadsTheNextByte : Prop :=
  ∀ s : State, s.rdOpen = true → ReaderOk s →
    (s.rdOff % 8 ≠ 0 → exec .rbyte s = .next (faultEntry .align (0x80000000#32 ||| BitVec.ofNat 32 s.rdOff) s)) ∧
    (s.rdOff % 8 = 0 → unreadBytes s = [] → exec .rbyte s = .next (faultEntry .exh (BitVec.ofNat 32 s.rdOff) s)) ∧
    ∀ y rest, s.rdOff % 8 = 0 → unreadBytes s = y :: rest →
      (boundaryFailure 8 s = none →
        ∃ t, exec .rbyte s = .next t ∧ Frame (footprint .RBYTE) s t ∧ t.result.toNat = y.toNat ∧ ReaderOk t ∧
          unreadBytes t = rest ∧ consumed t = consumed s + 8) ∧
      ∀ k, boundaryFailure 8 s = some k →
        exec .rbyte s = .next (faultEntry .srcIo (failureInfo k) s)

/-- RSHORT at an aligned position reads two source bytes, the low one first (R48, R61, R119). With one byte left it consumes
that byte and raises E_EXH with the offset it then has (R52). A failure in a chunk it requests on the way is E_SRC_IO with its
index (R55, R56); one beyond is not met. -/
def Obligations.RshortReadsLowByteFirst : Prop :=
  ∀ s : State, s.rdOpen = true → ReaderOk s →
    (s.rdOff % 8 ≠ 0 → exec .rshort s = .next (faultEntry .align (0x80000000#32 ||| BitVec.ofNat 32 s.rdOff) s)) ∧
    (s.rdOff % 8 = 0 → unreadBytes s = [] → exec .rshort s = .next (faultEntry .exh (BitVec.ofNat 32 s.rdOff) s)) ∧
    (s.rdOff % 8 = 0 → (unreadBytes s).length = 1 →
      (SourceSound s → exec .rshort s = .next (faultEntry .exh
        (BitVec.ofNat 32 (if s.rdOff + 8 = 8 * s.params.bufBytes then 0 else s.rdOff + 8)) s)) ∧
      (¬ SourceSound s →
        ∃ k, s.src.failAt = some k ∧ exec .rshort s = .next (faultEntry .srcIo (failureInfo k) s))) ∧
    ∀ lo hi rest, s.rdOff % 8 = 0 → unreadBytes s = lo :: hi :: rest →
      (SoundUntil (8 * rest.length) s →
        ∃ t, exec .rshort s = .next t ∧ Frame (footprint .RSHORT) s t ∧
          t.result.toNat = 256 * hi.toNat + lo.toNat ∧ ReaderOk t ∧ unreadBytes t = rest ∧
          consumed t = consumed s + 16) ∧
      (¬ SoundUntil (8 * rest.length) s →
        ∃ k, s.src.failAt = some k ∧ exec .rshort s = .next (faultEntry .srcIo (failureInfo k) s))

/-- A byte read returns what eight bit reads return, in the order BIT_ORDER gives the byte's bits, and leaves the reader
where they leave it (R49, R50). -/
def Obligations.RbyteIsEightRbits : Prop :=
  ∀ (s : State) (y : Byte) (rest : List Byte), s.rdOpen = true → Ready s → s.rdOff % 8 = 0 → s.busy = false →
    s.fault = 0#32 → unreadBytes s = y :: rest →
    (∀ k, k < 8 → ∃ t, runCommands (List.replicate (k + 1) .rbit) s = .next t ∧
      t.result = if y.getLsbD (match s.params.bitOrder with
        | .msbFirst => 7 - k
        | .lsbFirst => k) then 1#32 else 0#32) ∧
    ∃ t u, exec .rbyte s = .next t ∧ t.result = y.setWidth 32 ∧
      runCommands (List.replicate 8 .rbit) s = .next u ∧ { u with result := t.result } = t

/-- Any bit sequence written with WBIT and flushed, then opened by a block of the same bit order and any buffer size, is read
back by RBIT bit for bit; after it only the zero bits that pad the last byte are unread (R113, R121). -/
def Obligations.BitStreamRoundTrip : Prop :=
  ∀ (s r : State) (bits : Bits), WriterOk s → s.wrOff = 0 → s.snkErr = none → s.busy = false → s.faulted = false →
    ∃ t stream, runCommands (bits.map Instr.wbit ++ [.wflush]) s = .next t ∧ t.faulted = false ∧
      t.snk = s.snk ++ stream ∧
      (r.params.bitOrder = s.params.bitOrder → r.params.legal = true → r.busy = false → r.faulted = false →
        presentation r.srcs (r.rdOpens + 1#32) = ⟨stream, none⟩ →
        (∀ (k : Nat) (b : Bool), bits[k]? = some b →
          ∃ u, runCommands (.ropen :: List.replicate (k + 1) .rbit) r = .next u ∧ u.faulted = false ∧
            u.result = if b then 1#32 else 0#32) ∧
        ∃ u, runCommands (.ropen :: List.replicate bits.length .rbit) r = .next u ∧ u.faulted = false ∧
          unreadBits u = List.replicate (padLen bits.length) false)

/-- The bytes delivered do not depend on BUF_BYTES: two blocks that differ in it, given the same writer commands and then
WFLUSH, deliver the same bytes (R7, R113). -/
def Obligations.BufferSizeDoesNotShowInTheBytes : Prop :=
  ∀ (s r t : State) (is : List Instr),
    (∀ i ∈ is, i.mnemonic ∈ [.WBIT, .WBYTE, .WSHORT, .ESYM]) →
    WriterOk s → WriterOk r → s.wrOff = 0 → r.wrOff = 0 → s.snkErr = none → r.snkErr = none → s.busy = false →
    r.busy = false → s.faulted = false → r.faulted = false → r.params.bitOrder = s.params.bitOrder → r.ct = s.ct →
    r.snk = s.snk → runCommands (is ++ [.wflush]) s = .next t → t.faulted = false →
      ∃ u, runCommands (is ++ [.wflush]) r = .next u ∧ u.faulted = false ∧ u.snk = t.snk

/-! ### Encoding and decoding -/

/-- ESCAN over an open, aligned reader appends the codes of the unread bytes, in order, and ends with nothing unread, where
every byte has a code, no source failure lies ahead and the sink takes the bytes that go out (R125, R126). Else the first
event decides: a failure in the chunk that a byte's read requests is E_SRC_IO with its index, a byte with no code E_NOCODE, and
a byte the sink refuses E_SNK_IO with its index (R55, R65, R123). An unaligned reader is E_ALIGN. -/
def Obligations.EscanAppendsTheCodes : Prop :=
  ∀ s : State, s.rdOpen = true → ReaderOk s → WriterOk s →
    (s.rdOff % 8 ≠ 0 → exec .escan s = .next (faultEntry .align (0x80000000#32 ||| BitVec.ofNat 32 s.rdOff) s)) ∧
    (s.rdOff % 8 = 0 → SourceSound s → (∀ y ∈ unreadBytes s, cell s.ct y ≠ none) →
      sinkTakes (outBytes (payloadBits s.ct (unreadBytes s)).length s) s →
      ∃ t, exec .escan s = .next t ∧ Frame (footprint .ESCAN) s t ∧ ReaderOk t ∧ unreadBits t = [] ∧ WriterOk t ∧
        sentBits t = sentBits s ++ payloadBits s.ct (unreadBytes s) ∧
        t.snk.length = s.snk.length + outBytes (payloadBits s.ct (unreadBytes s)).length s) ∧
    (s.rdOff % 8 = 0 → ∀ pre post, unreadBytes s = pre ++ post → (∀ z ∈ pre, cell s.ct z ≠ none) →
      (¬ sinkTakes (outBytes (payloadBits s.ct pre).length s) s → SoundUntil (8 * post.length) s →
        ∃ t, exec .escan s = .next t ∧ t.fault = 0x00000008#32 ∧ s.snkErr = some t.finfo.toNat ∧
          t.finfo = t.snkCount ∧ Grows s t) ∧
      (sinkTakes (outBytes (payloadBits s.ct pre).length s) s → ∀ y rest, post = y :: rest →
        (¬ SoundUntil (8 * rest.length) s →
          ∃ k t, s.src.failAt = some k ∧ exec .escan s = .next t ∧ t.fault = 0x00000007#32 ∧
            t.finfo = failureInfo k ∧ Grows s t) ∧
        (SoundUntil (8 * rest.length) s → cell s.ct y = none →
          ∃ t, exec .escan s = .next t ∧ t.fault = 0x0000000A#32 ∧ t.finfo = y.setWidth 32 ∧ Grows s t)))

/-- A scan that ends with no fault met no source failure, and the fault of one that lies ahead names its index (R55, R69). -/
def Obligations.ScansReportSourceFailures : Prop :=
  ∀ (i : Instr) (s t : State), i ∈ [Instr.fscan, .escan, .dscan] → s.rdOpen = true → ReaderOk s → s.fault = 0#32 →
    ¬ SourceSound s → exec i s = .next t →
      t.faulted = true ∧
        (t.fault = 0x00000007#32 → ∃ k, s.src.failAt = some k ∧ t.finfo = failureInfo k)

/-- The payload law (R126): ROPEN, ESCAN and WFLUSH from an aligned writer with nothing pending add to SNK the codes of the
source bytes in order and then the zero bits that fill the last byte. -/
def Obligations.PayloadLaw : Prop :=
  ∀ (s : State) (xs : List Byte), WriterOk s → s.wrOff = 0 → s.snkErr = none → s.busy = false → s.fault = 0#32 →
    presentation s.srcs (s.rdOpens + 1#32) = ⟨xs, none⟩ → (∀ y ∈ xs, cell s.ct y ≠ none) →
    ∃ t, runCommands [.ropen, .escan, .wflush] s = .next t ∧ t.fault = 0#32 ∧
      bytesBits s.params.bitOrder t.snk = bytesBits s.params.bitOrder s.snk ++ payloadBits s.ct xs ++
        List.replicate (padLen (payloadBits s.ct xs).length) false ∧
      t.snk.length = s.snk.length + ((payloadBits s.ct xs).length + 7) / 8

/-- DTRIE (R127, R128): with no two codes in conflict it completes, and the trie's TERM nodes stand exactly at the codes,
each its own symbol's; otherwise it raises E_TRIE with the first symbol whose code conflicts with a smaller symbol's. -/
def Obligations.DtrieHoldsTheCodes : Prop :=
  ∀ s : State,
    ((∀ x y : Byte, x.toNat < y.toNat → ¬ Conflict s.ct x y) →
      ∃ t, exec .dtrie s = .next t ∧ Frame (footprint .DTRIE) s t ∧ TrieHolds t.trie s.ct) ∧
    ∀ y : Byte, (∃ x : Byte, x.toNat < y.toNat ∧ Conflict s.ct x y) →
      (∀ x z : Byte, x.toNat < z.toNat → z.toNat < y.toNat → ¬ Conflict s.ct x z) →
      exec .dtrie s = .next (faultEntry .trie (0x01000000#32 ||| y.setWidth 32) s)

/-- DSYM (R129, R130): a whole code that is unread gives 0x100 and its symbol; a source that ends at a symbol boundary gives
0, and one that ends inside a code 0x200 with its bits consumed; a bit with no child is E_TRIE with the depth of the missing
node. A failure in a chunk that the bits of the walk request is E_SRC_IO with its index (R55, R56); one beyond is not met. -/
def Obligations.DsymDecodesOneSymbol : Prop :=
  ∀ s : State, s.rdOpen = true → ReaderOk s → TrieOk s →
    (∀ code y rest, unreadBits s = code ++ rest → code ≠ [] → s.trie.lookup code = some (.term y) →
      (SoundUntil rest.length s →
        ∃ t, exec .dsym s = .next t ∧ Frame (footprint .DSYM) s t ∧ ReaderOk t ∧ (SourceSound s → SourceSound t) ∧
          unreadBits t = rest ∧ t.result.toNat = 0x100 + y.toNat) ∧
      (¬ SoundUntil rest.length s →
        ∃ k, s.src.failAt = some k ∧ exec .dsym s = .next (faultEntry .srcIo (failureInfo k) s))) ∧
    (unreadBits s = [] → ∃ t, exec .dsym s = .next t ∧ Frame (footprint .DSYM) s t ∧ t.result = 0x00000000#32) ∧
    (unreadBits s ≠ [] → s.trie.lookup (unreadBits s) = some .inner →
      (SourceSound s →
        ∃ t, exec .dsym s = .next t ∧ Frame (footprint .DSYM) s t ∧ t.result = 0x00000200#32 ∧ unreadBits t = []) ∧
      (¬ SourceSound s →
        ∃ k, s.src.failAt = some k ∧ exec .dsym s = .next (faultEntry .srcIo (failureInfo k) s))) ∧
    ∀ path b rest, unreadBits s = path ++ b :: rest → (path = [] ∨ s.trie.lookup path = some .inner) →
      s.trie.lookup (path ++ [b]) = none →
      (SoundUntil rest.length s →
        exec .dsym s = .next (faultEntry .trie (0x02000000#32 ||| BitVec.ofNat 32 (path.length + 1)) s)) ∧
      (¬ SoundUntil rest.length s →
        ∃ k, s.src.failAt = some k ∧ exec .dsym s = .next (faultEntry .srcIo (failureInfo k) s))

/-- DSCAN from an aligned writer (R131): whole codes that are unread are written as their symbols, in order, and a partial
path at the end of the source is dropped with no fault; a bit with no child after them is E_TRIE with its depth. Where the
sink refuses a byte that goes out it is E_SNK_IO with the byte's index (R65); a failure in a chunk that a bit of the walk
requests is E_SRC_IO with its index (R55, R56). -/
def Obligations.DscanDecodesToTheEnd : Prop :=
  ∀ (s : State) (codes : List (Bits × Byte)) (tail : Bits), s.rdOpen = true → ReaderOk s → TrieOk s → WriterOk s →
    s.wrOff % 8 = 0 → unreadBits s = codes.flatMap Prod.fst ++ tail →
    (∀ x ∈ codes, x.1 ≠ [] ∧ s.trie.lookup x.1 = some (.term x.2)) →
    (¬ sinkTakes (outBytes (8 * codes.length) s) s → SoundUntil tail.length s →
      ∃ t, exec .dscan s = .next t ∧ t.fault = 0x00000008#32 ∧ s.snkErr = some t.finfo.toNat ∧ t.finfo = t.snkCount ∧
        Grows s t) ∧
    (sinkTakes (outBytes (8 * codes.length) s) s →
      ((tail = [] ∨ s.trie.lookup tail = some .inner) →
        (SourceSound s →
          ∃ t, exec .dscan s = .next t ∧ Frame (footprint .DSCAN) s t ∧ unreadBits t = [] ∧ WriterOk t ∧
            sentBits t = sentBits s ++ bytesBits s.params.bitOrder (codes.map Prod.snd)) ∧
        (¬ SourceSound s →
          ∃ k t, s.src.failAt = some k ∧ exec .dscan s = .next t ∧ t.fault = 0x00000007#32 ∧ t.finfo = failureInfo k ∧
            Grows s t)) ∧
      ∀ path b rest, tail = path ++ b :: rest → (path = [] ∨ s.trie.lookup path = some .inner) →
        (SoundUntil rest.length s → s.trie.lookup (path ++ [b]) = none →
          ∃ t, exec .dscan s = .next t ∧ t.fault = 0x00000009#32 ∧
            t.finfo = 0x02000000#32 ||| BitVec.ofNat 32 (path.length + 1) ∧ Grows s t) ∧
        (¬ SoundUntil rest.length s →
          ∃ k t, s.src.failAt = some k ∧ exec .dscan s = .next t ∧ t.fault = 0x00000007#32 ∧ t.finfo = failureInfo k ∧
            Grows s t))

/-- DSCAN from an unaligned writer raises E_ALIGN with WR_OFF at the first symbol it decodes (R131), or E_SRC_IO where a chunk
that the symbol's code requests fails (R55, R56). -/
def Obligations.DscanNeedsAnAlignedWriter : Prop :=
  ∀ (s : State) (code : Bits) (y : Byte) (rest : Bits), s.rdOpen = true → ReaderOk s → TrieOk s → s.wrOff % 8 ≠ 0 →
    unreadBits s = code ++ rest → code ≠ [] → s.trie.lookup code = some (.term y) →
    (SoundUntil rest.length s → exec .dscan s = .next (faultEntry .align (BitVec.ofNat 32 s.wrOff) s)) ∧
    (¬ SoundUntil rest.length s →
      ∃ k t, s.src.failAt = some k ∧ exec .dscan s = .next t ∧ t.fault = 0x00000007#32 ∧ t.finfo = failureInfo k ∧
        Grows s t)

/-- Round trip as the rules give it (R81, R82, R132, R133): COMPRESS of a byte sequence presented on both opens delivers a
stream, and DECOMPRESS of that stream, with the same bit order, delivers the sequence again, followed, where it was not
empty, by z div d copies of the symbol whose code is all zeros, d being that code's length and z the payload's padding. -/
def Obligations.CompressThenDecompress : Prop :=
  ∀ (s : State) (xs : List Byte), s.params.legal = true → s.busy = false → s.faulted = false → s.snkErr = none →
    presentation s.srcs 1#32 = ⟨xs, none⟩ → presentation s.srcs 2#32 = ⟨xs, none⟩ →
    xs.length < 2 ^ s.params.wCnt →
    ∃ t stream, runCommands compressCommands s = .next t ∧ t.faulted = false ∧ t.snk = s.snk ++ stream ∧
      ∀ r : State, r.params.legal = true → r.params.bitOrder = s.params.bitOrder → r.busy = false →
        r.faulted = false → r.snkErr = none → presentation r.srcs 1#32 = ⟨stream, none⟩ →
        ∃ u, runCommands decompressCommands r = .next u ∧ u.faulted = false ∧
          (xs = [] → u.snk = r.snk) ∧
          (xs ≠ [] → ∃ s0 d, 0 < d ∧ cell t.ct s0 = some (List.replicate d false) ∧
            u.snk = r.snk ++ xs ++ List.replicate (padLen (payloadBits t.ct xs).length / d) s0)

end Statements
end

