-- ==== Sys2Proof/Laws/Tables.lean ====
section
/-! SUPPORT. Laws of the 256-entry tables and of the bits inside bytes (10_state.md R32, R35, R38). -/

namespace Sys2Proof.Machine
open Sys2Proof

/-! ### Tables -/

@[simp] theorem cell_setCell_same {α : Type} (t : Table α) (y : Byte) (a : α) : cell (setCell t y a) y = a := by
  simp [cell, setCell]

theorem cell_setCell_ne {α : Type} (t : Table α) {y z : Byte} (a : α) (h : z ≠ y) :
    cell (setCell t y a) z = cell t z := by
  have h' : y.toNat ≠ z.toNat := fun e => h (BitVec.eq_of_toNat_eq e.symm)
  simp [cell, setCell, h']

theorem cell_setCell {α : Type} (t : Table α) (y z : Byte) (a : α) :
    cell (setCell t y a) z = if z = y then a else cell t z := by
  by_cases h : z = y
  · simp [h]
  · simp [h, cell_setCell_ne]

@[simp] theorem cell_constTable {α : Type} (a : α) (y : Byte) : cell (constTable a) y = a := by
  simp [cell, constTable]

theorem Table.ext_cell {α : Type} {t u : Table α} (h : ∀ y, cell t y = cell u y) : t = u := by
  apply Vector.ext
  intro i hi
  have := h (BitVec.ofNat 8 i)
  simpa [cell, Nat.mod_eq_of_lt hi] using this

theorem mem_allBytes (y : Byte) : y ∈ allBytes := by
  simp only [allBytes, List.mem_map, List.mem_range]
  exact ⟨y.toNat, y.isLt, by simp⟩

theorem nodup_allBytes : allBytes.Nodup := by
  unfold allBytes
  refine List.Nodup.map_on ?_ List.nodup_range
  intro a ha b hb h
  have := congrArg BitVec.toNat h
  simp only [List.mem_range] at ha hb
  simpa [Nat.mod_eq_of_lt ha, Nat.mod_eq_of_lt hb] using this

theorem allBytes_length : allBytes.length = 256 := by simp [allBytes]

/-- The cells of a table in ascending symbol value. -/
theorem toList_eq_map_cell {α : Type} (t : Table α) : t.toList = allBytes.map (cell t) := by
  apply List.ext_getElem
  · simp [allBytes]
  · intro i h1 h2
    have hi : i < 256 := by simpa using h1
    simp [allBytes, cell, Nat.mod_eq_of_lt hi]

/-! ### Bits of bytes -/

@[simp] theorem byteBits_length (o : Config.BitOrder) (y : Byte) : (byteBits o y).length = 8 := by simp [byteBits]

@[simp] theorem bytesBits_nil (o : Config.BitOrder) : bytesBits o [] = [] := rfl

@[simp] theorem bytesBits_cons (o : Config.BitOrder) (y : Byte) (ys : List Byte) :
    bytesBits o (y :: ys) = byteBits o y ++ bytesBits o ys := rfl

@[simp] theorem bytesBits_append (o : Config.BitOrder) (xs ys : List Byte) :
    bytesBits o (xs ++ ys) = bytesBits o xs ++ bytesBits o ys := by simp [bytesBits]

@[simp] theorem bytesBits_length (o : Config.BitOrder) (ys : List Byte) : (bytesBits o ys).length = 8 * ys.length := by
  induction ys with
  | nil => rfl
  | cons y ys ih => simp [ih]; omega

theorem bytesBits_take (o : Config.BitOrder) (n : Nat) (ys : List Byte) :
    bytesBits o (ys.take n) = (bytesBits o ys).take (8 * n) := by
  induction ys generalizing n with
  | nil => simp
  | cons y ys ih =>
    cases n with
    | zero => simp
    | succ n => simp [ih, Nat.mul_succ, List.take_append, List.take_of_length_le]

theorem bytesBits_drop (o : Config.BitOrder) (n : Nat) (ys : List Byte) :
    bytesBits o (ys.drop n) = (bytesBits o ys).drop (8 * n) := by
  induction ys generalizing n with
  | nil => simp
  | cons y ys ih =>
    cases n with
    | zero => simp
    | succ n => simp [ih, Nat.mul_succ, List.drop_append, List.drop_of_length_le]

theorem bitPos_lt (o : Config.BitOrder) (k : Nat) : bitPos o k < 8 := by
  cases o <;> simp [bitPos] <;> omega

theorem bitPos_mod (o : Config.BitOrder) (k : Nat) : bitPos o (k % 8) = bitPos o k := by
  cases o <;> simp [bitPos]

theorem bitPos_inj (o : Config.BitOrder) {j k : Nat} (h : bitPos o j = bitPos o k) : j % 8 = k % 8 := by
  cases o <;> simp [bitPos] at h <;> omega

/-- Stream bit `k` of a byte array is bit `k` of its bit string (R49). -/
theorem bitAt_eq_getD (o : Config.BitOrder) (buf : List Byte) (k : Nat) :
    bitAt o buf k = (bytesBits o buf).getD k false := by
  induction buf generalizing k with
  | nil => simp [bitAt]
  | cons y ys ih =>
    by_cases h : k < 8
    · have : k / 8 = 0 := by omega
      simp only [bitAt, this, bytesBits_cons]
      rw [List.getD_append _ _ _ _ (by simpa using h)]
      simp [byteBits, h]
    · obtain ⟨j, rfl⟩ : ∃ j, k = j + 8 := ⟨k - 8, by omega⟩
      have e : (j + 8) / 8 = j / 8 + 1 := by omega
      rw [bytesBits_cons, List.getD_append_right _ _ _ _ (by simp), byteBits_length, Nat.add_sub_cancel, ← ih]
      simp only [bitAt, e, List.getD_cons_succ]
      rw [← bitPos_mod o (j + 8), Nat.add_mod_right, bitPos_mod]

theorem byteBits_zero (o : Config.BitOrder) : byteBits o 0#8 = List.replicate 8 false := by
  cases o <;> decide

theorem bytesBits_zeros (o : Config.BitOrder) (n : Nat) :
    bytesBits o (List.replicate n 0#8) = List.replicate (8 * n) false := by
  induction n with
  | zero => rfl
  | succ n ih =>
    rw [List.replicate_succ, bytesBits_cons, ih, byteBits_zero, ← List.replicate_add]
    congr 1
    omega

theorem bytesBits_set (o : Config.BitOrder) (buf : List Byte) (i : Nat) (y : Byte) (h : i < buf.length) :
    bytesBits o (buf.set i y) =
      (bytesBits o buf).take (8 * i) ++ byteBits o y ++ (bytesBits o buf).drop (8 * (i + 1)) := by
  rw [List.set_eq_take_append_cons_drop, if_pos h, bytesBits_append, bytesBits_cons, bytesBits_take, bytesBits_drop,
    List.append_assoc]

/-- Two byte strings with the same bits are the same. -/
theorem byteBits_inj (o : Config.BitOrder) {x y : Byte} (h : byteBits o x = byteBits o y) : x = y := by
  apply BitVec.eq_of_getLsbD_eq
  intro i hi
  have key : ∀ k, k < 8 → x.getLsbD (bitPos o k) = y.getLsbD (bitPos o k) := by
    intro k hk
    have := congrArg (fun l => l[k]?) h
    simpa [byteBits, hk] using this
  cases o with
  | msbFirst =>
    have := key (7 - i) (by omega)
    have e : bitPos .msbFirst (7 - i) = i := by simp [bitPos]; omega
    rwa [e] at this
  | lsbFirst =>
    have := key i hi
    have e : bitPos .lsbFirst i = i := by simp [bitPos]; omega
    rwa [e] at this

theorem setBit_length (o : Config.BitOrder) (buf : List Byte) (k : Nat) : (setBit o buf k).length = buf.length := by
  simp [setBit]

theorem bitAt_setBit (o : Config.BitOrder) (buf : List Byte) {j k : Nat} (hk : k < 8 * buf.length) :
    bitAt o (setBit o buf k) j = (bitAt o buf j || decide (j = k)) := by
  have hk' : k / 8 < buf.length := by omega
  by_cases hjk : j / 8 = k / 8
  · simp only [bitAt, setBit, hjk]
    rw [show (buf.set (k / 8) _).getD (k / 8) 0#8 = _ by
      rw [List.getD_eq_getElem?_getD, List.getElem?_set_self hk', Option.getD_some]]
    have hp := bitPos_lt o j
    by_cases e : bitPos o j = bitPos o k
    · have := bitPos_inj o e
      have ejk : j = k := by omega
      simp [ejk, bitPos_lt]
    · have ejk : j ≠ k := fun h => e (by rw [h])
      simp only [BitVec.getLsbD_or, BitVec.getLsbD_shiftLeft, ejk, decide_false]
      congr 1
      simp
      omega
  · have ejk : j ≠ k := fun h => hjk (by rw [h])
    simp [bitAt, setBit, ejk, List.getElem?_set_ne (fun h => hjk h.symm)]

/-! ### The computed registers of the window -/

/-- A table has at most 256 cells with a property. -/
theorem countP_table_le {α : Type} (p : α → Bool) (t : Table α) : t.toList.countP p ≤ 256 :=
  List.countP_le_length.trans (by simp)

/-- With no fault NFREQ is computed from FREQ (R26). -/
theorem nfreqWord_running {s : State} (h : s.faulted = false) :
    nfreqWord s = BitVec.ofNat 32 (s.freq.toList.countP (· != 0)) := if_neg (by simp [h])

/-- With no fault NCODE is computed from CT (R27). -/
theorem ncodeWord_running {s : State} (h : s.faulted = false) : ncodeWord s = BitVec.ofNat 32 (codeCount s.ct) :=
  if_neg (by simp [h])

/-- With no fault the WR_OFF register holds the writer's offset (R28). -/
theorem wrOffWord_running {s : State} (h : s.faulted = false) : wrOffWord s = offsetWord s.wrOff := if_neg (by simp [h])

/-- With no fault the RD_OFF register holds the reader's offset (R29). -/
theorem rdOffWord_running {s : State} (h : s.faulted = false) : rdOffWord s = offsetWord s.rdOff := if_neg (by simp [h])

end Sys2Proof.Machine
end

