-- ==== Sys2Proof/Laws/TreeLaws.lean ====
section
/-! SUPPORT. Laws of the tree builder: what the merges of TBUILD end in (42_tree.md R90 to R95). -/

namespace Sys2Proof.Machine

open Sys2Proof

/-! ### The order of keys -/

theorem keyLess_iff {ns : List Node} {j k : Nat} :
    keyLess ns j k = true ↔ weightAt ns j < weightAt ns k ∨ (weightAt ns j = weightAt ns k ∧ j < k) := by
  simp [keyLess]

theorem keyLess_trans {ns : List Node} {i j k : Nat} (h : keyLess ns i j = true) (h' : keyLess ns j k = true) :
    keyLess ns i k = true := by
  rw [keyLess_iff] at *
  omega

theorem keyLess_total {ns : List Node} {j k : Nat} (h : j ≠ k) (h' : ¬ keyLess ns j k = true) :
    keyLess ns k j = true := by
  rw [keyLess_iff] at *
  omega

/-- The least element of a queue (R92). -/
theorem leastKey_some {ns : List Node} {q : List Nat} {a : Nat} (h : leastKey ns q = some a) :
    a ∈ q ∧ ∀ j ∈ q, j ≠ a → keyLess ns a j = true := by
  induction q generalizing a with
  | nil => exact nomatch h
  | cons k q ih =>
    unfold leastKey at h
    cases hq : leastKey ns q with
    | none =>
      rw [hq] at h
      simp only [Option.some.injEq] at h
      subst h
      have hnil : q = [] := by
        cases q with
        | nil => rfl
        | cons b q =>
          unfold leastKey at hq
          split at hq
          · exact nomatch hq
          · split at hq <;> exact nomatch hq
      subst hnil
      simp
    | some b =>
      rw [hq] at h
      obtain ⟨m1, m2⟩ := ih hq
      simp only at h
      split at h
      · next hk =>
        simp only [Option.some.injEq] at h
        subst h
        refine ⟨List.mem_cons_of_mem _ m1, fun j hj hne => ?_⟩
        rcases List.mem_cons.mp hj with e | e
        · rw [e]; exact hk
        · exact m2 j e hne
      · next hk =>
        simp only [Option.some.injEq] at h
        subst h
        refine ⟨List.mem_cons_self, fun j hj hne => ?_⟩
        rcases List.mem_cons.mp hj with e | e
        · exact absurd e hne
        · by_cases e' : j = b
          · subst e'
            exact keyLess_total (fun e2 => hne e2) hk
          · by_cases hkb : k = b
            · rw [hkb]; exact m2 j e e'
            · exact keyLess_trans (keyLess_total (Ne.symm hkb) hk) (m2 j e e')

theorem leastKey_none {ns : List Node} {q : List Nat} : leastKey ns q = none ↔ q = [] := by
  constructor
  · intro h
    cases q with
    | nil => rfl
    | cons b q =>
      unfold leastKey at h
      split at h
      · exact nomatch h
      · split at h <;> exact nomatch h
  · rintro rfl; rfl

/-! ### A node appended -/

theorem weightAt_append {ns : List Node} {nd : Node} {k : Nat} (h : k < ns.length) :
    weightAt (ns ++ [nd]) k = weightAt ns k := by
  simp [weightAt, List.getElem?_append_left h]

theorem weightAt_last {ns : List Node} {nd : Node} : weightAt (ns ++ [nd]) ns.length = nd.weight := by
  simp [weightAt]

theorem keyLess_append {ns : List Node} {nd : Node} {j k : Nat} (hj : j < ns.length) (hk : k < ns.length) :
    keyLess (ns ++ [nd]) j k = keyLess ns j k := by
  simp [keyLess, weightAt_append hj, weightAt_append hk]

theorem getElem?_append_cases {ns : List Node} {nd x : Node} {k : Nat} (h : (ns ++ [nd])[k]? = some x) :
    (k < ns.length ∧ ns[k]? = some x) ∨ (k = ns.length ∧ x = nd) := by
  by_cases hk : k < ns.length
  · left; rw [List.getElem?_append_left hk] at h; exact ⟨hk, h⟩
  · right
    rw [List.getElem?_append_right (by omega)] at h
    obtain ⟨h1, h2⟩ := List.getElem?_eq_some_iff.mp h
    simp only [List.length_singleton] at h1
    refine ⟨by omega, ?_⟩
    have : k - ns.length = 0 := by omega
    simpa [this] using h2.symm

theorem lt_of_node {ns : List Node} {k : Nat} {nd : Node} (h : ns[k]? = some nd) : k < ns.length :=
  (List.getElem?_eq_some_iff.mp h).1

/-! ### The loop's invariant -/

/-- Between merges: `ns` are the nodes so far, `n` of them leaves, and `q` holds the slots that are no node's child yet
(R91, R92). -/
structure Merging (ls : List Node) (total : Nat) (ns : List Node) (q : List Nat) : Prop where
  nodup : q.Nodup
  size : q.length + ns.length = 2 * ls.length
  pos : 0 < ls.length → 0 < q.length
  mem : ∀ k, k ∈ q ↔ k < ns.length ∧ ∀ (m : Nat) (nd : Node), ns[m]? = some nd → ¬ nd.hasChild k
  leaves : ls <+: ns
  leaf : ∀ k nd, ns[k]? = some nd → nd.isLeaf = decide (k < ls.length)
  inner : ∀ k z o w, ns[k]? = some (Node.internal z o w) →
    z < k ∧ o < k ∧ z ≠ o ∧ w = weightAt ns z + weightAt ns o
  parent : ∀ (i j k : Nat) (ni nj : Node), ns[i]? = some ni → ns[j]? = some nj → ni.hasChild k → nj.hasChild k → i = j
  order : LeastFirst ns
  sum : (q.map (weightAt ns)).sum = total

theorem Merging.start {ls : List Node} (h : ∀ nd ∈ ls, nd.isLeaf = true) :
    Merging ls ((List.range ls.length).map (weightAt ls)).sum ls (List.range ls.length) := by
  have noInner : ∀ {k z o w : Nat}, ls[k]? ≠ some (Node.internal z o w) := by
    intro k z o w hk
    have := h _ (List.mem_of_getElem? hk)
    exact nomatch this
  have noChild : ∀ {m : Nat} {nd : Node} {k : Nat}, ls[m]? = some nd → ¬ nd.hasChild k := by
    intro m nd k hm hc
    cases nd with
    | leaf _ _ => exact hc
    | internal z o w => exact noInner hm
  refine ⟨List.nodup_range, by simp; omega, by simp, fun k => ?_, List.prefix_rfl, fun k nd hk => ?_,
    fun k z o w hk => absurd hk noInner, fun i j k ni nj hi _ hc _ => absurd hc (noChild hi),
    fun k z o w hk => absurd hk noInner, rfl⟩
  · simp only [List.mem_range]
    exact ⟨fun hk => ⟨hk, fun m nd hm => noChild hm⟩, fun hk => hk.1⟩
  · rw [h nd (List.mem_of_getElem? hk)]
    simp [lt_of_node hk]

/-- One merge keeps the invariant. -/
theorem Merging.step {ls : List Node} {total : Nat} {ns : List Node} {q : List Nat} {a b : Nat}
    (h : Merging ls total ns q) (ha : leastKey ns q = some a) (hb : leastKey ns (q.erase a) = some b) :
    Merging ls total (ns ++ [.internal a b (weightAt ns a + weightAt ns b)])
      ((q.erase a).erase b ++ [ns.length]) := by
  obtain ⟨a1, a2⟩ := leastKey_some ha
  obtain ⟨b1, b2⟩ := leastKey_some hb
  have bq : b ∈ q := List.mem_of_mem_erase b1
  have hab : a ≠ b := fun e => by rw [e] at b1; exact absurd b1 (h.nodup.not_mem_erase)
  have nd1 : (q.erase a).Nodup := h.nodup.erase a
  have len1 : (q.erase a).length = q.length - 1 := List.length_erase_of_mem a1
  have len2 : ((q.erase a).erase b).length = q.length - 1 - 1 := by rw [List.length_erase_of_mem b1, len1]
  have two : 2 ≤ q.length := by
    have := List.length_pos_of_mem b1
    omega
  have al := ((h.mem a).mp a1).1
  have bl := ((h.mem b).mp bq).1
  have memE : ∀ k, k ∈ (q.erase a).erase b ↔ k ∈ q ∧ k ≠ a ∧ k ≠ b := by
    intro k
    rw [nd1.mem_erase_iff, h.nodup.mem_erase_iff]
    tauto
  have notMem : ns.length ∉ (q.erase a).erase b := fun hm => by
    have := ((h.mem _).mp ((memE _).mp hm).1).1
    omega
  constructor
  · rw [List.nodup_append]
    refine ⟨nd1.erase b, by simp, ?_⟩
    intro x hx y hy e
    simp only [List.mem_singleton] at hy
    rw [e, hy] at hx
    exact notMem hx
  · have := h.size
    simp only [List.length_append, List.length_singleton, len2]
    omega
  · intro _; simp
  · intro k
    rw [List.mem_append, memE, List.mem_singleton, List.length_append, List.length_singleton]
    constructor
    · rintro (⟨hk, hka, hkb⟩ | rfl)
      · obtain ⟨k1, k2⟩ := (h.mem k).mp hk
        refine ⟨by omega, fun m nd hm hc => ?_⟩
        rcases getElem?_append_cases hm with ⟨_, hm'⟩ | ⟨_, rfl⟩
        · exact k2 m nd hm' hc
        · rcases hc with e | e
          · exact hka e
          · exact hkb e
      · refine ⟨by omega, fun m nd hm hc => ?_⟩
        rcases getElem?_append_cases hm with ⟨_, hm'⟩ | ⟨_, rfl⟩
        · cases nd with
          | leaf _ _ => exact hc
          | internal z o w =>
            obtain ⟨i1, i2, -⟩ := h.inner _ _ _ _ hm'
            have := lt_of_node hm'
            rcases hc with e | e <;> omega
        · rcases hc with e | e <;> omega
    · rintro ⟨hk, hno⟩
      by_cases e : k = ns.length
      · exact .inr e
      · left
        refine ⟨(h.mem k).mpr ⟨by omega, fun m nd hm => hno m nd ?_⟩, ?_, ?_⟩
        · rw [List.getElem?_append_left (lt_of_node hm)]; exact hm
        · rintro rfl
          exact hno ns.length _ List.getElem?_concat_length (Or.inl rfl)
        · rintro rfl
          exact hno ns.length _ List.getElem?_concat_length (Or.inr rfl)
  · exact h.leaves.trans (List.prefix_append _ _)
  · intro k nd hk
    rcases getElem?_append_cases hk with ⟨_, hk'⟩ | ⟨e, rfl⟩
    · exact h.leaf k nd hk'
    · have : ls.length ≤ ns.length := h.leaves.length_le
      simp only [Node.isLeaf, e]
      symm
      simpa using this
  · intro k z o w hk
    rcases getElem?_append_cases hk with ⟨hl, hk'⟩ | ⟨e, e'⟩
    · obtain ⟨i1, i2, i3, i4⟩ := h.inner _ _ _ _ hk'
      refine ⟨i1, i2, i3, ?_⟩
      rw [weightAt_append (by omega), weightAt_append (by omega)]
      exact i4
    · simp only [Node.internal.injEq] at e'
      obtain ⟨rfl, rfl, rfl⟩ := e'
      rw [weightAt_append al, weightAt_append bl]
      exact ⟨by omega, by omega, hab, rfl⟩
  · have fresh : ∀ {i k : Nat} {ni : Node}, ns[i]? = some ni → ni.hasChild k →
        ¬ (Node.internal a b (weightAt ns a + weightAt ns b)).hasChild k := by
      intro i k ni hi hc hk
      rcases hk with e | e
      · subst e; exact ((h.mem _).mp a1).2 i ni hi hc
      · subst e; exact ((h.mem _).mp bq).2 i ni hi hc
    intro i j k ni nj hi hj hci hcj
    rcases getElem?_append_cases hi with ⟨_, hi'⟩ | ⟨ei, rfl⟩
    · rcases getElem?_append_cases hj with ⟨_, hj'⟩ | ⟨ej, rfl⟩
      · exact h.parent i j k ni nj hi' hj' hci hcj
      · exact absurd hcj (fresh hi' hci)
    · rcases getElem?_append_cases hj with ⟨_, hj'⟩ | ⟨ej, rfl⟩
      · exact absurd hci (fresh hj' hcj)
      · omega
  · intro k z o w hk
    rcases getElem?_append_cases hk with ⟨hl, hk'⟩ | ⟨e, e'⟩
    · obtain ⟨o1, o2⟩ := h.order _ _ _ _ hk'
      obtain ⟨i1, i2, -⟩ := h.inner _ _ _ _ hk'
      refine ⟨by rw [keyLess_append (by omega) (by omega)]; exact o1, fun j hj hjz hjo hno => ?_⟩
      rw [keyLess_append (by omega) (by omega)]
      refine o2 j hj hjz hjo fun m nd hm hm' => hno m nd hm ?_
      rw [List.getElem?_append_left (by omega)]
      exact hm'
    · simp only [Node.internal.injEq] at e'
      obtain ⟨rfl, rfl, rfl⟩ := e'
      refine ⟨?_, fun j hj hjz hjo hno => ?_⟩
      · rw [keyLess_append al bl]
        exact a2 _ bq (Ne.symm hab)
      · rw [e] at hj
        rw [keyLess_append bl hj]
        have jq : j ∈ q := (h.mem j).mpr ⟨hj, fun m nd hm =>
          hno m nd (by rw [e]; exact lt_of_node hm) (by rw [List.getElem?_append_left (lt_of_node hm)]; exact hm)⟩
        exact b2 j (h.nodup.mem_erase_iff.mpr ⟨hjz, jq⟩) hjo
  · have hmap : ((q.erase a).erase b).map (weightAt (ns ++ [.internal a b (weightAt ns a + weightAt ns b)])) =
        ((q.erase a).erase b).map (weightAt ns) :=
      List.map_congr_left fun k hk => weightAt_append ((h.mem k).mp ((memE k).mp hk).1).1
    rw [List.map_append, List.sum_append, hmap, List.map_singleton, List.sum_singleton, weightAt_last, Node.weight,
      ← h.sum]
    have e1 : (q.map (weightAt ns)).sum = weightAt ns a + ((q.erase a).map (weightAt ns)).sum := by
      rw [((List.perm_cons_erase a1).map _).sum_eq, List.map_cons, List.sum_cons]
    have e2 : ((q.erase a).map (weightAt ns)).sum = weightAt ns b + (((q.erase a).erase b).map (weightAt ns)).sum := by
      rw [((List.perm_cons_erase b1).map _).sum_eq, List.map_cons, List.sum_cons]
    omega

theorem Merging.weight_le {ls : List Node} {total : Nat} {ns : List Node} {q : List Nat} (h : Merging ls total ns q)
    {a b : Nat} (ha : a ∈ q) (hb : b ∈ q.erase a) : weightAt ns a + weightAt ns b ≤ total := by
  rw [← h.sum]
  have e1 : (q.map (weightAt ns)).sum = weightAt ns a + ((q.erase a).map (weightAt ns)).sum := by
    rw [((List.perm_cons_erase ha).map _).sum_eq, List.map_cons, List.sum_cons]
  have e2 : ((q.erase a).map (weightAt ns)).sum = weightAt ns b + (((q.erase a).erase b).map (weightAt ns)).sum := by
    rw [((List.perm_cons_erase hb).map _).sum_eq, List.map_cons, List.sum_cons]
  omega

/-- What the merges end in (R92, R95): the finished tree with every weight below `2^W`, or the slot of a merge whose weight
would not fit, and then the sum of all counts does not fit either. -/
theorem mergeAll_sat (w : Nat) {ls : List Node} {total : Nat} (fuel : Nat) {ns : List Node} {q : List Nat}
    (h : Merging ls total ns q) (hf : q.length ≤ fuel + 1) :
    match mergeAll w fuel ns q with
    | .tree ns' r => ∃ q', Merging ls total ns' q' ∧ q'.length ≤ 1 ∧ r = q'.head? ∧
        ((∀ nd ∈ ns, nd.weight < 2 ^ w) → ∀ nd ∈ ns', nd.weight < 2 ^ w)
    | .overflow k => 2 ^ w ≤ total ∧ ls.length ≤ k ∧ k + 1 < 2 * ls.length := by
  induction fuel generalizing ns q with
  | zero => exact ⟨q, h, hf, rfl, id⟩
  | succ n ih =>
    unfold mergeAll
    cases ha : leastKey ns q with
    | none =>
      have : q = [] := leastKey_none.mp ha
      exact ⟨q, h, by simp [this], by simp [this], id⟩
    | some a =>
      obtain ⟨a1, a2⟩ := leastKey_some ha
      simp only
      cases hb : leastKey ns (q.erase a) with
      | none =>
        have he : q.erase a = [] := leastKey_none.mp hb
        have hl : (q.erase a).length = q.length - 1 := List.length_erase_of_mem a1
        rw [he] at hl
        have : q.length ≤ 1 := by simp at hl; omega
        refine ⟨q, h, this, ?_, id⟩
        cases q with
        | nil => exact nomatch a1
        | cons x q =>
          have : q = [] := by
            cases q with
            | nil => rfl
            | cons _ _ => simp at this
          subst this
          simpa using a1
      | some b =>
        obtain ⟨b1, b2⟩ := leastKey_some hb
        have hl : (q.erase a).length = q.length - 1 := List.length_erase_of_mem a1
        have hp := List.length_pos_of_mem b1
        have hs := h.size
        simp only
        by_cases ho : 2 ^ w ≤ weightAt ns a + weightAt ns b
        · rw [if_pos ho]
          have := h.leaves.length_le
          exact ⟨le_trans ho (h.weight_le a1 b1), this, by omega⟩
        · rw [if_neg ho]
          have hl2 : ((q.erase a).erase b).length = q.length - 1 - 1 := by rw [List.length_erase_of_mem b1, hl]
          have hi := ih (h.step ha hb) (by simp [hl2]; omega)
          cases hm : mergeAll w n (ns ++ [.internal a b (weightAt ns a + weightAt ns b)])
              ((q.erase a).erase b ++ [ns.length]) with
          | overflow k => rw [hm] at hi; exact hi
          | tree ns' r =>
            rw [hm] at hi
            obtain ⟨q', m1, m2, m3, m4⟩ := hi
            refine ⟨q', m1, m2, m3, fun hw => m4 fun nd hnd => ?_⟩
            rcases List.mem_append.mp hnd with e | e
            · exact hw nd e
            · simp only [List.mem_singleton] at e
              subst e
              simpa [Node.weight] using ho

/-- A finished merge is a tree (R34, R95). -/
theorem Merging.treeOf {ls : List Node} {total : Nat} {ns : List Node} {q : List Nat} (h : Merging ls total ns q)
    (hq : q.length ≤ 1)
    (hasc : ∀ (j k : Nat) (x y : Byte) (v w : Nat), j < k → ls[j]? = some (Node.leaf x v) →
      ls[k]? = some (Node.leaf y w) → x.toNat < y.toNat) :
    TreeOf ls.length ns q.head? ∧ (0 < ls.length → weightAt ns (2 * ls.length - 2) = total) := by
  have hs := h.size
  have hp := h.pos
  have hqn : ∀ k, k + 1 = ns.length → k ∈ q := by
    intro k hk
    refine (h.mem k).mpr ⟨by omega, fun m nd hm hc => ?_⟩
    cases nd with
    | leaf _ _ => exact hc
    | internal z o w =>
      obtain ⟨i1, i2, -⟩ := h.inner _ _ _ _ hm
      have := lt_of_node hm
      rcases hc with e | e <;> omega
  have single : 0 < ls.length → q = [2 * ls.length - 2] := by
    intro h0
    have := hp h0
    obtain ⟨x, rfl⟩ := List.length_eq_one_iff.mp (show q.length = 1 by omega)
    have := hqn (2 * ls.length - 2) (by simp at hs; omega)
    simp only [List.mem_singleton] at this
    rw [this]
  have leafIn : ∀ (k : Nat) (y : Byte) (w : Nat), ns[k]? = some (Node.leaf y w) → ls[k]? = some (Node.leaf y w) := by
    intro k y w hk
    have hl := h.leaf k _ hk
    simp only [Node.isLeaf, true_eq_decide_iff] at hl
    obtain ⟨t, ht⟩ := h.leaves
    rw [← ht, List.getElem?_append_left hl] at hk
    exact hk
  refine ⟨⟨?_, ?_, h.leaf, ?_, h.inner, ?_, h.parent⟩, ?_⟩
  · by_cases h0 : ls.length = 0
    · have := h.leaves.length_le
      omega
    · have := hp (by omega)
      omega
  · by_cases h0 : ls.length = 0
    · rw [if_pos h0]
      have : q = [] := List.length_eq_zero_iff.mp (by omega)
      rw [this]; rfl
    · rw [if_neg h0, single (by omega)]; rfl
  · intro j k x y v w hjk hj hk
    exact hasc j k x y v w hjk (leafIn _ _ _ hj) (leafIn _ _ _ hk)
  · intro k hk
    by_contra hno
    have hin : k ∈ q := (h.mem k).mpr ⟨by omega, fun m nd hm hc => hno ⟨m, nd, hm, hc⟩⟩
    have hlast := hqn (ns.length - 1) (by omega)
    have h1 : q.length = 1 := by
      have := List.length_pos_of_mem hin
      omega
    obtain ⟨x, rfl⟩ := List.length_eq_one_iff.mp h1
    simp only [List.mem_singleton] at hin hlast
    omega
  · intro h0
    have := h.sum
    rw [single h0] at this
    simpa using this

/-! ### The leaves -/

theorem leavesOf_eq (t : Table Nat) : leavesOf t = (countedSymbols t).map fun y => .leaf y (cell t y) := rfl

theorem leavesOf_isLeaf (t : Table Nat) : ∀ nd ∈ leavesOf t, nd.isLeaf = true := by
  intro nd h
  simp only [leavesOf, List.mem_map] at h
  obtain ⟨y, -, rfl⟩ := h
  rfl

theorem allBytes_sorted : allBytes.Pairwise fun x y => x.toNat < y.toNat := by
  unfold allBytes
  rw [List.pairwise_map]
  refine (List.pairwise_lt_range (n := 256)).imp_of_mem ?_
  intro a b ha hb h
  simp only [List.mem_range] at ha hb
  simpa [Nat.mod_eq_of_lt ha, Nat.mod_eq_of_lt hb] using h

theorem leavesOf_ascending (t : Table Nat) (j k : Nat) (x y : Byte) (v w : Nat) (hjk : j < k)
    (hj : (leavesOf t)[j]? = some (Node.leaf x v)) (hk : (leavesOf t)[k]? = some (Node.leaf y w)) :
    x.toNat < y.toNat := by
  rw [leavesOf_eq, List.getElem?_map] at hj hk
  obtain ⟨x', hx, ex⟩ := Option.map_eq_some_iff.mp hj
  obtain ⟨y', hy, ey⟩ := Option.map_eq_some_iff.mp hk
  simp only [Node.leaf.injEq] at ex ey
  have hs : (countedSymbols t).Pairwise fun x y => x.toNat < y.toNat := allBytes_sorted.filter _
  obtain ⟨hj', ej⟩ := List.getElem?_eq_some_iff.mp hx
  obtain ⟨hk', ek⟩ := List.getElem?_eq_some_iff.mp hy
  have := List.pairwise_iff_getElem.mp hs j k hj' hk' hjk
  rw [← ex.1, ← ey.1, ← ej, ← ek]
  exact this

theorem leavesOf_sum (t : Table Nat) :
    ((List.range (leavesOf t).length).map (weightAt (leavesOf t))).sum = totalCount t := by
  have e1 : (List.range (leavesOf t).length).map (weightAt (leavesOf t)) = (leavesOf t).map Node.weight := by
    apply List.ext_getElem
    · simp
    · intro i h1 h2
      have h3 : i < (leavesOf t).length := by simpa using h2
      simp [weightAt, h3]
  rw [e1, leavesOf_eq, List.map_map, totalCount, countedSymbols]
  generalize allBytes = l
  induction l with
  | nil => rfl
  | cons y l ih =>
    simp only [List.map_cons, List.sum_cons]
    rw [List.filter_cons]
    split
    · simp only [List.map_cons, List.sum_cons, ih]; rfl
    · next h =>
      have : cell t y = 0 := by simpa using h
      rw [ih, this, Nat.zero_add]

/-- What TBUILD's merges end in (R34, R91, R92, R95). -/
theorem buildTree_sat (w : Nat) (t : Table Nat) :
    match buildTree w t with
    | .tree ns r => TreeOf (countedSymbols t).length ns r ∧ LeastFirst ns ∧ leavesOf t <+: ns ∧
        (0 < (countedSymbols t).length → weightAt ns (2 * (countedSymbols t).length - 2) = totalCount t) ∧
        ((∀ y, cell t y < 2 ^ w) → (∀ nd ∈ ns, nd.weight < 2 ^ w) ∧ totalCount t < 2 ^ w)
    | .overflow k => 2 ^ w ≤ totalCount t ∧ (countedSymbols t).length ≤ k ∧
        k + 1 < 2 * (countedSymbols t).length := by
  have hl : (leavesOf t).length = (countedSymbols t).length := by simp [leavesOf_eq]
  have h0 := Merging.start (leavesOf_isLeaf t)
  rw [leavesOf_sum] at h0
  have := mergeAll_sat w (leavesOf t).length h0 (by simp)
  unfold buildTree
  rw [← hl]
  split
  · next ns r he =>
    rw [he] at this
    obtain ⟨q, h1, h2, h3, h4⟩ := this
    obtain ⟨k1, k2⟩ := h1.treeOf h2 (leavesOf_ascending t)
    rw [← h3] at k1
    refine ⟨k1, h1.order, h1.leaves, k2, fun hw => ?_⟩
    have h5 := h4 fun nd hnd => by
      simp only [leavesOf, List.mem_map] at hnd
      obtain ⟨y, -, rfl⟩ := hnd
      exact hw y
    refine ⟨h5, ?_⟩
    by_cases hp : 0 < (leavesOf t).length
    · rw [← k2 hp]
      have hlt : 2 * (leavesOf t).length - 2 < ns.length := by rw [k1.size]; omega
      have := h5 _ (List.getElem_mem hlt)
      simpa [weightAt, hlt] using this
    · have e0 : leavesOf t = [] := List.length_eq_zero_iff.mp (by omega)
      have := leavesOf_sum t
      rw [e0] at this
      rw [← this]
      exact Nat.two_pow_pos w
  · next k he =>
    rw [he] at this
    exact this

theorem countedSymbols_le (t : Table Nat) : (countedSymbols t).length ≤ 256 := by
  have := List.length_filter_le (fun y => cell t y != 0) allBytes
  rwa [allBytes_length] at this

end Sys2Proof.Machine
end

