-- ==== Sys2Proof/Laws/CodeLaws.lean ====
section
/-! SUPPORT. Laws of the code-table generator: each code is the path to its symbol's leaf (43_codetable.md R97 to R100). -/

namespace Sys2Proof.Machine

open Sys2Proof

/-! ### Paths -/

theorem slotAt_cons {ns : List Node} {k z o w : Nat} (h : ns[k]? = some (.internal z o w)) (b : Bool) (p : Bits) :
    slotAt ns k (b :: p) = slotAt ns (if b then o else z) p := by
  simp [slotAt, h]

theorem slotAt_append (ns : List Node) (k : Nat) (p q : Bits) :
    slotAt ns k (p ++ q) = (slotAt ns k p).bind fun j => slotAt ns j q := by
  induction p generalizing k with
  | nil => rfl
  | cons b p ih =>
    cases h : ns[k]? with
    | none => simp [slotAt, h]
    | some nd =>
      cases nd with
      | leaf _ _ => simp [slotAt, h]
      | internal z o w =>
        rw [List.cons_append, slotAt_cons h, slotAt_cons h]
        exact ih _

/-- A path goes on past a slot only where the slot is an internal node. -/
theorem slotAt_cons_some {ns : List Node} {k j : Nat} {b : Bool} {p : Bits} (h : slotAt ns k (b :: p) = some j) :
    ∃ z o w, ns[k]? = some (.internal z o w) ∧ slotAt ns (if b then o else z) p = some j := by
  cases hk : ns[k]? with
  | none => simp [slotAt, hk] at h
  | some nd =>
    cases nd with
    | leaf _ _ => simp [slotAt, hk] at h
    | internal z o w => exact ⟨z, o, w, rfl, by rwa [slotAt_cons hk] at h⟩

theorem leafAt_nil {ns : List Node} {k : Nat} {y : Byte} : leafAt ns k [] y ↔ ∃ w, ns[k]? = some (.leaf y w) := by
  simp [leafAt, slotAt]

theorem leafAt_cons {ns : List Node} {k z o w : Nat} (h : ns[k]? = some (.internal z o w)) (b : Bool) (p : Bits)
    (y : Byte) : leafAt ns k (b :: p) y ↔ leafAt ns (if b then o else z) p y := by
  simp only [leafAt, slotAt_cons h]

theorem not_leafAt_cons_leaf {ns : List Node} {k : Nat} {x : Byte} {w : Nat} (h : ns[k]? = some (.leaf x w)) (b : Bool)
    (p : Bits) (y : Byte) : ¬ leafAt ns k (b :: p) y := by
  rintro ⟨j, v, h1, -⟩
  simp [slotAt, h] at h1

/-- Paths to two leaves that agree end together. -/
theorem leafAt_prefix {ns : List Node} {k : Nat} {p q : Bits} {x y : Byte} (hp : leafAt ns k p x)
    (hq : leafAt ns k q y) (h : p <+: q) : p = q ∧ x = y := by
  obtain ⟨r, rfl⟩ := h
  obtain ⟨j, v, h1, h2⟩ := hp
  obtain ⟨i, w, k1, k2⟩ := hq
  rw [slotAt_append, h1, Option.bind_some] at k1
  cases r with
  | nil =>
    simp only [slotAt, Option.some.injEq] at k1
    subst k1
    rw [h2] at k2
    simp only [Option.some.injEq, Node.leaf.injEq] at k2
    exact ⟨by simp, k2.1⟩
  | cons b r => simp [slotAt, h2] at k1

/-! ### The walk -/

/-- The walk changes an entry only to the path of a leaf of that symbol (R97). -/
theorem walk_sat (ns : List Node) (n k : Nat) (p : Bits) (t : Table CodeEntry) (y : Byte) :
    (∃ r, leafAt ns k r y ∧ cell (walk ns n k p t) y = some (p ++ r)) ∨ cell (walk ns n k p t) y = cell t y := by
  induction n generalizing k p t with
  | zero => exact .inr rfl
  | succ n ih =>
    unfold walk
    cases hk : ns[k]? with
    | none => exact .inr rfl
    | some nd =>
      cases nd with
      | leaf x w =>
        simp only [cell_setCell]
        split
        · next e =>
          subst e
          exact .inl ⟨[], leafAt_nil.mpr ⟨w, hk⟩, by simp⟩
        · exact .inr rfl
      | internal z o w =>
        simp only
        rcases ih o (p ++ [true]) (walk ns n z (p ++ [false]) t) with ⟨r, h1, h2⟩ | h
        · exact .inl ⟨true :: r, (leafAt_cons hk true r y).mpr (by simpa using h1), by rw [h2]; simp⟩
        · rw [h]
          rcases ih z (p ++ [false]) t with ⟨r, h1, h2⟩ | h'
          · exact .inl ⟨false :: r, (leafAt_cons hk false r y).mpr (by simpa using h1), by rw [h2]; simp⟩
          · exact .inr h'

/-- In a store whose children lie below their parents the walk reaches every leaf. -/
theorem walk_reaches (ns : List Node)
    (hin : ∀ k z o w, ns[k]? = some (Node.internal z o w) → z < k ∧ o < k) (n k : Nat) (p : Bits)
    (t : Table CodeEntry) (y : Byte) (hk : k < n) (h : ∃ r, leafAt ns k r y) :
    ∃ r, leafAt ns k r y ∧ cell (walk ns n k p t) y = some (p ++ r) := by
  induction n generalizing k p t with
  | zero => omega
  | succ n ih =>
    obtain ⟨r, hr⟩ := h
    unfold walk
    cases hnd : ns[k]? with
    | none =>
      obtain ⟨j, w, h1, h2⟩ := hr
      cases r with
      | nil => simp only [slotAt, Option.some.injEq] at h1; subst h1; rw [hnd] at h2; exact nomatch h2
      | cons b r => simp [slotAt, hnd] at h1
    | some nd =>
      cases nd with
      | leaf x w =>
        cases r with
        | nil =>
          obtain ⟨v, hv⟩ := leafAt_nil.mp hr
          rw [hnd] at hv
          simp only [Option.some.injEq, Node.leaf.injEq] at hv
          obtain ⟨rfl, rfl⟩ := hv
          exact ⟨[], hr, by simp⟩
        | cons b r => exact absurd hr (not_leafAt_cons_leaf hnd b r y)
      | internal z o w =>
        obtain ⟨hz, ho⟩ := hin _ _ _ _ hnd
        simp only
        cases r with
        | nil =>
          obtain ⟨v, hv⟩ := leafAt_nil.mp hr
          rw [hnd] at hv
          exact nomatch hv
        | cons b r =>
          rw [leafAt_cons hnd] at hr
          cases b with
          | true =>
            obtain ⟨r', h1, h2⟩ := ih o (p ++ [true]) (walk ns n z (p ++ [false]) t) (by omega) ⟨r, by simpa using hr⟩
            exact ⟨true :: r', (leafAt_cons hnd true r' y).mpr (by simpa using h1), by rw [h2]; simp⟩
          | false =>
            rcases walk_sat ns n o (p ++ [true]) (walk ns n z (p ++ [false]) t) y with ⟨r', h1, h2⟩ | h'
            · exact ⟨true :: r', (leafAt_cons hnd true r' y).mpr (by simpa using h1), by rw [h2]; simp⟩
            · rw [h']
              obtain ⟨r', h1, h2⟩ := ih z (p ++ [false]) t (by omega) ⟨r, by simpa using hr⟩
              exact ⟨false :: r', (leafAt_cons hnd false r' y).mpr (by simpa using h1), by rw [h2]; simp⟩

/-! ### Trees -/

theorem TreeOf.path_le {n : Nat} {ns : List Node} {root : Option Nat} (h : TreeOf n ns root) {k j : Nat} {p : Bits}
    (hp : slotAt ns k p = some j) : p.length ≤ k + 1 - n ∧ j ≤ k := by
  induction p generalizing k with
  | nil =>
    simp only [slotAt, Option.some.injEq] at hp
    simp [hp]
  | cons b p ih =>
    obtain ⟨z, o, w, h1, h2⟩ := slotAt_cons_some hp
    obtain ⟨i1, i2, -⟩ := h.inner _ _ _ _ h1
    have hl := h.leaf _ _ h1
    simp only [Node.isLeaf, false_eq_decide_iff, Nat.not_lt] at hl
    obtain ⟨e1, e2⟩ := ih h2
    rw [List.length_cons]
    cases b with
    | true => simp only [if_true] at e1 e2; omega
    | false => simp only [Bool.false_eq_true, if_false] at e1 e2; omega

/-- A path from a slot back to itself is empty. -/
theorem TreeOf.no_loop {n : Nat} {ns : List Node} {root : Option Nat} (h : TreeOf n ns root) {k : Nat} {p : Bits}
    (hp : slotAt ns k p = some k) : p = [] := by
  cases p with
  | nil => rfl
  | cons b p =>
    obtain ⟨z, o, w, h1, h2⟩ := slotAt_cons_some hp
    obtain ⟨i1, i2, -⟩ := h.inner _ _ _ _ h1
    have := (h.path_le h2).2
    cases b with
    | true => simp only [if_true] at this; omega
    | false => simp only [Bool.false_eq_true, if_false] at this; omega

/-- In a tree at most one path leads from one slot to another. -/
theorem TreeOf.path_unique {n : Nat} {ns : List Node} {root : Option Nat} (h : TreeOf n ns root) {k j : Nat}
    {p q : Bits} (hp : slotAt ns k p = some j) (hq : slotAt ns k q = some j) : p = q := by
  induction p using List.reverseRecOn generalizing q j with
  | nil =>
    simp only [slotAt, Option.some.injEq] at hp
    subst hp
    exact (h.no_loop hq).symm
  | append_singleton p b ih =>
    rcases List.eq_nil_or_concat q with e | ⟨q', c, e⟩
    · subst e
      simp only [slotAt, Option.some.injEq] at hq
      subst hq
      exact absurd (h.no_loop hp) (by simp)
    · rw [List.concat_eq_append] at e
      subst e
      rw [slotAt_append] at hp hq
      obtain ⟨i, hi, hib⟩ := Option.bind_eq_some_iff.mp hp
      obtain ⟨m, hm, hmc⟩ := Option.bind_eq_some_iff.mp hq
      obtain ⟨z, o, w, h1, h2⟩ := slotAt_cons_some hib
      obtain ⟨z', o', w', k1, k2⟩ := slotAt_cons_some hmc
      simp only [slotAt, Option.some.injEq] at h2 k2
      have c1 : (Node.internal z o w).hasChild j := by
        cases b with
        | true => exact .inr (by simpa using h2.symm)
        | false => exact .inl (by simpa using h2.symm)
      have c2 : (Node.internal z' o' w').hasChild j := by
        cases c with
        | true => exact .inr (by simpa using k2.symm)
        | false => exact .inl (by simpa using k2.symm)
      have him := h.parent _ _ _ _ _ h1 k1 c1 c2
      subst him
      rw [h1] at k1
      simp only [Option.some.injEq, Node.internal.injEq] at k1
      obtain ⟨rfl, rfl, rfl⟩ := k1
      rw [ih hi hm]
      have hne := (h.inner _ _ _ _ h1).2.2.1
      cases b <;> cases c <;> simp_all

/-- Each symbol stands at one leaf. -/
theorem TreeOf.leaf_unique {n : Nat} {ns : List Node} {root : Option Nat} (h : TreeOf n ns root) {j k : Nat} {y : Byte}
    {v w : Nat} (hj : ns[j]? = some (.leaf y v)) (hk : ns[k]? = some (.leaf y w)) : j = k := by
  rcases Nat.lt_trichotomy j k with hlt | e | hgt
  · have := h.ascending _ _ _ _ _ _ hlt hj hk; omega
  · exact e
  · have := h.ascending _ _ _ _ _ _ hgt hk hj; omega

theorem TreeOf.leafAt_unique {n : Nat} {ns : List Node} {root : Option Nat} (h : TreeOf n ns root) {k : Nat}
    {p q : Bits} {y : Byte} (hp : leafAt ns k p y) (hq : leafAt ns k q y) : p = q := by
  obtain ⟨i, v, h1, h2⟩ := hp
  obtain ⟨j, w, k1, k2⟩ := hq
  have := h.leaf_unique h2 k2
  subst this
  exact h.path_unique h1 k1

/-- The slots of a tree are filled. -/
theorem TreeOf.node {n : Nat} {ns : List Node} {root : Option Nat} (_h : TreeOf n ns root) {k : Nat}
    (hk : k < ns.length) : ∃ nd, ns[k]? = some nd := ⟨_, List.getElem?_eq_getElem hk⟩

/-- Every long enough bit string runs from a slot through a leaf. -/
theorem TreeOf.leaf_on {n : Nat} {ns : List Node} {root : Option Nat} (h : TreeOf n ns root) (k : Nat) (p : Bits)
    (hk : k < ns.length) (hp : k + 1 - n ≤ p.length) : ∃ c y, c <+: p ∧ leafAt ns k c y := by
  induction p generalizing k with
  | nil =>
    obtain ⟨nd, hnd⟩ := h.node hk
    have hl := h.leaf _ _ hnd
    simp only [List.length_nil, Nat.le_zero_eq] at hp
    rw [show decide (k < n) = true by simp; omega] at hl
    cases nd with
    | leaf y w => exact ⟨[], y, List.prefix_rfl, leafAt_nil.mpr ⟨w, hnd⟩⟩
    | internal z o w => exact nomatch hl
  | cons b p ih =>
    obtain ⟨nd, hnd⟩ := h.node hk
    cases nd with
    | leaf y w => exact ⟨[], y, List.nil_prefix, leafAt_nil.mpr ⟨w, hnd⟩⟩
    | internal z o w =>
      obtain ⟨i1, i2, -⟩ := h.inner _ _ _ _ hnd
      rw [List.length_cons] at hp
      obtain ⟨c, y, c1, c2⟩ := ih (if b then o else z) (by split <;> omega) (by split <;> omega)
      exact ⟨b :: c, y, (List.cons_prefix_cons).mpr ⟨rfl, c1⟩, (leafAt_cons hnd b c y).mpr c2⟩

/-! ### The code table -/

/-- Two codes of one table CGEN makes never agree, from any tree store (R36). -/
theorem codesOf_prefixFree (single1 : Bool) (ns : List Node) (root : Option Nat) :
    PrefixFree (codesOf single1 ns root) := by
  intro y z c d hyz hc hd
  unfold codesOf at hc hd
  split at hc
  · simp at hc
  · next r =>
    simp only at hd
    split at hc
    · next x w hr =>
      rw [hr] at hd
      simp only [cell_setCell, cell_constTable] at hc hd
      split at hc
      · next e =>
        split at hd
        · next e' => exact absurd (e.trans e'.symm) hyz
        · exact nomatch hd
      · exact nomatch hc
    · next hno =>
      have key : ∀ {s e}, cell (walk ns ns.length r [] (constTable none)) s = some e → leafAt ns r e s := by
        intro s e he
        rcases walk_sat ns ns.length r [] (constTable none) s with ⟨p, h1, h2⟩ | h
        · rw [he] at h2
          simp only [List.nil_append, Option.some.injEq] at h2
          rw [h2]; exact h1
        · rw [he] at h; simp at h
      have hd' : cell (walk ns ns.length r [] (constTable none)) z = some d := by
        split at hd
        · next x w hr => exact absurd hr (hno x w)
        · exact hd
      intro hpre
      exact hyz (leafAt_prefix (key hc) (key hd') hpre).2

/-- The codes of a tree of two leaves or more are exactly the paths to its leaves (R97, R99). -/
theorem codesOf_tree {n : Nat} {ns : List Node} {root : Option Nat} (h : TreeOf n ns root) (hn : 2 ≤ n)
    (single1 : Bool) (y : Byte) (c : Bits) :
    cell (codesOf single1 ns root) y = some c ↔ leafAt ns (2 * n - 2) c y := by
  have hr : root = some (2 * n - 2) := by rw [h.top, if_neg (by omega)]
  have hlt : 2 * n - 2 < ns.length := by rw [h.size]; omega
  have e : codesOf single1 ns root = walk ns ns.length (2 * n - 2) [] (constTable none) := by
    rw [hr, codesOf]
    split
    · next x w hx =>
      have := h.leaf _ _ hx
      simp only [Node.isLeaf, true_eq_decide_iff] at this
      omega
    · rfl
  rw [e]
  constructor
  · intro hc
    rcases walk_sat ns ns.length (2 * n - 2) [] (constTable none) y with ⟨p, h1, h2⟩ | h'
    · rw [hc] at h2
      simp only [List.nil_append, Option.some.injEq] at h2
      rw [h2]; exact h1
    · rw [hc] at h'; simp at h'
  · intro hc
    obtain ⟨r, h1, h2⟩ := walk_reaches ns (fun k z o w hk => ⟨(h.inner k z o w hk).1, (h.inner k z o w hk).2.1⟩)
      ns.length (2 * n - 2) [] (constTable none) y hlt ⟨c, hc⟩
    rw [h2, h.leafAt_unique hc h1]
    rfl

/-- No code of a tree of at most 256 leaves is longer than 255 bits (R95). -/
theorem codesOf_ok {n : Nat} {ns : List Node} {root : Option Nat} (h : TreeOf n ns root) (hn : n ≤ 256)
    (single1 : Bool) : CodesOk (codesOf single1 ns root) := by
  intro y c hc
  by_cases h2 : 2 ≤ n
  · rw [codesOf_tree h h2] at hc
    obtain ⟨j, w, h1, -⟩ := hc
    have := (h.path_le h1).1
    simp only [Config.maxLen]
    omega
  · have h1 : c.length ≤ 1 := by
      by_cases h0 : n = 0
      · have : root = none := by rw [h.top, if_pos h0]
        rw [this] at hc
        simp [codesOf] at hc
      · have hr : root = some 0 := by rw [h.top, if_neg h0]; congr 1; omega
        rw [hr, codesOf] at hc
        obtain ⟨nd, hnd⟩ := h.node (k := 0) (by rw [h.size]; omega)
        have hl := h.leaf _ _ hnd
        cases nd with
        | internal z o w => simp only [Node.isLeaf, false_eq_decide_iff] at hl; omega
        | leaf x w =>
          rw [hnd] at hc
          simp only [cell_setCell, cell_constTable] at hc
          split at hc
          · simp only [Option.some.injEq] at hc
            rw [← hc]
            split <;> simp
          · exact nomatch hc
    simp only [Config.maxLen]
    omega

end Sys2Proof.Machine
end

