-- ==== Sys2Proof/Laws/State.lean ====
section
/-! SUPPORT. One lemma per field per named update of State (Machine/Ops.lean), and what entering the fault state and reset
leave. -/

namespace Sys2Proof.Machine

open Sys2Proof

variable (s : State)

/-! ### setResult -/

@[simp] theorem State.setResult_params (v : Word) : (s.setResult v).params = s.params := rfl
@[simp] theorem State.setResult_result (v : Word) : (s.setResult v).result = v := rfl
@[simp] theorem State.setResult_fault (v : Word) : (s.setResult v).fault = s.fault := rfl
@[simp] theorem State.setResult_finfo (v : Word) : (s.setResult v).finfo = s.finfo := rfl
@[simp] theorem State.setResult_ctrl (v : Word) : (s.setResult v).ctrl = s.ctrl := rfl
@[simp] theorem State.setResult_snkCount (v : Word) : (s.setResult v).snkCount = s.snkCount := rfl
@[simp] theorem State.setResult_busy (v : Word) : (s.setResult v).busy = s.busy := rfl
@[simp] theorem State.setResult_freq (v : Word) : (s.setResult v).freq = s.freq := rfl
@[simp] theorem State.setResult_nodes (v : Word) : (s.setResult v).nodes = s.nodes := rfl
@[simp] theorem State.setResult_root (v : Word) : (s.setResult v).root = s.root := rfl
@[simp] theorem State.setResult_ct (v : Word) : (s.setResult v).ct = s.ct := rfl
@[simp] theorem State.setResult_trie (v : Word) : (s.setResult v).trie = s.trie := rfl
@[simp] theorem State.setResult_wrBuf (v : Word) : (s.setResult v).wrBuf = s.wrBuf := rfl
@[simp] theorem State.setResult_wrOff (v : Word) : (s.setResult v).wrOff = s.wrOff := rfl
@[simp] theorem State.setResult_rdOpen (v : Word) : (s.setResult v).rdOpen = s.rdOpen := rfl
@[simp] theorem State.setResult_rdOpens (v : Word) : (s.setResult v).rdOpens = s.rdOpens := rfl
@[simp] theorem State.setResult_rdBuf (v : Word) : (s.setResult v).rdBuf = s.rdBuf := rfl
@[simp] theorem State.setResult_rdChunk (v : Word) : (s.setResult v).rdChunk = s.rdChunk := rfl
@[simp] theorem State.setResult_rdOff (v : Word) : (s.setResult v).rdOff = s.rdOff := rfl
@[simp] theorem State.setResult_snk (v : Word) : (s.setResult v).snk = s.snk := rfl
@[simp] theorem State.setResult_srcs (v : Word) : (s.setResult v).srcs = s.srcs := rfl
@[simp] theorem State.setResult_snkErr (v : Word) : (s.setResult v).snkErr = s.snkErr := rfl
@[simp] theorem State.setResult_host (v : Word) : (s.setResult v).host = s.host := rfl
@[simp] theorem State.setResult_hostReads (v : Word) : (s.setResult v).hostReads = s.hostReads := rfl
@[simp] theorem State.setResult_freeIdx (v : Word) : (s.setResult v).freeIdx = s.freeIdx := rfl

/-! ### setCtrl -/

@[simp] theorem State.setCtrl_params (v : Word) : (s.setCtrl v).params = s.params := rfl
@[simp] theorem State.setCtrl_result (v : Word) : (s.setCtrl v).result = s.result := rfl
@[simp] theorem State.setCtrl_fault (v : Word) : (s.setCtrl v).fault = s.fault := rfl
@[simp] theorem State.setCtrl_finfo (v : Word) : (s.setCtrl v).finfo = s.finfo := rfl
@[simp] theorem State.setCtrl_ctrl (v : Word) : (s.setCtrl v).ctrl = v := rfl
@[simp] theorem State.setCtrl_snkCount (v : Word) : (s.setCtrl v).snkCount = s.snkCount := rfl
@[simp] theorem State.setCtrl_busy (v : Word) : (s.setCtrl v).busy = s.busy := rfl
@[simp] theorem State.setCtrl_freq (v : Word) : (s.setCtrl v).freq = s.freq := rfl
@[simp] theorem State.setCtrl_nodes (v : Word) : (s.setCtrl v).nodes = s.nodes := rfl
@[simp] theorem State.setCtrl_root (v : Word) : (s.setCtrl v).root = s.root := rfl
@[simp] theorem State.setCtrl_ct (v : Word) : (s.setCtrl v).ct = s.ct := rfl
@[simp] theorem State.setCtrl_trie (v : Word) : (s.setCtrl v).trie = s.trie := rfl
@[simp] theorem State.setCtrl_wrBuf (v : Word) : (s.setCtrl v).wrBuf = s.wrBuf := rfl
@[simp] theorem State.setCtrl_wrOff (v : Word) : (s.setCtrl v).wrOff = s.wrOff := rfl
@[simp] theorem State.setCtrl_rdOpen (v : Word) : (s.setCtrl v).rdOpen = s.rdOpen := rfl
@[simp] theorem State.setCtrl_rdOpens (v : Word) : (s.setCtrl v).rdOpens = s.rdOpens := rfl
@[simp] theorem State.setCtrl_rdBuf (v : Word) : (s.setCtrl v).rdBuf = s.rdBuf := rfl
@[simp] theorem State.setCtrl_rdChunk (v : Word) : (s.setCtrl v).rdChunk = s.rdChunk := rfl
@[simp] theorem State.setCtrl_rdOff (v : Word) : (s.setCtrl v).rdOff = s.rdOff := rfl
@[simp] theorem State.setCtrl_snk (v : Word) : (s.setCtrl v).snk = s.snk := rfl
@[simp] theorem State.setCtrl_srcs (v : Word) : (s.setCtrl v).srcs = s.srcs := rfl
@[simp] theorem State.setCtrl_snkErr (v : Word) : (s.setCtrl v).snkErr = s.snkErr := rfl
@[simp] theorem State.setCtrl_host (v : Word) : (s.setCtrl v).host = s.host := rfl
@[simp] theorem State.setCtrl_hostReads (v : Word) : (s.setCtrl v).hostReads = s.hostReads := rfl
@[simp] theorem State.setCtrl_freeIdx (v : Word) : (s.setCtrl v).freeIdx = s.freeIdx := rfl

/-! ### setFreq -/

@[simp] theorem State.setFreq_params (t : Table Nat) : (s.setFreq t).params = s.params := rfl
@[simp] theorem State.setFreq_result (t : Table Nat) : (s.setFreq t).result = s.result := rfl
@[simp] theorem State.setFreq_fault (t : Table Nat) : (s.setFreq t).fault = s.fault := rfl
@[simp] theorem State.setFreq_finfo (t : Table Nat) : (s.setFreq t).finfo = s.finfo := rfl
@[simp] theorem State.setFreq_ctrl (t : Table Nat) : (s.setFreq t).ctrl = s.ctrl := rfl
@[simp] theorem State.setFreq_snkCount (t : Table Nat) : (s.setFreq t).snkCount = s.snkCount := rfl
@[simp] theorem State.setFreq_busy (t : Table Nat) : (s.setFreq t).busy = s.busy := rfl
@[simp] theorem State.setFreq_freq (t : Table Nat) : (s.setFreq t).freq = t := rfl
@[simp] theorem State.setFreq_nodes (t : Table Nat) : (s.setFreq t).nodes = s.nodes := rfl
@[simp] theorem State.setFreq_root (t : Table Nat) : (s.setFreq t).root = s.root := rfl
@[simp] theorem State.setFreq_ct (t : Table Nat) : (s.setFreq t).ct = s.ct := rfl
@[simp] theorem State.setFreq_trie (t : Table Nat) : (s.setFreq t).trie = s.trie := rfl
@[simp] theorem State.setFreq_wrBuf (t : Table Nat) : (s.setFreq t).wrBuf = s.wrBuf := rfl
@[simp] theorem State.setFreq_wrOff (t : Table Nat) : (s.setFreq t).wrOff = s.wrOff := rfl
@[simp] theorem State.setFreq_rdOpen (t : Table Nat) : (s.setFreq t).rdOpen = s.rdOpen := rfl
@[simp] theorem State.setFreq_rdOpens (t : Table Nat) : (s.setFreq t).rdOpens = s.rdOpens := rfl
@[simp] theorem State.setFreq_rdBuf (t : Table Nat) : (s.setFreq t).rdBuf = s.rdBuf := rfl
@[simp] theorem State.setFreq_rdChunk (t : Table Nat) : (s.setFreq t).rdChunk = s.rdChunk := rfl
@[simp] theorem State.setFreq_rdOff (t : Table Nat) : (s.setFreq t).rdOff = s.rdOff := rfl
@[simp] theorem State.setFreq_snk (t : Table Nat) : (s.setFreq t).snk = s.snk := rfl
@[simp] theorem State.setFreq_srcs (t : Table Nat) : (s.setFreq t).srcs = s.srcs := rfl
@[simp] theorem State.setFreq_snkErr (t : Table Nat) : (s.setFreq t).snkErr = s.snkErr := rfl
@[simp] theorem State.setFreq_host (t : Table Nat) : (s.setFreq t).host = s.host := rfl
@[simp] theorem State.setFreq_hostReads (t : Table Nat) : (s.setFreq t).hostReads = s.hostReads := rfl
@[simp] theorem State.setFreq_freeIdx (t : Table Nat) : (s.setFreq t).freeIdx = s.freeIdx := rfl

/-! ### setTree -/

@[simp] theorem State.setTree_params (ns : List Node) (r : Option Nat) : (s.setTree ns r).params = s.params := rfl
@[simp] theorem State.setTree_result (ns : List Node) (r : Option Nat) : (s.setTree ns r).result = s.result := rfl
@[simp] theorem State.setTree_fault (ns : List Node) (r : Option Nat) : (s.setTree ns r).fault = s.fault := rfl
@[simp] theorem State.setTree_finfo (ns : List Node) (r : Option Nat) : (s.setTree ns r).finfo = s.finfo := rfl
@[simp] theorem State.setTree_ctrl (ns : List Node) (r : Option Nat) : (s.setTree ns r).ctrl = s.ctrl := rfl
@[simp] theorem State.setTree_snkCount (ns : List Node) (r : Option Nat) : (s.setTree ns r).snkCount = s.snkCount := rfl
@[simp] theorem State.setTree_busy (ns : List Node) (r : Option Nat) : (s.setTree ns r).busy = s.busy := rfl
@[simp] theorem State.setTree_freq (ns : List Node) (r : Option Nat) : (s.setTree ns r).freq = s.freq := rfl
@[simp] theorem State.setTree_nodes (ns : List Node) (r : Option Nat) : (s.setTree ns r).nodes = ns := rfl
@[simp] theorem State.setTree_root (ns : List Node) (r : Option Nat) : (s.setTree ns r).root = r := rfl
@[simp] theorem State.setTree_ct (ns : List Node) (r : Option Nat) : (s.setTree ns r).ct = s.ct := rfl
@[simp] theorem State.setTree_trie (ns : List Node) (r : Option Nat) : (s.setTree ns r).trie = s.trie := rfl
@[simp] theorem State.setTree_wrBuf (ns : List Node) (r : Option Nat) : (s.setTree ns r).wrBuf = s.wrBuf := rfl
@[simp] theorem State.setTree_wrOff (ns : List Node) (r : Option Nat) : (s.setTree ns r).wrOff = s.wrOff := rfl
@[simp] theorem State.setTree_rdOpen (ns : List Node) (r : Option Nat) : (s.setTree ns r).rdOpen = s.rdOpen := rfl
@[simp] theorem State.setTree_rdOpens (ns : List Node) (r : Option Nat) : (s.setTree ns r).rdOpens = s.rdOpens := rfl
@[simp] theorem State.setTree_rdBuf (ns : List Node) (r : Option Nat) : (s.setTree ns r).rdBuf = s.rdBuf := rfl
@[simp] theorem State.setTree_rdChunk (ns : List Node) (r : Option Nat) : (s.setTree ns r).rdChunk = s.rdChunk := rfl
@[simp] theorem State.setTree_rdOff (ns : List Node) (r : Option Nat) : (s.setTree ns r).rdOff = s.rdOff := rfl
@[simp] theorem State.setTree_snk (ns : List Node) (r : Option Nat) : (s.setTree ns r).snk = s.snk := rfl
@[simp] theorem State.setTree_srcs (ns : List Node) (r : Option Nat) : (s.setTree ns r).srcs = s.srcs := rfl
@[simp] theorem State.setTree_snkErr (ns : List Node) (r : Option Nat) : (s.setTree ns r).snkErr = s.snkErr := rfl
@[simp] theorem State.setTree_host (ns : List Node) (r : Option Nat) : (s.setTree ns r).host = s.host := rfl
@[simp] theorem State.setTree_hostReads (ns : List Node) (r : Option Nat) : (s.setTree ns r).hostReads = s.hostReads := rfl
@[simp] theorem State.setTree_freeIdx (ns : List Node) (r : Option Nat) : (s.setTree ns r).freeIdx = s.freeIdx := rfl

/-! ### setCt -/

@[simp] theorem State.setCt_params (t : Table CodeEntry) : (s.setCt t).params = s.params := rfl
@[simp] theorem State.setCt_result (t : Table CodeEntry) : (s.setCt t).result = s.result := rfl
@[simp] theorem State.setCt_fault (t : Table CodeEntry) : (s.setCt t).fault = s.fault := rfl
@[simp] theorem State.setCt_finfo (t : Table CodeEntry) : (s.setCt t).finfo = s.finfo := rfl
@[simp] theorem State.setCt_ctrl (t : Table CodeEntry) : (s.setCt t).ctrl = s.ctrl := rfl
@[simp] theorem State.setCt_snkCount (t : Table CodeEntry) : (s.setCt t).snkCount = s.snkCount := rfl
@[simp] theorem State.setCt_busy (t : Table CodeEntry) : (s.setCt t).busy = s.busy := rfl
@[simp] theorem State.setCt_freq (t : Table CodeEntry) : (s.setCt t).freq = s.freq := rfl
@[simp] theorem State.setCt_nodes (t : Table CodeEntry) : (s.setCt t).nodes = s.nodes := rfl
@[simp] theorem State.setCt_root (t : Table CodeEntry) : (s.setCt t).root = s.root := rfl
@[simp] theorem State.setCt_ct (t : Table CodeEntry) : (s.setCt t).ct = t := rfl
@[simp] theorem State.setCt_trie (t : Table CodeEntry) : (s.setCt t).trie = s.trie := rfl
@[simp] theorem State.setCt_wrBuf (t : Table CodeEntry) : (s.setCt t).wrBuf = s.wrBuf := rfl
@[simp] theorem State.setCt_wrOff (t : Table CodeEntry) : (s.setCt t).wrOff = s.wrOff := rfl
@[simp] theorem State.setCt_rdOpen (t : Table CodeEntry) : (s.setCt t).rdOpen = s.rdOpen := rfl
@[simp] theorem State.setCt_rdOpens (t : Table CodeEntry) : (s.setCt t).rdOpens = s.rdOpens := rfl
@[simp] theorem State.setCt_rdBuf (t : Table CodeEntry) : (s.setCt t).rdBuf = s.rdBuf := rfl
@[simp] theorem State.setCt_rdChunk (t : Table CodeEntry) : (s.setCt t).rdChunk = s.rdChunk := rfl
@[simp] theorem State.setCt_rdOff (t : Table CodeEntry) : (s.setCt t).rdOff = s.rdOff := rfl
@[simp] theorem State.setCt_snk (t : Table CodeEntry) : (s.setCt t).snk = s.snk := rfl
@[simp] theorem State.setCt_srcs (t : Table CodeEntry) : (s.setCt t).srcs = s.srcs := rfl
@[simp] theorem State.setCt_snkErr (t : Table CodeEntry) : (s.setCt t).snkErr = s.snkErr := rfl
@[simp] theorem State.setCt_host (t : Table CodeEntry) : (s.setCt t).host = s.host := rfl
@[simp] theorem State.setCt_hostReads (t : Table CodeEntry) : (s.setCt t).hostReads = s.hostReads := rfl
@[simp] theorem State.setCt_freeIdx (t : Table CodeEntry) : (s.setCt t).freeIdx = s.freeIdx := rfl

/-! ### setTrie -/

@[simp] theorem State.setTrie_params (t : Trie) : (s.setTrie t).params = s.params := rfl
@[simp] theorem State.setTrie_result (t : Trie) : (s.setTrie t).result = s.result := rfl
@[simp] theorem State.setTrie_fault (t : Trie) : (s.setTrie t).fault = s.fault := rfl
@[simp] theorem State.setTrie_finfo (t : Trie) : (s.setTrie t).finfo = s.finfo := rfl
@[simp] theorem State.setTrie_ctrl (t : Trie) : (s.setTrie t).ctrl = s.ctrl := rfl
@[simp] theorem State.setTrie_snkCount (t : Trie) : (s.setTrie t).snkCount = s.snkCount := rfl
@[simp] theorem State.setTrie_busy (t : Trie) : (s.setTrie t).busy = s.busy := rfl
@[simp] theorem State.setTrie_freq (t : Trie) : (s.setTrie t).freq = s.freq := rfl
@[simp] theorem State.setTrie_nodes (t : Trie) : (s.setTrie t).nodes = s.nodes := rfl
@[simp] theorem State.setTrie_root (t : Trie) : (s.setTrie t).root = s.root := rfl
@[simp] theorem State.setTrie_ct (t : Trie) : (s.setTrie t).ct = s.ct := rfl
@[simp] theorem State.setTrie_trie (t : Trie) : (s.setTrie t).trie = t := rfl
@[simp] theorem State.setTrie_wrBuf (t : Trie) : (s.setTrie t).wrBuf = s.wrBuf := rfl
@[simp] theorem State.setTrie_wrOff (t : Trie) : (s.setTrie t).wrOff = s.wrOff := rfl
@[simp] theorem State.setTrie_rdOpen (t : Trie) : (s.setTrie t).rdOpen = s.rdOpen := rfl
@[simp] theorem State.setTrie_rdOpens (t : Trie) : (s.setTrie t).rdOpens = s.rdOpens := rfl
@[simp] theorem State.setTrie_rdBuf (t : Trie) : (s.setTrie t).rdBuf = s.rdBuf := rfl
@[simp] theorem State.setTrie_rdChunk (t : Trie) : (s.setTrie t).rdChunk = s.rdChunk := rfl
@[simp] theorem State.setTrie_rdOff (t : Trie) : (s.setTrie t).rdOff = s.rdOff := rfl
@[simp] theorem State.setTrie_snk (t : Trie) : (s.setTrie t).snk = s.snk := rfl
@[simp] theorem State.setTrie_srcs (t : Trie) : (s.setTrie t).srcs = s.srcs := rfl
@[simp] theorem State.setTrie_snkErr (t : Trie) : (s.setTrie t).snkErr = s.snkErr := rfl
@[simp] theorem State.setTrie_host (t : Trie) : (s.setTrie t).host = s.host := rfl
@[simp] theorem State.setTrie_hostReads (t : Trie) : (s.setTrie t).hostReads = s.hostReads := rfl
@[simp] theorem State.setTrie_freeIdx (t : Trie) : (s.setTrie t).freeIdx = s.freeIdx := rfl

/-! ### setWriter -/

@[simp] theorem State.setWriter_params (buf : List Byte) (off : Nat) : (s.setWriter buf off).params = s.params := rfl
@[simp] theorem State.setWriter_result (buf : List Byte) (off : Nat) : (s.setWriter buf off).result = s.result := rfl
@[simp] theorem State.setWriter_fault (buf : List Byte) (off : Nat) : (s.setWriter buf off).fault = s.fault := rfl
@[simp] theorem State.setWriter_finfo (buf : List Byte) (off : Nat) : (s.setWriter buf off).finfo = s.finfo := rfl
@[simp] theorem State.setWriter_ctrl (buf : List Byte) (off : Nat) : (s.setWriter buf off).ctrl = s.ctrl := rfl
@[simp] theorem State.setWriter_snkCount (buf : List Byte) (off : Nat) : (s.setWriter buf off).snkCount = s.snkCount := rfl
@[simp] theorem State.setWriter_busy (buf : List Byte) (off : Nat) : (s.setWriter buf off).busy = s.busy := rfl
@[simp] theorem State.setWriter_freq (buf : List Byte) (off : Nat) : (s.setWriter buf off).freq = s.freq := rfl
@[simp] theorem State.setWriter_nodes (buf : List Byte) (off : Nat) : (s.setWriter buf off).nodes = s.nodes := rfl
@[simp] theorem State.setWriter_root (buf : List Byte) (off : Nat) : (s.setWriter buf off).root = s.root := rfl
@[simp] theorem State.setWriter_ct (buf : List Byte) (off : Nat) : (s.setWriter buf off).ct = s.ct := rfl
@[simp] theorem State.setWriter_trie (buf : List Byte) (off : Nat) : (s.setWriter buf off).trie = s.trie := rfl
@[simp] theorem State.setWriter_wrBuf (buf : List Byte) (off : Nat) : (s.setWriter buf off).wrBuf = buf := rfl
@[simp] theorem State.setWriter_wrOff (buf : List Byte) (off : Nat) : (s.setWriter buf off).wrOff = off := rfl
@[simp] theorem State.setWriter_rdOpen (buf : List Byte) (off : Nat) : (s.setWriter buf off).rdOpen = s.rdOpen := rfl
@[simp] theorem State.setWriter_rdOpens (buf : List Byte) (off : Nat) : (s.setWriter buf off).rdOpens = s.rdOpens := rfl
@[simp] theorem State.setWriter_rdBuf (buf : List Byte) (off : Nat) : (s.setWriter buf off).rdBuf = s.rdBuf := rfl
@[simp] theorem State.setWriter_rdChunk (buf : List Byte) (off : Nat) : (s.setWriter buf off).rdChunk = s.rdChunk := rfl
@[simp] theorem State.setWriter_rdOff (buf : List Byte) (off : Nat) : (s.setWriter buf off).rdOff = s.rdOff := rfl
@[simp] theorem State.setWriter_snk (buf : List Byte) (off : Nat) : (s.setWriter buf off).snk = s.snk := rfl
@[simp] theorem State.setWriter_srcs (buf : List Byte) (off : Nat) : (s.setWriter buf off).srcs = s.srcs := rfl
@[simp] theorem State.setWriter_snkErr (buf : List Byte) (off : Nat) : (s.setWriter buf off).snkErr = s.snkErr := rfl
@[simp] theorem State.setWriter_host (buf : List Byte) (off : Nat) : (s.setWriter buf off).host = s.host := rfl
@[simp] theorem State.setWriter_hostReads (buf : List Byte) (off : Nat) : (s.setWriter buf off).hostReads = s.hostReads := rfl
@[simp] theorem State.setWriter_freeIdx (buf : List Byte) (off : Nat) : (s.setWriter buf off).freeIdx = s.freeIdx := rfl

/-! ### pushSnk -/

@[simp] theorem State.pushSnk_params (y : Byte) : (s.pushSnk y).params = s.params := rfl
@[simp] theorem State.pushSnk_result (y : Byte) : (s.pushSnk y).result = s.result := rfl
@[simp] theorem State.pushSnk_fault (y : Byte) : (s.pushSnk y).fault = s.fault := rfl
@[simp] theorem State.pushSnk_finfo (y : Byte) : (s.pushSnk y).finfo = s.finfo := rfl
@[simp] theorem State.pushSnk_ctrl (y : Byte) : (s.pushSnk y).ctrl = s.ctrl := rfl
@[simp] theorem State.pushSnk_snkCount (y : Byte) : (s.pushSnk y).snkCount = s.snkCount + 1#32 := rfl
@[simp] theorem State.pushSnk_busy (y : Byte) : (s.pushSnk y).busy = s.busy := rfl
@[simp] theorem State.pushSnk_freq (y : Byte) : (s.pushSnk y).freq = s.freq := rfl
@[simp] theorem State.pushSnk_nodes (y : Byte) : (s.pushSnk y).nodes = s.nodes := rfl
@[simp] theorem State.pushSnk_root (y : Byte) : (s.pushSnk y).root = s.root := rfl
@[simp] theorem State.pushSnk_ct (y : Byte) : (s.pushSnk y).ct = s.ct := rfl
@[simp] theorem State.pushSnk_trie (y : Byte) : (s.pushSnk y).trie = s.trie := rfl
@[simp] theorem State.pushSnk_wrBuf (y : Byte) : (s.pushSnk y).wrBuf = s.wrBuf := rfl
@[simp] theorem State.pushSnk_wrOff (y : Byte) : (s.pushSnk y).wrOff = s.wrOff := rfl
@[simp] theorem State.pushSnk_rdOpen (y : Byte) : (s.pushSnk y).rdOpen = s.rdOpen := rfl
@[simp] theorem State.pushSnk_rdOpens (y : Byte) : (s.pushSnk y).rdOpens = s.rdOpens := rfl
@[simp] theorem State.pushSnk_rdBuf (y : Byte) : (s.pushSnk y).rdBuf = s.rdBuf := rfl
@[simp] theorem State.pushSnk_rdChunk (y : Byte) : (s.pushSnk y).rdChunk = s.rdChunk := rfl
@[simp] theorem State.pushSnk_rdOff (y : Byte) : (s.pushSnk y).rdOff = s.rdOff := rfl
@[simp] theorem State.pushSnk_snk (y : Byte) : (s.pushSnk y).snk = s.snk ++ [y] := rfl
@[simp] theorem State.pushSnk_srcs (y : Byte) : (s.pushSnk y).srcs = s.srcs := rfl
@[simp] theorem State.pushSnk_snkErr (y : Byte) : (s.pushSnk y).snkErr = s.snkErr := rfl
@[simp] theorem State.pushSnk_host (y : Byte) : (s.pushSnk y).host = s.host := rfl
@[simp] theorem State.pushSnk_hostReads (y : Byte) : (s.pushSnk y).hostReads = s.hostReads := rfl
@[simp] theorem State.pushSnk_freeIdx (y : Byte) : (s.pushSnk y).freeIdx = s.freeIdx := rfl

/-! ### setReader -/

@[simp] theorem State.setReader_params (buf : List Byte) (chunk off : Nat) : (s.setReader buf chunk off).params = s.params := rfl
@[simp] theorem State.setReader_result (buf : List Byte) (chunk off : Nat) : (s.setReader buf chunk off).result = s.result := rfl
@[simp] theorem State.setReader_fault (buf : List Byte) (chunk off : Nat) : (s.setReader buf chunk off).fault = s.fault := rfl
@[simp] theorem State.setReader_finfo (buf : List Byte) (chunk off : Nat) : (s.setReader buf chunk off).finfo = s.finfo := rfl
@[simp] theorem State.setReader_ctrl (buf : List Byte) (chunk off : Nat) : (s.setReader buf chunk off).ctrl = s.ctrl := rfl
@[simp] theorem State.setReader_snkCount (buf : List Byte) (chunk off : Nat) : (s.setReader buf chunk off).snkCount = s.snkCount := rfl
@[simp] theorem State.setReader_busy (buf : List Byte) (chunk off : Nat) : (s.setReader buf chunk off).busy = s.busy := rfl
@[simp] theorem State.setReader_freq (buf : List Byte) (chunk off : Nat) : (s.setReader buf chunk off).freq = s.freq := rfl
@[simp] theorem State.setReader_nodes (buf : List Byte) (chunk off : Nat) : (s.setReader buf chunk off).nodes = s.nodes := rfl
@[simp] theorem State.setReader_root (buf : List Byte) (chunk off : Nat) : (s.setReader buf chunk off).root = s.root := rfl
@[simp] theorem State.setReader_ct (buf : List Byte) (chunk off : Nat) : (s.setReader buf chunk off).ct = s.ct := rfl
@[simp] theorem State.setReader_trie (buf : List Byte) (chunk off : Nat) : (s.setReader buf chunk off).trie = s.trie := rfl
@[simp] theorem State.setReader_wrBuf (buf : List Byte) (chunk off : Nat) : (s.setReader buf chunk off).wrBuf = s.wrBuf := rfl
@[simp] theorem State.setReader_wrOff (buf : List Byte) (chunk off : Nat) : (s.setReader buf chunk off).wrOff = s.wrOff := rfl
@[simp] theorem State.setReader_rdOpen (buf : List Byte) (chunk off : Nat) : (s.setReader buf chunk off).rdOpen = s.rdOpen := rfl
@[simp] theorem State.setReader_rdOpens (buf : List Byte) (chunk off : Nat) : (s.setReader buf chunk off).rdOpens = s.rdOpens := rfl
@[simp] theorem State.setReader_rdBuf (buf : List Byte) (chunk off : Nat) : (s.setReader buf chunk off).rdBuf = buf := rfl
@[simp] theorem State.setReader_rdChunk (buf : List Byte) (chunk off : Nat) : (s.setReader buf chunk off).rdChunk = chunk := rfl
@[simp] theorem State.setReader_rdOff (buf : List Byte) (chunk off : Nat) : (s.setReader buf chunk off).rdOff = off := rfl
@[simp] theorem State.setReader_snk (buf : List Byte) (chunk off : Nat) : (s.setReader buf chunk off).snk = s.snk := rfl
@[simp] theorem State.setReader_srcs (buf : List Byte) (chunk off : Nat) : (s.setReader buf chunk off).srcs = s.srcs := rfl
@[simp] theorem State.setReader_snkErr (buf : List Byte) (chunk off : Nat) : (s.setReader buf chunk off).snkErr = s.snkErr := rfl
@[simp] theorem State.setReader_host (buf : List Byte) (chunk off : Nat) : (s.setReader buf chunk off).host = s.host := rfl
@[simp] theorem State.setReader_hostReads (buf : List Byte) (chunk off : Nat) : (s.setReader buf chunk off).hostReads = s.hostReads := rfl
@[simp] theorem State.setReader_freeIdx (buf : List Byte) (chunk off : Nat) : (s.setReader buf chunk off).freeIdx = s.freeIdx := rfl

/-! ### nextOpen -/

@[simp] theorem State.nextOpen_params : (s.nextOpen).params = s.params := rfl
@[simp] theorem State.nextOpen_result : (s.nextOpen).result = s.result := rfl
@[simp] theorem State.nextOpen_fault : (s.nextOpen).fault = s.fault := rfl
@[simp] theorem State.nextOpen_finfo : (s.nextOpen).finfo = s.finfo := rfl
@[simp] theorem State.nextOpen_ctrl : (s.nextOpen).ctrl = s.ctrl := rfl
@[simp] theorem State.nextOpen_snkCount : (s.nextOpen).snkCount = s.snkCount := rfl
@[simp] theorem State.nextOpen_busy : (s.nextOpen).busy = s.busy := rfl
@[simp] theorem State.nextOpen_freq : (s.nextOpen).freq = s.freq := rfl
@[simp] theorem State.nextOpen_nodes : (s.nextOpen).nodes = s.nodes := rfl
@[simp] theorem State.nextOpen_root : (s.nextOpen).root = s.root := rfl
@[simp] theorem State.nextOpen_ct : (s.nextOpen).ct = s.ct := rfl
@[simp] theorem State.nextOpen_trie : (s.nextOpen).trie = s.trie := rfl
@[simp] theorem State.nextOpen_wrBuf : (s.nextOpen).wrBuf = s.wrBuf := rfl
@[simp] theorem State.nextOpen_wrOff : (s.nextOpen).wrOff = s.wrOff := rfl
@[simp] theorem State.nextOpen_rdOpen : (s.nextOpen).rdOpen = true := rfl
@[simp] theorem State.nextOpen_rdOpens : (s.nextOpen).rdOpens = s.rdOpens + 1#32 := rfl
@[simp] theorem State.nextOpen_rdBuf : (s.nextOpen).rdBuf = s.rdBuf := rfl
@[simp] theorem State.nextOpen_rdChunk : (s.nextOpen).rdChunk = s.rdChunk := rfl
@[simp] theorem State.nextOpen_rdOff : (s.nextOpen).rdOff = s.rdOff := rfl
@[simp] theorem State.nextOpen_snk : (s.nextOpen).snk = s.snk := rfl
@[simp] theorem State.nextOpen_srcs : (s.nextOpen).srcs = s.srcs := rfl
@[simp] theorem State.nextOpen_snkErr : (s.nextOpen).snkErr = s.snkErr := rfl
@[simp] theorem State.nextOpen_host : (s.nextOpen).host = s.host := rfl
@[simp] theorem State.nextOpen_hostReads : (s.nextOpen).hostReads = s.hostReads := rfl
@[simp] theorem State.nextOpen_freeIdx : (s.nextOpen).freeIdx = s.freeIdx := rfl

/-! ### pushRead -/

@[simp] theorem State.pushRead_params (v : Word) : (s.pushRead v).params = s.params := rfl
@[simp] theorem State.pushRead_result (v : Word) : (s.pushRead v).result = s.result := rfl
@[simp] theorem State.pushRead_fault (v : Word) : (s.pushRead v).fault = s.fault := rfl
@[simp] theorem State.pushRead_finfo (v : Word) : (s.pushRead v).finfo = s.finfo := rfl
@[simp] theorem State.pushRead_ctrl (v : Word) : (s.pushRead v).ctrl = s.ctrl := rfl
@[simp] theorem State.pushRead_snkCount (v : Word) : (s.pushRead v).snkCount = s.snkCount := rfl
@[simp] theorem State.pushRead_busy (v : Word) : (s.pushRead v).busy = s.busy := rfl
@[simp] theorem State.pushRead_freq (v : Word) : (s.pushRead v).freq = s.freq := rfl
@[simp] theorem State.pushRead_nodes (v : Word) : (s.pushRead v).nodes = s.nodes := rfl
@[simp] theorem State.pushRead_root (v : Word) : (s.pushRead v).root = s.root := rfl
@[simp] theorem State.pushRead_ct (v : Word) : (s.pushRead v).ct = s.ct := rfl
@[simp] theorem State.pushRead_trie (v : Word) : (s.pushRead v).trie = s.trie := rfl
@[simp] theorem State.pushRead_wrBuf (v : Word) : (s.pushRead v).wrBuf = s.wrBuf := rfl
@[simp] theorem State.pushRead_wrOff (v : Word) : (s.pushRead v).wrOff = s.wrOff := rfl
@[simp] theorem State.pushRead_rdOpen (v : Word) : (s.pushRead v).rdOpen = s.rdOpen := rfl
@[simp] theorem State.pushRead_rdOpens (v : Word) : (s.pushRead v).rdOpens = s.rdOpens := rfl
@[simp] theorem State.pushRead_rdBuf (v : Word) : (s.pushRead v).rdBuf = s.rdBuf := rfl
@[simp] theorem State.pushRead_rdChunk (v : Word) : (s.pushRead v).rdChunk = s.rdChunk := rfl
@[simp] theorem State.pushRead_rdOff (v : Word) : (s.pushRead v).rdOff = s.rdOff := rfl
@[simp] theorem State.pushRead_snk (v : Word) : (s.pushRead v).snk = s.snk := rfl
@[simp] theorem State.pushRead_srcs (v : Word) : (s.pushRead v).srcs = s.srcs := rfl
@[simp] theorem State.pushRead_snkErr (v : Word) : (s.pushRead v).snkErr = s.snkErr := rfl
@[simp] theorem State.pushRead_host (v : Word) : (s.pushRead v).host = s.host := rfl
@[simp] theorem State.pushRead_hostReads (v : Word) : (s.pushRead v).hostReads = s.hostReads ++ [v] := rfl
@[simp] theorem State.pushRead_freeIdx (v : Word) : (s.pushRead v).freeIdx = s.freeIdx := rfl

/-! ### bumpFree -/

@[simp] theorem State.bumpFree_params : (s.bumpFree).params = s.params := rfl
@[simp] theorem State.bumpFree_result : (s.bumpFree).result = s.result := rfl
@[simp] theorem State.bumpFree_fault : (s.bumpFree).fault = s.fault := rfl
@[simp] theorem State.bumpFree_finfo : (s.bumpFree).finfo = s.finfo := rfl
@[simp] theorem State.bumpFree_ctrl : (s.bumpFree).ctrl = s.ctrl := rfl
@[simp] theorem State.bumpFree_snkCount : (s.bumpFree).snkCount = s.snkCount := rfl
@[simp] theorem State.bumpFree_busy : (s.bumpFree).busy = s.busy := rfl
@[simp] theorem State.bumpFree_freq : (s.bumpFree).freq = s.freq := rfl
@[simp] theorem State.bumpFree_nodes : (s.bumpFree).nodes = s.nodes := rfl
@[simp] theorem State.bumpFree_root : (s.bumpFree).root = s.root := rfl
@[simp] theorem State.bumpFree_ct : (s.bumpFree).ct = s.ct := rfl
@[simp] theorem State.bumpFree_trie : (s.bumpFree).trie = s.trie := rfl
@[simp] theorem State.bumpFree_wrBuf : (s.bumpFree).wrBuf = s.wrBuf := rfl
@[simp] theorem State.bumpFree_wrOff : (s.bumpFree).wrOff = s.wrOff := rfl
@[simp] theorem State.bumpFree_rdOpen : (s.bumpFree).rdOpen = s.rdOpen := rfl
@[simp] theorem State.bumpFree_rdOpens : (s.bumpFree).rdOpens = s.rdOpens := rfl
@[simp] theorem State.bumpFree_rdBuf : (s.bumpFree).rdBuf = s.rdBuf := rfl
@[simp] theorem State.bumpFree_rdChunk : (s.bumpFree).rdChunk = s.rdChunk := rfl
@[simp] theorem State.bumpFree_rdOff : (s.bumpFree).rdOff = s.rdOff := rfl
@[simp] theorem State.bumpFree_snk : (s.bumpFree).snk = s.snk := rfl
@[simp] theorem State.bumpFree_srcs : (s.bumpFree).srcs = s.srcs := rfl
@[simp] theorem State.bumpFree_snkErr : (s.bumpFree).snkErr = s.snkErr := rfl
@[simp] theorem State.bumpFree_host : (s.bumpFree).host = s.host := rfl
@[simp] theorem State.bumpFree_hostReads : (s.bumpFree).hostReads = s.hostReads := rfl
@[simp] theorem State.bumpFree_freeIdx : (s.bumpFree).freeIdx = s.freeIdx + 1 := rfl

/-! ### setHost -/

@[simp] theorem State.setHost_params (h : List HostAction) : (s.setHost h).params = s.params := rfl
@[simp] theorem State.setHost_result (h : List HostAction) : (s.setHost h).result = s.result := rfl
@[simp] theorem State.setHost_fault (h : List HostAction) : (s.setHost h).fault = s.fault := rfl
@[simp] theorem State.setHost_finfo (h : List HostAction) : (s.setHost h).finfo = s.finfo := rfl
@[simp] theorem State.setHost_ctrl (h : List HostAction) : (s.setHost h).ctrl = s.ctrl := rfl
@[simp] theorem State.setHost_snkCount (h : List HostAction) : (s.setHost h).snkCount = s.snkCount := rfl
@[simp] theorem State.setHost_busy (h : List HostAction) : (s.setHost h).busy = s.busy := rfl
@[simp] theorem State.setHost_freq (h : List HostAction) : (s.setHost h).freq = s.freq := rfl
@[simp] theorem State.setHost_nodes (h : List HostAction) : (s.setHost h).nodes = s.nodes := rfl
@[simp] theorem State.setHost_root (h : List HostAction) : (s.setHost h).root = s.root := rfl
@[simp] theorem State.setHost_ct (h : List HostAction) : (s.setHost h).ct = s.ct := rfl
@[simp] theorem State.setHost_trie (h : List HostAction) : (s.setHost h).trie = s.trie := rfl
@[simp] theorem State.setHost_wrBuf (h : List HostAction) : (s.setHost h).wrBuf = s.wrBuf := rfl
@[simp] theorem State.setHost_wrOff (h : List HostAction) : (s.setHost h).wrOff = s.wrOff := rfl
@[simp] theorem State.setHost_rdOpen (h : List HostAction) : (s.setHost h).rdOpen = s.rdOpen := rfl
@[simp] theorem State.setHost_rdOpens (h : List HostAction) : (s.setHost h).rdOpens = s.rdOpens := rfl
@[simp] theorem State.setHost_rdBuf (h : List HostAction) : (s.setHost h).rdBuf = s.rdBuf := rfl
@[simp] theorem State.setHost_rdChunk (h : List HostAction) : (s.setHost h).rdChunk = s.rdChunk := rfl
@[simp] theorem State.setHost_rdOff (h : List HostAction) : (s.setHost h).rdOff = s.rdOff := rfl
@[simp] theorem State.setHost_snk (h : List HostAction) : (s.setHost h).snk = s.snk := rfl
@[simp] theorem State.setHost_srcs (h : List HostAction) : (s.setHost h).srcs = s.srcs := rfl
@[simp] theorem State.setHost_snkErr (h : List HostAction) : (s.setHost h).snkErr = s.snkErr := rfl
@[simp] theorem State.setHost_host (h : List HostAction) : (s.setHost h).host = h := rfl
@[simp] theorem State.setHost_hostReads (h : List HostAction) : (s.setHost h).hostReads = s.hostReads := rfl
@[simp] theorem State.setHost_freeIdx (h : List HostAction) : (s.setHost h).freeIdx = s.freeIdx := rfl

/-! ### faultEntry and resetState: what stays -/

@[simp] theorem faultEntry_params (e : ErrorCode) (info : Word) : (faultEntry e info s).params = s.params := rfl
@[simp] theorem faultEntry_snkCount (e : ErrorCode) (info : Word) : (faultEntry e info s).snkCount = s.snkCount := rfl
@[simp] theorem faultEntry_snk (e : ErrorCode) (info : Word) : (faultEntry e info s).snk = s.snk := rfl
@[simp] theorem faultEntry_srcs (e : ErrorCode) (info : Word) : (faultEntry e info s).srcs = s.srcs := rfl
@[simp] theorem faultEntry_snkErr (e : ErrorCode) (info : Word) : (faultEntry e info s).snkErr = s.snkErr := rfl
@[simp] theorem faultEntry_host (e : ErrorCode) (info : Word) : (faultEntry e info s).host = s.host := rfl
@[simp] theorem faultEntry_hostReads (e : ErrorCode) (info : Word) : (faultEntry e info s).hostReads = s.hostReads := rfl
@[simp] theorem faultEntry_fault (e : ErrorCode) (info : Word) : (faultEntry e info s).fault = e.code.setWidth 32 := rfl
@[simp] theorem faultEntry_finfo (e : ErrorCode) (info : Word) : (faultEntry e info s).finfo = info := rfl
@[simp] theorem faultEntry_busy (e : ErrorCode) (info : Word) : (faultEntry e info s).busy = false := rfl

@[simp] theorem resetState_params : (resetState s).params = s.params := rfl
@[simp] theorem resetState_snk : (resetState s).snk = s.snk := rfl
@[simp] theorem resetState_srcs : (resetState s).srcs = s.srcs := rfl
@[simp] theorem resetState_snkErr : (resetState s).snkErr = s.snkErr := rfl
@[simp] theorem resetState_host : (resetState s).host = s.host := rfl
@[simp] theorem resetState_hostReads : (resetState s).hostReads = s.hostReads := rfl
@[simp] theorem resetState_freeIdx : (resetState s).freeIdx = s.freeIdx := rfl
@[simp] theorem resetState_result : (resetState s).result = 0#32 := rfl
@[simp] theorem resetState_fault : (resetState s).fault = 0#32 := rfl
@[simp] theorem resetState_finfo : (resetState s).finfo = 0#32 := rfl
@[simp] theorem resetState_ctrl : (resetState s).ctrl = 1#32 := rfl
@[simp] theorem resetState_snkCount : (resetState s).snkCount = 0#32 := rfl
@[simp] theorem resetState_busy : (resetState s).busy = false := rfl
@[simp] theorem resetState_freq : (resetState s).freq = constTable 0 := rfl
@[simp] theorem resetState_nodes : (resetState s).nodes = [] := rfl
@[simp] theorem resetState_root : (resetState s).root = none := rfl
@[simp] theorem resetState_ct : (resetState s).ct = constTable none := rfl
@[simp] theorem resetState_trie : (resetState s).trie = Trie.empty := rfl
@[simp] theorem resetState_wrBuf : (resetState s).wrBuf = List.replicate s.params.bufBytes 0#8 := rfl
@[simp] theorem resetState_wrOff : (resetState s).wrOff = 0 := rfl
@[simp] theorem resetState_rdOpen : (resetState s).rdOpen = false := rfl
@[simp] theorem resetState_rdOpens : (resetState s).rdOpens = 0#32 := rfl
@[simp] theorem resetState_rdBuf : (resetState s).rdBuf = [] := rfl
@[simp] theorem resetState_rdChunk : (resetState s).rdChunk = 0 := rfl
@[simp] theorem resetState_rdOff : (resetState s).rdOff = 0 := rfl

/-- A fault's CODE is never 0, so the state it enters is faulted (R21, R134). -/
@[simp] theorem faultEntry_faulted (e : ErrorCode) (info : Word) : (faultEntry e info s).faulted = true := by
  cases e <;> rfl

@[simp] theorem resetState_faulted : (resetState s).faulted = false := rfl

end Sys2Proof.Machine
end

