-- ==== Sys2Proof/Laws/Writer.lean ====
section
/-! SUPPORT. What the writer primitives can do (20_memory.md R62 to R66): one law each. -/

namespace Sys2Proof.Machine
open Sys2Proof

/-! ### Results -/

/-- `P` holds of the result where it is one, and `E` of the fault where it is one. -/
def Res.Sat {α : Type} (r : Res α) (P : α → State → Prop) (E : ErrorCode → Word → State → Prop) : Prop :=
  match r with
  | .ok a s => P a s
  | .raised e info s => E e info s

theorem Res.Sat.bind {α β : Type} {r : Res α} {f : α → State → Res β} {P : α → State → Prop}
    {Q : β → State → Prop} {E : ErrorCode → Word → State → Prop} (h : r.Sat P E)
    (hf : ∀ a t, P a t → (f a t).Sat Q E) : (r.bind f).Sat Q E := by
  cases r with
  | ok a t => exact hf a t h
  | raised e info t => exact h

theorem Res.Sat.mono {α : Type} {r : Res α} {P Q : α → State → Prop} {E F : ErrorCode → Word → State → Prop}
    (h : r.Sat P E) (hP : ∀ a t, P a t → Q a t) (hE : ∀ e i t, E e i t → F e i t) : r.Sat Q F := by
  cases r with
  | ok a t => exact hP a t h
  | raised e info t => exact hE e info t h

/-- What a command's next state is: the body's where it raises nothing, else the fault state. -/
theorem finish_next {r : Res Unit} {P : State → Prop} {E : ErrorCode → Word → State → Prop} (h : r.Sat (fun _ => P) E)
    {t : State} (ht : finish r = .next t) : P t ∨ ∃ e i u, E e i u ∧ t = faultEntry e i u := by
  cases r with
  | ok a u =>
    left
    simp only [finish, Host.Outcome.next.injEq] at ht
    exact ht ▸ h
  | raised e i u =>
    right
    simp only [finish, Host.Outcome.next.injEq] at ht
    exact ⟨e, i, u, h, ht.symm⟩

@[simp] theorem finish_ok (s : State) : finish (.ok () s) = .next s := rfl

@[simp] theorem finish_raised (e : ErrorCode) (i : Word) (s : State) :
    finish (.raised e i s) = .next (faultEntry e i s) := rfl

@[simp] theorem bind_ok {α β : Type} (a : α) (s : State) (f : α → State → Res β) : (Res.ok a s).bind f = f a s := rfl

@[simp] theorem bind_raised {α β : Type} (e : ErrorCode) (i : Word) (s : State) (f : α → State → Res β) :
    (Res.raised e i s : Res α).bind f = .raised e i s := rfl

/-! ### The writer -/

theorem Grows.refl (s : State) : Grows s s := ⟨[], by simp, by simp⟩

theorem Grows.trans {s t u : State} (h : Grows s t) (k : Grows t u) : Grows s u := by
  obtain ⟨xs, h1, h2⟩ := h
  obtain ⟨ys, k1, k2⟩ := k
  refine ⟨xs ++ ys, by simp [k1, h1], ?_⟩
  rw [k2, h2, List.length_append, BitVec.ofNat_add, BitVec.add_assoc]

theorem onlyWriter.refl (s : State) : onlyWriter s s := rfl

theorem onlyWriter.trans {s t u : State} (h : onlyWriter s t) (k : onlyWriter t u) : onlyWriter s u := by
  unfold onlyWriter at *
  rw [k, h]

/-- A delivery takes every byte, or stops at the first one the sink refuses with E_SNK_IO (R65). -/
theorem deliver_cases (ys : List Byte) (s : State) :
    (sinkTakes ys.length s ∧ deliver ys s = .ok () (delivered ys s)) ∨
      ∃ j, j < ys.length ∧ sinkTakes j s ∧ s.snkErr = some (s.snkCount + BitVec.ofNat 32 j).toNat ∧
        deliver ys s = .raised .snkIo (s.snkCount + BitVec.ofNat 32 j) (delivered (ys.take j) s) := by
  induction ys generalizing s with
  | nil => left; exact ⟨fun j hj => absurd hj (by simp), by simp [deliver, delivered]⟩
  | cons y ys ih =>
    by_cases h : s.snkErr = some s.snkCount.toNat
    · right
      refine ⟨0, by simp, fun j hj => absurd hj (by simp), by simpa using h, ?_⟩
      rw [deliver, if_pos h]
      simp [delivered]
    · have shift : ∀ j : Nat, s.snkCount + 1#32 + BitVec.ofNat 32 j = s.snkCount + BitVec.ofNat 32 (j + 1) := by
        intro j
        rw [BitVec.add_assoc, BitVec.ofNat_add, BitVec.add_comm (BitVec.ofNat 32 j)]
      have cover : ∀ n, sinkTakes n (s.pushSnk y) → sinkTakes (n + 1) s := by
        intro n hn j hj
        cases j with
        | zero => simpa using h
        | succ j =>
          have := hn j (by omega)
          simpa [shift] using this
      rcases ih (s.pushSnk y) with ⟨h1, h2⟩ | ⟨j, hj, h1, h2, h3⟩
      · left
        refine ⟨by simpa using cover _ h1, ?_⟩
        simp only [deliver, h, if_false, h2, delivered, State.pushSnk_snk, State.pushSnk_snkCount, shift]
        simp [State.pushSnk]
      · right
        refine ⟨j + 1, by simpa using hj, cover _ h1, by simpa [shift] using h2, ?_⟩
        simp only [deliver, h, if_false, h3, delivered, State.pushSnk_snk, State.pushSnk_snkCount, shift]
        simp [State.pushSnk]

theorem delivered_grows (ys : List Byte) (s : State) : Grows s (delivered ys s) := ⟨ys, rfl, rfl⟩

/-- A buffer with its offset at the end still unflushed: what flushIfFull finds. -/
def WriterFull (s : State) : Prop :=
  s.wrBuf.length = s.bufBytes ∧ s.wrOff ≤ 8 * s.bufBytes ∧ 0 < s.bufBytes ∧
    ∀ k, s.wrOff ≤ k → bitAt s.params.bitOrder s.wrBuf k = false

/-- A writer primitive that appends the bits `bs` ends without a fault (R62 to R65). -/
structure Wrote (bs : Bits) (s t : State) : Prop where
  frame : onlyWriter s t
  grows : Grows s t
  law : WriterOk s → WriterOk t ∧ sentBits t = sentBits s ++ bs
  blocks : WriterOk s → t.snk.length = s.snk.length + outBytes bs.length s
  takes : WriterOk s → sinkTakes (outBytes bs.length s) s

/-- A writer primitive that would append `n` bits ends in a fault: the sink refused a byte, and only the writer has moved
(R65). -/
structure SinkFailed (n : Nat) (s : State) (e : ErrorCode) (info : Word) (t : State) : Prop where
  code : e = .snkIo
  sink : s.snkErr = some info.toNat
  count : info = t.snkCount
  frame : onlyWriter s t
  grows : Grows s t
  short : WriterOk s → ¬ sinkTakes (outBytes n s) s

theorem onlyWriter.snkErr {s t : State} (h : onlyWriter s t) : t.snkErr = s.snkErr := by rw [h]
theorem onlyWriter.params {s t : State} (h : onlyWriter s t) : t.params = s.params := by rw [h]
theorem onlyWriter.ct {s t : State} (h : onlyWriter s t) : t.ct = s.ct := by rw [h]

theorem sinkTakes_mono {m n : Nat} {s : State} (h : m ≤ n) (k : sinkTakes n s) : sinkTakes m s :=
  fun j hj => k j (by omega)

/-- The stream's length is the bytes sent and the bits pending. -/
theorem sentBits_length {s : State} (h : WriterOk s) : (sentBits s).length = 8 * s.snk.length + s.wrOff := by
  have := h.2.1
  simp only [sentBits, pendingBits, List.length_append, bytesBits_length, List.length_take, h.1]
  omega

theorem outBytes_zero {s : State} (h : WriterOk s) : outBytes 0 s = 0 := by
  rw [outBytes, Nat.add_zero, Nat.div_eq_of_lt h.2.1, Nat.zero_mul]

theorem outBytes_mono {m n : Nat} (s : State) (h : m ≤ n) : outBytes m s ≤ outBytes n s :=
  Nat.mul_le_mul_right _ (Nat.div_le_div_right (by omega))

/-- Where the writer's offset is after appending some bits. -/
theorem Wrote.wrOff {bs : Bits} {s t : State} (h : Wrote bs s t) (hs : WriterOk s) :
    t.wrOff = (s.wrOff + bs.length) % (8 * s.bufBytes) := by
  obtain ⟨h1, h2⟩ := h.law hs
  have e := congrArg List.length h2
  rw [sentBits_length h1, List.length_append, sentBits_length hs, h.blocks hs, outBytes] at e
  have hp : t.params = s.params := by rw [h.frame]
  have hlt := h1.2.1
  rw [State.bufBytes, hp, ← State.bufBytes] at hlt
  have key := Nat.div_add_mod (s.wrOff + bs.length) (8 * s.bufBytes)
  have : 8 * s.bufBytes * ((s.wrOff + bs.length) / (8 * s.bufBytes)) =
      8 * ((s.wrOff + bs.length) / (8 * s.bufBytes) * s.bufBytes) := by ring
  omega

theorem Wrote.snkCount {bs : Bits} {s t : State} (h : Wrote bs s t) (hs : WriterOk s) :
    t.snkCount = s.snkCount + BitVec.ofNat 32 (outBytes bs.length s) := by
  obtain ⟨ys, h1, h2⟩ := h.grows
  have := h.blocks hs
  rw [h1, List.length_append] at this
  rw [h2, show ys.length = outBytes bs.length s by omega]

theorem Wrote.outBytes_add {bs : Bits} {s t : State} (h : Wrote bs s t) (hs : WriterOk s) (n : Nat) :
    outBytes (bs.length + n) s = outBytes bs.length s + outBytes n t := by
  have hp : t.bufBytes = s.bufBytes := by rw [State.bufBytes, h.frame]; rfl
  have hB : 0 < 8 * s.bufBytes := by have := hs.2.1; omega
  simp only [outBytes, hp, h.wrOff hs]
  rw [← Nat.add_mul, ← Nat.add_assoc]
  congr 1
  conv_lhs => rw [← Nat.div_add_mod (s.wrOff + bs.length) (8 * s.bufBytes), Nat.add_assoc, Nat.mul_add_div hB]

/-- The sink takes what two writes deliver just where it takes what each does. -/
theorem Wrote.sinkTakes_add {bs : Bits} {s t : State} (h : Wrote bs s t) (hs : WriterOk s) (n : Nat) :
    sinkTakes (outBytes (bs.length + n) s) s ↔ sinkTakes (outBytes n t) t := by
  have he : t.snkErr = s.snkErr := h.frame.snkErr
  rw [h.outBytes_add hs]
  have shift : ∀ j, t.snkCount + BitVec.ofNat 32 j = s.snkCount + BitVec.ofNat 32 (outBytes bs.length s + j) := by
    intro j
    rw [h.snkCount hs, BitVec.add_assoc, ← BitVec.ofNat_add]
  constructor
  · intro k j hj
    rw [he, shift]
    exact k _ (by omega)
  · intro k j hj
    rcases Nat.lt_or_ge j (outBytes bs.length s) with hlt | hge
    · exact h.takes hs j hlt
    · obtain ⟨i, rfl⟩ := Nat.exists_eq_add_of_le hge
      rw [← shift, ← he]
      exact k i (by omega)

theorem Wrote.refl (s : State) : Wrote [] s s :=
  ⟨.refl s, .refl s, fun h => ⟨h, by simp⟩, fun h => by simp [outBytes_zero h],
    fun h => by simp only [List.length_nil, outBytes_zero h]; exact fun j hj => absurd hj (by omega)⟩

theorem Wrote.trans {as bs : Bits} {s t u : State} (h : Wrote as s t) (k : Wrote bs t u) : Wrote (as ++ bs) s u where
  frame := h.frame.trans k.frame
  grows := h.grows.trans k.grows
  law := fun hs => by
    obtain ⟨h1, h2⟩ := h.law hs
    obtain ⟨k1, k2⟩ := k.law h1
    exact ⟨k1, by rw [k2, h2, List.append_assoc]⟩
  blocks := fun hs => by
    rw [k.blocks (h.law hs).1, h.blocks hs, List.length_append, h.outBytes_add hs, Nat.add_assoc]
  takes := fun hs => by
    rw [List.length_append, h.sinkTakes_add hs]
    exact k.takes (h.law hs).1

theorem SinkFailed.mono {m n : Nat} {s t : State} {e : ErrorCode} {i : Word} (h : SinkFailed m s e i t) (hn : m ≤ n) :
    SinkFailed n s e i t :=
  ⟨h.code, h.sink, h.count, h.frame, h.grows,
    fun hs k => h.short hs (sinkTakes_mono (outBytes_mono s hn) k)⟩

theorem SinkFailed.after {bs : Bits} {n : Nat} {s t u : State} {e : ErrorCode} {i : Word} (h : Wrote bs s t)
    (k : SinkFailed n t e i u) : SinkFailed (bs.length + n) s e i u :=
  ⟨k.code, by rw [← h.frame.snkErr]; exact k.sink, k.count, h.frame.trans k.frame, h.grows.trans k.grows,
    fun hs hk => k.short (h.law hs).1 ((h.sinkTakes_add hs n).mp hk)⟩

/-- What the laws of the primitives say of a write, gathered in the form claims use. -/
theorem Wrote.appended {bs : Bits} {s t : State} (h : Wrote bs s t) (hs : WriterOk s) : Appended bs s t :=
  ⟨h.frame, (h.law hs).1, (h.law hs).2, h.blocks hs, h.wrOff hs, h.snkCount hs⟩

/-- Delivering the first `n` bytes of the buffer and clearing it. -/
theorem emitBuffer_cases (n : Nat) (s : State) :
    (sinkTakes (s.wrBuf.take n).length s ∧ emitBuffer n s = .ok () (clearWriter (delivered (s.wrBuf.take n) s))) ∨
      ∃ j, j < (s.wrBuf.take n).length ∧ sinkTakes j s ∧ s.snkErr = some (s.snkCount + BitVec.ofNat 32 j).toNat ∧
        emitBuffer n s =
          .raised .snkIo (s.snkCount + BitVec.ofNat 32 j) (delivered ((s.wrBuf.take n).take j) s) := by
  rcases deliver_cases (s.wrBuf.take n) s with ⟨h, h'⟩ | ⟨j, hj, h1, h2, h3⟩
  · left; exact ⟨h, by simp [emitBuffer, h']⟩
  · right; exact ⟨j, hj, h1, h2, by simp [emitBuffer, h3]⟩

theorem bitAt_zeros (o : Config.BitOrder) (n k : Nat) : bitAt o (List.replicate n 0#8) k = false := by
  rw [bitAt_eq_getD, bytesBits_zeros]
  simp only [List.getD_eq_getElem?_getD, List.getElem?_replicate]
  split <;> rfl

theorem clearWriter_ok {s : State} (h : 0 < s.bufBytes) : WriterOk (clearWriter s) :=
  ⟨by simp [clearWriter, State.bufBytes], by simpa [clearWriter, State.bufBytes] using h,
    fun k _ => by simp [clearWriter, bitAt_zeros]⟩

@[simp] theorem sentBits_clearWriter (s : State) : sentBits (clearWriter s) = bytesBits s.params.bitOrder s.snk := by
  simp [sentBits, pendingBits, clearWriter]

theorem emitBuffer_frame (n : Nat) (s : State) :
    onlyWriter s (clearWriter (delivered (s.wrBuf.take n) s)) := rfl

theorem emitBuffer_sat (n : Nat) (s : State) :
    (emitBuffer n s).Sat
      (fun _ t => onlyWriter s t ∧ Grows s t ∧ t.wrOff = 0 ∧ sinkTakes (s.wrBuf.take n).length s ∧
        t.snk.length = s.snk.length + (s.wrBuf.take n).length ∧
        (0 < s.bufBytes → WriterOk t ∧
          sentBits t = bytesBits s.params.bitOrder s.snk ++ bytesBits s.params.bitOrder (s.wrBuf.take n)))
      (fun e i t => e = .snkIo ∧ s.snkErr = some i.toNat ∧ i = t.snkCount ∧ onlyWriter s t ∧ Grows s t ∧
        ¬ sinkTakes (s.wrBuf.take n).length s) := by
  rcases emitBuffer_cases n s with ⟨h, h'⟩ | ⟨j, hj, h1, h2, h3⟩
  · rw [h']
    exact ⟨rfl, ⟨s.wrBuf.take n, rfl, rfl⟩, rfl, h, by simp [delivered, clearWriter, State.setWriter],
      fun hB => ⟨clearWriter_ok hB, by simp [delivered]⟩⟩
  · rw [h3]
    refine ⟨rfl, h2, ?_, rfl, delivered_grows _ _, fun k => k j hj h2⟩
    simp only [delivered, List.length_take]
    rw [Nat.min_eq_left (by simpa using Nat.le_of_lt hj)]

theorem flushIfFull_sat (s : State) :
    (flushIfFull s).Sat
      (fun _ t => onlyWriter s t ∧ Grows s t ∧ (WriterFull s → WriterOk t ∧ sentBits t = sentBits s ∧
        t.snk.length = s.snk.length + s.wrOff / (8 * s.bufBytes) * s.bufBytes ∧
        sinkTakes (s.wrOff / (8 * s.bufBytes) * s.bufBytes) s))
      (fun e i t => e = .snkIo ∧ s.snkErr = some i.toNat ∧ i = t.snkCount ∧ onlyWriter s t ∧ Grows s t ∧
        (WriterFull s → ¬ sinkTakes (s.wrOff / (8 * s.bufBytes) * s.bufBytes) s)) := by
  unfold flushIfFull
  split
  · next h =>
    have hq : 0 < s.bufBytes → s.wrOff / (8 * s.bufBytes) * s.bufBytes = s.bufBytes := fun hB => by
      rw [h, Nat.div_self (by omega), Nat.one_mul]
    refine (emitBuffer_sat s.bufBytes s).mono ?_ ?_
    · rintro _ t ⟨h1, h2, -, h3, h4, h5⟩
      refine ⟨h1, h2, fun hf => ?_⟩
      rw [hq hf.2.2.1]
      rw [List.take_of_length_le (by simp [hf.1]), hf.1] at h3 h4
      obtain ⟨h6, h7⟩ := h5 hf.2.2.1
      refine ⟨h6, ?_, h4, h3⟩
      rw [h7, sentBits, pendingBits, List.take_of_length_le (by simp [hf.1]),
        List.take_of_length_le (by simp [hf.1, h])]
    · rintro e i t ⟨h1, h2, h3, h4, h5, h6⟩
      refine ⟨h1, h2, h3, h4, h5, fun hf => ?_⟩
      rw [hq hf.2.2.1]
      rwa [List.take_of_length_le (by simp [hf.1]), hf.1] at h6
  · next h =>
    refine ⟨rfl, .refl s, fun hf => ?_⟩
    have hlt : s.wrOff < 8 * s.bufBytes := by have := hf.2.1; omega
    rw [Nat.div_eq_of_lt hlt, Nat.zero_mul]
    exact ⟨⟨hf.1, hlt, hf.2.2.2⟩, rfl, rfl, fun j hj => absurd hj (by omega)⟩

theorem setWriter_frame (s : State) (b : List Byte) (n : Nat) : onlyWriter s (s.setWriter b n) := rfl

/-- Move the writer's cursor inside the buffer, then flush a full one: the bits between are what is appended. -/
theorem moveThenFlush_sat (s : State) (buf : List Byte) (n : Nat) (bs : Bits)
    (h : WriterOk s → buf.length = s.bufBytes ∧ s.wrOff + n ≤ 8 * s.bufBytes ∧
      bytesBits s.params.bitOrder buf =
        pendingBits s ++ bs ++ (bytesBits s.params.bitOrder s.wrBuf).drop (s.wrOff + n) ∧ bs.length = n) :
    (flushIfFull (s.setWriter buf (s.wrOff + n))).Sat (fun _ t => Wrote bs s t) (SinkFailed n s) := by
  have full : WriterOk s → WriterFull (s.setWriter buf (s.wrOff + n)) := by
    intro hs
    obtain ⟨e1, e2, e3, e4⟩ := h hs
    have hB : 0 < s.bufBytes := by have := hs.2.1; omega
    have hlen : (pendingBits s).length = s.wrOff := by
      simp only [pendingBits, List.length_take, bytesBits_length, hs.1]
      have := hs.2.1
      omega
    refine ⟨e1, e2, hB, ?_⟩
    intro k hk
    simp only [State.setWriter_wrOff, State.setWriter_params, State.setWriter_wrBuf] at hk ⊢
    rw [bitAt_eq_getD, e3, List.getD_append_right _ _ _ _ (by simp [hlen, e4]; omega)]
    have := hs.2.2 k (by omega)
    rw [bitAt_eq_getD] at this
    simp only [List.getD_eq_getElem?_getD, List.getElem?_drop] at this ⊢
    rw [show s.wrOff + n + (k - (pendingBits s ++ bs).length) = k by simp [hlen, e4]; omega]
    exact this
  have moved : WriterOk s → sentBits (s.setWriter buf (s.wrOff + n)) = sentBits s ++ bs := by
    intro hs
    obtain ⟨e1, e2, e3, e4⟩ := h hs
    have hlen : (pendingBits s).length = s.wrOff := by
      simp only [pendingBits, List.length_take, bytesBits_length, hs.1]
      have := hs.2.1
      omega
    simp only [sentBits, pendingBits, State.setWriter_params, State.setWriter_snk, State.setWriter_wrBuf,
      State.setWriter_wrOff]
    rw [e3, List.take_append_of_le_length (by simp [hlen, e4]), List.take_of_length_le (by simp [hlen, e4]),
      List.append_assoc]
    rfl
  refine (flushIfFull_sat _).mono ?_ ?_
  · rintro _ t ⟨h1, h2, h3⟩
    refine ⟨(setWriter_frame s _ _).trans h1, h2, fun hs => ?_, fun hs => ?_, fun hs => ?_⟩
    · obtain ⟨k1, k2, -⟩ := h3 (full hs)
      exact ⟨k1, k2.trans (moved hs)⟩
    · rw [outBytes, (h hs).2.2.2]
      exact (h3 (full hs)).2.2.1
    · rw [outBytes, (h hs).2.2.2]
      exact (h3 (full hs)).2.2.2
  · rintro e i t ⟨k1, k2, k3, k4, k5, k6⟩
    exact ⟨k1, k2, k3, (setWriter_frame s _ _).trans k4, k5, fun hs => k6 (full hs)⟩

theorem writeBit_sat (b : Bool) (s : State) : (writeBit b s).Sat (fun _ t => Wrote [b] s t) (SinkFailed 1 s) := by
  refine moveThenFlush_sat s _ 1 [b] ?_
  intro hs
  have hlt : s.wrOff < (bytesBits s.params.bitOrder s.wrBuf).length := by
    simp only [bytesBits_length, hs.1]; exact hs.2.1
  have hz := hs.2.2 s.wrOff le_rfl
  rw [bitAt_eq_getD] at hz
  refine ⟨by split <;> simp [setBit_length, hs.1], by have := hs.2.1; omega, ?_, rfl⟩
  have key : bytesBits s.params.bitOrder (if b then setBit s.params.bitOrder s.wrBuf s.wrOff else s.wrBuf) =
      (bytesBits s.params.bitOrder s.wrBuf).set s.wrOff b := by
    apply List.ext_getElem
    · split <;> simp [setBit_length]
    · intro k h1 h2
      have g : ∀ l : List Bool, ∀ h : k < l.length, l[k] = l.getD k false := by
        intro l h; simp [h]
      rw [g, g, ← bitAt_eq_getD]
      cases b with
      | false =>
        simp only [Bool.false_eq_true, if_false, bitAt_eq_getD]
        simp only [List.getD_eq_getElem?_getD, List.getElem?_set]
        split
        · next e =>
          subst e
          simp only [List.getD_eq_getElem?_getD] at hz
          rw [hz]
          rfl
        · rfl
      | true =>
        simp only [if_true]
        rw [bitAt_setBit _ _ (by rw [hs.1]; exact hs.2.1), bitAt_eq_getD]
        simp only [List.getD_eq_getElem?_getD, List.getElem?_set]
        by_cases e : k = s.wrOff
        · simp [e, show s.wrOff < 8 * s.wrBuf.length by simpa using hlt]
        · simp [e, Ne.symm e]
  rw [key, List.set_eq_take_append_cons_drop, if_pos hlt]
  simp [pendingBits]

theorem writeByte_sat (y : Byte) (s : State) :
    (writeByte y s).Sat (fun _ t => Wrote (byteBits s.params.bitOrder y) s t ∧ s.wrOff % 8 = 0)
      (fun e i t => SinkFailed 8 s e i t ∨ (e = .align ∧ i = offsetInfo s.wrOff ∧ t = s ∧ s.wrOff % 8 ≠ 0)) := by
  unfold writeByte
  by_cases ha : s.wrOff % 8 = 0
  · simp only [wrAligned, ha, decide_true, if_true]
    refine (moveThenFlush_sat s _ 8 (byteBits s.params.bitOrder y) ?_).mono (fun _ _ h => ⟨h, trivial⟩)
      (fun _ _ _ h => .inl h)
    intro hs
    have h2 := hs.2.1
    refine ⟨by simp [hs.1], by omega, ?_, by simp⟩
    rw [bytesBits_set _ _ _ _ (by rw [hs.1]; omega), show 8 * (s.wrOff / 8) = s.wrOff by omega,
      show 8 * (s.wrOff / 8 + 1) = s.wrOff + 8 by omega]
    rfl
  · simp only [wrAligned, ha, decide_false, Bool.false_eq_true, if_false]
    exact .inr ⟨rfl, rfl, rfl, ha⟩

theorem writeBits_sat (bs : Bits) (s : State) :
    (writeBits bs s).Sat (fun _ t => Wrote bs s t) (SinkFailed bs.length s) := by
  induction bs generalizing s with
  | nil => exact Wrote.refl s
  | cons b bs ih =>
    refine ((writeBit_sat b s).mono (fun _ _ h => h) (fun _ _ _ h => h.mono (by simp))).bind fun _ t ht => ?_
    refine (ih t).mono (fun _ _ hu => ht.trans hu) fun _ _ _ hu => (SinkFailed.after ht hu).mono ?_
    simp only [List.length_cons, List.length_nil]
    omega

/-- A flush delivers the pending bytes, the last one padded with zeros, or stops at the first byte the sink refuses (R66). -/
theorem flush_sat (s : State) :
    (flush s).Sat
      (fun _ t => onlyWriter s t ∧ Grows s t ∧ t.wrOff = 0 ∧
        (WriterOk s → WriterOk t ∧ sentBits t = sentBits s ++ List.replicate (padLen s.wrOff) false ∧
          t.snk.length = s.snk.length + (s.wrOff + 7) / 8 ∧ sinkTakes ((s.wrOff + 7) / 8) s))
      (fun e i t => e = .snkIo ∧ s.snkErr = some i.toNat ∧ i = t.snkCount ∧ onlyWriter s t ∧ Grows s t ∧
        (WriterOk s → ¬ sinkTakes ((s.wrOff + 7) / 8) s)) := by
  have hk : WriterOk s → (s.wrBuf.take ((s.wrOff + 7) / 8)).length = (s.wrOff + 7) / 8 := fun hs => by
    rw [List.length_take, hs.1]
    have := hs.2.1
    omega
  refine (emitBuffer_sat _ s).mono ?_ ?_
  · rintro _ t ⟨h1, h2, h0, h3, h4, h5⟩
    refine ⟨h1, h2, h0, fun hs => ?_⟩
    rw [hk hs] at h3 h4
    obtain ⟨h6, h7⟩ := h5 (by have := hs.2.1; omega)
    refine ⟨h6, ?_, h4, h3⟩
    rw [h7]
    simp only [sentBits, pendingBits, List.append_assoc]
    congr 1
    rw [bytesBits_take]
    apply List.ext_getElem
    · simp only [List.length_take, bytesBits_length, hs.1, List.length_append, List.length_replicate, padLen]
      have := hs.2.1
      omega
    · intro k k1 k2
      simp only [List.length_take, bytesBits_length, hs.1] at k1
      rw [List.getElem_take]
      by_cases hk : k < s.wrOff
      · rw [List.getElem_append_left (by simp [hs.1]; omega), List.getElem_take]
      · rw [List.getElem_append_right (by simp; omega), List.getElem_replicate]
        have := hs.2.2 k (by omega)
        rw [bitAt_eq_getD] at this
        simpa [show k < 8 * s.wrBuf.length by rw [hs.1]; omega] using this
  · rintro e i t ⟨h1, h2, h3, h4, h5, h6⟩
    exact ⟨h1, h2, h3, h4, h5, fun hs => by rwa [hk hs] at h6⟩

end Sys2Proof.Machine
end

