-- ==== Sys2Proof/Laws/Frames.lean ====
section
/-! SUPPORT. What each piece of a command leaves alone, and which faults it can raise (60_exceptions.md R134, 70_reset_and_hazards.md R155). -/

namespace Sys2Proof.Machine
open Sys2Proof

/-! ### Footprints -/

theorem failsIn_failAt {b j k : Nat} {p : Presentation} (h : failsIn b j p = some k) :
    p.failAt = some k ∧ j * b ≤ k ∧ k < j * b + b := by
  unfold failsIn at h
  split at h
  · next k' hk' =>
    split at h
    · next hr =>
      simp only [Option.some.injEq] at h
      subst h
      exact ⟨hk', hr⟩
    · exact absurd h (by simp)
  · exact absurd h (by simp)

theorem Frame.refl (fp : Footprint) (s : State) : Frame fp s s := by
  constructor <;> simp

theorem Frame.trans {fp : Footprint} {s t u : State} (h : Frame fp s t) (k : Frame fp t u) : Frame fp s u where
  params := k.params.trans h.params
  srcs := k.srcs.trans h.srcs
  snkErr := k.snkErr.trans h.snkErr
  host := k.host.trans h.host
  hostReads := k.hostReads.trans h.hostReads
  freeIdx := k.freeIdx.trans h.freeIdx
  fault := k.fault.trans h.fault
  finfo := k.finfo.trans h.finfo
  busy := k.busy.trans h.busy
  result := fun e => (k.result e).trans (h.result e)
  ctrl := fun e => (k.ctrl e).trans (h.ctrl e)
  freq := fun e => (k.freq e).trans (h.freq e)
  tree := fun e => ⟨(k.tree e).1.trans (h.tree e).1, (k.tree e).2.trans (h.tree e).2⟩
  ct := fun e => (k.ct e).trans (h.ct e)
  trie := fun e => (k.trie e).trans (h.trie e)
  writer := fun e =>
    ⟨(k.writer e).1.trans (h.writer e).1, (k.writer e).2.1.trans (h.writer e).2.1,
      (k.writer e).2.2.1.trans (h.writer e).2.2.1, (k.writer e).2.2.2.trans (h.writer e).2.2.2⟩
  position := fun e =>
    ⟨(k.position e).1.trans (h.position e).1, (k.position e).2.1.trans (h.position e).2.1,
      (k.position e).2.2.trans (h.position e).2.2⟩
  opening := fun e => ⟨(k.opening e).1.trans (h.opening e).1, (k.opening e).2.trans (h.opening e).2⟩

/-- What a piece inside a footprint tells of a fault it raises (R134), for the faults whose information does not hang on how
far the piece has moved: `s` is the state it starts in, `t` the state at the raise. -/
def FaultForm (fp : Footprint) (e : ErrorCode) (info : Word) (s t : State) : Prop :=
  match e with
  | .illegal | .busy | .state | .align | .exh => True
  | .fmt => info = 0x80000000#32 ∨ info.toNat ≤ 65534
  | .srcIo => fp.opening = false → ∃ k, s.src.failAt = some k ∧ info = failureInfo k
  | .snkIo => s.snkErr = some info.toNat ∧ info = t.snkCount
  | .trie =>
    if fp.trie then ∃ y : Byte, info = 0x01000000#32 ||| y.setWidth 32
    else ∃ d : Nat, 1 ≤ d ∧ (TrieOk s → d ≤ 255) ∧ info = 0x02000000#32 ||| BitVec.ofNat 32 d
  | .noCode => ∃ y : Byte, info = y.setWidth 32 ∧ (fp.ct = false → cell s.ct y = none)
  | .ovf =>
    if fp.tree then ∃ k : Nat, k < 511 ∧ info = 0x02000000#32 ||| BitVec.ofNat 32 k
    else ∃ y : Byte, info = 0x01000000#32 ||| y.setWidth 32

/-- A piece of a command stays inside a footprint, only ever appends to SNK, and raises no fault but those listed, with the
information R134 gives each. -/
def Within {α : Type} (fp : Footprint) (es : List ErrorCode) (s : State) (r : Res α) : Prop :=
  r.Sat (fun _ t => Frame fp s t ∧ Grows s t)
    (fun e i t => e ∈ es ∧ Frame fp s t ∧ Grows s t ∧ FaultForm fp e i s t)

variable {fp : Footprint} {es : List ErrorCode}

theorem Frame.src {s t : State} (h : Frame fp s t) (ho : fp.opening = false) : t.src = s.src := by
  rw [State.src, State.src, h.srcs, (h.opening ho).2]

/-- What a fault tells about a state it tells about the state before an update inside the footprint. -/
theorem FaultForm.before {e : ErrorCode} {i : Word} {s t u : State} (hf : Frame fp s t) (h : FaultForm fp e i t u) :
    FaultForm fp e i s u := by
  cases e with
  | srcIo => exact fun ho => by rw [← hf.src ho]; exact h ho
  | snkIo => exact ⟨by rw [← hf.snkErr]; exact h.1, h.2⟩
  | trie =>
    simp only [FaultForm] at *
    split
    · next hp => rwa [if_pos hp] at h
    · next hp =>
      rw [if_neg hp] at h
      rwa [TrieOk, hf.trie (by simpa using hp)] at h
  | noCode =>
    obtain ⟨y, h1, h2⟩ := h
    exact ⟨y, h1, fun hc => by rw [← hf.ct hc]; exact h2 hc⟩
  | _ => exact h

theorem Within.ok {α : Type} (a : α) (s : State) : Within fp es s (.ok a s) := ⟨.refl fp s, .refl s⟩

theorem Within.raised {α : Type} {e : ErrorCode} (i : Word) (s : State) (h : e ∈ es) (hi : FaultForm fp e i s s) :
    Within fp es s (.raised e i s : Res α) := ⟨h, .refl fp s, .refl s, hi⟩

theorem Within.bind {α β : Type} {s : State} {r : Res α} {f : α → State → Res β} (h : Within fp es s r)
    (hf : ∀ a t, Within fp es t (f a t)) : Within fp es s (r.bind f) :=
  Res.Sat.bind h fun a t ht =>
    (hf a t).mono (fun _ _ hu => ⟨ht.1.trans hu.1, ht.2.trans hu.2⟩)
      (fun _ _ _ hu => ⟨hu.1, ht.1.trans hu.2.1, ht.2.trans hu.2.2.1, hu.2.2.2.before ht.1⟩)

/-- A piece that starts after an update inside the footprint. -/
theorem Within.after {α : Type} {s t : State} {r : Res α} (hf : Frame fp s t) (hg : Grows s t) (h : Within fp es t r) :
    Within fp es s r :=
  Res.Sat.mono h (fun _ _ hu => ⟨hf.trans hu.1, hg.trans hu.2⟩)
    (fun _ _ _ hu => ⟨hu.1, hf.trans hu.2.1, hg.trans hu.2.2.1, hu.2.2.2.before hf⟩)

theorem Within.okAfter {α : Type} {s t : State} (a : α) (hf : Frame fp s t) (h : t.snk = s.snk := by rfl)
    (h' : t.snkCount = s.snkCount := by rfl) : Within fp es s (.ok a t) := ⟨hf, [], by simp [h], by simp [h']⟩

theorem withReader_within {opc : BitVec 8} {body : State → Res Unit} {s : State} (he : .state ∈ es)
    (h : Within fp es s (body s)) : Within fp es s (withReader opc body s) := by
  unfold withReader
  split
  · exact h
  · exact Within.raised _ _ he trivial

/-! The updates -/

theorem setResult_frame (h : fp.result = true) (s : State) (v : Word) : Frame fp s (s.setResult v) := by
  constructor <;> simp [h]
theorem setCtrl_frame (h : fp.ctrl = true) (s : State) (v : Word) : Frame fp s (s.setCtrl v) := by
  constructor <;> simp [h]
theorem setFreq_frame (h : fp.freq = true) (s : State) (t : Table Nat) : Frame fp s (s.setFreq t) := by
  constructor <;> simp [h]
theorem setTree_frame (h : fp.tree = true) (s : State) (ns : List Node) (r : Option Nat) :
    Frame fp s (s.setTree ns r) := by constructor <;> simp [h]
theorem setCt_frame (h : fp.ct = true) (s : State) (t : Table CodeEntry) : Frame fp s (s.setCt t) := by
  constructor <;> simp [h]
theorem setTrie_frame (h : fp.trie = true) (s : State) (t : Trie) : Frame fp s (s.setTrie t) := by
  constructor <;> simp [h]
theorem setReader_frame (h : fp.position = true) (s : State) (b : List Byte) (j k : Nat) :
    Frame fp s (s.setReader b j k) := by constructor <;> simp [h]
theorem nextOpen_frame (h : fp.opening = true) (s : State) : Frame fp s s.nextOpen := by
  constructor <;> simp [h]
theorem setWriter_frameOf (h : fp.writer = true) (s : State) (b : List Byte) (n : Nat) :
    Frame fp s (s.setWriter b n) := by constructor <;> simp [h]

theorem onlyWriter.toFrame {s t : State} (h : onlyWriter s t) (hw : fp.writer = true) : Frame fp s t := by
  unfold onlyWriter at h
  constructor <;> (rw [h]; try simp [hw])

theorem Grows.of_eq {s t : State} (h : t.snk = s.snk) (h' : t.snkCount = s.snkCount) : Grows s t :=
  ⟨[], by simp [h], by simp [h']⟩

theorem setReader_grows (s : State) (b : List Byte) (j k : Nat) : Grows s (s.setReader b j k) := .of_eq rfl rfl
theorem setWriter_grows (s : State) (b : List Byte) (n : Nat) : Grows s (s.setWriter b n) := .of_eq rfl rfl

/-! The reader -/

theorem refill_within (hp : fp.position = true) (he : .srcIo ∈ es) (j : Nat) (s : State) :
    Within fp es s (refill j s) := by
  unfold refill
  split
  · next k h => exact Within.raised _ _ he fun _ => ⟨k, failsIn_failAt h |>.1, rfl⟩
  · exact Within.after (setReader_frame hp s _ _ _) (setReader_grows s _ _ _) (Within.ok _ _)

theorem advance_within (hp : fp.position = true) (he : .srcIo ∈ es) (n : Nat) (s : State) :
    Within fp es s (advance n s) := by
  unfold advance
  split
  · exact Within.after (setReader_frame hp s _ _ _) (setReader_grows s _ _ _) (refill_within hp he _ _)
  · exact Within.after (setReader_frame hp s _ _ _) (setReader_grows s _ _ _) (Within.ok _ _)

theorem readBit_within (hp : fp.position = true) (he : .srcIo ∈ es) {s : State} (hx : hasNext s = false → .exh ∈ es) :
    Within fp es s (readBit s) := by
  unfold readBit
  split
  · exact (advance_within hp he 1 s).bind fun _ t => Within.ok _ _
  · next h => exact Within.raised _ _ (hx (by simpa using h)) trivial

theorem readByte_within (hp : fp.position = true) (he : .srcIo ∈ es) (ha : .align ∈ es) {s : State}
    (hx : hasNext s = false → .exh ∈ es) : Within fp es s (readByte s) := by
  unfold readByte
  split
  · split
    · exact (advance_within hp he 8 s).bind fun _ t => Within.ok _ _
    · next h => exact Within.raised _ _ (hx (by simpa using h)) trivial
  · exact Within.raised _ _ ha trivial

theorem readShort_within (hp : fp.position = true) (he : .srcIo ∈ es) (ha : .align ∈ es) (hx : .exh ∈ es)
    (s : State) : Within fp es s (readShort s) :=
  (readByte_within hp he ha fun _ => hx).bind fun _ _ =>
    (readByte_within hp he ha fun _ => hx).bind fun _ _ => Within.ok _ _

theorem scanBytes_within (hp : fp.position = true) (he : .srcIo ∈ es) (ha : .align ∈ es)
    {body : Byte → State → Res Unit} (hb : ∀ y s, Within fp es s (body y s)) (n : Nat) (s : State) :
    Within fp es s (scanBytes body n s) := by
  induction n generalizing s with
  | zero => exact Within.ok _ _
  | succ n ih =>
    unfold scanBytes
    split
    · next h =>
      refine (readByte_within hp he ha ?_).bind fun y t => (hb y t).bind fun _ u => ih u
      intro h'
      rw [h] at h'
      exact absurd h' (by decide)
    · exact Within.ok _ _

/-! The writer -/

theorem Within.of_writer {s : State} {r : Res Unit} (hw : fp.writer = true) (he : .snkIo ∈ es)
    (h : r.Sat (fun _ t => onlyWriter s t ∧ Grows s t)
      (fun e i t => e = .snkIo ∧ onlyWriter s t ∧ Grows s t ∧ s.snkErr = some i.toNat ∧ i = t.snkCount)) :
    Within fp es s r :=
  Res.Sat.mono h (fun _ _ hu => ⟨hu.1.toFrame hw, hu.2⟩)
    (fun _ _ _ hu => ⟨hu.1 ▸ he, hu.2.1.toFrame hw, hu.2.2.1, hu.1 ▸ hu.2.2.2⟩)

theorem writeBit_within (hw : fp.writer = true) (he : .snkIo ∈ es) (b : Bool) (s : State) :
    Within fp es s (writeBit b s) :=
  .of_writer hw he ((writeBit_sat b s).mono (fun _ _ h => ⟨h.frame, h.grows⟩) fun _ _ _ h =>
    ⟨h.code, h.frame, h.grows, h.sink, h.count⟩)

theorem writeBits_within (hw : fp.writer = true) (he : .snkIo ∈ es) (bs : Bits) (s : State) :
    Within fp es s (writeBits bs s) :=
  .of_writer hw he ((writeBits_sat bs s).mono (fun _ _ h => ⟨h.frame, h.grows⟩) fun _ _ _ h =>
    ⟨h.code, h.frame, h.grows, h.sink, h.count⟩)

theorem writeByte_within (hw : fp.writer = true) (he : .snkIo ∈ es) (ha : .align ∈ es) (y : Byte) (s : State) :
    Within fp es s (writeByte y s) :=
  (writeByte_sat y s).mono (fun _ _ h => ⟨h.1.frame.toFrame hw, h.1.grows⟩) fun _ _ _ h => by
    rcases h with h | ⟨h1, h3, h2, h4⟩
    · exact ⟨h.code ▸ he, h.frame.toFrame hw, h.grows, h.code ▸ ⟨h.sink, h.count⟩⟩
    · subst h1 h2 h3
      exact ⟨ha, .refl _ _, .refl _, trivial⟩

theorem writeShort_within (hw : fp.writer = true) (he : .snkIo ∈ es) (ha : .align ∈ es) (v : BitVec 16) (s : State) :
    Within fp es s (writeShort v s) :=
  (writeByte_within hw he ha _ s).bind fun _ t => writeByte_within hw he ha _ t

theorem flush_within (hw : fp.writer = true) (he : .snkIo ∈ es) (s : State) : Within fp es s (flush s) :=
  .of_writer hw he ((flush_sat s).mono (fun _ _ h => ⟨h.1, h.2.1⟩) fun _ _ _ h =>
    ⟨h.1, h.2.2.2.1, h.2.2.2.2.1, h.2.1, h.2.2.1⟩)

/-! The families -/

theorem countByte_within (hf : fp.freq = true) (ht : fp.tree = false) (he : .ovf ∈ es) (y : Byte) (s : State) :
    Within fp es s (countByte y s) := by
  unfold countByte
  split
  · exact Within.raised _ _ he (by simpa [FaultForm, ht] using ⟨y, rfl⟩)
  · exact Within.okAfter _ (setFreq_frame hf s _)

theorem emitCode_within (hw : fp.writer = true) (he : .snkIo ∈ es) (hc : .noCode ∈ es) (y : Byte) (s : State) :
    Within fp es s (emitCode y s) := by
  unfold emitCode
  split
  · next h => exact Within.raised _ _ hc ⟨y, rfl, fun _ => h⟩
  · exact writeBits_within hw he _ _

theorem padWriter_within (hw : fp.writer = true) (he : .snkIo ∈ es) (n : Nat) (s : State) :
    Within fp es s (padWriter n s) := by
  induction n generalizing s with
  | zero => exact Within.ok _ _
  | succ n ih =>
    unfold padWriter
    split
    · exact Within.ok _ _
    · exact (writeBit_within hw he _ s).bind fun _ t => ih t

theorem writeEntries_within (hw : fp.writer = true) (he : .snkIo ∈ es) (ha : .align ∈ es) (t : Table CodeEntry)
    (ys : List Byte) (s : State) : Within fp es s (writeEntries t ys s) := by
  induction ys generalizing s with
  | nil => exact Within.ok _ _
  | cons y ys ih =>
    unfold writeEntries
    split
    · exact ih s
    · exact Within.bind
        ((writeByte_within hw he ha _ s).bind fun _ t => (writeByte_within hw he ha _ t).bind fun _ u =>
          (writeBits_within hw he _ u).bind fun _ v => padWriter_within hw he 8 v)
        fun _ t => ih t

theorem headerByte_within (hp : fp.position = true) (he : .srcIo ∈ es) (ha : .align ∈ es) (hf : .fmt ∈ es)
    {i : Word} (hi : i = 0x80000000#32 ∨ i.toNat ≤ 65534) (s : State) : Within fp es s (headerByte i s) := by
  unfold headerByte
  split
  · next h =>
    exact readByte_within hp he ha fun h' => absurd (h.symm.trans h') (by decide)
  · exact Within.raised _ _ hf hi

/-- The padding loop of HREAD never runs out of bits: an unaligned position after a bit read has a next bit. -/
def Midway (s : State) : Prop := s.rdOff ≤ 8 * s.rdValid

theorem advance_midway {n : Nat} {s : State} (h : s.rdOff + n ≤ 8 * s.rdValid) :
    (advance n s).Sat (fun _ t => Midway t) (fun _ _ _ => True) := by
  unfold advance
  split
  · unfold refill
    split
    · trivial
    · exact Nat.zero_le _
  · exact h

theorem readBit_midway (s : State) : (readBit s).Sat (fun _ t => Midway t) (fun _ _ _ => True) := by
  unfold readBit
  split
  · next h =>
    have h' : s.rdOff < 8 * s.rdValid := by simpa [hasNext] using h
    exact (advance_midway (n := 1) h').bind fun _ t ht => ht
  · trivial

theorem readByte_midway (s : State) : (readByte s).Sat (fun _ t => Midway t) (fun _ _ _ => True) := by
  unfold readByte
  split
  · next ha =>
    split
    · next h =>
      have h1 : s.rdOff < 8 * s.rdValid := by simpa [hasNext] using h
      have h2 : s.rdOff % 8 = 0 := by simpa [rdAligned] using ha
      exact (advance_midway (n := 8) (by omega)).bind fun _ t ht => ht
    · trivial
  · trivial

theorem Res.Sat.and {α : Type} {r : Res α} {P Q : α → State → Prop} {E F : ErrorCode → Word → State → Prop}
    (h : r.Sat P E) (k : r.Sat Q F) : r.Sat (fun a t => P a t ∧ Q a t) (fun e i t => E e i t ∧ F e i t) := by
  cases r with
  | ok a t => exact ⟨h, k⟩
  | raised e i t => exact ⟨h, k⟩

theorem skipPadding_within (hp : fp.position = true) (he : .srcIo ∈ es) (n : Nat) {s : State} (hm : Midway s) :
    Within fp es s (skipPadding n s) := by
  induction n generalizing s with
  | zero => exact Within.ok _ _
  | succ n ih =>
    unfold skipPadding
    split
    · exact Within.ok _ _
    · next ha =>
      have hx : hasNext s = false → .exh ∈ es := by
        intro h
        have h1 : ¬ s.rdOff < 8 * s.rdValid := by simpa [hasNext] using h
        have h2 : ¬ s.rdOff % 8 = 0 := by simpa [rdAligned] using ha
        unfold Midway at hm
        omega
      have both := (Res.Sat.and (readBit_within (es := es) hp he hx) (readBit_midway s)).mono
        (fun _ _ h => h) (fun _ _ _ h => h.1)
      exact both.bind fun _ t ht => Within.after ht.1.1 ht.1.2 (ih ht.2)

theorem entry_info {e : Nat} (h : e ≤ 65534) :
    BitVec.ofNat 32 e = 0x80000000#32 ∨ (BitVec.ofNat 32 e).toNat ≤ 65534 := by
  right
  rw [BitVec.toNat_ofNat, Nat.mod_eq_of_lt (by omega)]
  exact h

theorem readCode_within (hp : fp.position = true) (he : .srcIo ∈ es) (hf : .fmt ∈ es) {e : Nat} (hb : e ≤ 65534)
    (n : Nat) (s : State) : Within fp es s (readCode e n s) := by
  induction n generalizing s with
  | zero => exact Within.ok _ _
  | succ n ih =>
    unfold readCode
    split
    · next h =>
      exact (readBit_within hp he fun h' => absurd (h.symm.trans h') (by decide)).bind fun _ t =>
        (ih t).bind fun _ u => Within.ok _ _
    · exact Within.raised _ _ hf (entry_info hb)

theorem readCode_midway (e n : Nat) {s : State} (h : Midway s) :
    (readCode e n s).Sat (fun _ t => Midway t) (fun _ _ _ => True) := by
  induction n generalizing s with
  | zero => exact h
  | succ n ih =>
    unfold readCode
    split
    · exact (readBit_midway s).bind fun _ t ht => (ih ht).bind fun _ u hu => hu
    · trivial

theorem headerByte_midway (i : Word) (s : State) :
    (headerByte i s).Sat (fun _ t => Midway t) (fun _ _ _ => True) := by
  unfold headerByte
  split
  · exact readByte_midway s
  · trivial

/-- A piece that stays inside and whose result meets `P`. -/
theorem Within.bindWith {α β : Type} {s : State} {r : Res α} {f : α → State → Res β} {P : State → Prop}
    (h : Within fp es s r) (k : r.Sat (fun _ t => P t) (fun _ _ _ => True))
    (hf : ∀ a t, P t → Within fp es t (f a t)) : Within fp es s (r.bind f) := by
  have both := (Res.Sat.and h k).mono (fun _ _ h => h) (fun _ _ _ h => h.1)
  exact both.bind fun a t ht => Within.after ht.1.1 ht.1.2 (hf a t ht.2)

theorem readEntry_within (hp : fp.position = true) (hc : fp.ct = true) (he : .srcIo ∈ es) (ha : .align ∈ es)
    (hf : .fmt ∈ es) {e : Nat} (hb : e ≤ 65534) (s : State) : Within fp es s (readEntry e s) :=
  (headerByte_within hp he ha hf (entry_info hb) s).bind fun _ t =>
    Within.bindWith (headerByte_within hp he ha hf (entry_info hb) t) (headerByte_midway _ t) fun _ u hu =>
      Within.bindWith (readCode_within hp he hf hb _ u) (readCode_midway e _ hu) fun _ v hv =>
        (skipPadding_within hp he 8 hv).bind fun _ w =>
          Within.okAfter _ (setCt_frame hc w _)

theorem readEntries_within (hp : fp.position = true) (hc : fp.ct = true) (he : .srcIo ∈ es) (ha : .align ∈ es)
    (hf : .fmt ∈ es) (e n : Nat) (hb : e + n ≤ 65535) (s : State) : Within fp es s (readEntries e n s) := by
  induction n generalizing e s with
  | zero => exact Within.ok _ _
  | succ n ih =>
    unfold readEntries
    exact (readEntry_within hp hc he ha hf (by omega) s).bind fun _ t => ih (e + 1) (by omega) t

theorem readHeader_within (hp : fp.position = true) (hc : fp.ct = true) (he : .srcIo ∈ es) (ha : .align ∈ es)
    (hf : .fmt ∈ es) (s : State) : Within fp es s (readHeader s) := by
  refine Within.after (t := s.setCt (constTable none)) (setCt_frame hc s _) (.of_eq rfl rfl) ?_
  unfold readHeader
  dsimp only
  split
  · exact (headerByte_within hp he ha hf (.inl rfl) _).bind fun _ t =>
      (headerByte_within hp he ha hf (.inl rfl) t).bind fun _ u =>
        readEntries_within hp hc he ha hf _ _ (by have := (‹Byte› ++ ‹Byte› : BitVec 16).isLt; omega) u
  · exact Within.raised _ _ ha trivial

/-- An INNER node stands at a path shorter than every TERM's bound. -/
theorem lookup_inner_lt {u : Trie} {n : Nat} (hu : u.okBelow n) {p : Bits} (h : u.lookup p = some .inner) :
    p.length < n := by
  induction p generalizing u n with
  | nil =>
    cases u with
    | absent => exact nomatch h
    | node k z o =>
      cases k with
      | term y => exact nomatch h
      | inner =>
        cases n with
        | zero => exact absurd hu (by simp [Trie.okBelow])
        | succ n => simp
  | cons b p ih =>
    cases u with
    | absent => exact nomatch h
    | node k z o =>
      have h' : (if b then o else z).lookup p = some .inner := by
        unfold Trie.lookup at h
        cases b <;> exact h
      cases k with
      | term y =>
        rw [show (if b then o else z) = Trie.absent by
          have hz : z = .absent ∧ o = .absent := by cases n <;> simpa [Trie.okBelow] using hu
          cases b <;> simp [hz.1, hz.2]] at h'
        cases p <;> exact nomatch h'
      | inner =>
        cases n with
        | zero => exact absurd hu (by simp [Trie.okBelow])
        | succ n =>
          have hz : z.okBelow n ∧ o.okBelow n := hu
          have := ih (n := n) (u := if b then o else z) (by cases b <;> simp [hz.1, hz.2]) h'
          simpa using this

/-- A walk position: the root or an INNER node. -/
def WalkAt (p : Bits) (s : State) : Prop := p = [] ∨ s.trie.lookup p = some .inner

theorem WalkAt.step {p : Bits} {s : State} (h : WalkAt p s) (b : Bool) (hs : TrieOk s) : (p ++ [b]).length ≤ 255 := by
  rw [List.length_append, List.length_singleton]
  rcases h with rfl | h
  · simp
  · have := lookup_inner_lt hs.2 h
    simp only [Config.maxLen] at this
    omega

theorem trieStep_within (hp : fp.position = true) (hn : fp.trie = false) (he : .srcIo ∈ es) (ht : .trie ∈ es)
    {p : Bits} {s : State} (hw : WalkAt p s) (h : hasNext s = true) :
    (trieStep p s).Sat (fun q t => Frame fp s t ∧ Grows s t ∧ (q.2 = .inner → WalkAt q.1 t))
      (fun e i t => e ∈ es ∧ Frame fp s t ∧ Grows s t ∧ FaultForm fp e i s t) := by
  unfold trieStep
  refine Res.Sat.bind (readBit_within (es := es) hp he fun h' => absurd (h.symm.trans h') (by decide)) ?_
  rintro b t ⟨f, g⟩
  split
  · refine ⟨ht, f, g, ?_⟩
    rw [FaultForm, if_neg (by simp [hn])]
    exact ⟨_, by simp, fun hs => hw.step b hs, rfl⟩
  · next k hk => exact ⟨f, g, fun e => .inr (by rw [hk]; exact congrArg some e)⟩

theorem decodeOne_within (hp : fp.position = true) (hn : fp.trie = false) (hr : fp.result = true) (he : .srcIo ∈ es)
    (ht : .trie ∈ es) (n : Nat) {p : Bits} {s : State} (hw : WalkAt p s) : Within fp es s (decodeOne n p s) := by
  induction n generalizing p s with
  | zero => exact Within.ok _ _
  | succ n ih =>
    unfold decodeOne
    split
    · next h =>
      refine Res.Sat.bind (trieStep_within hp hn he ht hw h) fun q t hq => Within.after hq.1 hq.2.1 ?_
      split
      · exact Within.okAfter _ (setResult_frame hr t _)
      · next e => exact ih (hq.2.2 e)
    · exact Within.okAfter _ (setResult_frame hr s _)

theorem decodeAll_within (hp : fp.position = true) (hn : fp.trie = false) (hwr : fp.writer = true) (he : .srcIo ∈ es)
    (hs : .snkIo ∈ es) (ha : .align ∈ es) (ht : .trie ∈ es) (n : Nat) {p : Bits} {s : State} (hw : WalkAt p s) :
    Within fp es s (decodeAll n p s) := by
  induction n generalizing p s with
  | zero => exact Within.ok _ _
  | succ n ih =>
    unfold decodeAll
    split
    · next h =>
      refine Res.Sat.bind (trieStep_within hp hn he ht hw h) fun q t hq => Within.after hq.1 hq.2.1 ?_
      split
      · exact (writeByte_within hwr hs ha _ t).bind fun _ u => ih (.inl rfl)
      · next e => exact ih (hq.2.2 e)
    · exact Within.ok _ _

end Sys2Proof.Machine
end

