-- ==== Sys2Proof/Laws/Reader.lean ====
section
/-! SUPPORT. What the reader primitives can do (20_memory.md R54 to R61): one law each. -/

namespace Sys2Proof.Machine
open Sys2Proof

/-! ### The reader -/

/-- Only the reader's position has moved. -/
theorem onlyReader.refl (s : State) : onlyReader s s := rfl

theorem onlyReader.trans {s t u : State} (h : onlyReader s t) (k : onlyReader t u) : onlyReader s u := by
  unfold onlyReader at *
  rw [k, h]
  rfl

theorem setReader_onlyReader (s : State) (b : List Byte) (j k : Nat) : onlyReader s (s.setReader b j k) := rfl

theorem onlyReader.params {s t : State} (h : onlyReader s t) : t.params = s.params := by rw [h]; rfl
theorem onlyReader.src {s t : State} (h : onlyReader s t) : t.src = s.src := by rw [h]; rfl
theorem onlyReader.rdOpen {s t : State} (h : onlyReader s t) : t.rdOpen = s.rdOpen := by rw [h]; rfl

/-- A refill loads its chunk, or the presentation fails inside it (R55). -/
theorem refill_cases (j : Nat) (s : State) :
    (failsIn s.bufBytes j s.src = none ∧
        refill j s = .ok () (s.setReader (chunkOf s.bufBytes j s.src.bytes) j 0)) ∨
      ∃ k, failsIn s.bufBytes j s.src = some k ∧ refill j s = .raised .srcIo (failureInfo k) s := by
  unfold refill
  split
  · next k h => exact .inr ⟨k, h, rfl⟩
  · next h => exact .inl ⟨h, rfl⟩

/-- An advance that stays inside the buffer. -/
theorem advance_inside {n : Nat} {s : State} (h : s.rdOff + n ≠ 8 * s.bufBytes) :
    advance n s = .ok () (s.setReader s.rdBuf s.rdChunk (s.rdOff + n)) := by
  rw [advance, if_neg h]

/-- A source fault while the `n` bits ahead are read: the presentation gives the index, a failure lies in a chunk requested
before they are all read, and only the reader has moved (R55). -/
structure SourceFailed (n : Nat) (s : State) (e : ErrorCode) (info : Word) (t : State) : Prop where
  code : e = .srcIo
  source : ∃ k, s.src.failAt = some k ∧ info = failureInfo k
  ahead : ReaderOk s → ∀ m, m + n ≤ (unreadBits s).length → ¬ SoundUntil m s
  frame : onlyReader s t

/-- The fewer bits stay unread, the more chunks are requested. -/
theorem SoundUntil.mono {m n : Nat} {s : State} (h : SoundUntil m s) (hn : m ≤ n) : SoundUntil n s :=
  fun j hj hl => h j hj (by omega)

theorem SourceSound.until {s : State} (h : SourceSound s) (n : Nat) : SoundUntil n s := SoundUntil.mono h (Nat.zero_le n)

/-- The sizes of a consistent reader's position. -/
theorem ReaderOk.sizes {s : State} (h : ReaderOk s) :
    s.rdValid = min s.bufBytes (s.src.bytes.length - s.rdChunk * s.bufBytes) ∧
      8 * s.bufBytes * s.rdChunk = 8 * (s.rdChunk * s.bufBytes) ∧
      (unreadBits s).length + consumed s = 8 * s.src.bytes.length := by
  obtain ⟨r1, r2, r3, r4⟩ := h
  have e1 : s.rdValid = min s.bufBytes (s.src.bytes.length - s.rdChunk * s.bufBytes) := by
    simp [State.rdValid, r1, chunkOf]
  have e2 : 8 * s.bufBytes * s.rdChunk = 8 * (s.rdChunk * s.bufBytes) := by ring
  refine ⟨e1, e2, ?_⟩
  simp only [unreadBits, List.length_drop, bytesBits_length, consumed, e2]
  omega

/-- A reader that requests no more chunk before `left` bits stay unread has no failure to meet till then. -/
theorem soundUntil_of_near {s : State} {left : Nat}
    (h : 8 * s.src.bytes.length < 8 * s.bufBytes * (s.rdChunk + 1) + left) : SoundUntil left s := by
  intro j hj hl
  have : 8 * s.bufBytes * (s.rdChunk + 1) ≤ 8 * s.bufBytes * j := Nat.mul_le_mul_left _ hj
  omega

/-- A consistent reader that reads nothing more requests nothing more. -/
theorem ReaderOk.soundUntil {s : State} (h : ReaderOk s) : SoundUntil (unreadBits s).length s := by
  obtain ⟨-, -, e3⟩ := h.sizes
  obtain ⟨-, -, -, h4⟩ := h
  refine soundUntil_of_near ?_
  have e' : 8 * s.bufBytes * (s.rdChunk + 1) = 8 * s.bufBytes * s.rdChunk + 8 * s.bufBytes := by ring
  simp only [consumed] at e3
  omega

/-- An exhausted reader has no source failure ahead: it has requested every chunk (R55, R57). -/
theorem sourceSound_of_exhausted {s : State} (h : ReaderOk s) (hx : hasNext s = false) : SourceSound s := by
  obtain ⟨e1, e2, -⟩ := h.sizes
  obtain ⟨r1, r2, r3, r4⟩ := h
  refine soundUntil_of_near ?_
  have : 8 * s.rdValid ≤ s.rdOff := by simpa [hasNext] using hx
  have e' : 8 * s.bufBytes * (s.rdChunk + 1) = 8 * s.bufBytes * s.rdChunk + 8 * s.bufBytes := by ring
  omega

/-- An advance over `n` bits of the buffer that are valid: the position moves on, and the failures that lie ahead stay what
they are; at the buffer's end the next chunk's failure is met (R55, R56). -/
theorem advance_sat (n : Nat) (s : State) :
    (advance n s).Sat
      (fun _ t => onlyReader s t ∧
        (ReaderOk s → s.rdOff + n ≤ 8 * s.rdValid → s.rdOff + n ≤ 8 * s.bufBytes →
          ReaderOk t ∧ consumed t = consumed s + n ∧ (s.rdOff + n) % 8 = t.rdOff % 8 ∧
            ∀ m, m + n ≤ (unreadBits s).length → (SoundUntil m s ↔ SoundUntil m t)))
      (fun e i t => e = .srcIo ∧ (∃ k, s.src.failAt = some k ∧ i = failureInfo k) ∧ onlyReader s t ∧
        (ReaderOk s → ∀ m, m + n ≤ (unreadBits s).length → ¬ SoundUntil m s)) := by
  by_cases h : s.rdOff + n = 8 * s.bufBytes
  · have e' : 8 * s.bufBytes * (s.rdChunk + 1) = 8 * s.bufBytes * s.rdChunk + 8 * s.bufBytes := by ring
    rw [advance, if_pos h]
    rcases refill_cases (s.rdChunk + 1) (s.setReader s.rdBuf s.rdChunk (s.rdOff + n)) with
      ⟨hno, h'⟩ | ⟨k, h1, h'⟩
    · rw [h']
      refine ⟨rfl, fun hr hv hb => ?_⟩
      obtain ⟨e1, e2, -⟩ := hr.sizes
      obtain ⟨r1, r2, r3, r4⟩ := hr
      have e3 : (s.rdChunk + 1) * s.bufBytes = s.rdChunk * s.bufBytes + s.bufBytes := by ring
      refine ⟨⟨rfl, show (s.rdChunk + 1) * s.bufBytes ≤ s.src.bytes.length by omega, Nat.zero_le _,
        by simp [State.bufBytes] at *; omega⟩, ?_, ?_, ?_⟩
      · have : consumed s + n = 8 * s.bufBytes * s.rdChunk + 8 * s.bufBytes := by
          simp only [consumed]; omega
        rw [this]
        simp only [consumed, State.setReader_rdChunk, State.setReader_rdOff, State.bufBytes, State.setReader_params]
        ring
      · simp only [State.setReader_rdOff]; omega
      · intro m hm
        constructor
        · intro hs j hj hl
          exact hs j (by simp only [State.setReader_rdChunk] at hj; omega) hl
        · intro ht j hj hl
          rcases Nat.lt_or_ge (s.rdChunk + 1) j with hlt | hge
          · exact ht j hlt hl
          · rw [show j = s.rdChunk + 1 by omega]; exact hno
    · rw [h']
      refine ⟨rfl, ⟨k, (failsIn_failAt h1).1, rfl⟩, rfl, fun hr m hm hs => ?_⟩
      obtain ⟨-, -, e3⟩ := hr.sizes
      simp only [consumed] at e3
      exact absurd ((hs (s.rdChunk + 1) (by omega) (by omega)).symm.trans h1) (by simp)
  · rw [advance_inside h]
    refine ⟨rfl, fun hr hv hb => ?_⟩
    obtain ⟨r1, r2, r3, r4⟩ := hr
    refine ⟨⟨r1, r2, hv, ?_⟩, ?_, rfl, fun _ _ => Iff.rfl⟩
    · simp only [State.setReader_rdOff, State.bufBytes, State.setReader_params] at *; omega
    · simp [consumed, State.bufBytes, Nat.add_assoc]

/-- The bits of the buffer from the offset on are the unread bits up to the buffer's end (R40, R49). -/
theorem buffer_bits {s : State} (h : ReaderOk s) :
    (bytesBits s.params.bitOrder s.rdBuf).drop s.rdOff =
      (unreadBits s).take (8 * s.rdValid - s.rdOff) := by
  obtain ⟨r1, r2, r3, r4⟩ := h
  have e : 8 * s.bufBytes * s.rdChunk = 8 * (s.rdChunk * s.bufBytes) := by ring
  have e2 : s.rdValid = min s.bufBytes (s.src.bytes.length - s.rdChunk * s.bufBytes) := by
    simp [State.rdValid, r1, chunkOf]
  conv_lhs => rw [r1]
  rw [unreadBits, consumed, e, chunkOf, bytesBits_take, bytesBits_drop]
  apply List.ext_getElem?
  intro i
  simp only [List.getElem?_take, List.getElem?_drop]
  have e3 : (bytesBits s.params.bitOrder s.src.bytes).length = 8 * s.src.bytes.length := bytesBits_length _ _
  have e4 : 8 * (s.rdChunk * s.bufBytes) + (s.rdOff + i) = 8 * (s.rdChunk * s.bufBytes) + s.rdOff + i := by omega
  rw [e4]
  by_cases hi : i < 8 * s.rdValid - s.rdOff
  · rw [if_pos hi, if_pos (by omega)]
  · rw [if_neg hi]
    split
    · exact List.getElem?_eq_none (by omega)
    · rfl

theorem hasNext_iff {s : State} : hasNext s = true ↔ s.rdOff < 8 * s.rdValid := by simp [hasNext]

theorem hasNext_false_iff {s : State} : hasNext s = false ↔ 8 * s.rdValid ≤ s.rdOff := by
  simp [hasNext]

/-- HasNextP is exact (R41, R57). -/
theorem hasNext_iff_unread {s : State} (h : ReaderOk s) : hasNext s = true ↔ unreadBits s ≠ [] := by
  obtain ⟨r1, r2, r3, r4⟩ := h
  have e : 8 * s.bufBytes * s.rdChunk = 8 * (s.rdChunk * s.bufBytes) := by ring
  have e2 : s.rdValid = min s.bufBytes (s.src.bytes.length - s.rdChunk * s.bufBytes) := by
    simp [State.rdValid, r1, chunkOf]
  rw [hasNext_iff, ne_eq, unreadBits, List.drop_eq_nil_iff, bytesBits_length, consumed, e]
  omega

theorem readBit_sat (s : State) :
    (readBit s).Sat
      (fun b t => onlyReader s t ∧ hasNext s = true ∧
        (ReaderOk s → ReaderOk t ∧ unreadBits s = b :: unreadBits t ∧ consumed t = consumed s + 1 ∧
          ∀ m, m ≤ (unreadBits t).length → (SoundUntil m s ↔ SoundUntil m t)))
      (fun e i t => SourceFailed 1 s e i t ∨ (e = .exh ∧ i = offsetInfo s.rdOff ∧ t = s ∧ hasNext s = false)) := by
  unfold readBit
  by_cases hn : hasNext s = true
  · rw [if_pos hn]
    refine Res.Sat.bind (P := fun _ t => _) ((advance_sat 1 s).mono (fun _ _ h => h)
      fun _ _ _ h => .inl ⟨h.1, h.2.1, h.2.2.2, h.2.2.1⟩) ?_
    rintro _ t ⟨h1, h2⟩
    refine ⟨h1, hn, fun hr => ?_⟩
    have hlt := hasNext_iff.mp hn
    obtain ⟨k1, k2, -, k3⟩ := h2 hr hlt (by have := hr.2.2.2; omega)
    suffices hu : unreadBits s = bitAt s.params.bitOrder s.rdBuf s.rdOff :: unreadBits t from
      ⟨k1, hu, k2, fun m hm => k3 m (by rw [hu, List.length_cons]; omega)⟩
    have hb := buffer_bits hr
    have hpos : 0 < 8 * s.rdValid - s.rdOff := by omega
    have hne := (hasNext_iff_unread hr).mp hn
    obtain ⟨b, rest, hu⟩ := List.exists_cons_of_ne_nil hne
    have htail : unreadBits t = rest := by
      have : unreadBits t = (unreadBits s).drop 1 := by
        rw [unreadBits, unreadBits, k2, h1.params, h1.src, List.drop_drop]
      rw [this, hu]; rfl
    rw [htail, hu, bitAt_eq_getD]
    congr 1
    rw [hu] at hb
    have := congrArg (fun l => l[0]?) hb
    simp only [List.getElem?_drop, Nat.add_zero, List.getElem?_take, hpos, if_true, List.getElem?_cons_zero] at this
    rw [List.getD_eq_getElem?_getD, this]
    rfl
  · rw [if_neg hn]
    exact .inr ⟨rfl, rfl, rfl, by simpa using hn⟩

theorem readByte_sat (s : State) :
    (readByte s).Sat
      (fun y t => onlyReader s t ∧ hasNext s = true ∧ s.rdOff % 8 = 0 ∧
        (ReaderOk s → ReaderOk t ∧ t.rdOff % 8 = 0 ∧ unreadBits s = byteBits s.params.bitOrder y ++ unreadBits t ∧
          unreadBytes s = y :: unreadBytes t ∧ consumed t = consumed s + 8 ∧
          ∀ m, m ≤ (unreadBits t).length → (SoundUntil m s ↔ SoundUntil m t)))
      (fun e i t => SourceFailed 8 s e i t ∨
        (e = .exh ∧ i = offsetInfo s.rdOff ∧ t = s ∧ hasNext s = false ∧ s.rdOff % 8 = 0) ∨
        (e = .align ∧ i = rdAlignInfo s ∧ t = s ∧ s.rdOff % 8 ≠ 0)) := by
  unfold readByte
  by_cases ha : s.rdOff % 8 = 0
  · simp only [rdAligned, ha, decide_true, if_true]
    by_cases hn : hasNext s = true
    · rw [if_pos hn]
      refine Res.Sat.bind (P := fun _ t => _) ((advance_sat 8 s).mono (fun _ _ h => h)
        fun _ _ _ h => .inl ⟨h.1, h.2.1, h.2.2.2, h.2.2.1⟩) ?_
      rintro _ t ⟨h1, h2⟩
      refine ⟨h1, hn, trivial, fun hr => ?_⟩
      have hlt := hasNext_iff.mp hn
      have hB := hr.2.2.2
      obtain ⟨k1, k2, k3, k5⟩ := h2 hr (by omega) (by omega)
      have r1 := hr.1
      have e2 : s.rdValid = min s.bufBytes (s.src.bytes.length - s.rdChunk * s.bufBytes) := by
        simp [State.rdValid, r1, chunkOf]
      have hc : consumed s = 8 * (s.rdChunk * s.bufBytes + s.rdOff / 8) := by
        have : 8 * s.bufBytes * s.rdChunk = 8 * (s.rdChunk * s.bufBytes) := by ring
        simp only [consumed, this]; omega
      have hidx : s.rdChunk * s.bufBytes + s.rdOff / 8 < s.src.bytes.length := by omega
      have hy : s.rdBuf.getD (s.rdOff / 8) 0#8 = s.src.bytes[s.rdChunk * s.bufBytes + s.rdOff / 8] := by
        rw [r1, chunkOf, List.getD_eq_getElem?_getD, List.getElem?_take, if_pos (by omega), List.getElem?_drop,
          List.getElem?_eq_getElem hidx]
        rfl
      have hbytes : unreadBytes s =
          s.src.bytes[s.rdChunk * s.bufBytes + s.rdOff / 8] :: unreadBytes t := by
        rw [unreadBytes, unreadBytes, k2, hc, h1.src, Nat.mul_div_cancel_left _ (by decide),
          List.drop_eq_getElem_cons hidx]
        congr 2
        omega
      suffices hu : unreadBits s = byteBits s.params.bitOrder (s.rdBuf.getD (s.rdOff / 8) 0#8) ++ unreadBits t from
        ⟨k1, by omega, hu, by rw [hy]; exact hbytes, k2,
          fun m hm => k5 m (by rw [hu, List.length_append, byteBits_length]; omega)⟩
      have hs : unreadBits s = bytesBits s.params.bitOrder (unreadBytes s) := by
        rw [unreadBytes, bytesBits_drop, unreadBits]; congr 1; omega
      have ht : unreadBits t = bytesBits s.params.bitOrder (unreadBytes t) := by
        rw [unreadBytes, bytesBits_drop, unreadBits, h1.params]; congr 1; omega
      rw [hs, ht, hbytes, bytesBits_cons, hy]
    · rw [if_neg hn]
      exact .inr (.inl ⟨rfl, rfl, rfl, by simpa using hn, trivial⟩)
  · simp only [rdAligned, ha, decide_false, Bool.false_eq_true, if_false]
    exact .inr (.inr ⟨rfl, rfl, rfl, ha⟩)

/-- An open loads the first chunk of the next presentation, or that presentation fails inside it (R54, R55). -/
theorem openSource_cases (s : State) :
    (failsIn s.bufBytes 0 s.nextOpen.src = none ∧
        openSource s = .ok () (s.nextOpen.setReader (s.nextOpen.src.bytes.take s.bufBytes) 0 0)) ∨
      ∃ k, s.nextOpen.src.failAt = some k ∧ k < s.bufBytes ∧
        openSource s = .raised .srcIo (failureInfo k) s.nextOpen := by
  rcases refill_cases 0 s.nextOpen with ⟨h1, h2⟩ | ⟨k, h1, h4⟩
  · left
    exact ⟨h1, by rw [openSource, h2, chunkOf, Nat.zero_mul, List.drop_zero]; rfl⟩
  · right
    obtain ⟨a1, -, a3⟩ := failsIn_failAt h1
    exact ⟨k, a1, by simpa [State.bufBytes] using a3, h4⟩

end Sys2Proof.Machine
end

