-- ==== Sys2Proof/Laws/Streams.lean ====
section
/-! SUPPORT. Laws of the commands that move whole streams: counting, encoding, writing a header. -/

namespace Sys2Proof.Machine
open Sys2Proof

/-! ### Writer and reader do not see each other -/

theorem onlyReader.writerOk {s t : State} (h : onlyReader s t) : WriterOk t ↔ WriterOk s := by rw [h]; rfl
theorem onlyReader.sentBits {s t : State} (h : onlyReader s t) : sentBits t = sentBits s := by rw [h]; rfl
theorem onlyReader.ct {s t : State} (h : onlyReader s t) : t.ct = s.ct := by rw [h]; rfl
theorem onlyReader.trie {s t : State} (h : onlyReader s t) : t.trie = s.trie := by rw [h]; rfl
theorem onlyReader.freq {s t : State} (h : onlyReader s t) : t.freq = s.freq := by rw [h]; rfl
theorem onlyReader.snkErr {s t : State} (h : onlyReader s t) : t.snkErr = s.snkErr := by rw [h]; rfl
theorem onlyReader.wrOff {s t : State} (h : onlyReader s t) : t.wrOff = s.wrOff := by rw [h]; rfl

theorem onlyWriter.readerOk {s t : State} (h : onlyWriter s t) : ReaderOk t ↔ ReaderOk s := by rw [h]; rfl
theorem onlyWriter.hasNext {s t : State} (h : onlyWriter s t) : hasNext t = hasNext s := by rw [h]; rfl
theorem onlyWriter.unreadBits {s t : State} (h : onlyWriter s t) : unreadBits t = unreadBits s := by rw [h]; rfl
theorem onlyWriter.unreadBytes {s t : State} (h : onlyWriter s t) : unreadBytes t = unreadBytes s := by rw [h]; rfl
theorem onlyWriter.rdOff {s t : State} (h : onlyWriter s t) : t.rdOff = s.rdOff := by rw [h]
theorem onlyWriter.src {s t : State} (h : onlyWriter s t) : t.src = s.src := by rw [h]; rfl
theorem onlyWriter.trie {s t : State} (h : onlyWriter s t) : t.trie = s.trie := by rw [h]

theorem unreadBits_eq_bytes {s : State} (h : s.rdOff % 8 = 0) :
    unreadBits s = bytesBits s.params.bitOrder (unreadBytes s) := by
  have : 8 * s.bufBytes * s.rdChunk = 8 * (s.bufBytes * s.rdChunk) := by ring
  rw [unreadBytes, bytesBits_drop, unreadBits]
  congr 1
  simp only [consumed, this]
  omega

theorem unreadBytes_nil_iff {s : State} (h : s.rdOff % 8 = 0) : unreadBytes s = [] ↔ unreadBits s = [] := by
  rw [unreadBits_eq_bytes h, ← List.length_eq_zero_iff, ← List.length_eq_zero_iff (l := bytesBits _ _),
    bytesBits_length]
  omega

theorem hasNext_iff_bytes {s : State} (h : ReaderOk s) (ha : s.rdOff % 8 = 0) :
    hasNext s = true ↔ unreadBytes s ≠ [] := by
  rw [hasNext_iff_unread h, ne_eq, ne_eq, unreadBytes_nil_iff ha]

/-- An aligned reader's unread bits are its unread bytes'. -/
theorem unreadBits_length {s : State} (h : s.rdOff % 8 = 0) : (unreadBits s).length = 8 * (unreadBytes s).length := by
  rw [unreadBits_eq_bytes h, bytesBits_length]

/-- A next bit at an aligned position is a next byte. -/
theorem aligned_ahead {s : State} (h : ReaderOk s) (ha : s.rdOff % 8 = 0) (hx : hasNext s = true) :
    0 + 8 ≤ (unreadBits s).length := by
  have := List.length_pos_iff.mpr ((hasNext_iff_bytes h ha).mp hx)
  rw [unreadBits_length ha]
  omega

theorem unreadBytes_le (s : State) : (unreadBytes s).length ≤ bytesLeft s := by
  simp only [unreadBytes, List.length_drop, bytesLeft]; omega

theorem unreadBits_le (s : State) : (unreadBits s).length ≤ 8 * bytesLeft s := by
  simp only [unreadBits, List.length_drop, bytesBits_length, bytesLeft]; omega

/-! ### The two scans -/

/-- FSCAN's loop counts exactly the unread bytes and ends at the end of the source; it stops at the first byte whose count
would pass the width, or at a source failure that lies ahead (R85, R88). -/
theorem scan_counts (n : Nat) {s : State} (hr : ReaderOk s) (ha : s.rdOff % 8 = 0) (hn : (unreadBytes s).length ≤ n) :
    (scanBytes countByte n s).Sat
      (fun _ t => ReaderOk t ∧ unreadBits t = [] ∧ SourceSound s ∧
        ∀ y, cell t.freq y = cell s.freq y + (unreadBytes s).count y)
      (fun e i _ =>
        (e = .srcIo ∧ (∃ k, s.src.failAt = some k ∧ i = failureInfo k) ∧ ¬ SourceSound s) ∨
        (e = .ovf ∧ ∃ pre y post, unreadBytes s = pre ++ y :: post ∧ i = 0x01000000#32 ||| y.setWidth 32 ∧
          2 ^ s.params.wCnt ≤ cell s.freq y + pre.count y + 1 ∧
          (CountsOk s → ∀ z, cell s.freq z + pre.count z < 2 ^ s.params.wCnt))) := by
  induction n generalizing s with
  | zero =>
    have hu : unreadBytes s = [] := List.length_eq_zero_iff.mp (by omega)
    have hx : hasNext s = false := by
      by_contra h
      exact (hasNext_iff_bytes hr ha).mp (by simpa using h) hu
    exact ⟨hr, (unreadBytes_nil_iff ha).mp hu, sourceSound_of_exhausted hr hx, by simp [hu]⟩
  | succ n ih =>
    unfold scanBytes
    by_cases hx : hasNext s = true
    · rw [if_pos hx]
      refine Res.Sat.bind ((readByte_sat s).mono (fun _ _ h => h) ?_) ?_
      · rintro e i t (h | ⟨-, -, -, h, -⟩ | ⟨-, -, -, h⟩)
        · exact .inl ⟨h.code, h.source, h.ahead hr 0 (aligned_ahead hr ha hx)⟩
        · rw [hx] at h; exact absurd h (by decide)
        · exact absurd ha h
      · rintro y t ⟨h1, -, -, h2⟩
        obtain ⟨k1, k2, -, k4, -, k6⟩ := h2 hr
        unfold countByte
        split
        · next ho =>
          refine .inr ⟨rfl, [], y, unreadBytes t, k4, rfl, ?_, fun hc z => ?_⟩
          · rw [h1.params, h1.freq] at ho
            simpa using ho
          · simpa using hc z
        · next ho =>
          simp only [bind_ok]
          rw [h1.params, h1.freq] at ho
          have hr' : ReaderOk (t.setFreq (setCell t.freq y (cell t.freq y + 1))) := k1
          have e1 : unreadBytes (t.setFreq (setCell t.freq y (cell t.freq y + 1))) = unreadBytes t := rfl
          have e2 : SourceSound (t.setFreq (setCell t.freq y (cell t.freq y + 1))) ↔ SourceSound s := (k6 0 (Nat.zero_le _)).symm
          have e3 : (t.setFreq (setCell t.freq y (cell t.freq y + 1))).src = s.src := h1.src
          have e4 : ∀ z, cell (t.setFreq (setCell t.freq y (cell t.freq y + 1))).freq z =
              cell s.freq z + [y].count z := by
            intro z
            rw [State.setFreq_freq, cell_setCell, h1.freq]
            by_cases e : z = y
            · subst e; simp
            · simp [e, Ne.symm e]
          refine (ih hr' k2 ?_).mono ?_ ?_
          · rw [e1]; rw [k4] at hn; simpa using hn
          · rintro _ u ⟨m1, m2, m3, m4⟩
            refine ⟨m1, m2, e2.mp m3, fun z => ?_⟩
            rw [m4 z, e1, e4, k4, Nat.add_assoc, ← List.count_append, List.singleton_append]
          · rintro e i u (⟨m1, m2, m3⟩ | ⟨m1, pre, z, post, m2, m3, m4, m5⟩)
            · rw [e3] at m2
              exact .inl ⟨m1, m2, fun h => m3 (e2.mpr h)⟩
            · refine .inr ⟨m1, y :: pre, z, post, by rw [k4, ← e1, m2]; rfl, m3, ?_, fun hc w => ?_⟩
              · rw [e4, State.setFreq_params, h1.params] at m4
                rwa [← List.singleton_append, List.count_append, ← Nat.add_assoc]
              · have hc' : CountsOk (t.setFreq (setCell t.freq y (cell t.freq y + 1))) := by
                  intro v
                  rw [e4, State.setFreq_params, h1.params]
                  by_cases e : v = y
                  · subst e; simp; omega
                  · have := hc v
                    simpa [Ne.symm e] using this
                have := m5 hc' w
                rw [e4, State.setFreq_params, h1.params] at this
                rwa [← List.singleton_append, List.count_append, ← Nat.add_assoc]
    · rw [if_neg hx]
      have hx' : hasNext s = false := by simpa using hx
      have hu : unreadBytes s = [] := by
        by_contra h
        exact hx ((hasNext_iff_bytes hr ha).mpr h)
      exact ⟨hr, (unreadBytes_nil_iff ha).mp hu, sourceSound_of_exhausted hr hx', by simp [hu]⟩

theorem emitCode_sat (y : Byte) (s : State) :
    (emitCode y s).Sat (fun _ t => ∃ c, cell s.ct y = some c ∧ Wrote c s t)
      (fun e i t => (∃ c, cell s.ct y = some c ∧ SinkFailed c.length s e i t) ∨
        (e = .noCode ∧ i = y.setWidth 32 ∧ t = s ∧ cell s.ct y = none)) := by
  unfold emitCode
  split
  · next h => exact .inr ⟨rfl, rfl, rfl, h⟩
  · next c h => exact (writeBits_sat c s).mono (fun _ _ k => ⟨c, h, k⟩) fun _ _ _ k => .inl ⟨c, h, k⟩

theorem payloadBits_cons (t : Table CodeEntry) {y : Byte} {c : Bits} (ys : List Byte) (h : cell t y = some c) :
    payloadBits t (y :: ys) = c ++ payloadBits t ys := by simp [payloadBits, h]

/-- The sink takes what goes out when the codes of `ys` are appended. -/
def CodesGoOut (ys : List Byte) (s : State) : Prop := sinkTakes (outBytes (payloadBits s.ct ys).length s) s

/-- Every byte of `ys` has a code. -/
def AllCoded (ys : List Byte) (s : State) : Prop := ∀ y ∈ ys, cell s.ct y ≠ none

/-- ESCAN's loop appends exactly the codes of the unread bytes and ends at the end of the source; it stops at the first
byte whose read meets a source failure, that has no code, or whose code's bytes the sink refuses (R125, R126). -/
theorem scan_emits (n : Nat) {s : State} (hr : ReaderOk s) (ha : s.rdOff % 8 = 0) (hw : WriterOk s)
    (hn : (unreadBytes s).length ≤ n) :
    (scanBytes emitCode n s).Sat
      (fun _ t => ReaderOk t ∧ unreadBits t = [] ∧ SourceSound s ∧ AllCoded (unreadBytes s) s ∧
        WriterOk t ∧ sentBits t = sentBits s ++ payloadBits s.ct (unreadBytes s) ∧
        t.snk.length = s.snk.length + outBytes (payloadBits s.ct (unreadBytes s)).length s ∧
        CodesGoOut (unreadBytes s) s)
      (fun e i t =>
        (e = .srcIo ∧ (∃ k, s.src.failAt = some k ∧ i = failureInfo k) ∧
          ∃ pre y post, unreadBytes s = pre ++ y :: post ∧ AllCoded pre s ∧ CodesGoOut pre s ∧
            ¬ SoundUntil (8 * post.length) s) ∨
        (e = .snkIo ∧ s.snkErr = some i.toNat ∧ i = t.snkCount ∧
          ∃ pre post, unreadBytes s = pre ++ post ∧ AllCoded pre s ∧ ¬ CodesGoOut pre s ∧
            SoundUntil (8 * post.length) s) ∨
        (e = .noCode ∧ ∃ pre y post, unreadBytes s = pre ++ y :: post ∧ i = y.setWidth 32 ∧ cell s.ct y = none ∧
          AllCoded pre s ∧ CodesGoOut pre s ∧ SoundUntil (8 * post.length) s)) := by
  have nothing : ∀ {s : State}, WriterOk s → CodesGoOut [] s := fun {s} h j hj => by
    rw [show (payloadBits s.ct []).length = 0 from rfl, outBytes_zero h] at hj
    exact absurd hj (by omega)
  have done : ∀ {s : State}, ReaderOk s → s.rdOff % 8 = 0 → WriterOk s → hasNext s = false →
      (Res.ok () s).Sat (fun _ t => ReaderOk t ∧ unreadBits t = [] ∧ SourceSound s ∧
        AllCoded (unreadBytes s) s ∧ WriterOk t ∧ sentBits t = sentBits s ++ payloadBits s.ct (unreadBytes s) ∧
        t.snk.length = s.snk.length + outBytes (payloadBits s.ct (unreadBytes s)).length s ∧
        CodesGoOut (unreadBytes s) s) (fun _ _ _ => False) := by
    intro s hr ha hw hx
    have hu : unreadBytes s = [] := by
      by_contra h
      have := (hasNext_iff_bytes hr ha).mpr h
      rw [hx] at this
      exact nomatch this
    have z0 : outBytes (payloadBits s.ct (unreadBytes s)).length s = 0 := by
      rw [hu]; exact outBytes_zero hw
    exact ⟨hr, (unreadBytes_nil_iff ha).mp hu, sourceSound_of_exhausted hr hx, by simp [hu, AllCoded], hw,
      by simp [hu, payloadBits], by rw [z0]; rfl, hu ▸ nothing hw⟩
  induction n generalizing s with
  | zero =>
    have hu : unreadBytes s = [] := List.length_eq_zero_iff.mp (by omega)
    have hx : hasNext s = false := by
      by_contra h
      exact (hasNext_iff_bytes hr ha).mp (by simpa using h) hu
    exact (done hr ha hw hx).mono (fun _ _ h => h) fun _ _ _ h => h.elim
  | succ n ih =>
    unfold scanBytes
    by_cases hx : hasNext s = true
    · rw [if_pos hx]
      refine Res.Sat.bind ((readByte_sat s).mono (fun _ _ h => h) ?_) ?_
      · rintro e i t (h | ⟨-, -, -, h, -⟩ | ⟨-, -, -, h⟩)
        · obtain ⟨y, post, hu⟩ := List.exists_cons_of_ne_nil ((hasNext_iff_bytes hr ha).mp hx)
          refine .inl ⟨h.code, h.source, [], y, post, hu, by simp [AllCoded], nothing hw, h.ahead hr _ ?_⟩
          rw [unreadBits_length ha, hu, List.length_cons]
          omega
        · rw [hx] at h; exact absurd h (by decide)
        · exact absurd ha h
      · rintro y t ⟨h1, -, -, h2⟩
        obtain ⟨k1, k2, -, k4, -, k6⟩ := h2 hr
        have hwt := h1.writerOk.mpr hw
        have out_t : ∀ m, outBytes m t = outBytes m s := by intro m; rw [h1]; rfl
        have sink_t : ∀ m, sinkTakes m t ↔ sinkTakes m s := by intro m; rw [h1]; rfl
        have ahead : ∀ m, m ≤ (unreadBytes t).length → (SoundUntil (8 * m) s ↔ SoundUntil (8 * m) t) := fun m hm =>
          k6 _ (by rw [unreadBits_length k2]; omega)
        have hs : SoundUntil (8 * (unreadBytes t).length) s :=
          (ahead _ le_rfl).mpr (unreadBits_length k2 ▸ k1.soundUntil)
        refine Res.Sat.bind ((emitCode_sat y t).mono (fun _ _ h => h) ?_) ?_
        · rintro e i u (⟨c, hc, h⟩ | ⟨m1, m2, -, m4⟩)
          · rw [h1.ct] at hc
            refine .inr (.inl ⟨h.code, by rw [← h1.snkErr]; exact h.sink, h.count, [y], unreadBytes t, k4,
              by simp [AllCoded, hc], fun hk => h.short hwt ?_, hs⟩)
            rw [out_t, sink_t]
            rwa [CodesGoOut, payloadBits_cons _ _ hc, show payloadBits s.ct [] = [] from rfl, List.append_nil] at hk
          · exact .inr (.inr ⟨m1, [], y, unreadBytes t, k4, m2, by rw [← h1.ct]; exact m4, by simp [AllCoded],
              nothing hw, hs⟩)
        · rintro _ u ⟨c, hc, hwr⟩
          have f := hwr.frame
          have hct : cell s.ct y = some c := by rw [← h1.ct]; exact hc
          have uct : u.ct = s.ct := by rw [f.ct, h1.ct]
          have hn' : (unreadBytes u).length ≤ n := by
            rw [f.unreadBytes]; rw [k4] at hn; simpa using hn
          have hp : payloadBits s.ct (unreadBytes s) = c ++ payloadBits s.ct (unreadBytes t) := by
            rw [k4, payloadBits_cons _ _ hct]
          have goes : ∀ ys, CodesGoOut (y :: ys) s ↔ CodesGoOut ys u := by
            intro ys
            rw [CodesGoOut, CodesGoOut, uct, ← hwr.sinkTakes_add hwt, ← List.length_append,
              ← payloadBits_cons _ _ hct, out_t, sink_t]
          have coded : ∀ ys, AllCoded (y :: ys) s ↔ AllCoded ys u := by
            intro ys
            simp [AllCoded, uct, hct]
          have sound : ∀ m, SoundUntil m u ↔ SoundUntil m t := by intro m; rw [f]; rfl
          have ahead' : ∀ {pre post : List Byte}, unreadBytes t = pre ++ post →
              (SoundUntil (8 * post.length) s ↔ SoundUntil (8 * post.length) u) := by
            intro pre post e
            rw [sound, ahead _ (by rw [e, List.length_append]; omega)]
          have hi := ih (f.readerOk.mpr k1) (by rw [f.rdOff]; exact k2) (hwr.law hwt).1 hn'
          rw [f.unreadBytes, uct] at hi
          refine hi.mono ?_ ?_
          · rintro _ v ⟨m1, m2, m3, m4, m5, m6, m7, m8⟩
            refine ⟨m1, m2, (k6 0 (Nat.zero_le _)).mpr ((sound 0).mp m3), by rw [k4]; exact (coded _).mpr m4, m5, ?_, ?_,
              by rw [k4]; exact (goes _).mpr m8⟩
            · rw [m6, (hwr.law hwt).2, h1.sentBits, hp, List.append_assoc]
            · rw [m7, hwr.blocks hwt, show t.snk = s.snk by rw [h1]; rfl, hp, List.length_append, ← out_t,
                hwr.outBytes_add hwt, Nat.add_assoc]
          · rintro e i v (⟨m1, m2, pre, z, post, p1, p2, p3, p4⟩ | ⟨m1, m2, m3, pre, post, p1, p2, p3, p4⟩ |
              ⟨m1, pre, z, post, p1, m3, m4, p2, p3, p4⟩)
            · rw [f.src, h1.src] at m2
              exact .inl ⟨m1, m2, y :: pre, z, post, by rw [k4, p1]; rfl, (coded _).mpr p2, (goes _).mpr p3,
                fun h => p4 ((ahead' (pre := pre ++ [z]) (by simp [p1])).mp h)⟩
            · exact .inr (.inl ⟨m1, by rw [← h1.snkErr, ← f.snkErr]; exact m2, m3, y :: pre, post, by rw [k4, p1]; rfl,
                (coded _).mpr p2, fun h => p3 ((goes _).mp h), (ahead' p1).mpr p4⟩)
            · exact .inr (.inr ⟨m1, y :: pre, z, post, by rw [k4, p1]; rfl, m3, m4, (coded _).mpr p2, (goes _).mpr p3,
                (ahead' (pre := pre ++ [z]) (by simp [p1])).mpr p4⟩)
    · rw [if_neg hx]
      have hx' : hasNext s = false := by simpa using hx
      exact (done hr ha hw hx').mono (fun _ _ h => h) fun _ _ _ h => h.elim

/-! ### The header, written -/

/-- The writer's offset follows the number of bits written, modulo 8. -/
theorem Wrote.offset {bs : Bits} {s t : State} (h : Wrote bs s t) (hs : WriterOk s) :
    t.wrOff % 8 = (s.wrOff + bs.length) % 8 := by
  obtain ⟨h1, h2⟩ := h.law hs
  have := congrArg List.length h2
  rw [sentBits_length h1, List.length_append, sentBits_length hs] at this
  omega

theorem padWriter_sat (n : Nat) {s : State} (hs : WriterOk s) (hn : padLen s.wrOff ≤ n) :
    (padWriter n s).Sat (fun _ t => Wrote (List.replicate (padLen s.wrOff) false) s t)
      (SinkFailed (padLen s.wrOff) s) := by
  induction n generalizing s with
  | zero =>
    have : padLen s.wrOff = 0 := by omega
    rw [this]
    exact Wrote.refl s
  | succ n ih =>
    unfold padWriter
    by_cases ha : s.wrOff % 8 = 0
    · simp only [wrAligned, ha, decide_true, if_true]
      rw [show padLen s.wrOff = 0 by simp [padLen, ha]]
      exact Wrote.refl s
    · simp only [wrAligned, ha, decide_false, Bool.false_eq_true, if_false]
      have hp1 : 1 ≤ padLen s.wrOff := by simp only [padLen]; omega
      refine ((writeBit_sat false s).mono (fun _ _ h => h) fun _ _ _ h => h.mono hp1).bind fun _ t ht => ?_
      have ho := ht.offset hs
      simp only [List.length_singleton] at ho
      have hp : padLen s.wrOff = padLen t.wrOff + 1 := by simp only [padLen]; omega
      refine (ih (ht.law hs).1 (by omega)).mono (fun _ u hu => ?_)
        (fun _ _ _ hu => (SinkFailed.after ht hu).mono (by simp; omega))
      rw [hp, List.replicate_succ]
      exact ht.trans hu

/-- From an aligned writer an entry is written whole: symbol, length, code, padding (R103, R106). -/
theorem writeEntry_sat (y : Byte) (c : Bits) {s : State} (hs : WriterOk s) (ha : s.wrOff % 8 = 0) :
    (writeEntry y c s).Sat
      (fun _ t => Wrote (entryBits s.params.bitOrder y c) s t ∧ t.wrOff % 8 = 0)
      (SinkFailed (entryBits s.params.bitOrder y c).length s) := by
  have hlen : (entryBits s.params.bitOrder y c).length = 16 + c.length + padLen c.length := by
    simp only [entryBits, List.length_append, byteBits_length, List.length_replicate]
  rw [hlen]
  unfold writeEntry
  refine Res.Sat.bind ((writeByte_sat y s).mono (fun _ _ h => h.1) ?_) fun _ t1 h1 => ?_
  · rintro e i t (h | ⟨-, -, -, h⟩)
    · exact h.mono (by omega)
    · exact absurd ha h
  have o1 := h1.offset hs
  rw [byteBits_length] at o1
  refine Res.Sat.bind (P := fun _ t => Wrote (byteBits s.params.bitOrder y ++
      byteBits s.params.bitOrder (BitVec.ofNat 8 c.length)) s t)
    ((writeByte_sat _ t1).mono (fun _ t h => by rw [← h1.frame.params]; rw [← h1.frame.params] at h1; exact h1.trans h.1) ?_)
    fun _ t2 h2 => ?_
  · rintro e i t (h | ⟨-, -, -, h⟩)
    · exact (SinkFailed.after h1 h).mono (by simp; omega)
    · exact absurd (by omega) h
  refine Res.Sat.bind ((writeBits_sat c t2).mono (fun _ _ h => h2.trans h)
    fun _ _ _ h => (SinkFailed.after h2 h).mono (by simp)) fun _ t3 h3 => ?_
  have o3 := h3.offset hs
  simp only [List.length_append, byteBits_length] at o3
  have hp : padLen t3.wrOff = padLen c.length := by simp only [padLen]; omega
  refine (padWriter_sat 8 (h3.law hs).1 (by simp only [padLen]; omega)).mono (fun _ t4 h4 => ?_)
    fun _ _ _ h => (SinkFailed.after h3 h).mono (by simp; omega)
  rw [hp] at h4
  have h5 := h3.trans h4
  refine ⟨h5, ?_⟩
  have o5 := h5.offset hs
  simp only [List.length_append, byteBits_length, List.length_replicate, padLen] at o5
  omega

theorem writeEntries_sat (t : Table CodeEntry) (ys : List Byte) {s : State} (hs : WriterOk s) (ha : s.wrOff % 8 = 0) :
    (writeEntries t ys s).Sat
      (fun _ u => Wrote (entriesBits s.params.bitOrder t ys) s u ∧ u.wrOff % 8 = 0)
      (SinkFailed (entriesBits s.params.bitOrder t ys).length s) := by
  induction ys generalizing s with
  | nil => exact ⟨Wrote.refl s, ha⟩
  | cons y ys ih =>
    unfold writeEntries
    cases hc : cell t y with
    | none =>
      have e : entriesBits s.params.bitOrder t (y :: ys) = entriesBits s.params.bitOrder t ys := by
        simp [entriesBits, hc]
      rw [e]
      exact ih hs ha
    | some c =>
      have e : entriesBits s.params.bitOrder t (y :: ys) =
          entryBits s.params.bitOrder y c ++ entriesBits s.params.bitOrder t ys := by simp [entriesBits, hc]
      rw [e]
      refine ((writeEntry_sat y c hs ha).mono (fun _ _ h => h)
        fun _ _ _ h => h.mono (by simp)).bind fun _ u hu => ?_
      have hi := ih (hu.1.law hs).1 hu.2
      rw [hu.1.frame.params] at hi
      exact hi.mono (fun _ v hv => ⟨hu.1.trans hv.1, hv.2⟩)
        fun _ _ _ h => (SinkFailed.after hu.1 h).mono (by simp)

theorem writeShort_sat (v : BitVec 16) {s : State} (hs : WriterOk s) (ha : s.wrOff % 8 = 0) :
    (writeShort v s).Sat
      (fun _ t => Wrote (byteBits s.params.bitOrder (v.extractLsb' 0 8) ++
        byteBits s.params.bitOrder (v.extractLsb' 8 8)) s t ∧ t.wrOff % 8 = 0) (SinkFailed 16 s) := by
  unfold writeShort
  refine Res.Sat.bind ((writeByte_sat _ s).mono (fun _ _ h => h.1) ?_) fun _ t1 h1 => ?_
  · rintro e i t (h | ⟨-, -, -, h⟩)
    · exact h.mono (by omega)
    · exact absurd ha h
  have o1 := h1.offset hs
  rw [byteBits_length] at o1
  refine (writeByte_sat _ t1).mono (fun _ t h => ?_) ?_
  · have h' := h.1
    rw [h1.frame.params] at h'
    have h2 := h1.trans h'
    have o2 := h2.offset hs
    simp only [List.length_append, byteBits_length] at o2
    exact ⟨h2, by omega⟩
  · rintro e i t (h | ⟨-, -, -, h⟩)
    · exact (SinkFailed.after h1 h).mono (by simp)
    · exact absurd (by omega) h

/-- From an aligned writer HWRITE's pieces write the whole header (R103, R106). -/
theorem writeHeader_sat {s : State} (hs : WriterOk s) (ha : s.wrOff % 8 = 0) :
    ((writeShort (BitVec.ofNat 16 (codeCount s.ct)) s).bind fun _ s1 => writeEntries s.ct allBytes s1).Sat
      (fun _ t => Wrote (headerBits s.params.bitOrder s.ct) s t ∧ t.wrOff % 8 = 0)
      (SinkFailed (headerBits s.params.bitOrder s.ct).length s) := by
  have hlen : (headerBits s.params.bitOrder s.ct).length =
      16 + (entriesBits s.params.bitOrder s.ct allBytes).length := by
    simp only [headerBits, countBits, List.length_append, byteBits_length]
  rw [hlen]
  refine ((writeShort_sat _ hs ha).mono (fun _ _ h => h) fun _ _ _ h => h.mono (by omega)).bind fun _ t ht => ?_
  have he := writeEntries_sat s.ct allBytes (ht.1.law hs).1 ht.2
  rw [ht.1.frame.params] at he
  exact he.mono (fun _ u hu => ⟨ht.1.trans hu.1, hu.2⟩)
    fun _ _ _ h => (SinkFailed.after ht.1 h).mono (by simp)

end Sys2Proof.Machine
end

