-- ==== Sys2Proof/Laws/Reads.lean ====
section
/-! SUPPORT. Laws of reading on through a source that may fail (20_memory.md R55 to R61): a piece ends as it should, or the
source fails in a chunk the piece requests. -/

namespace Sys2Proof.Machine
open Sys2Proof

/-- The reader has moved, consistently, to where the bits `rest` are unread; the same failures lie ahead of what it has not
read. -/
structure Passed (rest : Bits) (s t : State) : Prop where
  params : t.params = s.params
  src : t.src = s.src
  ok : ReaderOk t
  unread : unreadBits t = rest
  ahead : ∀ m, m ≤ rest.length → (SoundUntil m s ↔ SoundUntil m t)

theorem Passed.refl {s : State} (h : ReaderOk s) : Passed (unreadBits s) s s := ⟨rfl, rfl, h, rfl, fun _ _ => Iff.rfl⟩

theorem Passed.trans {r r' : Bits} {s t u : State} (h : Passed r s t) (k : Passed r' t u) (hl : r'.length ≤ r.length) :
    Passed r' s u :=
  ⟨k.params.trans h.params, k.src.trans h.src, k.ok, k.unread, fun m hm =>
    (h.ahead m (hm.trans hl)).trans (k.ahead m hm)⟩

/-- The stores do not show in the reader. -/
theorem Passed.setCt {r : Bits} {s t : State} (h : Passed r s t) (c : Table CodeEntry) : Passed r s (t.setCt c) :=
  ⟨h.params, h.src, h.ok, h.unread, h.ahead⟩

/-- The writer does not show in the reader. -/
theorem onlyWriter.passed {s t : State} (h : onlyWriter s t) (hr : ReaderOk s) :
    Passed (Machine.unreadBits s) s t := by
  rw [h]
  exact ⟨rfl, rfl, hr, rfl, fun _ _ => Iff.rfl⟩

theorem Passed.setResult {r : Bits} {s t : State} (h : Passed r s t) (v : Word) : Passed r s (t.setResult v) :=
  ⟨h.params, h.src, h.ok, h.unread, h.ahead⟩

/-- A passage leaves a sound source sound. -/
theorem Passed.sound {r : Bits} {s t : State} (h : Passed r s t) : SourceSound s ↔ SourceSound t :=
  h.ahead 0 (Nat.zero_le _)

theorem Passed.ready {r : Bits} {s t : State} (h : Passed r s t) (hs : SourceSound s) : Ready t := ⟨h.ok, h.sound.mp hs⟩

/-- A piece that reads on until `left` bits are unread: where no failure lies in a chunk it requests it ends as `Q` says; else
the source fails (R55, R56). -/
def Ends {α : Type} (r : Res α) (Q : Res α → Prop) (left : Nat) (s : State) : Prop :=
  (SoundUntil left s ∧ Q r) ∨
    (¬ SoundUntil left s ∧ ∃ k t, s.src.failAt = some k ∧ r = .raised .srcIo (failureInfo k) t)

/-- A piece that reads on to where the bits `rest` are unread and ends, unless the source fails, in the value `a` and a state
that meets `P`. -/
abbrev Reads {α : Type} (r : Res α) (a : α) (P : State → Prop) (rest : Bits) (s : State) : Prop :=
  Ends r (fun r => ∃ t, r = .ok a t ∧ P t ∧ Passed rest s t) rest.length s

/-- What needs no more bits. -/
theorem Ends.now {α : Type} {r : Res α} {Q : Res α → Prop} {rest : Bits} {s : State} (h : ReaderOk s)
    (hu : unreadBits s = rest) (hq : Q r) : Ends r Q rest.length s := .inl ⟨hu ▸ h.soundUntil, hq⟩

theorem Reads.pure {α : Type} {a : α} {P : State → Prop} {rest : Bits} {s : State} (h : ReaderOk s)
    (hu : unreadBits s = rest) (hp : P s) : Reads (.ok a s) a P rest s := .now h hu ⟨s, rfl, hp, hu ▸ .refl h⟩

theorem Ends.mono {α : Type} {r : Res α} {Q Q' : Res α → Prop} {left : Nat} {s : State} (h : Ends r Q left s)
    (hq : Q r → Q' r) : Ends r Q' left s := h.imp_left fun k => ⟨k.1, hq k.2⟩

/-- Read on, and go on from there. -/
theorem Reads.andThen {α β : Type} {r : Res α} {f : α → State → Res β} {a : α} {P : State → Prop} {Q : Res β → Prop}
    {r1 : Bits} {left : Nat} {s : State} (h : Reads r a P r1 s) (hl : left ≤ r1.length)
    (hf : ∀ t, P t → Passed r1 s t → Ends (f a t) Q left t) : Ends (r.bind f) Q left s := by
  rcases h with ⟨-, t, h1, h2, h3⟩ | ⟨h0, k, t, h1, h2⟩
  · rw [h1, bind_ok]
    rcases hf t h2 h3 with ⟨k0, k1⟩ | ⟨k0, k, u, k1, k2⟩
    · exact .inl ⟨(h3.ahead _ hl).mpr k0, k1⟩
    · exact .inr ⟨fun hs => k0 ((h3.ahead _ hl).mp hs), k, u, by rw [← h3.src]; exact k1, k2⟩
  · exact .inr ⟨fun hs => h0 (hs.mono hl), k, t, h1, by rw [h2, bind_raised]⟩

/-- What is said of a piece from where the reader has passed to is said of it from before. -/
theorem Ends.before {α : Type} {r : Res α} {Q : Res α → Prop} {r1 : Bits} {left : Nat} {s t : State} (p : Passed r1 s t)
    (hl : left ≤ r1.length) (h : Ends r Q left t) : Ends r Q left s :=
  h.imp (fun ⟨k0, k1⟩ => ⟨(p.ahead _ hl).mpr k0, k1⟩)
    fun ⟨k0, k, u, k1, k2⟩ => ⟨fun hs => k0 ((p.ahead _ hl).mp hs), k, u, by rw [← p.src]; exact k1, k2⟩

theorem Reads.bind {α β : Type} {r : Res α} {f : α → State → Res β} {a : α} {b : β} {P Q : State → Prop} {r1 r2 : Bits}
    {s : State} (h : Reads r a P r1 s) (hl : r2.length ≤ r1.length)
    (hf : ∀ t, P t → Passed r1 s t → Reads (f a t) b Q r2 t) : Reads (r.bind f) b Q r2 s :=
  h.andThen hl fun t ht pt => (hf t ht pt).mono fun ⟨u, k1, k2, k3⟩ => ⟨u, k1, k2, pt.trans k3 hl⟩

theorem Res.bind_assoc {α β γ : Type} (r : Res α) (f : α → State → Res β) (g : β → State → Res γ) :
    (r.bind f).bind g = r.bind fun a t => (f a t).bind g := by cases r <;> rfl

/-- What raises goes on raising. -/
theorem Ends.raising {α β : Type} {r : Res α} {f : α → State → Res β} {e : ErrorCode} {i : Word} {left : Nat} {s : State}
    (h : Ends r (fun r => ∃ t, r = .raised e i t) left s) :
    Ends (r.bind f) (fun r => ∃ t, r = .raised e i t) left s :=
  h.imp (fun ⟨k0, t, k1⟩ => ⟨k0, t, by rw [k1, bind_raised]⟩)
    fun ⟨k0, k, t, k1, k2⟩ => ⟨k0, k, t, k1, by rw [k2, bind_raised]⟩

/-- Where no failure lies in a chunk that is requested. -/
theorem Ends.ok {α : Type} {r : Res α} {Q : Res α → Prop} {left : Nat} {s : State} (h : Ends r Q left s)
    (hs : SoundUntil left s) : Q r := (h.resolve_right fun k => k.1 hs).2

/-- Where a failure lies in a chunk that is requested. -/
theorem Ends.failed {α : Type} {r : Res α} {Q : Res α → Prop} {left : Nat} {s : State} (h : Ends r Q left s)
    (hs : ¬ SoundUntil left s) : ∃ k t, s.src.failAt = some k ∧ r = .raised .srcIo (failureInfo k) t :=
  (h.resolve_left fun k => hs k.1).2

theorem readBit_reads {s : State} {b : Bool} {rest : Bits} (h : ReaderOk s) (hu : unreadBits s = b :: rest) :
    Reads (readBit s) b (onlyReader s) rest s := by
  have hs := readBit_sat s
  have hx : hasNext s = true := (hasNext_iff_unread h).mpr (by simp [hu])
  cases hr : readBit s with
  | ok b' t =>
    rw [hr] at hs
    obtain ⟨h1, -, h2⟩ := hs
    obtain ⟨k1, k2, -, k3⟩ := h2 h
    rw [hu] at k2
    simp only [List.cons.injEq] at k2
    have p : Passed rest s t := ⟨h1.params, h1.src, k1, k2.2.symm, fun m hm => k3 m (by rw [← k2.2]; exact hm)⟩
    exact .inl ⟨(p.ahead _ le_rfl).mpr (p.unread ▸ k1.soundUntil), t, by rw [k2.1], h1, p⟩
  | raised e i t =>
    rw [hr] at hs
    rcases hs with k | ⟨-, -, -, k⟩
    · obtain ⟨j, k1, k2⟩ := k.source
      exact .inr ⟨k.ahead h _ (by rw [hu]; simp), j, t, k1, by rw [k.code, k2]⟩
    · rw [hx] at k; exact nomatch k

theorem readByte_reads {s : State} {y : Byte} {rest : Bits} (h : ReaderOk s) (ha : s.rdOff % 8 = 0)
    (hu : unreadBits s = byteBits s.params.bitOrder y ++ rest) :
    Reads (readByte s) y (fun t => onlyReader s t ∧ t.rdOff % 8 = 0) rest s := by
  have hs := readByte_sat s
  have hx : hasNext s = true := (hasNext_iff_unread h).mpr fun e => by
    have := congrArg List.length (hu.symm.trans e)
    simp at this
  cases hr : readByte s with
  | ok y' t =>
    rw [hr] at hs
    obtain ⟨h1, -, -, h2⟩ := hs
    obtain ⟨k1, k2, k3, -, -, k5⟩ := h2 h
    rw [hu] at k3
    obtain ⟨e1, e2⟩ := List.append_inj k3 (by simp)
    have p : Passed rest s t := ⟨h1.params, h1.src, k1, e2.symm, fun m hm => k5 m (by rw [← e2]; exact hm)⟩
    exact .inl ⟨(p.ahead _ le_rfl).mpr (p.unread ▸ k1.soundUntil), t, by rw [byteBits_inj _ e1], ⟨h1, k2⟩, p⟩
  | raised e i t =>
    rw [hr] at hs
    rcases hs with k | ⟨-, -, -, k, -⟩ | ⟨-, -, -, k⟩
    · obtain ⟨j, k1, k2⟩ := k.source
      exact .inr ⟨k.ahead h _ (by rw [hu]; simp [Nat.add_comm]), j, t, k1, by rw [k.code, k2]⟩
    · rw [hx] at k; exact nomatch k
    · exact absurd ha k

/-- RSHORT's two bytes, the low one first (R61). -/
theorem readShort_reads {s : State} {lo hi : Byte} {rest : Bits} (h : ReaderOk s) (ha : s.rdOff % 8 = 0)
    (hu : unreadBits s = byteBits s.params.bitOrder lo ++ (byteBits s.params.bitOrder hi ++ rest)) :
    Reads (readShort s) (hi ++ lo) (onlyReader s) rest s :=
  (readByte_reads h ha hu).bind (by simp) fun t f1 p1 =>
    (readByte_reads p1.ok f1.2 (p1.params.symm ▸ p1.unread)).bind le_rfl fun u f2 p2 =>
      .pure p2.ok p2.unread (f1.1.trans f2.1)

/-- The reader's alignment follows the number of unread bits. -/
theorem unread_align {s : State} (h : ReaderOk s) : ((unreadBits s).length + s.rdOff) % 8 = 0 := by
  obtain ⟨-, e2, e3⟩ := h.sizes
  simp only [consumed, e2] at e3
  omega

end Sys2Proof.Machine
end

