-- ==== Sys2Proof/Laws/Header.lean ====
section
/-! SUPPORT. Laws of parsing a header (44_header.md R103, R107). -/

namespace Sys2Proof.Machine
open Sys2Proof

theorem headerByte_reads {s : State} {y : Byte} {rest : Bits} (i : Word) (h : ReaderOk s) (ha : s.rdOff % 8 = 0)
    (hu : unreadBits s = byteBits s.params.bitOrder y ++ rest) :
    Reads (headerByte i s) y (fun t => onlyReader s t ∧ t.rdOff % 8 = 0) rest s := by
  have hx : hasNext s = true := (hasNext_iff_unread h).mpr fun e => by
    have := congrArg List.length (hu.symm.trans e)
    simp at this
  rw [headerByte, if_pos hx]
  exact readByte_reads h ha hu

theorem headerByte_short {s : State} (i : Word) (h : ReaderOk s) (hu : unreadBits s = []) :
    headerByte i s = .raised .fmt i s := by
  have hx : ¬ hasNext s = true := fun k => (hasNext_iff_unread h).mp k hu
  rw [headerByte, if_neg hx]

theorem readCode_reads (e : Nat) (c : Bits) {s : State} {rest : Bits} (h : ReaderOk s) (hu : unreadBits s = c ++ rest) :
    Reads (readCode e c.length s) c (onlyReader s) rest s := by
  induction c generalizing s with
  | nil =>
    rw [List.nil_append] at hu
    exact .pure h hu (onlyReader.refl s)
  | cons b c ih =>
    have hx : hasNext s = true := (hasNext_iff_unread h).mpr (by simp [hu])
    rw [List.length_cons, readCode, if_pos hx]
    refine (readBit_reads h (hu.trans (List.cons_append ..))).bind (by simp) fun t ht pt => ?_
    refine (ih pt.ok pt.unread).bind le_rfl fun u hu' pu => ?_
    exact .pure pu.ok pu.unread (ht.trans hu')

theorem skipPadding_reads (n : Nat) (p : Bits) {s : State} {rest : Bits} (h : ReaderOk s) (hu : unreadBits s = p ++ rest)
    (hp : p.length = padLen s.rdOff) (hn : p.length ≤ n) :
    Reads (skipPadding n s) () (fun t => onlyReader s t ∧ t.rdOff % 8 = 0) rest s := by
  induction n generalizing s p with
  | zero =>
    have h0 : p.length = 0 := by omega
    rw [List.length_eq_zero_iff.mp h0, List.nil_append] at hu
    exact .pure h hu ⟨.refl s, by rw [h0] at hp; simp only [padLen] at hp; omega⟩
  | succ n ih =>
    by_cases ha : s.rdOff % 8 = 0
    · have h0 : p.length = 0 := by rw [hp]; simp [padLen, ha]
      rw [List.length_eq_zero_iff.mp h0, List.nil_append] at hu
      rw [skipPadding, if_pos (by simpa [rdAligned] using ha)]
      exact .pure h hu ⟨.refl s, ha⟩
    · cases p with
      | nil => simp only [List.length_nil, padLen] at hp; omega
      | cons b p =>
        rw [skipPadding, if_neg (by simpa [rdAligned] using ha)]
        refine (readBit_reads h (hu.trans (List.cons_append ..))).bind (by simp) fun t ht pt => ?_
        have a1 := unread_align h
        have a2 := unread_align pt.ok
        rw [hu] at a1
        rw [pt.unread] at a2
        simp only [List.length_append, List.length_cons] at a1 a2 hp hn
        exact (ih p pt.ok pt.unread (by simp only [padLen] at hp ⊢; omega) (by omega)).mono
          fun ⟨u, k1, k2, k3⟩ => ⟨u, k1, ⟨ht.trans k2.1, k2.2⟩, k3⟩

theorem onlyReader.withCt {s t : State} (h : onlyReader s t) : readerAndCt s t := by
  unfold onlyReader at h
  unfold readerAndCt
  rw [h]
  rfl

theorem readerAndCt.trans {s t u : State} (h : readerAndCt s t) (k : readerAndCt t u) : readerAndCt s u := by
  unfold readerAndCt at *
  rw [k, h]
  rfl

theorem setCt_readerAndCt (s : State) (t : Table CodeEntry) : readerAndCt s (s.setCt t) := rfl

/-- One entry is parsed whole (R107). -/
theorem readEntry_reads (e : Nat) (en : HeaderEntry) {s : State} {rest : Bits} (h : ReaderOk s) (ha : s.rdOff % 8 = 0)
    (hok : en.ok) (hu : unreadBits s = en.bits s.params.bitOrder ++ rest) :
    Reads (readEntry e s) () (fun t => readerAndCt s t ∧ t.rdOff % 8 = 0 ∧ t.ct = setCell s.ct en.sym (some en.code))
      rest s := by
  obtain ⟨hlen, hpad⟩ := hok
  simp only [HeaderEntry.bits, List.append_assoc] at hu
  have hl : (BitVec.ofNat 8 en.code.length).toNat = en.code.length := by
    simp only [BitVec.toNat_ofNat]
    exact Nat.mod_eq_of_lt (Nat.lt_of_le_of_lt hlen (by decide))
  refine (headerByte_reads _ h ha hu).bind (by simp; omega) fun t1 f1 p1 => ?_
  refine (headerByte_reads _ p1.ok f1.2 (p1.params.symm ▸ p1.unread)).bind (by simp; omega) fun t2 f2 p2 => ?_
  rw [hl]
  refine (readCode_reads e en.code p2.ok p2.unread).bind (by simp) fun t3 f3 p3 => ?_
  have al2 := unread_align p2.ok
  have al3 := unread_align p3.ok
  rw [p2.unread] at al2
  rw [p3.unread] at al3
  simp only [List.length_append] at al2 al3
  have a2 := f2.2
  refine (skipPadding_reads 8 en.padding p3.ok p3.unread (by rw [hpad]; simp only [padLen]; omega)
    (by rw [hpad]; simp only [padLen]; omega)).bind le_rfl fun t4 f4 p4 => ?_
  have f := ((f1.1.trans f2.1).trans f3).trans f4.1
  have c4 : t4.ct = s.ct := f.ct
  exact .inl ⟨p4.unread ▸ p4.ok.soundUntil, _, rfl,
    ⟨f.withCt.trans (setCt_readerAndCt _ _), f4.2, by rw [State.setCt_ct, c4]⟩, (p4.unread ▸ Passed.refl p4.ok).setCt _⟩

/-- Whole entries are parsed one after another; then the loop goes on with those that remain. -/
theorem readEntries_reads (ens : List HeaderEntry) (e : Nat) {s : State} {rest : Bits} (h : ReaderOk s)
    (ha : s.rdOff % 8 = 0) (hok : ∀ en ∈ ens, en.ok)
    (hu : unreadBits s = ens.flatMap (HeaderEntry.bits s.params.bitOrder) ++ rest) (n left : Nat)
    (hl : left ≤ rest.length) {Q : Res Unit → Prop}
    (hf : ∀ t, readerAndCt s t → t.rdOff % 8 = 0 → t.ct = ens.foldl (fun t en => setCell t en.sym (some en.code)) s.ct →
      Passed rest s t → Ends (readEntries (e + ens.length) n t) Q left t) :
    Ends (readEntries e (ens.length + n) s) Q left s := by
  induction ens generalizing e s with
  | nil =>
    rw [List.flatMap_nil, List.nil_append] at hu
    subst hu
    simpa using hf s (onlyReader.refl s).withCt ha rfl (.refl h)
  | cons en ens ih =>
    simp only [List.flatMap_cons, List.append_assoc] at hu
    rw [show (en :: ens).length + n = (ens.length + n) + 1 by simp; omega, readEntries]
    refine (readEntry_reads e en h ha (hok en (by simp)) hu).andThen (by simp; omega) fun t ft pt => ?_
    refine ih (e + 1) pt.ok ft.2.1 (fun x hx => hok x (by simp [hx])) (pt.params.symm ▸ pt.unread) fun u fu au cu pu => ?_
    have := hf u (ft.1.trans fu) au (by rw [cu, ft.2.2]; rfl) (pt.trans pu (by simp))
    rwa [show e + (en :: ens).length = e + 1 + ens.length by simp; omega] at this

/-- A source that ends inside a code is a format error (R107). -/
theorem readCode_short (e n : Nat) {s : State} (h : ReaderOk s) (hn : (unreadBits s).length < n) :
    Ends (readCode e n s) (fun r => ∃ t, r = .raised .fmt (BitVec.ofNat 32 e) t) 0 s := by
  induction n generalizing s with
  | zero => omega
  | succ n ih =>
    rw [readCode]
    cases hu : unreadBits s with
    | nil =>
      rw [if_neg fun k => (hasNext_iff_unread h).mp k hu]
      exact Ends.now (rest := []) h hu ⟨s, rfl⟩
    | cons b rest =>
      rw [if_pos ((hasNext_iff_unread h).mpr (by simp [hu]))]
      refine (readBit_reads h hu).andThen (Nat.zero_le _) fun t _ pt => ?_
      exact (ih pt.ok (by rw [pt.unread]; rw [hu] at hn; simpa using hn)).raising

/-- Read a byte where one may be left: with none, the format error; with one, go on. -/
theorem headerByte_orShort {β : Type} {f : Byte → State → Res β} (i : Word) {s : State} (h : ReaderOk s)
    (ha : s.rdOff % 8 = 0) (hf : ∀ y ys t, unreadBytes s = y :: ys → t.rdOff % 8 = 0 →
      Passed (bytesBits s.params.bitOrder ys) s t → Ends (f y t) (fun r => ∃ t, r = .raised .fmt i t) 0 t) :
    Ends ((headerByte i s).bind f) (fun r => ∃ t, r = .raised .fmt i t) 0 s := by
  have hb := unreadBits_eq_bytes ha
  rcases hbs : unreadBytes s with - | ⟨y, ys⟩
  · rw [hbs, bytesBits_nil] at hb
    rw [headerByte_short _ h hb, bind_raised]
    exact Ends.now (rest := []) h hb ⟨s, rfl⟩
  · rw [hbs, bytesBits_cons] at hb
    exact (headerByte_reads i h ha hb).andThen (Nat.zero_le _) fun t ft pt => hf y ys t hbs ft.2 pt

/-- Fewer than two bytes are left. -/
theorem headerBytes_short {β : Type} {f : Byte → Byte → State → Res β} (i : Word) {s : State} (h : ReaderOk s)
    (ha : s.rdOff % 8 = 0) (hu : (unreadBits s).length < 16) :
    Ends ((headerByte i s).bind fun x t => (headerByte i t).bind (f x)) (fun r => ∃ t, r = .raised .fmt i t) 0 s := by
  refine headerByte_orShort i h ha fun y ys t e at' pt => ?_
  rw [unreadBits_length ha, e, List.length_cons] at hu
  rw [List.length_eq_zero_iff.mp (show ys.length = 0 by omega), bytesBits_nil] at pt
  rw [headerByte_short _ pt.ok pt.unread, bind_raised]
  exact Ends.now (rest := []) pt.ok pt.unread ⟨t, rfl⟩

/-- An entry cut short is a format error with the number of entries parsed so far (R107). -/
theorem readEntry_short (e : Nat) {s : State} (h : ReaderOk s) (ha : s.rdOff % 8 = 0)
    (hu : (unreadBits s).length < 16 ∨
      ∃ y len frag, unreadBits s = byteBits s.params.bitOrder y ++ byteBits s.params.bitOrder len ++ frag ∧
        frag.length < len.toNat) :
    Ends (readEntry e s) (fun r => ∃ t, r = .raised .fmt (BitVec.ofNat 32 e) t) 0 s := by
  rcases hu with hu | ⟨y, len, frag, hu, hl⟩
  · exact headerBytes_short _ h ha hu
  · rw [List.append_assoc] at hu
    refine (headerByte_reads _ h ha hu).andThen (Nat.zero_le _) fun t1 f1 p1 => ?_
    refine (headerByte_reads _ p1.ok f1.2 (p1.params.symm ▸ p1.unread)).andThen (Nat.zero_le _) fun t2 f2 p2 => ?_
    exact (readCode_short e len.toNat p2.ok (by rw [p2.unread]; exact hl)).raising

theorem countBits_toNat (n : Nat) (h : n < 65536) :
    ((BitVec.ofNat 16 n).extractLsb' 8 8 ++ (BitVec.ofNat 16 n).extractLsb' 0 8 : BitVec 16).toNat = n := by
  have : ((BitVec.ofNat 16 n).extractLsb' 8 8 ++ (BitVec.ofNat 16 n).extractLsb' 0 8 : BitVec 16) = BitVec.ofNat 16 n := by
    apply BitVec.eq_of_getLsbD_eq
    intro i hi
    simp only [BitVec.getLsbD_append, BitVec.getLsbD_extractLsb']
    by_cases h8 : i < 8
    · simp [h8]
    · simp only [h8, decide_false]
      rw [show 8 + (i - 8) = i by omega]
      simp [show i - 8 < 8 by omega]
  rw [this, BitVec.toNat_ofNat, Nat.mod_eq_of_lt h]

/-- HREAD's body, the two count bytes read (R107): then `n` entries, from no code. -/
theorem readHeader_count (n : Nat) (hn : n < 65536) {s : State} {rest : Bits} (h : ReaderOk s) (ha : s.rdOff % 8 = 0)
    (hu : unreadBits s = countBits s.params.bitOrder n ++ rest) {left : Nat} (hl : left ≤ rest.length)
    {Q : Res Unit → Prop}
    (hf : ∀ t, readerAndCt s t → t.rdOff % 8 = 0 → t.ct = constTable none → Passed rest s t →
      Ends (readEntries 0 n t) Q left t) : Ends (readHeader s) Q left s := by
  have hu0 : unreadBits (s.setCt (constTable none)) = byteBits (s.setCt (constTable none)).params.bitOrder
      ((BitVec.ofNat 16 n).extractLsb' 0 8) ++ (byteBits s.params.bitOrder ((BitVec.ofNat 16 n).extractLsb' 8 8) ++ rest) := by
    rw [show unreadBits (s.setCt (constTable none)) = unreadBits s from rfl, hu]
    simp [countBits]
  have ha0 : rdAligned (s.setCt (constTable none)) = true := decide_eq_true ha
  have p0 : Passed (unreadBits s) s (s.setCt (constTable none)) := ⟨rfl, rfl, h, rfl, fun _ _ => Iff.rfl⟩
  unfold readHeader
  dsimp only
  rw [if_pos ha0]
  refine Reads.andThen (s := s.setCt (constTable none)) (headerByte_reads _ h ha hu0) (by simp; omega)
    fun t1 f1 p1 => ?_
  refine (headerByte_reads _ p1.ok f1.2 (p1.params.symm ▸ p1.unread)).andThen hl fun t2 f2 p2 => ?_
  rw [countBits_toNat n hn]
  exact hf t2 ((setCt_readerAndCt s _).trans (f1.1.trans f2.1).withCt) f2.2 (by rw [f2.1.ct, f1.1.ct]; rfl)
    ((p0.trans p1 (by rw [hu]; simp [countBits])).trans p2 (by simp))

/-- HREAD's body on a header of `ens` followed by `rest` (R107). -/
theorem readHeader_reads (ens : List HeaderEntry) {s : State} {rest : Bits} (h : ReaderOk s) (ha : s.rdOff % 8 = 0)
    (hn : ens.length < 65536) (hok : ∀ en ∈ ens, en.ok)
    (hu : unreadBits s = countBits s.params.bitOrder ens.length ++
      ens.flatMap (HeaderEntry.bits s.params.bitOrder) ++ rest) :
    Reads (readHeader s) () (fun t => readerAndCt s t ∧ t.rdOff % 8 = 0 ∧ t.ct = parsedTable ens) rest s := by
  rw [List.append_assoc] at hu
  refine readHeader_count ens.length hn h ha hu (by simp) fun t f1 a1 c1 p1 => ?_
  refine readEntries_reads ens 0 p1.ok a1 hok (p1.params.symm ▸ p1.unread) 0 _ le_rfl fun u f2 a2 c2 p2 => ?_
  exact .now p2.ok p2.unread ⟨u, rfl, ⟨f1.trans f2, a2, by rw [c2, c1]; rfl⟩, p1.trans p2 (by simp)⟩

/-- HREAD's body on a source that ends inside the count (R107). -/
theorem readHeader_shortCount {s : State} (h : ReaderOk s) (ha : s.rdOff % 8 = 0) (hu : (unreadBits s).length < 16) :
    Ends (readHeader s) (fun r => ∃ t, r = .raised .fmt 0x80000000#32 t) 0 s := by
  unfold readHeader
  dsimp only
  rw [if_pos (show rdAligned (s.setCt (constTable none)) = true from decide_eq_true ha)]
  exact headerBytes_short (s := s.setCt (constTable none)) _ h ha hu

/-- HREAD's body on a source that ends inside entry `ens.length` of `n` (R107). -/
theorem readHeader_shortEntry (ens : List HeaderEntry) (n : Nat) {s : State} {frag : Bits} (h : ReaderOk s)
    (ha : s.rdOff % 8 = 0) (hn : n < 65536) (hlt : ens.length < n) (hok : ∀ en ∈ ens, en.ok)
    (hu : unreadBits s = countBits s.params.bitOrder n ++
      ens.flatMap (HeaderEntry.bits s.params.bitOrder) ++ frag)
    (hfrag : frag.length < 16 ∨
      ∃ y len c, frag = byteBits s.params.bitOrder y ++ byteBits s.params.bitOrder len ++ c ∧ c.length < len.toNat) :
    Ends (readHeader s) (fun r => ∃ t, r = .raised .fmt (BitVec.ofNat 32 ens.length) t) 0 s := by
  rw [List.append_assoc] at hu
  refine readHeader_count n hn h ha hu (Nat.zero_le _) fun t f1 a1 c1 p1 => ?_
  obtain ⟨m, rfl⟩ : ∃ m, n = ens.length + (m + 1) := ⟨n - ens.length - 1, by omega⟩
  refine readEntries_reads ens 0 p1.ok a1 hok (p1.params.symm ▸ p1.unread) (m + 1) 0 (Nat.zero_le _)
    fun u f2 a2 c2 p2 => ?_
  have p3 : u.params = s.params := p2.params.trans p1.params
  rw [Nat.zero_add, readEntries]
  exact (readEntry_short ens.length p2.ok a2 (by rw [p2.unread, p3]; exact hfrag)).raising

end Sys2Proof.Machine
end

