-- ==== Sys2Proof/Laws/TrieLaws.lean ====
section
/-! SUPPORT. Laws of the decoding trie and of the walk (48_decode.md R127 to R130). -/

namespace Sys2Proof.Machine
open Sys2Proof

/-! ### The decoding trie -/

@[simp] theorem lookup_absent (p : Bits) : Trie.absent.lookup p = none := by cases p <;> rfl

@[simp] theorem lookup_node_nil (k : TrieKind) (z o : Trie) : (Trie.node k z o).lookup [] = some k := rfl

@[simp] theorem lookup_node_cons (k : TrieKind) (z o : Trie) (b : Bool) (p : Bits) :
    (Trie.node k z o).lookup (b :: p) = (if b then o else z).lookup p := rfl

@[simp] theorem lookup_empty_cons (b : Bool) (p : Bits) : Trie.empty.lookup (b :: p) = none := by
  cases b <;> simp [Trie.empty]

/-- Inserting a code adds exactly its own TERM (R127). -/
theorem insert_lookup {sym : Byte} {c : Bits} {u v : Trie} (h : u.insert sym c = some v) (p : Bits) (y : Byte) :
    v.lookup p = some (.term y) ↔ (p = c ∧ y = sym) ∨ u.lookup p = some (.term y) := by
  induction c generalizing u v p with
  | nil =>
    cases u with
    | absent =>
      simp only [Trie.insert, Option.some.injEq] at h
      subst h
      cases p with
      | nil => simp; exact eq_comm
      | cons b p => cases b <;> simp
    | node k z o =>
      cases k with
      | term t => simp [Trie.insert] at h
      | inner =>
        cases z <;> cases o <;> simp [Trie.insert] at h
        subst h
        cases p with
        | nil => simp; exact eq_comm
        | cons b p => cases b <;> simp
  | cons b c ih =>
    have child : ∀ {k : TrieKind} {w w' other other' : Trie}, w.insert sym c = some w' →
        (∀ q, other'.lookup q = some (.term y) ↔ other.lookup q = some (.term y)) →
        ∀ {u0 : Trie}, (∀ q, u0.lookup q = some (.term y) ↔
          (Trie.node .inner (if b then other else w) (if b then w else other)).lookup q = some (.term y)) →
        ((Trie.node .inner (if b then other' else w') (if b then w' else other')).lookup p = some (.term y) ↔
          (p = b :: c ∧ y = sym) ∨ u0.lookup p = some (.term y)) := by
      intro k w w' other other' hw ho u0 hu0
      rw [hu0]
      cases p with
      | nil => simp
      | cons d p =>
        have := ih hw p
        have := ho p
        cases b <;> cases d <;> simp [*]
    cases u with
    | absent =>
      cases b <;> simp only [Trie.insert, Bool.false_eq_true, if_false, if_true, Option.map_eq_some_iff] at h
      all_goals
        obtain ⟨w, hw, rfl⟩ := h
        refine child (k := .inner) (other := .absent) (other' := .absent) hw (fun _ => Iff.rfl) (fun q => ?_)
        rcases q with - | ⟨d, q⟩
        · simp
        · cases d <;> simp
    | node k z o =>
      cases k with
      | term t => simp [Trie.insert] at h
      | inner =>
        cases b <;> simp only [Trie.insert, Bool.false_eq_true, if_false, if_true, Option.map_eq_some_iff] at h
        all_goals
          obtain ⟨w, hw, rfl⟩ := h
          exact child (k := .inner) hw (fun _ => Iff.rfl) (fun _ => Iff.rfl)

/-- Every present node has a TERM at or below it. -/
def Trie.fruitful : Trie → Prop
  | .absent => True
  | .node (.term _) z o => z.fruitful ∧ o.fruitful
  | .node .inner z o => z.fruitful ∧ o.fruitful ∧ (z ≠ .absent ∨ o ≠ .absent)

theorem fruitful_term {u : Trie} (h : u.fruitful) (hne : u ≠ .absent) : ∃ p y, u.lookup p = some (.term y) := by
  induction u with
  | absent => exact absurd rfl hne
  | node k z o ihz iho =>
    cases k with
    | term y => exact ⟨[], y, rfl⟩
    | inner =>
      obtain ⟨h1, h2, h3⟩ := h
      rcases h3 with h3 | h3
      · obtain ⟨p, y, hp⟩ := ihz h1 h3
        exact ⟨false :: p, y, hp⟩
      · obtain ⟨p, y, hp⟩ := iho h2 h3
        exact ⟨true :: p, y, hp⟩

theorem insert_fruitful {sym : Byte} {c : Bits} {u v : Trie} (h : u.insert sym c = some v)
    (hu : u.fruitful ∨ u = .empty) : v.fruitful ∧ v ≠ .absent := by
  induction c generalizing u v with
  | nil =>
    rcases hu with hu | rfl
    · cases u with
      | absent =>
        simp only [Trie.insert, Option.some.injEq] at h
        subst h
        exact ⟨⟨trivial, trivial⟩, by simp⟩
      | node k z o =>
        cases k with
        | term t => simp [Trie.insert] at h
        | inner =>
          cases z <;> cases o <;> simp [Trie.insert] at h
          exact absurd hu (by simp [Trie.fruitful])
    · simp only [Trie.insert, Trie.empty, Option.some.injEq] at h
      subst h
      exact ⟨⟨trivial, trivial⟩, by simp⟩
  | cons b c ih =>
    cases u with
    | absent =>
      cases b <;> simp only [Trie.insert, Bool.false_eq_true, if_false, if_true, Option.map_eq_some_iff] at h <;>
        obtain ⟨w, hw, rfl⟩ := h <;> obtain ⟨k1, k2⟩ := ih hw (.inl trivial) <;>
        exact ⟨by simp [Trie.fruitful, k1, k2], by simp⟩
    | node k z o =>
      cases k with
      | term t => simp [Trie.insert] at h
      | inner =>
        have hzo : z.fruitful ∧ o.fruitful := by
          rcases hu with hu | hu
          · exact ⟨hu.1, hu.2.1⟩
          · simp only [Trie.empty, Trie.node.injEq] at hu
            rw [hu.2.1, hu.2.2]
            exact ⟨trivial, trivial⟩
        cases b <;> simp only [Trie.insert, Bool.false_eq_true, if_false, if_true, Option.map_eq_some_iff] at h <;>
          obtain ⟨w, hw, rfl⟩ := h
        · obtain ⟨k1, k2⟩ := ih hw (.inl hzo.1)
          exact ⟨by simp [Trie.fruitful, k1, k2, hzo.2], by simp⟩
        · obtain ⟨k1, k2⟩ := ih hw (.inl hzo.2)
          exact ⟨by simp [Trie.fruitful, k1, k2, hzo.1], by simp⟩

/-- An insertion is refused exactly where its code conflicts with one already there (R127). -/
theorem insert_none_iff {sym : Byte} {c : Bits} {u : Trie} (hu : u.fruitful ∨ u = .empty) :
    u.insert sym c = none ↔ ∃ p y, u.lookup p = some (.term y) ∧ (p <+: c ∨ c <+: p) := by
  induction c generalizing u with
  | nil =>
    cases u with
    | absent => simp [Trie.insert]
    | node k z o =>
      cases k with
      | term t =>
        simp only [Trie.insert, true_iff]
        exact ⟨[], t, rfl, .inl List.nil_prefix⟩
      | inner =>
        rcases hu with hu | hu
        · obtain ⟨p, y, hp⟩ := fruitful_term (u := .node .inner z o) hu (by simp)
          have : (Trie.node .inner z o).insert sym [] = none := by
            obtain ⟨-, -, h3⟩ := hu
            cases z <;> cases o <;> simp [Trie.insert] at h3 ⊢
          simp only [this, true_iff]
          exact ⟨p, y, hp, .inr List.nil_prefix⟩
        · rw [hu]
          simp only [Trie.insert, Trie.empty, reduceCtorEq, false_iff, not_exists]
          rintro p y ⟨h, -⟩
          cases p with
          | nil => simp at h
          | cons b p => cases b <;> simp at h
  | cons b c ih =>
    have step : ∀ {w other : Trie}, (w.fruitful ∨ w = .empty) →
        (w.insert sym c = none ↔
          ∃ p y, (Trie.node .inner (if b then other else w) (if b then w else other)).lookup p = some (.term y) ∧
            (p <+: b :: c ∨ b :: c <+: p)) := by
      intro w other hw
      rw [ih hw]
      constructor
      · rintro ⟨p, y, h1, h2⟩
        refine ⟨b :: p, y, by cases b <;> simpa using h1, ?_⟩
        rcases h2 with h2 | h2
        · exact .inl (List.cons_prefix_cons.mpr ⟨rfl, h2⟩)
        · exact .inr (List.cons_prefix_cons.mpr ⟨rfl, h2⟩)
      · rintro ⟨p, y, h1, h2⟩
        cases p with
        | nil => simp at h1
        | cons d p =>
          have hd : d = b := by
            rcases h2 with h2 | h2
            · exact (List.cons_prefix_cons.mp h2).1
            · exact (List.cons_prefix_cons.mp h2).1.symm
          subst hd
          refine ⟨p, y, by cases d <;> simpa using h1, ?_⟩
          rcases h2 with h2 | h2
          · exact .inl (List.cons_prefix_cons.mp h2).2
          · exact .inr (List.cons_prefix_cons.mp h2).2
    cases u with
    | absent =>
      have key := step (w := .absent) (other := .absent) (.inl trivial)
      have rhs : (∃ p y, Trie.absent.lookup p = some (.term y) ∧ (p <+: b :: c ∨ b :: c <+: p)) ↔
          ∃ p y, (Trie.node .inner (if b then .absent else .absent) (if b then Trie.absent else .absent)).lookup p =
            some (.term y) ∧ (p <+: b :: c ∨ b :: c <+: p) := by
        constructor
        · rintro ⟨p, y, h, -⟩; simp at h
        · rintro ⟨p, y, h, -⟩
          rcases p with - | ⟨d, p⟩
          · simp at h
          · cases d <;> cases b <;> simp at h
      rw [rhs, ← key]
      cases b <;> simp [Trie.insert]
    | node k z o =>
      cases k with
      | term t =>
        simp only [Trie.insert, true_iff]
        exact ⟨[], t, rfl, .inl List.nil_prefix⟩
      | inner =>
        have hzo : z.fruitful ∧ o.fruitful := by
          rcases hu with hu | hu
          · exact ⟨hu.1, hu.2.1⟩
          · simp only [Trie.empty, Trie.node.injEq] at hu
            rw [hu.2.1, hu.2.2]
            exact ⟨trivial, trivial⟩
        cases b with
        | false =>
          have := step (w := z) (other := o) (.inl hzo.1)
          simpa [Trie.insert] using this
        | true =>
          have := step (w := o) (other := z) (.inl hzo.2)
          simpa [Trie.insert] using this

/-- A trie of depth `n` whose TERM nodes have no child stays one (R37, R127). -/
theorem insert_okBelow {sym : Byte} {c : Bits} {u v : Trie} {n : Nat} (h : u.insert sym c = some v)
    (hu : u.okBelow n) (hc : c.length ≤ n) : v.okBelow n := by
  induction c generalizing u v n with
  | nil =>
    have : v = .node (.term sym) .absent .absent := by
      cases u with
      | absent => simpa [Trie.insert] using h.symm
      | node k z o =>
        cases k with
        | term t => simp [Trie.insert] at h
        | inner => cases z <;> cases o <;> simp [Trie.insert] at h; exact h.symm
    rw [this]
    simp [Trie.okBelow]
  | cons b c ih =>
    obtain ⟨n, rfl⟩ : ∃ m, n = m + 1 := ⟨n - 1, by simp at hc; omega⟩
    have hc' : c.length ≤ n := by simpa using hc
    cases u with
    | absent =>
      cases b <;> simp only [Trie.insert, Bool.false_eq_true, if_false, if_true, Option.map_eq_some_iff] at h <;>
        obtain ⟨w, hw, rfl⟩ := h <;> have := ih (n := n) hw (by simp [Trie.okBelow]) hc' <;>
        simp [Trie.okBelow, this]
    | node k z o =>
      cases k with
      | term t => simp [Trie.insert] at h
      | inner =>
        obtain ⟨h1, h2⟩ := hu
        cases b <;> simp only [Trie.insert, Bool.false_eq_true, if_false, if_true, Option.map_eq_some_iff] at h <;>
          obtain ⟨w, hw, rfl⟩ := h
        · exact ⟨ih hw h1 hc', h2⟩
        · exact ⟨h1, ih hw h2 hc'⟩

theorem insert_ne_absent {sym : Byte} {c : Bits} {u v : Trie} (h : u.insert sym c = some v) : v ≠ .absent := by
  rintro rfl
  cases c with
  | nil =>
    cases u with
    | absent => simp [Trie.insert] at h
    | node k z o => cases k <;> cases z <;> cases o <;> simp [Trie.insert] at h
  | cons b c =>
    cases u with
    | absent => cases b <;> simp [Trie.insert] at h
    | node k z o => cases k <;> cases b <;> simp [Trie.insert] at h

/-- Inserting the codes of a list of symbols after those of another (R128). -/
theorem insertCodes_sat (t : Table CodeEntry) (xs ys : List Byte) (u : Trie)
    (hu : (u.fruitful ∧ u ≠ .absent) ∨ u = .empty)
    (hold : ∀ p y, u.lookup p = some (.term y) ↔ y ∈ xs ∧ cell t y = some p) :
    match insertCodes t ys u with
    | .ok v => ((v.fruitful ∧ v ≠ .absent) ∨ v = .empty) ∧
        (∀ p y, v.lookup p = some (.term y) ↔ y ∈ xs ++ ys ∧ cell t y = some p) ∧
        ∀ l y r, ys = l ++ y :: r → ∀ x ∈ xs ++ l, ¬ Conflict t x y
    | .error y => ∃ l r, ys = l ++ y :: r ∧ (∃ x ∈ xs ++ l, Conflict t x y) ∧
        ∀ l' y' r', l = l' ++ y' :: r' → ∀ x ∈ xs ++ l', ¬ Conflict t x y' := by
  induction ys generalizing xs u with
  | nil => exact ⟨hu, by simpa using hold, by simp⟩
  | cons y ys ih =>
    have hu' : u.fruitful ∨ u = .empty := hu.imp And.left id
    have peel : ∀ {l : List Byte} {z : Byte} {r : List Byte}, y :: ys = l ++ z :: r →
        (l = [] ∧ z = y) ∨ ∃ l', l = y :: l' ∧ ys = l' ++ z :: r := by
      intro l z r e
      cases l with
      | nil => simp only [List.nil_append, List.cons.injEq] at e; exact .inl ⟨rfl, e.1.symm⟩
      | cons a l => simp only [List.cons_append, List.cons.injEq] at e; exact .inr ⟨l, by rw [e.1], e.2⟩
    cases hc : cell t y with
    | none =>
      have nc : ∀ x, ¬ Conflict t x y := by
        rintro x ⟨c, d, -, h, -⟩; rw [hc] at h; exact nomatch h
      have hold' : ∀ p z, u.lookup p = some (.term z) ↔ z ∈ xs ++ [y] ∧ cell t z = some p := by
        intro p z
        rw [hold]
        simp only [List.mem_append, List.mem_singleton]
        constructor
        · rintro ⟨h1, h2⟩; exact ⟨.inl h1, h2⟩
        · rintro ⟨h1 | h1, h2⟩
          · exact ⟨h1, h2⟩
          · subst h1; rw [hc] at h2; exact nomatch h2
      have := ih (xs ++ [y]) u hu hold'
      simp only [insertCodes, hc]
      cases hr : insertCodes t ys u with
      | ok v =>
        rw [hr] at this
        obtain ⟨k1, k2, k3⟩ := this
        refine ⟨k1, by simpa using k2, ?_⟩
        intro l z r e x hx
        rcases peel e with ⟨-, rfl⟩ | ⟨l', rfl, e'⟩
        · exact nc x
        · exact k3 l' z r e' x (by simpa using hx)
      | error z =>
        rw [hr] at this
        obtain ⟨l, r, k1, ⟨x, k2, k3⟩, k4⟩ := this
        refine ⟨y :: l, r, by simp [k1], ⟨x, by simpa using k2, k3⟩, ?_⟩
        intro l' z' r' e x' hx'
        cases l' with
        | nil => simp only [List.nil_append, List.cons.injEq] at e; rw [← e.1]; exact nc x'
        | cons a l' =>
          simp only [List.cons_append, List.cons.injEq] at e
          exact k4 l' z' r' e.2 x' (by rw [← e.1] at hx'; simpa using hx')
    | some c =>
      simp only [insertCodes, hc]
      have conflict_iff : (∃ x ∈ xs, Conflict t x y) ↔ u.insert y c = none := by
        rw [insert_none_iff hu']
        constructor
        · rintro ⟨x, hx, p, d, h1, h2, h3⟩
          rw [hc, Option.some.injEq] at h2
          subst h2
          exact ⟨p, x, (hold p x).mpr ⟨hx, h1⟩, h3⟩
        · rintro ⟨p, x, h1, h2⟩
          obtain ⟨h3, h4⟩ := (hold p x).mp h1
          exact ⟨x, h3, p, c, h4, hc, h2⟩
      cases hi : u.insert y c with
      | none =>
        obtain ⟨x, hx, hcx⟩ := conflict_iff.mpr hi
        exact ⟨[], ys, rfl, ⟨x, by simpa using hx, hcx⟩, by simp⟩
      | some v =>
        have nc : ∀ x ∈ xs, ¬ Conflict t x y := by
          intro x hx hcx
          rw [conflict_iff.mp ⟨x, hx, hcx⟩] at hi
          exact nomatch hi
        have hold' : ∀ p z, v.lookup p = some (.term z) ↔ z ∈ xs ++ [y] ∧ cell t z = some p := by
          intro p z
          rw [insert_lookup hi, hold]
          simp only [List.mem_append, List.mem_singleton]
          constructor
          · rintro (⟨rfl, rfl⟩ | ⟨h1, h2⟩)
            · exact ⟨.inr rfl, hc⟩
            · exact ⟨.inl h1, h2⟩
          · rintro ⟨h1 | h1, h2⟩
            · exact .inr ⟨h1, h2⟩
            · subst h1
              rw [hc, Option.some.injEq] at h2
              exact .inl ⟨h2.symm, rfl⟩
        have := ih (xs ++ [y]) v (.inl (insert_fruitful hi hu')) hold'
        simp only
        cases hr : insertCodes t ys v with
        | ok w =>
          rw [hr] at this
          obtain ⟨k1, k2, k3⟩ := this
          refine ⟨k1, by simpa using k2, ?_⟩
          intro l z r e x hx
          rcases peel e with ⟨rfl, rfl⟩ | ⟨l', rfl, e'⟩
          · exact nc x (by simpa using hx)
          · exact k3 l' z r e' x (by simpa using hx)
        | error z =>
          rw [hr] at this
          obtain ⟨l, r, k1, ⟨x, k2, k3⟩, k4⟩ := this
          refine ⟨y :: l, r, by simp [k1], ⟨x, by simpa using k2, k3⟩, ?_⟩
          intro l' z' r' e x' hx'
          cases l' with
          | nil =>
            simp only [List.nil_append, List.cons.injEq] at e
            rw [← e.1]
            exact nc x' (by simpa using hx')
          | cons a l' =>
            simp only [List.cons_append, List.cons.injEq] at e
            exact k4 l' z' r' e.2 x' (by rw [← e.1] at hx'; simpa using hx')

theorem insertCodes_okBelow (t : Table CodeEntry) (ht : CodesOk t) (ys : List Byte) {u v : Trie}
    (h : insertCodes t ys u = .ok v) (hu : u ≠ .absent ∧ u.okBelow Config.maxLen) :
    v ≠ .absent ∧ v.okBelow Config.maxLen := by
  induction ys generalizing u with
  | nil =>
    simp only [insertCodes, Except.ok.injEq] at h
    exact h ▸ hu
  | cons y ys ih =>
    cases hc : cell t y with
    | none => rw [insertCodes, hc] at h; exact ih h hu
    | some c =>
      simp only [insertCodes, hc] at h
      cases hi : u.insert y c with
      | none => rw [hi] at h; exact nomatch h
      | some w =>
        rw [hi] at h
        exact ih h ⟨insert_ne_absent hi, insert_okBelow hi hu.2 (ht y c hc)⟩

/-- Inserting a code adds a node for each of its bits at most, and a root where there was none (R37). -/
theorem insert_size {sym : Byte} {c : Bits} {u v : Trie} (h : u.insert sym c = some v) :
    v.size ≤ u.size + c.length + (if u = .absent then 1 else 0) := by
  induction c generalizing u v with
  | nil =>
    cases u with
    | absent => simp only [Trie.insert, Option.some.injEq] at h; simp [← h, Trie.size]
    | node k z o => cases k <;> cases z <;> cases o <;> simp [Trie.insert] at h; simp [← h, Trie.size]
  | cons b c ih =>
    cases u with
    | absent =>
      cases b <;> simp only [Trie.insert, Bool.false_eq_true, if_false, if_true, Option.map_eq_some_iff] at h <;>
        obtain ⟨w, hw, rfl⟩ := h <;> have := ih hw <;> simp [Trie.size] at this ⊢ <;> omega
    | node k z o =>
      cases k with
      | term t => simp [Trie.insert] at h
      | inner =>
        cases b <;> simp only [Trie.insert, Bool.false_eq_true, if_false, if_true, Option.map_eq_some_iff] at h <;>
          obtain ⟨w, hw, rfl⟩ := h <;> have := ih hw <;> simp only [Trie.size, List.length_cons, reduceCtorEq, if_false] <;>
          split at this <;> omega

/-- What the codes of a list of symbols add: at most 255 nodes each (R37, D42). -/
theorem insertCodes_size (t : Table CodeEntry) (ht : CodesOk t) (ys : List Byte) {u v : Trie}
    (h : insertCodes t ys u = .ok v) (hu : u ≠ .absent) : v.size ≤ u.size + Config.maxLen * ys.length := by
  induction ys generalizing u with
  | nil =>
    simp only [insertCodes, Except.ok.injEq] at h
    exact h ▸ Nat.le_add_right ..
  | cons y ys ih =>
    rw [List.length_cons, Nat.mul_succ]
    cases hc : cell t y with
    | none =>
      rw [insertCodes, hc] at h
      have := ih h hu
      omega
    | some c =>
      simp only [insertCodes, hc] at h
      cases hi : u.insert y c with
      | none => rw [hi] at h; exact nomatch h
      | some w =>
        rw [hi] at h
        have h1 := ih h (insert_ne_absent hi)
        have h2 := insert_size hi
        have h3 := ht y c hc
        rw [if_neg hu] at h2
        omega

/-- The trie DTRIE builds fits the trie store (R6, R37): one root and at most 255 nodes for each of 256 codes. -/
theorem insertCodes_fits {t : Table CodeEntry} (ht : CodesOk t) {v : Trie}
    (h : insertCodes t allBytes Trie.empty = .ok v) : v.size ≤ Config.trieNodes := by
  have := insertCodes_size t ht allBytes h (by decide)
  rwa [allBytes_length] at this

/-! ### The walk -/

/-- In a trie whose TERM nodes have no child, a path that goes on does not pass a TERM. -/
theorem lookup_inner_of_more {u : Trie} {n : Nat} (hu : u.okBelow n) {p : Bits} {b : Bool} {q : Bits}
    (h : u.lookup (p ++ b :: q) ≠ none) : u.lookup p = some .inner := by
  induction p generalizing u n with
  | nil =>
    cases u with
    | absent => simp at h
    | node k z o =>
      cases k with
      | inner => rfl
      | term t =>
        obtain ⟨rfl, rfl⟩ : z = .absent ∧ o = .absent := by cases n <;> exact hu
        cases b <;> simp at h
  | cons d p ih =>
    cases u with
    | absent => simp at h
    | node k z o =>
      simp only [List.cons_append, lookup_node_cons] at h ⊢
      cases k with
      | term t =>
        obtain ⟨rfl, rfl⟩ : z = .absent ∧ o = .absent := by cases n <;> exact hu
        cases d <;> simp at h
      | inner =>
        cases n with
        | zero => exact hu.elim
        | succ n => exact ih (n := n) (by cases d <;> simp [hu.1, hu.2]) h

theorem trieStep_reads {s : State} {p rest : Bits} {b : Bool} {k : TrieKind} (h : ReaderOk s)
    (hu : unreadBits s = b :: rest) (hk : s.trie.lookup (p ++ [b]) = some k) :
    Reads (trieStep p s) (p ++ [b], k) (onlyReader s) rest s :=
  (readBit_reads h hu).bind le_rfl fun t ht pt => by
    rw [ht.trie, hk]
    exact .pure pt.ok pt.unread ht

theorem trieStep_missing {s : State} {p rest : Bits} {b : Bool} (h : ReaderOk s)
    (hu : unreadBits s = b :: rest) (hk : s.trie.lookup (p ++ [b]) = none) :
    Ends (trieStep p s)
      (fun r => ∃ t, r = .raised .trie (0x02000000#32 ||| BitVec.ofNat 32 (p ++ [b]).length) t) rest.length s :=
  (readBit_reads h hu).andThen le_rfl fun t ht pt => by
    rw [ht.trie, hk]
    exact .now pt.ok pt.unread ⟨t, rfl⟩

/-- Every step of a path to an INNER node but the last leads to one too. -/
theorem inner_of_path {u : Trie} {d : Nat} (hok : u.okBelow d) {p c : Bits} {b : Bool}
    (hk : u.lookup (p ++ b :: c) = some .inner) : u.lookup (p ++ [b]) = some .inner := by
  cases c with
  | nil => exact hk
  | cons b' c' => exact lookup_inner_of_more (b := b') (q := c') hok (by simp [hk])

/-- DSYM's loop follows a path to an INNER node; then it goes on from there (R129, R130). -/
theorem decodeOne_walk {n : Nat} (c : Bits) {p rest : Bits} {s : State} {d left : Nat} {Q : Res Unit → Prop}
    (h : ReaderOk s) (hok : s.trie.okBelow d) (hu : unreadBits s = c ++ rest)
    (hk : c = [] ∨ s.trie.lookup (p ++ c) = some .inner) (hl : left ≤ rest.length)
    (hf : ∀ t, onlyReader s t → Passed rest s t → Ends (decodeOne n (p ++ c) t) Q left t) :
    Ends (decodeOne (c.length + n) p s) Q left s := by
  induction c generalizing p s with
  | nil =>
    rw [List.nil_append] at hu
    subst hu
    simpa using hf s (.refl s) (.refl h)
  | cons b c ih =>
    have hk' : s.trie.lookup (p ++ b :: c) = some .inner := hk.resolve_left (by simp)
    rw [show (b :: c).length + n = (c.length + n) + 1 by simp; omega, decodeOne,
      if_pos ((hasNext_iff_unread h).mpr (by simp [hu]))]
    refine (trieStep_reads h hu (inner_of_path hok hk')).andThen (by simp; omega) fun t ht pt => ?_
    refine ih pt.ok (by rw [ht.trie]; exact hok) pt.unread (.inr (by rw [ht.trie]; simpa using hk')) fun u hu' pu => ?_
    have := hf u (ht.trans hu') (pt.trans pu (by simp))
    simpa using this

/-- A path to a TERM node is a path to the root or an INNER node and one step more. -/
theorem code_snoc {u : Trie} {d : Nat} (hok : u.okBelow d) {code : Bits} {y : Byte} (hc : code ≠ [])
    (hk : u.lookup code = some (.term y)) :
    ∃ c b, code = c ++ [b] ∧ (c = [] ∨ u.lookup c = some .inner) := by
  obtain ⟨c, b, rfl⟩ := List.eq_nil_or_concat code |>.resolve_left hc
  rw [List.concat_eq_append] at *
  exact ⟨c, b, rfl, .inr (lookup_inner_of_more (b := b) (q := []) hok (by simp [hk]))⟩

/-- DSYM's loop on a whole code (R129, R130). -/
theorem decodeOne_code {n : Nat} {code rest : Bits} {y : Byte} {s : State} {d : Nat} (h : ReaderOk s)
    (hok : s.trie.okBelow d) (hu : unreadBits s = code ++ rest) (hc : code ≠ [])
    (hk : s.trie.lookup code = some (.term y)) (hn : code.length ≤ n) :
    Reads (decodeOne n [] s) () (fun t => t.result = 0x00000100#32 ||| y.setWidth 32) rest s := by
  obtain ⟨c, b, rfl, hin⟩ := code_snoc hok hc hk
  obtain ⟨m, rfl⟩ : ∃ m, n = c.length + (m + 1) := ⟨n - c.length - 1, by simp at hn; omega⟩
  rw [List.append_assoc] at hu
  refine decodeOne_walk c h hok hu hin (by simp) fun t ht pt => ?_
  rw [decodeOne, if_pos ((hasNext_iff_unread pt.ok).mpr (by simp [pt.unread]))]
  refine (trieStep_reads pt.ok pt.unread (by rw [ht.trie]; exact hk)).andThen le_rfl fun u hu' pu => ?_
  exact .now pu.ok pu.unread ⟨_, rfl, rfl, (pt.trans pu (by simp)).setResult _⟩

/-- DSYM's loop on a source that ends before a symbol does (R130). -/
theorem decodeOne_end {n : Nat} {c : Bits} {s : State} {d : Nat} (h : ReaderOk s) (hok : s.trie.okBelow d)
    (hu : unreadBits s = c) (hk : c = [] ∨ s.trie.lookup c = some .inner) (hn : c.length < n) :
    Reads (decodeOne n [] s) () (fun t => t.result = if c = [] then 0x00000000#32 else 0x00000200#32) [] s := by
  obtain ⟨m, rfl⟩ : ∃ m, n = c.length + (m + 1) := ⟨n - c.length - 1, by omega⟩
  refine decodeOne_walk c h hok (hu.trans (List.append_nil c).symm) hk le_rfl fun t ht pt => ?_
  rw [decodeOne, if_neg fun k => (hasNext_iff_unread pt.ok).mp k pt.unread]
  exact .now pt.ok pt.unread ⟨_, rfl, rfl, pt.setResult _⟩

/-- DSYM's loop on a path that leaves the trie (R129, R130). -/
theorem decodeOne_missing {n : Nat} {c rest : Bits} {b : Bool} {s : State} {d : Nat} (h : ReaderOk s)
    (hok : s.trie.okBelow d) (hu : unreadBits s = c ++ b :: rest) (hk : c = [] ∨ s.trie.lookup c = some .inner)
    (hm : s.trie.lookup (c ++ [b]) = none) (hn : c.length < n) :
    Ends (decodeOne n [] s)
      (fun r => ∃ t, r = .raised .trie (0x02000000#32 ||| BitVec.ofNat 32 (c.length + 1)) t) rest.length s := by
  obtain ⟨m, rfl⟩ : ∃ m, n = c.length + (m + 1) := ⟨n - c.length - 1, by omega⟩
  refine decodeOne_walk c h hok hu hk (by simp) fun t ht pt => ?_
  rw [decodeOne, if_pos ((hasNext_iff_unread pt.ok).mpr (by simp [pt.unread]))]
  have := (trieStep_missing pt.ok pt.unread (by rw [ht.trie]; exact hm)).raising
    (f := fun q t => match q.2 with
      | .term y => .ok () (t.setResult (0x00000100#32 ||| y.setWidth 32))
      | .inner => decodeOne m q.1 t)
  rwa [List.length_append, List.length_singleton] at this

end Sys2Proof.Machine
end

