-- ==== Sys2Proof/Laws/DecodeLaws.lean ====
section
/-! SUPPORT. Laws of the walk to the end of the source (48_decode.md R131) and of the header's round trip (44_header.md
R108). -/

namespace Sys2Proof.Machine

open Sys2Proof

/-! ### DSCAN's loop -/

/-- DSCAN's loop follows a path to an INNER node; then it goes on from there (R129, R131). -/
theorem decodeAll_walk {n : Nat} (c : Bits) {p rest : Bits} {s : State} {d left : Nat} {Q : Res Unit → Prop}
    (h : ReaderOk s) (hok : s.trie.okBelow d) (hu : unreadBits s = c ++ rest)
    (hk : c = [] ∨ s.trie.lookup (p ++ c) = some .inner) (hl : left ≤ rest.length)
    (hf : ∀ t, onlyReader s t → Passed rest s t → Ends (decodeAll n (p ++ c) t) Q left t) :
    Ends (decodeAll (c.length + n) p s) Q left s := by
  induction c generalizing p s with
  | nil =>
    rw [List.nil_append] at hu
    subst hu
    simpa using hf s (.refl s) (.refl h)
  | cons b c ih =>
    have hk' : s.trie.lookup (p ++ b :: c) = some .inner := hk.resolve_left (by simp)
    rw [show (b :: c).length + n = (c.length + n) + 1 by simp; omega, decodeAll,
      if_pos ((hasNext_iff_unread h).mpr (by simp [hu]))]
    refine (trieStep_reads h hu (inner_of_path hok hk')).andThen (by simp; omega) fun t ht pt => ?_
    refine ih pt.ok (by rw [ht.trie]; exact hok) pt.unread (.inr (by rw [ht.trie]; simpa using hk')) fun u hu' pu => ?_
    have := hf u (ht.trans hu') (pt.trans pu (by simp))
    simpa using this

/-- A whole code's symbol is written and the walk starts again at the root. -/
theorem decodeAll_code {n : Nat} {code rest : Bits} {y : Byte} {s : State} {d left : Nat} {Q : Res Unit → Prop}
    (h : ReaderOk s) (hok : s.trie.okBelow d) (hu : unreadBits s = code ++ rest) (hc : code ≠ [])
    (hk : s.trie.lookup code = some (.term y)) (hl : left ≤ rest.length)
    (hf : ∀ t, onlyReader s t → Passed rest s t → Ends ((writeByte y t).bind fun _ u => decodeAll n [] u) Q left t) :
    Ends (decodeAll (code.length + n) [] s) Q left s := by
  obtain ⟨c, b, rfl, hin⟩ := code_snoc hok hc hk
  rw [List.append_assoc] at hu
  rw [List.length_append, Nat.add_assoc]
  refine decodeAll_walk c h hok hu hin (by simp; omega) fun t ht pt => ?_
  rw [show [b].length + n = n + 1 by simp; omega, decodeAll,
    if_pos ((hasNext_iff_unread pt.ok).mpr (by simp [pt.unread]))]
  exact (trieStep_reads (k := .term y) pt.ok pt.unread (by rw [ht.trie]; exact hk)).andThen hl fun u hu' pu =>
    hf u (ht.trans hu') (pt.trans pu (by simp))

/-- A partial path is dropped at the end of the source. -/
theorem decodeAll_end {n : Nat} {c : Bits} {s : State} {d : Nat} (h : ReaderOk s) (hok : s.trie.okBelow d)
    (hu : unreadBits s = c) (hk : c = [] ∨ s.trie.lookup c = some .inner) (hn : c.length ≤ n) :
    Reads (decodeAll n [] s) () (onlyReader s) [] s := by
  obtain ⟨m, rfl⟩ := Nat.exists_eq_add_of_le hn
  refine decodeAll_walk c h hok (hu.trans (List.append_nil c).symm) hk le_rfl fun t ht pt => ?_
  have : decodeAll m ([] ++ c) t = .ok () t := by
    cases m with
    | zero => rfl
    | succ m => rw [decodeAll, if_neg fun k => (hasNext_iff_unread pt.ok).mp k pt.unread]
  rw [this]
  exact .now pt.ok pt.unread ⟨_, rfl, ht, pt⟩

/-- A path that goes on past an INNER node: the next bit is read before anything else can fault. -/
theorem decodeAll_nextBit {n : Nat} {c rest : Bits} {b : Bool} {s : State} {d : Nat} (h : ReaderOk s)
    (hok : s.trie.okBelow d) (hu : unreadBits s = c ++ b :: rest) (hk : c = [] ∨ s.trie.lookup c = some .inner)
    (hn : c.length < n) : Ends (decodeAll n [] s) (fun _ => True) rest.length s := by
  obtain ⟨m, rfl⟩ : ∃ m, n = c.length + (m + 1) := ⟨n - c.length - 1, by omega⟩
  refine decodeAll_walk c h hok hu hk (by simp) fun t ht pt => ?_
  rw [decodeAll, if_pos ((hasNext_iff_unread pt.ok).mpr (by simp [pt.unread])), trieStep, Res.bind_assoc]
  exact (readBit_reads pt.ok pt.unread).andThen le_rfl fun u _ pu => .now pu.ok pu.unread trivial

/-- A path that leaves the trie is the fault E_TRIE with the depth of the missing node. -/
theorem decodeAll_missing {n : Nat} {c rest : Bits} {b : Bool} {s : State} {d : Nat} (h : ReaderOk s)
    (hok : s.trie.okBelow d) (hu : unreadBits s = c ++ b :: rest) (hk : c = [] ∨ s.trie.lookup c = some .inner)
    (hm : s.trie.lookup (c ++ [b]) = none) (hn : c.length < n) :
    Ends (decodeAll n [] s)
      (fun r => ∃ t, r = .raised .trie (0x02000000#32 ||| BitVec.ofNat 32 (c.length + 1)) t) rest.length s := by
  obtain ⟨m, rfl⟩ : ∃ m, n = c.length + (m + 1) := ⟨n - c.length - 1, by omega⟩
  refine decodeAll_walk c h hok hu hk (by simp) fun t ht pt => ?_
  rw [decodeAll, if_pos ((hasNext_iff_unread pt.ok).mpr (by simp [pt.unread]))]
  have := (trieStep_missing pt.ok pt.unread (by rw [ht.trie]; exact hm)).raising
    (f := fun q t => match q.2 with
      | .term y => (writeByte y t).bind fun _ u => decodeAll m [] u
      | .inner => decodeAll m q.1 t)
  rwa [List.length_append, List.length_singleton] at this

/-- A symbol's byte is written at an aligned position, or the sink refuses what goes out. -/
theorem writeSymbol_cases (y : Byte) {s : State} (hw : WriterOk s) (ha : s.wrOff % 8 = 0) :
    (∃ t, writeByte y s = .ok () t ∧ Wrote (byteBits s.params.bitOrder y) s t ∧ t.wrOff % 8 = 0) ∨
      (∃ i t, writeByte y s = .raised .snkIo i t ∧ s.snkErr = some i.toNat ∧ i = t.snkCount ∧
        ¬ sinkTakes (outBytes 8 s) s) := by
  have hwb := writeByte_sat y s
  cases hr : writeByte y s with
  | ok a t =>
    rw [hr] at hwb
    have := hwb.1.offset hw
    rw [byteBits_length] at this
    exact .inl ⟨t, rfl, hwb.1, by omega⟩
  | raised e i t =>
    rw [hr] at hwb
    rcases hwb with k | ⟨-, -, -, k⟩
    · exact .inr ⟨i, t, by rw [k.code], k.sink, k.count, k.short hw⟩
    · exact absurd ha k

/-- What one symbol's byte takes of the sink. -/
theorem sinkTakes_symbol {y : Byte} {s t : State} (h : Wrote (byteBits s.params.bitOrder y) s t) (hw : WriterOk s)
    (n : Nat) : sinkTakes (outBytes (8 * (n + 1)) s) s ↔ sinkTakes (outBytes (8 * n) t) t := by
  have := h.sinkTakes_add hw (8 * n)
  rwa [byteBits_length, Nat.add_comm 8, ← Nat.mul_succ] at this

/-- Where the sink takes what goes out, the symbols of whole codes are written one after another; then the loop goes on with
the bits that remain (R131). -/
theorem decodeAll_codes (cs : List (Bits × Byte)) {n : Nat} {tail : Bits} {s : State} {d left : Nat} {Q : Res Unit → Prop}
    (h : ReaderOk s) (hw : WriterOk s) (ha : s.wrOff % 8 = 0) (hok : s.trie.okBelow d)
    (hu : unreadBits s = cs.flatMap Prod.fst ++ tail)
    (hcs : ∀ x ∈ cs, x.1 ≠ [] ∧ s.trie.lookup x.1 = some (.term x.2))
    (hs : sinkTakes (outBytes (8 * cs.length) s) s) (hl : left ≤ tail.length)
    (hf : ∀ t, Passed tail s t → WriterOk t → t.trie = s.trie →
      sentBits t = sentBits s ++ bytesBits s.params.bitOrder (cs.map Prod.snd) →
      t.snk.length = s.snk.length + outBytes (8 * cs.length) s → Ends (decodeAll n [] t) Q left t) :
    Ends (decodeAll ((cs.flatMap Prod.fst).length + n) [] s) Q left s := by
  induction cs generalizing s with
  | nil =>
    rw [List.flatMap_nil, List.nil_append] at hu
    subst hu
    simpa using hf s (.refl h) hw rfl (by simp) (by simp [outBytes_zero hw])
  | cons x cs ih =>
    obtain ⟨hx1, hx2⟩ := hcs x List.mem_cons_self
    rw [List.flatMap_cons, List.append_assoc] at hu
    rw [List.flatMap_cons, List.length_append, Nat.add_assoc]
    refine decodeAll_code h hok hu hx1 hx2 (by simp; omega) fun t f1 p1 => ?_
    have hwt := f1.writerOk.mpr hw
    have out_t : ∀ m, outBytes m t = outBytes m s := by intro m; rw [f1]; rfl
    have sink_t : ∀ m, sinkTakes m t ↔ sinkTakes m s := by intro m; rw [f1]; rfl
    rcases writeSymbol_cases x.2 hwt (by rw [f1.wrOff]; exact ha) with ⟨u, hr, w1, au⟩ | ⟨i, u, -, -, -, k⟩
    swap
    · exact absurd ((sink_t _).mpr (out_t 8 ▸ sinkTakes_mono (outBytes_mono s (by simp)) hs)) k
    rw [hr, bind_ok]
    have ut : u.trie = s.trie := w1.frame.trie.trans f1.trie
    have up : u.params = s.params := w1.frame.params.trans f1.params
    have pu := w1.frame.passed p1.ok
    rw [p1.unread] at pu
    have takes : sinkTakes (outBytes (8 * cs.length) u) u := by
      rw [← sinkTakes_symbol w1 hwt, out_t, sink_t]; exact hs
    refine Ends.before pu (by simp; omega) (ih pu.ok (w1.law hwt).1 au (by rw [ut]; exact hok)
      pu.unread (fun y hy => by rw [ut]; exact hcs y (List.mem_cons_of_mem _ hy)) takes
      fun v p2 k1 k2 k3 k4 => hf v (p1.trans (pu.trans p2 (by simp)) (by simp)) k1 (k2.trans ut) ?_ ?_)
    · rw [k3, (w1.law hwt).2, f1.sentBits, up, f1.params, List.map_cons, bytesBits_cons, List.append_assoc]
    · have b := w1.blocks hwt
      have oa := w1.outBytes_add hwt (8 * cs.length)
      rw [byteBits_length, out_t] at b oa
      rw [out_t] at oa
      rw [k4, b, List.length_cons, Nat.mul_succ, Nat.add_comm _ 8, oa, show t.snk = s.snk by rw [f1]; rfl, Nat.add_assoc]

/-- Where no failure lies in the chunks that hold the codes, and the sink refuses a byte that goes out, the loop stops there
(R65, R131). -/
theorem decodeAll_refused (cs : List (Bits × Byte)) {n : Nat} {tail : Bits} {s : State} {d : Nat}
    (h : ReaderOk s) (hw : WriterOk s) (ha : s.wrOff % 8 = 0) (hok : s.trie.okBelow d)
    (hu : unreadBits s = cs.flatMap Prod.fst ++ tail)
    (hcs : ∀ x ∈ cs, x.1 ≠ [] ∧ s.trie.lookup x.1 = some (.term x.2))
    (hs : ¬ sinkTakes (outBytes (8 * cs.length) s) s) (hso : SoundUntil tail.length s) :
    ∃ i t, decodeAll ((cs.flatMap Prod.fst).length + n) [] s = .raised .snkIo i t ∧ s.snkErr = some i.toNat ∧
      i = t.snkCount := by
  induction cs generalizing s with
  | nil => exact absurd (fun j hj => by simp [outBytes_zero hw] at hj) hs
  | cons x cs ih =>
    obtain ⟨hx1, hx2⟩ := hcs x List.mem_cons_self
    rw [List.flatMap_cons, List.append_assoc] at hu
    rw [List.flatMap_cons, List.length_append, Nat.add_assoc]
    refine (decodeAll_code (left := tail.length)
      (Q := fun r => ∃ i t, r = .raised .snkIo i t ∧ s.snkErr = some i.toNat ∧ i = t.snkCount)
      h hok hu hx1 hx2 (by simp) fun t f1 p1 => ?_).ok hso
    have hwt := f1.writerOk.mpr hw
    have out_t : ∀ m, outBytes m t = outBytes m s := by intro m; rw [f1]; rfl
    have sink_t : ∀ m, sinkTakes m t ↔ sinkTakes m s := by intro m; rw [f1]; rfl
    have hst := (p1.ahead _ (by simp)).mp hso
    rcases writeSymbol_cases x.2 hwt (by rw [f1.wrOff]; exact ha) with ⟨u, hr, w1, au⟩ | ⟨i, u, hr, k1, k2, -⟩
    swap
    · rw [hr, bind_raised]
      exact .inl ⟨hst, i, u, rfl, by rw [← f1.snkErr]; exact k1, k2⟩
    rw [hr, bind_ok]
    have ut : u.trie = s.trie := w1.frame.trie.trans f1.trie
    have up : u.params = s.params := w1.frame.params.trans f1.params
    have ue : u.snkErr = s.snkErr := w1.frame.snkErr.trans f1.snkErr
    have pu := w1.frame.passed p1.ok
    rw [p1.unread] at pu
    have := ih pu.ok (w1.law hwt).1 au (by rw [ut]; exact hok) pu.unread
      (fun y hy => by rw [ut]; exact hcs y (List.mem_cons_of_mem _ hy))
      (fun k => hs (by rw [← sink_t, ← out_t, List.length_cons, sinkTakes_symbol w1 hwt]; exact k))
      ((pu.ahead _ (by simp)).mp hst)
    rw [ue] at this
    exact .inl ⟨hst, this⟩

/-! ### The header's round trip -/

/-- The entries HWRITE writes of a table (R105, R106). -/
def tableEntries (t : Table CodeEntry) (ys : List Byte) : List HeaderEntry :=
  ys.filterMap fun y => (cell t y).map fun c => ⟨y, c, List.replicate (padLen c.length) false⟩

theorem entriesBits_eq (o : Config.BitOrder) (t : Table CodeEntry) (ys : List Byte) :
    entriesBits o t ys = (tableEntries t ys).flatMap (HeaderEntry.bits o) := by
  induction ys with
  | nil => rfl
  | cons y ys ih =>
    have e : entriesBits o t (y :: ys) = (match cell t y with
      | none => []
      | some c => entryBits o y c) ++ entriesBits o t ys := rfl
    rw [e, ih]
    cases hc : cell t y with
    | none => simp [tableEntries, hc]
    | some c => simp [tableEntries, hc, HeaderEntry.bits, entryBits]

theorem tableEntries_length (t : Table CodeEntry) : (tableEntries t allBytes).length = codeCount t := by
  rw [codeCount, toList_eq_map_cell, List.countP_map, tableEntries]
  generalize allBytes = l
  induction l with
  | nil => rfl
  | cons y l ih =>
    rw [List.filterMap_cons, List.countP_cons, ← ih]
    cases hc : cell t y <;> simp [hc]

theorem codeCount_le (t : Table CodeEntry) : codeCount t ≤ 256 := by
  rw [codeCount]
  exact le_trans List.countP_le_length (by simp)

theorem tableEntries_ok {t : Table CodeEntry} (h : CodesOk t) (ys : List Byte) : ∀ e ∈ tableEntries t ys, e.ok := by
  intro e he
  simp only [tableEntries, List.mem_filterMap, Option.map_eq_some_iff] at he
  obtain ⟨y, -, c, hc, rfl⟩ := he
  exact ⟨h y c hc, by simp⟩

theorem foldl_entries (t u : Table CodeEntry) (ys : List Byte) (z : Byte) :
    cell ((tableEntries t ys).foldl (fun v e => setCell v e.sym (some e.code)) u) z =
      if z ∈ ys then (match cell t z with
        | none => cell u z
        | some c => some c) else cell u z := by
  induction ys generalizing u with
  | nil => simp [tableEntries]
  | cons y ys ih =>
    rw [tableEntries, List.filterMap_cons]
    cases hc : cell t y with
    | none =>
      simp only [Option.map_none]
      rw [← tableEntries, ih]
      by_cases e : z = y
      · subst e; simp [hc]
      · simp [e]
    | some c =>
      simp only [Option.map_some, List.foldl_cons]
      rw [← tableEntries, ih]
      by_cases e : z = y
      · subst e; simp [hc]
      · simp [e, cell_setCell]

/-- Parsing the entries of a table gives the table back (R108). -/
theorem parsedTable_tableEntries (t : Table CodeEntry) : parsedTable (tableEntries t allBytes) = t := by
  apply Table.ext_cell
  intro z
  rw [parsedTable, foldl_entries, if_pos (mem_allBytes z)]
  cases cell t z <;> simp

/-- HREAD's body on the header of a table gives the table back (R108). -/
theorem readHeader_of_table (t : Table CodeEntry) (ht : CodesOk t) {s : State} {rest : Bits} (h : ReaderOk s)
    (ha : s.rdOff % 8 = 0) (hu : unreadBits s = headerBits s.params.bitOrder t ++ rest) :
    Reads (readHeader s) () (fun u => readerAndCt s u ∧ u.rdOff % 8 = 0 ∧ u.ct = t) rest s := by
  rw [headerBits, entriesBits_eq, ← tableEntries_length] at hu
  have hc := codeCount_le t
  rw [← tableEntries_length] at hc
  have := readHeader_reads (tableEntries t allBytes) h ha (by omega) (tableEntries_ok ht allBytes) hu
  rwa [parsedTable_tableEntries] at this

end Sys2Proof.Machine
end

