-- ==== Sys2Proof/Laws/Commands.lean ====
section
/-! SUPPORT. What any one command can do: nothing outside its footprint, and no fault but those listed for it (R134). -/

namespace Sys2Proof.Machine
open Sys2Proof

/-- Every command but SRESET is a body that stays within the command's footprint and list of faults. -/
theorem exec_within (i : Instr) (hi : i ≠ .sreset) (s : State) :
    ∃ r, exec i s = finish r ∧ Within (footprint i.mnemonic) (raisedBy i.mnemonic) s r := by
  cases i with
  | sreset => exact absurd rfl hi
  | setctrl b =>
    exact ⟨.ok () (s.setCtrl ((BitVec.ofBool b).setWidth 32)), rfl, Within.okAfter () (setCtrl_frame rfl s _)⟩
  | fclear => exact ⟨.ok () (s.setFreq (constTable 0)), rfl, Within.okAfter () (setFreq_frame rfl s _)⟩
  | fadd y => exact ⟨_, rfl, countByte_within rfl rfl (by simp [raisedBy, Instr.mnemonic]) y s⟩
  | fscan =>
    exact ⟨_, rfl, withReader_within (by decide) (scanBytes_within rfl (by decide) (by decide)
        (fun y s => countByte_within rfl rfl (by decide) y s) _ _)⟩
  | fget y => exact ⟨_, rfl, Within.okAfter () (setResult_frame rfl s _)⟩
  | tbuild =>
    refine ⟨_, rfl, ?_⟩
    split
    · exact Within.okAfter () (setTree_frame rfl s _ _)
    · next k hk =>
      refine Within.raised _ _ (by decide) (show ∃ k : Nat, k < 511 ∧ _ from ⟨k, ?_, rfl⟩)
      have hs := buildTree_sat s.params.wCnt s.freq
      rw [hk] at hs
      have := countedSymbols_le s.freq
      omega
  | cgen => exact ⟨_, rfl, Within.okAfter () (setCt_frame rfl s _)⟩
  | clen y => exact ⟨_, rfl, Within.okAfter () (setResult_frame rfl s _)⟩
  | cbit y j => exact ⟨_, rfl, Within.okAfter () (setResult_frame rfl s _)⟩
  | hwrite =>
    exact ⟨_, rfl, (writeShort_within rfl (by decide) (by decide) _ s).bind fun _ t => writeEntries_within rfl
        (by decide) (by decide) _ _ t⟩
  | hread =>
    exact ⟨_, rfl, withReader_within (by decide) (readHeader_within rfl rfl (by decide) (by decide) (by decide) s)⟩
  | wbit b => exact ⟨_, rfl, writeBit_within rfl (by simp [raisedBy, Instr.mnemonic]) b s⟩
  | wbyte y =>
    exact ⟨_, rfl, writeByte_within rfl (by simp [raisedBy, Instr.mnemonic]) (by simp [raisedBy, Instr.mnemonic]) y s⟩
  | wshort v =>
    exact ⟨_, rfl, writeShort_within rfl (by simp [raisedBy, Instr.mnemonic])
        (by simp [raisedBy, Instr.mnemonic]) v s⟩
  | wflush => exact ⟨_, rfl, flush_within rfl (by decide) s⟩
  | ropen => exact ⟨_, rfl, Within.after (nextOpen_frame rfl s) (.of_eq rfl rfl) (refill_within rfl (by decide) 0 _)⟩
  | rhasnext => exact ⟨_, rfl, withReader_within (by decide) (Within.okAfter () (setResult_frame rfl s _))⟩
  | rbit =>
    exact ⟨_, rfl, withReader_within (by decide) ((readBit_within rfl (by decide)
        (fun _ => by decide)).bind fun b t => Within.okAfter () (setResult_frame rfl t _))⟩
  | rbyte =>
    exact ⟨_, rfl, withReader_within (by decide) ((readByte_within rfl (by decide) (by decide)
        (fun _ => by decide)).bind fun b t => Within.okAfter () (setResult_frame rfl t _))⟩
  | rshort =>
    exact ⟨_, rfl, withReader_within (by decide) ((readShort_within rfl (by decide) (by decide)
        (by decide) s).bind fun b t => Within.okAfter () (setResult_frame rfl t _))⟩
  | raligned => exact ⟨_, rfl, withReader_within (by decide) (Within.okAfter () (setResult_frame rfl s _))⟩
  | esym y =>
    exact ⟨_, rfl, emitCode_within rfl (by simp [raisedBy, Instr.mnemonic]) (by simp [raisedBy, Instr.mnemonic]) y s⟩
  | escan =>
    exact ⟨_, rfl, withReader_within (by decide) (scanBytes_within rfl (by decide) (by decide)
        (fun y s => emitCode_within rfl (by decide) (by decide) y s) _ _)⟩
  | dtrie =>
    refine ⟨_, rfl, ?_⟩
    split
    · exact Within.okAfter () (setTrie_frame rfl s _)
    · exact Within.raised _ _ (by decide) (show ∃ y : Byte, _ from ⟨_, rfl⟩)
  | dsym =>
    exact ⟨_, rfl, withReader_within (by decide) (decodeOne_within rfl rfl rfl (by decide) (by decide) _ (.inl rfl))⟩
  | dscan =>
    exact ⟨_, rfl, withReader_within (by decide) (decodeAll_within rfl rfl rfl (by decide) (by decide) (by decide)
        (by decide) _ (.inl rfl))⟩

/-- What a command's next state is: inside the footprint, or the fault state entered from there. -/
theorem exec_next {i : Instr} (hi : i ≠ .sreset) {s t : State} (h : exec i s = .next t) :
    (Frame (footprint i.mnemonic) s t ∧ Grows s t) ∨
      ∃ e info u, e ∈ raisedBy i.mnemonic ∧ FaultForm (footprint i.mnemonic) e info s u ∧ t = faultEntry e info u ∧
        Frame (footprint i.mnemonic) s u ∧ Grows s u := by
  obtain ⟨r, hr, hw⟩ := exec_within i hi s
  rw [hr] at h
  cases r with
  | ok a u =>
    injection h with h
    exact .inl (h ▸ hw)
  | raised e info u =>
    injection h with h
    exact .inr ⟨e, info, u, hw.1, hw.2.2.2, h.symm, hw.2.1, hw.2.2.1⟩

theorem faultEntry_fault_ne (e : ErrorCode) (i : Word) (s : State) : (faultEntry e i s).fault ≠ 0#32 := by
  cases e <;> simp [faultEntry, ErrorCode.code]

/-- Entering the fault state forgets what a command had done, but for what it delivered. -/
theorem faultEntry_frame {fp : Footprint} (hw : fp.writer = false) {s t : State} (h : Frame fp s t) (e : ErrorCode)
    (i : Word) : faultEntry e i t = faultEntry e i s := by
  obtain ⟨-, -, h1, h2⟩ := h.writer hw
  simp only [faultEntry, h.params, h.srcs, h.snkErr, h.host, h.hostReads, h.freeIdx, h1, h2]

/-- A command always answers with a next state. -/
theorem exec_total (i : Instr) (s : State) : ∃ t, exec i s = .next t := by
  by_cases hi : i = .sreset
  · exact ⟨resetState s, by rw [hi]; rfl⟩
  · obtain ⟨r, hr, -⟩ := exec_within i hi s
    cases r with
    | ok a u => exact ⟨u, hr⟩
    | raised e info u => exact ⟨_, hr⟩

end Sys2Proof.Machine
end

