-- ==== Sys2Proof/Laws/Encoding.lean ====
section
/-! SUPPORT. Laws of the opcode map and of a command's word, bit by bit (30_encoding.md R73 to R76). -/

namespace Sys2Proof
open Sys2Proof.Machine

/-! ### The opcode map -/

theorem mem_all (m : Mnemonic) : m ∈ Mnemonic.all := by cases m <;> decide

/-- The row of a row's OPC is that row. -/
@[simp] theorem rowOf_opc (m : Mnemonic) : rowOf m.opc = some m := by cases m <;> rfl

theorem opc_of_rowOf {op : BitVec 8} {m : Mnemonic} (h : rowOf op = some m) : m.opc = op := by
  simpa using List.find?_some h

theorem rowOf_none {op : BitVec 8} (h : rowOf op = none) (m : Mnemonic) : m.opc ≠ op := by
  simpa using List.find?_eq_none.mp h m (mem_all m)

/-- No two rows share an OPC. -/
theorem opc_inj {m n : Mnemonic} (h : m.opc = n.opc) : m = n := by
  have := congrArg rowOf h
  simpa using this

@[simp] theorem buildInstr_mnemonic (w : Word) (m : Mnemonic) : (buildInstr w m).mnemonic = m := by cases m <;> rfl

/-! ### The bits of a command's word -/

/-- Bit `k` of the word that OPC `a` and IMM `b` make (R73). -/
theorem bit_word (a : BitVec 8) (b : BitVec 16) (k : Nat) :
    (a ++ (0#8 ++ b)).getLsbD k =
      if k < 16 then b.getLsbD k else if k < 24 then false else a.getLsbD (k - 24) := by
  simp only [BitVec.getLsbD_append]
  by_cases h1 : k < 16
  · simp [h1, show k < 24 by omega]
  · by_cases h2 : k < 24 <;> simp [h1, h2]

@[simp] theorem opcField_encode (i : Instr) : opcField (encode i) = i.mnemonic.opc := by
  apply BitVec.eq_of_getLsbD_eq
  intro k hk
  rw [opcField, BitVec.getLsbD_extractLsb', encode, bit_word]
  simp [hk, show ¬ 24 + k < 16 by omega]

/-- The low 16 bits of a command's word are its IMM. -/
theorem bit_imm (i : Instr) {k : Nat} (h : k < 16) : (encode i).getLsbD k = i.imm.getLsbD k := by
  rw [encode, bit_word, if_pos h]

/-- Every format fixes the 16 bits above IMM (R74). -/
theorem mask_high (f : Format) {k : Nat} (h : k < 32) (h' : 16 ≤ k) : f.mask.getLsbD k = true := by
  cases f <;> interval_cases k <;> rfl

/-- A command's word matches its row where its IMM is 0 at every bit the format fixes. -/
theorem encode_and_mask {i : Instr}
    (h : ∀ k, k < 16 → i.mnemonic.format.mask.getLsbD k = true → i.imm.getLsbD k = false) :
    encode i &&& i.mnemonic.format.mask = i.mnemonic.matchWord := by
  apply BitVec.eq_of_getLsbD_eq
  intro k hk
  rw [BitVec.getLsbD_and, encode, bit_word, Mnemonic.matchWord, BitVec.getLsbD_append]
  by_cases h1 : k < 16
  · simp only [h1, if_true, show k < 24 by omega, BitVec.getLsbD_zero]
    cases h3 : i.mnemonic.format.mask.getLsbD k
    · simp
    · simpa using h k h1 h3
  · rw [mask_high _ hk (by omega)]
    by_cases h2 : k < 24 <;> simp [h1, h2]

/-- A one-bit operand fills bit 0 alone. -/
theorem immB_clear (b : Bool) (k : Nat) (hk : k < 16) (h : Format.b.mask.getLsbD k = true) :
    ((BitVec.ofBool b).setWidth 16).getLsbD k = false := by
  have h0 : k ≠ 0 := fun e => absurd (e ▸ h) (by decide)
  simp [hk, h0]

/-- A byte operand fills bits 7:0 alone. -/
theorem immY_clear (y : Byte) (k : Nat) (hk : k < 16) (h : Format.y.mask.getLsbD k = true) :
    ((y.setWidth 16).getLsbD k) = false := by
  have h8 : 8 ≤ k := by
    by_contra hlt
    interval_cases k <;> exact absurd h (by decide)
  simp [hk, BitVec.getLsbD_of_ge y k h8]

/-- Formats S and P fix no bit of IMM. -/
theorem maskSP_low {f : Format} (hf : f = .s ∨ f = .p) {k : Nat} (hk : k < 16) : f.mask.getLsbD k = false := by
  rcases hf with rfl | rfl <;> interval_cases k <;> rfl

end Sys2Proof
end

