-- ==== Sys2Proof/Laws/Faults.lean ====
section
/-! SUPPORT. What FINFO tells of a command's fault, command by command (60_exceptions.md R134): the offset of the first
unaligned or exhausted access, which is the one the command starts with. -/

namespace Sys2Proof.Machine
open Sys2Proof

/-! ### E_ALIGN: only the position a command starts at can be unaligned -/

/-- A piece leaves a cursor aligned or where it was, and an E_ALIGN it raises tells the offset the piece starts at. -/
def AlignTold (off : State → Nat) (mk : Nat → Word) {α : Type} (s : State) (r : Res α) : Prop :=
  r.Sat (fun _ t => off t % 8 = 0 ∨ off t = off s) (fun e i _ => e = .align → off s % 8 ≠ 0 ∧ i = mk (off s))

variable {off : State → Nat} {mk : Nat → Word}

theorem AlignTold.ok {α : Type} {a : α} {s t : State} (h : off t % 8 = 0 ∨ off t = off s) :
    AlignTold off mk s (.ok a t) := h

theorem AlignTold.bind {α β : Type} {s : State} {r : Res α} {f : α → State → Res β} (h : AlignTold off mk s r)
    (hf : ∀ a t, AlignTold off mk t (f a t)) : AlignTold off mk s (r.bind f) :=
  Res.Sat.bind h fun a t ht => (hf a t).mono
    (fun _ u hu => by
      rcases hu with k | k
      · exact .inl k
      · rcases ht with k' | k'
        · exact .inl (by rw [k]; exact k')
        · exact .inr (k.trans k'))
    fun e i u hu he => by
      obtain ⟨k1, k2⟩ := hu he
      rcases ht with k' | k'
      · exact absurd k' k1
      · exact ⟨by rw [← k']; exact k1, by rw [k2, k']⟩

/-- A piece that raises no E_ALIGN and leaves the cursor alone. -/
theorem AlignTold.quiet {α : Type} {fp : Footprint} {es : List ErrorCode} {s : State} {r : Res α} (h : Within fp es s r)
    (ha : ErrorCode.align ∉ es) (hk : ∀ t, Frame fp s t → off t = off s) : AlignTold off mk s r :=
  Res.Sat.mono h (fun _ t ht => .inr (hk t ht.1)) fun _ _ _ hu he => absurd (he ▸ hu.1) ha

/-- A piece that raises no E_ALIGN and leaves the cursor aligned. -/
theorem AlignTold.settles {α : Type} {s : State} {r : Res α}
    (h : r.Sat (fun _ t => off t % 8 = 0) (fun e _ _ => e ≠ .align)) : AlignTold off mk s r :=
  Res.Sat.mono h (fun _ _ ht => .inl ht) fun _ _ _ hu he => absurd he hu

/-- The reader's offset and its E_ALIGN (R60). -/
abbrev RdTold {α : Type} (s : State) (r : Res α) : Prop :=
  AlignTold State.rdOff (fun n => 0x80000000#32 ||| BitVec.ofNat 32 n) s r

/-- The writer's offset and its E_ALIGN (R63). -/
abbrev WrTold {α : Type} (s : State) (r : Res α) : Prop := AlignTold State.wrOff (BitVec.ofNat 32) s r

/-! The reader -/

/-- An advance ends at the offset it was given, or at 0 where that is the buffer's end. -/
theorem advance_rdOff (n : Nat) (s : State) :
    (advance n s).Sat (fun _ t => t.rdOff = if s.rdOff + n = 8 * s.bufBytes then 0 else s.rdOff + n)
      (fun e _ _ => e = .srcIo) := by
  unfold advance
  split
  · unfold refill
    split
    · rfl
    · rfl
  · rfl

/-- What a byte read tells of where it starts. -/
theorem readByte_told (s : State) :
    (readByte s).Sat
      (fun _ t => s.rdOff % 8 = 0 ∧ t.rdOff = if s.rdOff + 8 = 8 * s.bufBytes then 0 else s.rdOff + 8)
      (fun e i _ => (e = .align → s.rdOff % 8 ≠ 0 ∧ i = rdAlignInfo s) ∧ (e = .exh → i = offsetInfo s.rdOff)) := by
  unfold readByte
  split
  · next ha =>
    have ha' : s.rdOff % 8 = 0 := of_decide_eq_true ha
    split
    · exact Res.Sat.bind (P := fun _ t => t.rdOff = if s.rdOff + 8 = 8 * s.bufBytes then 0 else s.rdOff + 8)
        ((advance_rdOff 8 s).mono (fun _ _ h => h) fun e _ _ h => by subst h; exact ⟨nofun, nofun⟩)
        fun _ t ht => ⟨ha', ht⟩
    · exact ⟨nofun, fun _ => rfl⟩
  · next ha => exact ⟨fun _ => ⟨fun h => ha (decide_eq_true h), rfl⟩, nofun⟩

theorem readByte_rdTold (s : State) : RdTold s (readByte s) :=
  (readByte_told s).mono (fun _ t h => .inl (by rw [h.2]; split <;> omega)) fun _ _ _ h => h.1

theorem scanBytes_rdTold {body : Byte → State → Res Unit} (hb : ∀ y s, RdTold s (body y s)) (n : Nat) (s : State) :
    RdTold s (scanBytes body n s) := by
  induction n generalizing s with
  | zero => exact .ok (.inr rfl)
  | succ n ih =>
    unfold scanBytes
    split
    · exact (readByte_rdTold s).bind fun y t => (hb y t).bind fun _ u => ih u
    · exact .ok (.inr rfl)

/-- Eight bit reads reach a byte boundary (R107). -/
theorem skipPadding_settles (n : Nat) (s : State) (hn : padLen s.rdOff ≤ n) :
    (skipPadding n s).Sat (fun _ t => t.rdOff % 8 = 0) (fun e _ _ => e ≠ .align) := by
  induction n generalizing s with
  | zero => simp only [padLen] at hn; exact show s.rdOff % 8 = 0 by omega
  | succ n ih =>
    unfold skipPadding
    split
    · next ha => exact (of_decide_eq_true ha : s.rdOff % 8 = 0)
    · next ha =>
      have ha' : s.rdOff % 8 ≠ 0 := fun h => ha (decide_eq_true h)
      unfold readBit
      split
      · rw [Res.bind_assoc]
        refine Res.Sat.bind ((advance_rdOff 1 s).mono (fun _ _ h => h) fun _ _ _ h => by rw [h]; exact nofun) fun _ t ht => ?_
        refine ih t ?_
        rw [ht]
        split <;> simp only [padLen] at hn ⊢ <;> omega
      · exact nofun

theorem readEntry_rdTold (e : Nat) (s : State) : RdTold s (readEntry e s) := by
  have hb : ∀ i s, RdTold s (headerByte i s) := fun i s => by
    unfold headerByte
    split
    · exact readByte_rdTold s
    · exact fun he => nomatch he
  refine (hb _ s).bind fun y t => (hb _ t).bind fun len u => .settles ?_
  have hc : ∀ n s, (readCode e n s).Sat (fun _ _ => True) (fun e _ _ => e ≠ .align) := by
    intro n
    induction n with
    | zero => exact fun _ => trivial
    | succ n ih =>
      intro s
      unfold readCode
      split
      · refine Res.Sat.bind (P := fun _ _ => True) ((readBit_sat s).mono (fun _ _ _ => trivial) ?_) fun b t _ =>
          (ih t).bind fun _ _ _ => trivial
        rintro _ _ _ (h | ⟨h, -⟩)
        · rw [h.code]; exact nofun
        · rw [h]; exact nofun
      · exact nofun
  exact (hc _ u).bind fun c v _ => (skipPadding_settles 8 v (by simp only [padLen]; omega)).bind fun _ w hw => hw

theorem readHeader_rdTold (s : State) : RdTold s (readHeader s) := by
  have hb : ∀ i s, RdTold s (headerByte i s) := fun i s => by
    unfold headerByte
    split
    · exact readByte_rdTold s
    · exact fun he => nomatch he
  have he : ∀ n e s, RdTold s (readEntries e n s) := by
    intro n
    induction n with
    | zero => exact fun _ _ => .ok (.inr rfl)
    | succ n ih => exact fun e s => (readEntry_rdTold e s).bind fun _ t => ih (e + 1) t
  unfold readHeader
  dsimp only
  split
  · exact AlignTold.bind (s := s) (hb _ (s.setCt _)) fun _ t => (hb _ t).bind fun _ u => he _ _ u
  · next ha => exact fun _ => ⟨fun h => ha (decide_eq_true h), rfl⟩

/-! The writer -/

theorem emitBuffer_wrOff (n : Nat) (s : State) :
    (emitBuffer n s).Sat (fun _ t => t.wrOff = 0) (fun e _ _ => e = .snkIo) :=
  (emitBuffer_sat n s).mono (fun _ _ h => h.2.2.1) fun _ _ _ h => h.1

theorem flushIfFull_wrOff (s : State) :
    (flushIfFull s).Sat (fun _ t => t.wrOff = if s.wrOff = 8 * s.bufBytes then 0 else s.wrOff)
      (fun e _ _ => e = .snkIo) := by
  unfold flushIfFull
  split
  · exact emitBuffer_wrOff _ s
  · rfl

theorem writeBit_wrOff (b : Bool) (s : State) :
    (writeBit b s).Sat (fun _ t => t.wrOff = if s.wrOff + 1 = 8 * s.bufBytes then 0 else s.wrOff + 1)
      (fun e _ _ => e = .snkIo) := flushIfFull_wrOff _

theorem writeByte_wrTold (y : Byte) (s : State) : WrTold s (writeByte y s) := by
  unfold writeByte
  split
  · next ha =>
    have ha' : s.wrOff % 8 = 0 := of_decide_eq_true ha
    refine (flushIfFull_wrOff _).mono (fun _ t h => .inl ?_) fun _ _ _ h he => by rw [h] at he; exact nomatch he
    rw [h, State.setWriter_wrOff]
    split <;> omega
  · next ha => exact fun _ => ⟨fun h => ha (decide_eq_true h), rfl⟩

theorem writeShort_wrTold (v : BitVec 16) (s : State) : WrTold s (writeShort v s) :=
  (writeByte_wrTold _ s).bind fun _ t => writeByte_wrTold _ t

/-- Eight bit writes reach a byte boundary (R106). -/
theorem padWriter_settles (n : Nat) (s : State) (hn : padLen s.wrOff ≤ n) :
    (padWriter n s).Sat (fun _ t => t.wrOff % 8 = 0) (fun e _ _ => e ≠ .align) := by
  induction n generalizing s with
  | zero => simp only [padLen] at hn; exact show s.wrOff % 8 = 0 by omega
  | succ n ih =>
    unfold padWriter
    split
    · next ha => exact (of_decide_eq_true ha : s.wrOff % 8 = 0)
    · next ha =>
      have ha' : s.wrOff % 8 ≠ 0 := fun h => ha (decide_eq_true h)
      refine Res.Sat.bind ((writeBit_wrOff false s).mono (fun _ _ h => h) fun _ _ _ h => by rw [h]; exact nofun)
        fun _ t ht => ?_
      refine ih t ?_
      rw [ht]
      split <;> simp only [padLen] at hn ⊢ <;> omega

theorem writeEntries_wrTold (t : Table CodeEntry) (ys : List Byte) (s : State) : WrTold s (writeEntries t ys s) := by
  induction ys generalizing s with
  | nil => exact .ok (.inr rfl)
  | cons y ys ih =>
    unfold writeEntries
    split
    · exact ih s
    · refine AlignTold.bind ((writeByte_wrTold y s).bind fun _ t => (writeByte_wrTold _ t).bind fun _ u => .settles ?_)
        fun _ u => ih u
      refine Res.Sat.bind (P := fun _ _ => True) ((writeBits_sat _ u).mono (fun _ _ _ => trivial) fun _ _ _ h => by
        rw [h.code]; exact nofun) fun _ v _ => padWriter_settles 8 v (by simp only [padLen]; omega)

theorem trieStep_wrTold (p : Bits) (s : State) : WrTold s (trieStep p s) := by
  unfold trieStep
  refine AlignTold.bind ((readBit_sat s).mono (fun _ t h => .inr h.1.wrOff) ?_) fun b t => ?_
  · rintro _ _ _ (h | ⟨h, -⟩) he
    · rw [h.code] at he; exact nomatch he
    · rw [h] at he; exact nomatch he
  · split
    · exact fun he => nomatch he
    · exact .ok (.inr rfl)

theorem decodeAll_wrTold (n : Nat) (p : Bits) (s : State) : WrTold s (decodeAll n p s) := by
  induction n generalizing p s with
  | zero => exact .ok (.inr rfl)
  | succ n ih =>
    unfold decodeAll
    split
    · refine (trieStep_wrTold p s).bind fun q t => ?_
      split
      · exact (writeByte_wrTold _ t).bind fun _ u => ih _ u
      · exact ih _ t
    · exact .ok (.inr rfl)

/-! ### Each command -/

/-- What hangs on where a command starts: E_STATE, E_ALIGN, E_EXH, and ROPEN's E_SRC_IO. -/
def StartTold (m : Mnemonic) (e : ErrorCode) (info : Word) (s : State) : Prop :=
  match e with
  | .state | .align | .exh => FaultInfo m e info s s
  | .srcIo => m = .ROPEN → FaultInfo m e info s s
  | _ => True

/-- A body that raises only what tells where it starts. -/
abbrev Tells (m : Mnemonic) (s : State) (r : Res Unit) : Prop :=
  r.Sat (fun _ t => t.fault = s.fault) (fun e i _ => StartTold m e i s)

/-- A body inside a footprint, once its E_ALIGN and its E_EXH are known; it is not ROPEN's, and raises no E_STATE. -/
theorem Tells.of_within {fp : Footprint} {es : List ErrorCode} {m : Mnemonic} {s : State} {r : Res Unit}
    (h : Within fp es s r) (hs : ErrorCode.state ∉ es) (hm : m ≠ .ROPEN)
    (k : r.Sat (fun _ _ => True)
      (fun e i _ => (e = .align → FaultInfo m .align i s s) ∧ (e = .exh → FaultInfo m .exh i s s))) : Tells m s r :=
  (Res.Sat.and h k).mono (fun _ _ h => h.1.1.fault) fun e _ _ hu => by
    cases e with
    | state => exact absurd hu.1.1 hs
    | align => exact hu.2.1 rfl
    | exh => exact hu.2.2 rfl
    | srcIo => exact fun h => absurd h hm
    | _ => trivial

/-- A body whose alignment check is the reader's, and that raises no E_EXH. -/
theorem Tells.of_reader {fp : Footprint} {es : List ErrorCode} {m : Mnemonic} {s : State} {r : Res Unit}
    (h : Within fp es s r) (k : RdTold s r) (hs : ErrorCode.state ∉ es ∧ ErrorCode.exh ∉ es ∧ m ≠ .ROPEN)
    (hm : alignsReader m = true) : Tells m s r :=
  .of_within h hs.1 hs.2.2 ((Res.Sat.and h k).mono (fun _ _ _ => trivial) fun _ _ _ hu =>
    ⟨fun he => (if_pos hm).mpr (hu.2 he), fun he => absurd (he ▸ hu.1.1) hs.2.1⟩)

/-- A body whose alignment check is the writer's, and that raises no E_EXH. -/
theorem Tells.of_writer {fp : Footprint} {es : List ErrorCode} {m : Mnemonic} {s : State} {r : Res Unit}
    (h : Within fp es s r) (k : WrTold s r) (hs : ErrorCode.state ∉ es ∧ ErrorCode.exh ∉ es ∧ m ≠ .ROPEN)
    (hm : ¬ alignsReader m = true) : Tells m s r :=
  .of_within h hs.1 hs.2.2 ((Res.Sat.and h k).mono (fun _ _ _ => trivial) fun _ _ _ hu =>
    ⟨fun he => (if_neg hm).mpr (hu.2 he), fun he => absurd (he ▸ hu.1.1) hs.2.1⟩)

/-- A body that makes no alignment check and raises no E_EXH. -/
theorem Tells.quiet {fp : Footprint} {es : List ErrorCode} {m : Mnemonic} {s : State} {r : Res Unit}
    (h : Within fp es s r) (hs : ErrorCode.state ∉ es ∧ ErrorCode.exh ∉ es ∧ ErrorCode.align ∉ es ∧ m ≠ .ROPEN) :
    Tells m s r :=
  .of_within h hs.1 hs.2.2.2 (Res.Sat.mono h (fun _ _ _ => trivial) fun _ _ _ hu =>
    ⟨fun he => absurd (he ▸ hu.1) hs.2.2.1, fun he => absurd (he ▸ hu.1) hs.2.1⟩)

theorem Tells.withReader {m : Mnemonic} {body : State → Res Unit} {s : State} (h : Tells m s (body s)) :
    Tells m s (withReader m.opc body s) := by
  unfold Machine.withReader
  split
  · exact h
  · next ho => exact ⟨by simpa using ho, rfl⟩

/-- Every command but SRESET is a body whose raises tell where it starts. -/
theorem exec_tells (i : Instr) (hi : i ≠ .sreset) (s : State) : ∃ r, exec i s = finish r ∧ Tells i.mnemonic s r := by
  have quiet : ErrorCode.state ∉ raisedBy i.mnemonic ∧ ErrorCode.exh ∉ raisedBy i.mnemonic ∧
      ErrorCode.align ∉ raisedBy i.mnemonic ∧ i.mnemonic ≠ .ROPEN →
      ∃ r, exec i s = finish r ∧ Tells i.mnemonic s r := fun h => by
    obtain ⟨r, h1, h2⟩ := exec_within i hi s
    exact ⟨r, h1, .quiet h2 h⟩
  cases i with
  | sreset => exact absurd rfl hi
  | fscan =>
    exact ⟨_, rfl, .withReader (m := .FSCAN) (.of_reader (fp := footprint .FSCAN) (es := [.srcIo, .align, .ovf])
      (scanBytes_within rfl (by decide) (by decide) (fun y s => countByte_within rfl rfl (by decide) y s) _ _)
      (scanBytes_rdTold (fun y s => .quiet (countByte_within (fp := footprint .FADD) (es := [.ovf]) rfl rfl (by decide) y s)
        (by decide) fun _ f => (f.position rfl).2.2) _ _) (by decide) rfl)⟩
  | escan =>
    exact ⟨_, rfl, .withReader (m := .ESCAN) (.of_reader (fp := footprint .ESCAN) (es := [.srcIo, .align, .snkIo, .noCode])
      (scanBytes_within rfl (by decide) (by decide) (fun y s => emitCode_within rfl (by decide) (by decide) y s) _ _)
      (scanBytes_rdTold (fun y s => .quiet (emitCode_within (fp := footprint .ESYM) (es := [.snkIo, .noCode]) rfl
        (by decide) (by decide) y s) (by decide) fun _ f => (f.position rfl).2.2) _ _) (by decide) rfl)⟩
  | hread =>
    exact ⟨_, rfl, .withReader (m := .HREAD) (.of_reader (fp := footprint .HREAD) (es := [.srcIo, .align, .fmt])
      (readHeader_within rfl rfl (by decide) (by decide) (by decide) s) (readHeader_rdTold s) (by decide) rfl)⟩
  | hwrite =>
    exact ⟨_, rfl, .of_writer (fp := footprint .HWRITE) (es := [.align, .snkIo])
      ((writeShort_within rfl (by decide) (by decide) _ s).bind fun _ t => writeEntries_within rfl (by decide)
        (by decide) _ _ t)
      ((writeShort_wrTold _ s).bind fun _ t => writeEntries_wrTold _ _ t) (by decide) (by decide)⟩
  | wbyte y =>
    exact ⟨_, rfl, .of_writer (m := .WBYTE) (fp := footprint .WBYTE) (es := [.align, .snkIo])
      (writeByte_within rfl (by decide) (by decide) y s) (writeByte_wrTold y s) (by decide) (by decide)⟩
  | wshort v =>
    exact ⟨_, rfl, .of_writer (m := .WSHORT) (fp := footprint .WSHORT) (es := [.align, .snkIo])
      (writeShort_within rfl (by decide) (by decide) v s) (writeShort_wrTold v s) (by decide) (by decide)⟩
  | dsym =>
    exact ⟨_, rfl, .withReader (m := .DSYM) (.quiet (fp := footprint .DSYM) (es := [.srcIo, .trie])
      (decodeOne_within rfl rfl rfl (by decide) (by decide) _ (.inl rfl)) (by decide))⟩
  | dscan =>
    exact ⟨_, rfl, .withReader (m := .DSCAN) (.of_writer (fp := footprint .DSCAN) (es := [.srcIo, .snkIo, .align, .trie])
      (decodeAll_within rfl rfl rfl (by decide) (by decide) (by decide) (by decide) _ (.inl rfl))
      (decodeAll_wrTold _ _ s) (by decide) (by decide))⟩
  | ropen =>
    refine ⟨_, rfl, ?_⟩
    rcases openSource_cases s with ⟨-, h⟩ | ⟨k, h1, -, h⟩
    · rw [h]; rfl
    · rw [h]
      exact fun _ => ⟨k, h1, rfl⟩
  | rhasnext => exact ⟨_, rfl, .withReader (m := .RHASNEXT) rfl⟩
  | raligned => exact ⟨_, rfl, .withReader (m := .RALIGNED) rfl⟩
  | rbit =>
    refine ⟨_, rfl, .withReader (m := .RBIT) (.of_within (fp := footprint .RBIT) (es := [.exh, .srcIo])
      ((readBit_within rfl (by decide) fun _ => by decide).bind fun b t => Within.okAfter () (setResult_frame rfl t _))
      (by decide) (by decide) (Res.Sat.bind (P := fun _ _ => True) ((readBit_sat s).mono (fun _ _ _ => trivial) ?_)
        fun _ _ _ => trivial))⟩
    rintro e i t (h | ⟨h1, h2, -⟩)
    · rw [h.code]; exact ⟨nofun, nofun⟩
    · rw [h1]; exact ⟨nofun, fun _ => .inl h2⟩
  | rbyte =>
    exact ⟨_, rfl, .withReader (m := .RBYTE) (.of_within (fp := footprint .RBYTE) (es := [.align, .exh, .srcIo])
      ((readByte_within rfl (by decide) (by decide) fun _ => by decide).bind fun b t =>
        Within.okAfter () (setResult_frame rfl t _))
      (by decide) (by decide) (Res.Sat.bind (P := fun _ _ => True)
        ((readByte_told s).mono (fun _ _ _ => trivial) fun _ _ _ h => ⟨h.1, fun he => .inl (h.2 he)⟩)
        fun _ _ _ => trivial))⟩
  | rshort =>
    refine ⟨_, rfl, .withReader (m := .RSHORT) (.of_within (fp := footprint .RSHORT) (es := [.align, .exh, .srcIo])
      ((readShort_within rfl (by decide) (by decide) (by decide) s).bind fun b t =>
        Within.okAfter () (setResult_frame rfl t _))
      (by decide) (by decide) (Res.Sat.bind (P := fun _ _ => True) (Res.Sat.bind ((readByte_told s).mono (fun _ _ h => h)
        fun _ _ _ h => ⟨h.1, fun he => .inl (h.2 he)⟩) fun lo t ht => Res.Sat.bind (P := fun _ _ => True)
          ((readByte_told t).mono (fun _ _ _ => trivial) fun e i _ h => ⟨fun he => ?_, fun he => ?_⟩)
          fun _ _ _ => trivial) fun _ _ _ => trivial))⟩
    · have := (h.1 he).1
      rw [ht.2] at this
      split at this <;> omega
    · exact .inr ⟨rfl, by rw [h.2 he, ht.2]; rfl⟩
  | _ => exact quiet (by simp [Instr.mnemonic, raisedBy])

/-- The fault state tells which fault was raised, and with what. -/
theorem faultEntry_inj {e e' : ErrorCode} {i i' : Word} {s s' : State} (h : faultEntry e i s = faultEntry e' i' s') :
    e = e' ∧ i = i' := by
  have h1 : e.code.setWidth 32 = (e'.code.setWidth 32 : Word) := congrArg State.fault h
  exact ⟨by cases e <;> cases e' <;> first | rfl | exact absurd h1 (by decide), congrArg State.finfo h⟩

/-- What the footprint's form and the start tell together is what R134 gives. -/
theorem FaultForm.toInfo {m : Mnemonic} {e : ErrorCode} {i : Word} {s u : State} (he : e ∈ raisedBy m)
    (h : FaultForm (footprint m) e i s u) (k : StartTold m e i s) : FaultInfo m e i s u := by
  cases e with
  | illegal => cases m <;> exact absurd he (by decide)
  | busy => cases m <;> exact absurd he (by decide)
  | state => exact k
  | align => exact k
  | exh => exact k
  | fmt => exact h
  | srcIo =>
    by_cases hm : m = .ROPEN
    · exact k hm
    · have := h (by cases m <;> first | rfl | exact absurd rfl hm)
      rwa [FaultInfo, readsFrom, if_neg hm]
  | snkIo => exact h
  | trie => cases m <;> first | exact absurd he (by decide) | exact h
  | noCode =>
    obtain ⟨y, h1, h2⟩ := h
    exact ⟨y, h1, h2 (by cases m <;> first | rfl | exact absurd he (by decide))⟩
  | ovf => cases m <;> first | exact absurd he (by decide) | exact h

end Sys2Proof.Machine
end

