-- ==== Sys2Proof/Laws/Invariants.lean ====
section
/-! SUPPORT. The pieces of the commands keep the invariants of the cursors and of the stores (10_state.md R32 to R41). -/

namespace Sys2Proof.Machine
open Sys2Proof

/-- A piece that ends without a fault ends in a state with `P`. -/
def Res.Keeps {α : Type} (r : Res α) (P : State → Prop) : Prop := r.Sat (fun _ t => P t) fun _ _ _ => True

theorem Res.Keeps.of_sat {α : Type} {r : Res α} {P : State → Prop} {Q : α → State → Prop}
    {E : ErrorCode → Word → State → Prop} (h : r.Sat Q E) (hq : ∀ a t, Q a t → P t) : r.Keeps P :=
  h.mono hq fun _ _ _ _ => trivial

theorem Res.Keeps.bind {α β : Type} {r : Res α} {f : α → State → Res β} {P Q : State → Prop} (h : r.Keeps P)
    (hf : ∀ a t, P t → (f a t).Keeps Q) : (r.bind f).Keeps Q :=
  Res.Sat.bind h hf

/-- A scan keeps what reading a byte and its body keep. -/
theorem scanBytes_keeps {P : State → Prop} {body : Byte → State → Res Unit} (hr : ∀ s, P s → (readByte s).Keeps P)
    (hb : ∀ y s, P s → (body y s).Keeps P) (n : Nat) {s : State} (h : P s) : (scanBytes body n s).Keeps P := by
  induction n generalizing s with
  | zero => exact h
  | succ n ih =>
    unfold scanBytes
    split
    · exact (hr s h).bind fun y t ht => (hb y t ht).bind fun _ u hu => ih hu
    · exact h

/-! ### The cursors -/

/-- Both cursors are consistent, the reader's one where it is open. -/
def BothOk (s : State) : Prop := WriterOk s ∧ ReaderOk s

theorem readBit_keeps {s : State} (h : BothOk s) : (readBit s).Keeps BothOk :=
  Res.Keeps.of_sat (readBit_sat s) fun _ _ ht => ⟨ht.1.writerOk.mpr h.1, (ht.2.2 h.2).1⟩

theorem readByte_keeps {s : State} (h : BothOk s) : (readByte s).Keeps BothOk :=
  Res.Keeps.of_sat (readByte_sat s) fun _ _ ht => ⟨ht.1.writerOk.mpr h.1, (ht.2.2.2 h.2).1⟩

theorem readShort_keeps {s : State} (h : BothOk s) : (readShort s).Keeps BothOk :=
  (readByte_keeps h).bind fun _ _ ht => (readByte_keeps ht).bind fun _ _ hu => hu

theorem Wrote.bothOk {bs : Bits} {s t : State} (hw : Wrote bs s t) (h : BothOk s) : BothOk t :=
  ⟨(hw.law h.1).1, hw.frame.readerOk.mpr h.2⟩

theorem writeBits_keeps (bs : Bits) {s : State} (h : BothOk s) : (writeBits bs s).Keeps BothOk :=
  Res.Keeps.of_sat (writeBits_sat bs s) fun _ _ ht => ht.bothOk h

theorem writeByte_keeps (y : Byte) {s : State} (h : BothOk s) : (writeByte y s).Keeps BothOk :=
  Res.Keeps.of_sat (writeByte_sat y s) fun _ _ ht => ht.1.bothOk h

theorem emitCode_keeps (y : Byte) {s : State} (h : BothOk s) : (emitCode y s).Keeps BothOk := by
  unfold emitCode
  split
  · trivial
  · exact writeBits_keeps _ h

theorem countByte_keeps (y : Byte) {s : State} (h : BothOk s) : (countByte y s).Keeps BothOk := by
  unfold countByte
  split
  · trivial
  · exact h

theorem headerByte_keeps (i : Word) {s : State} (h : BothOk s) : (headerByte i s).Keeps BothOk := by
  unfold headerByte
  split
  · exact readByte_keeps h
  · trivial

theorem readCode_keeps (e n : Nat) {s : State} (h : BothOk s) : (readCode e n s).Keeps BothOk := by
  induction n generalizing s with
  | zero => exact h
  | succ n ih =>
    unfold readCode
    split
    · exact (readBit_keeps h).bind fun _ t ht => (ih ht).bind fun _ _ hu => hu
    · trivial

theorem skipPadding_keeps (n : Nat) {s : State} (h : BothOk s) : (skipPadding n s).Keeps BothOk := by
  induction n generalizing s with
  | zero => exact h
  | succ n ih =>
    unfold skipPadding
    split
    · exact h
    · exact (readBit_keeps h).bind fun _ t ht => ih ht

theorem readEntries_keeps (e n : Nat) {s : State} (h : BothOk s) : (readEntries e n s).Keeps BothOk := by
  induction n generalizing e s with
  | zero => exact h
  | succ n ih =>
    unfold readEntries readEntry
    refine Res.Keeps.bind (P := BothOk) ?_ fun _ t ht => ih (e + 1) ht
    exact (headerByte_keeps _ h).bind fun _ _ h1 => (headerByte_keeps _ h1).bind fun _ _ h2 =>
      (readCode_keeps _ _ h2).bind fun _ _ h3 => (skipPadding_keeps _ h3).bind fun _ _ h4 => h4

theorem readHeader_keeps {s : State} (h : BothOk s) : (readHeader s).Keeps BothOk := by
  have h0 : BothOk (s.setCt (constTable none)) := h
  unfold readHeader
  dsimp only
  split
  · exact (headerByte_keeps _ h0).bind fun _ _ h1 => (headerByte_keeps _ h1).bind fun _ _ h2 =>
      readEntries_keeps _ _ h2
  · trivial

theorem trieStep_keeps (p : Bits) {s : State} (h : BothOk s) : (trieStep p s).Keeps BothOk := by
  unfold trieStep
  refine (readBit_keeps h).bind fun _ t ht => ?_
  split
  · trivial
  · exact ht

theorem decodeOne_keeps (n : Nat) (p : Bits) {s : State} (h : BothOk s) : (decodeOne n p s).Keeps BothOk := by
  induction n generalizing p s with
  | zero => exact h
  | succ n ih =>
    unfold decodeOne
    split
    · refine (trieStep_keeps p h).bind fun q t ht => ?_
      split
      · exact ht
      · exact ih q.1 ht
    · exact h

theorem decodeAll_keeps (n : Nat) (p : Bits) {s : State} (h : BothOk s) : (decodeAll n p s).Keeps BothOk := by
  induction n generalizing p s with
  | zero => exact h
  | succ n ih =>
    unfold decodeAll
    split
    · refine (trieStep_keeps p h).bind fun q t ht => ?_
      split
      · exact (writeByte_keeps _ ht).bind fun _ u hu => ih [] hu
      · exact ih q.1 ht
    · exact h

/-! ### The stores -/

theorem countByte_countsOk (y : Byte) {s : State} (h : CountsOk s) : (countByte y s).Keeps CountsOk := by
  unfold countByte
  split
  · trivial
  · next hlt =>
    intro z
    rw [State.setFreq_freq, State.setFreq_params, cell_setCell]
    split
    · omega
    · exact h z

theorem scan_countsOk (n : Nat) {s : State} (h : CountsOk s) : (scanBytes countByte n s).Keeps CountsOk :=
  scanBytes_keeps (fun s hs => Res.Keeps.of_sat (readByte_sat s) fun _ t ht => by
    intro y
    rw [ht.1.freq, ht.1.params]
    exact hs y) (fun y _ hs => countByte_countsOk y hs) n h

theorem onlyReader.codesOk {s t : State} (h : onlyReader s t) (k : CodesOk s.ct) : CodesOk t.ct := by
  rw [h.ct]
  exact k

theorem readBit_codesOk {s : State} (h : CodesOk s.ct) : (readBit s).Keeps fun t => CodesOk t.ct :=
  Res.Keeps.of_sat (readBit_sat s) fun _ _ ht => ht.1.codesOk h

theorem headerByte_codesOk (i : Word) {s : State} (h : CodesOk s.ct) : (headerByte i s).Keeps fun t => CodesOk t.ct := by
  unfold headerByte
  split
  · exact Res.Keeps.of_sat (readByte_sat s) fun _ _ ht => ht.1.codesOk h
  · trivial

theorem readCode_codesOk (e n : Nat) {s : State} (h : CodesOk s.ct) :
    (readCode e n s).Sat (fun c t => c.length = n ∧ CodesOk t.ct) fun _ _ _ => True := by
  induction n generalizing s with
  | zero => exact ⟨rfl, h⟩
  | succ n ih =>
    unfold readCode
    split
    · exact Res.Sat.bind (readBit_codesOk h) fun _ t ht => Res.Sat.bind (ih ht) fun _ _ hu => ⟨by simp [hu.1], hu.2⟩
    · trivial

theorem skipPadding_codesOk (n : Nat) {s : State} (h : CodesOk s.ct) : (skipPadding n s).Keeps fun t => CodesOk t.ct := by
  induction n generalizing s with
  | zero => exact h
  | succ n ih =>
    unfold skipPadding
    split
    · exact h
    · exact (readBit_codesOk h).bind fun _ _ ht => ih ht

theorem readEntries_codesOk (e n : Nat) {s : State} (h : CodesOk s.ct) :
    (readEntries e n s).Keeps fun t => CodesOk t.ct := by
  induction n generalizing e s with
  | zero => exact h
  | succ n ih =>
    unfold readEntries readEntry
    refine Res.Keeps.bind (P := fun t => CodesOk t.ct) ?_ fun _ t ht => ih (e + 1) ht
    refine (headerByte_codesOk _ h).bind fun y _ h1 => (headerByte_codesOk _ h1).bind fun len _ h2 =>
      Res.Sat.bind (readCode_codesOk _ _ h2) fun c _ h3 => (skipPadding_codesOk _ h3.2).bind fun _ u h4 => ?_
    intro z d hd
    rw [State.setCt_ct, cell_setCell] at hd
    split at hd
    · injection hd with hd
      have := len.isLt
      rw [← hd, h3.1, Config.maxLen]
      omega
    · exact h4 z d hd

theorem readHeader_codesOk (s : State) : (readHeader s).Keeps fun t => CodesOk t.ct := by
  have h0 : CodesOk (s.setCt (constTable none)).ct := fun y c h => by simp at h
  unfold readHeader
  dsimp only
  split
  · exact (headerByte_codesOk _ h0).bind fun _ _ h1 => (headerByte_codesOk _ h1).bind fun _ _ h2 =>
      readEntries_codesOk _ _ h2
  · trivial

end Sys2Proof.Machine
end

