-- ==== Sys2Proof/Laws/Operations.lean ====
section
/-! SUPPORT. Laws of a whole operation (70_reset_and_hazards.md R161): what has gone to SNK since the SRESET that began it is
its output, and a WFLUSH at its end leaves nothing undelivered. -/

namespace Sys2Proof.Machine
open Sys2Proof

theorem faultEntry_grows (e : ErrorCode) (i : Word) (s : State) : Grows s (faultEntry e i s) := .of_eq rfl rfl

/-- SRESET's word is the only one that decodes to SRESET (R79, R83). -/
theorem sresetWord_of_decode {w : Word} (h : decode w = .ok .sreset) : w = sresetWord := by
  unfold decode at h
  split at h
  · exact nomatch h
  · next m _ =>
    split at h
    · next hm =>
      have e : m = .SRESET := by
        rw [← buildInstr_mnemonic w m]
        injection h with h
        rw [h]
        rfl
      subst e
      rwa [show Mnemonic.SRESET.format.mask = BitVec.allOnes 32 from rfl, BitVec.and_allOnes] at hm
    · exact nomatch h

/-- A word that is not SRESET's only ever appends to SNK. -/
theorem issue_grows {w : Word} (hw : w ≠ sresetWord) {s t : State} (h : issue w s = .next t) : Grows s t := by
  unfold issue at h
  split at h
  · injection h with h; exact h ▸ faultEntry_grows _ _ _
  · split at h
    · injection h with h
      exact h ▸ .refl s
    · split at h
      · injection h with h; exact h ▸ faultEntry_grows _ _ _
      · next i hi =>
        have hne : i ≠ .sreset := fun e => hw (sresetWord_of_decode (e ▸ hi))
        rcases exec_next hne h with k | ⟨e, info, u, -, -, rfl, -, k⟩
        · exact k.2
        · exact k.trans (faultEntry_grows _ _ _)

/-- A sequence of words without SRESET's only ever appends to SNK. -/
theorem issueAll_grows (ws : List Word) (hws : ∀ w ∈ ws, w ≠ sresetWord) {s t : State} (h : issueAll ws s = .next t) :
    Grows s t := by
  induction ws generalizing s with
  | nil => injection h with h; exact h ▸ .refl s
  | cons w ws ih =>
    unfold issueAll at h
    split at h
    · next u hu => exact (issue_grows (hws w (by simp)) hu).trans (ih (fun x hx => hws x (by simp [hx])) h)
    · exact nomatch h
    · exact nomatch h

/-- The output of an operation is what it has delivered since its SRESET, where SNK_COUNT has not wrapped (R30, R161). -/
theorem outputBytes_since_sreset (ws : List Word) (hws : ∀ w ∈ ws, w ≠ sresetWord) {s t : State}
    (h : issueAll ws (resetState s) = .next t) :
    ∃ ys, t.snk = s.snk ++ ys ∧ (ys.length < 2 ^ 32 → outputBytes t = ys) := by
  obtain ⟨ys, h1, h2⟩ := issueAll_grows ws hws h
  refine ⟨ys, h1, fun hl => ?_⟩
  have : t.snkCount.toNat = ys.length := by
    rw [h2, show (resetState s).snkCount = 0#32 from rfl, BitVec.zero_add, BitVec.toNat_ofNat, Nat.mod_eq_of_lt hl]
  rw [outputBytes, this, h1, List.length_append, Nat.add_sub_cancel]
  exact List.drop_left

/-- A WFLUSH that ends with no fault leaves nothing undelivered (R112, R161). -/
theorem wflush_leaves_nothing {s t : State} (h : exec .wflush s = .next t) :
    t.fault ≠ 0#32 ∨ t.wrOff = 0 := by
  rcases finish_next (P := fun t => t.wrOff = 0) (E := fun _ _ _ => True)
    ((flush_sat s).mono (fun _ _ k => k.2.2.1) fun _ _ _ _ => trivial) h with k | ⟨e, i, u, -, rfl⟩
  · exact .inr k
  · exact .inl (faultEntry_fault_ne e i u)

/-- The reset that begins the next operation is no part of this one: before it this one has ended (R152, R161). -/
theorem operationEnded_of_reset {t : State} {a : HostAction} {rest : List HostAction} (hh : t.host = a :: rest)
    (ha : isReset a = true) (hb : t.busy = false) : operationEnded t = true := by
  simp [operationEnded, restOfOperation, commandWords, hh, ha, hb]

/-- The last operation is what follows the last reset (R161). -/
theorem lastOperation_after_reset (acts more : List HostAction) {a : HostAction} (ha : isReset a = true)
    (hm : ∀ x ∈ more, isReset x = false) : lastOperation (acts ++ a :: more) = more := by
  have go : ∀ op : List HostAction, more.foldl (fun op a => if isReset a then [] else op ++ [a]) op = op ++ more := by
    clear ha
    induction more with
    | nil => simp
    | cons x xs ih =>
      intro op
      rw [List.foldl_cons, hm x (by simp), ih fun y hy => hm y (by simp [hy])]
      simp
  rw [lastOperation, List.foldl_append, List.foldl_cons, if_pos ha, go, List.nil_append]

/-- An operation has a result just where it has ended, no fault stands, and its last command was WFLUSH (R161). -/
theorem operationResult_eq_some {acts : List HostAction} {t : State} {ys : List Byte} :
    operationResult acts t = some ys ↔
      (operationEnded t = true ∧ t.faulted = false ∧
        (commandWords (lastOperation acts)).getLast? = some (encode .wflush)) ∧ outputBytes t = ys := by
  simp [operationResult, operationSucceeded, and_assoc]

end Sys2Proof.Machine
end

