-- ==== Sys2Proof/Laws/PerInstr.lean ====
section
/-! SUPPORT. The per-command law: a command's word matches its own row of the opcode map (30_encoding.md R74, R76). -/

namespace Sys2Proof.Laws.RowMatches
open Sys2Proof Sys2Proof.Machine

/-- The word of `i`, under its row's mask, is the row's match word: OPC, RSV and the must-be-zero bits of IMM stand as R74
fixes them, whatever the operands. -/
def Statement (i : Instr) : Prop := encode i &&& i.mnemonic.format.mask = i.mnemonic.matchWord

theorem sreset : Statement .sreset := rfl
theorem setctrl (b : Bool) : Statement (.setctrl b) := encode_and_mask (immB_clear b)
theorem fclear : Statement .fclear := rfl
theorem fadd (y : Byte) : Statement (.fadd y) := encode_and_mask (immY_clear y)
theorem fscan : Statement .fscan := rfl
theorem fget (y : Byte) : Statement (.fget y) := encode_and_mask (immY_clear y)
theorem tbuild : Statement .tbuild := rfl
theorem cgen : Statement .cgen := rfl
theorem clen (y : Byte) : Statement (.clen y) := encode_and_mask (immY_clear y)
theorem cbit (s i : Byte) : Statement (.cbit s i) :=
  encode_and_mask fun _ hk h => absurd h (by rw [show (Instr.cbit s i).mnemonic.format = .p from rfl, maskSP_low (.inr rfl) hk]; decide)
theorem hwrite : Statement .hwrite := rfl
theorem hread : Statement .hread := rfl
theorem wbit (b : Bool) : Statement (.wbit b) := encode_and_mask (immB_clear b)
theorem wbyte (y : Byte) : Statement (.wbyte y) := encode_and_mask (immY_clear y)
theorem wshort (v : BitVec 16) : Statement (.wshort v) :=
  encode_and_mask fun _ hk h => absurd h (by rw [show (Instr.wshort v).mnemonic.format = .s from rfl, maskSP_low (.inl rfl) hk]; decide)
theorem wflush : Statement .wflush := rfl
theorem ropen : Statement .ropen := rfl
theorem rhasnext : Statement .rhasnext := rfl
theorem rbit : Statement .rbit := rfl
theorem rbyte : Statement .rbyte := rfl
theorem rshort : Statement .rshort := rfl
theorem raligned : Statement .raligned := rfl
theorem esym (y : Byte) : Statement (.esym y) := encode_and_mask (immY_clear y)
theorem escan : Statement .escan := rfl
theorem dtrie : Statement .dtrie := rfl
theorem dsym : Statement .dsym := rfl
theorem dscan : Statement .dscan := rfl

end Sys2Proof.Laws.RowMatches
end

