-- ==== Sys2Proof/Tests/Slice0.lean ====
section
/-! SUPPORT. Tests: words written out from the spec's encodings, ill-formed lines, one or two of the spec's worked examples
per command (95_test_vectors.md and the examples of the family files), and, for every statement with hypotheses, a state
and operands that meet them. -/

namespace Sys2Proof.Tests

open Sys2Proof Sys2Proof.Machine

/-! ### Helpers -/

/-- The state right after reset, with the presentations given. -/
def withSources (ps : List (List Byte)) : State := { State.reset with srcs := ps.map fun bs => ⟨bs, none⟩ }

/-- The state a list of commands leads to. -/
def after (is : List Instr) (s : State) : State :=
  match runCommands is s with
  | .next t => t
  | .fault _ | .refused _ => s

/-- A block of the smallest buffer, idle, with the presentations given. -/
def small (ps : List Presentation) : State :=
  { State.reset with params := ⟨1, .lsbFirst, 16⟩, wrBuf := [0#8], srcs := ps }

/-- A small block with its first presentation opened. -/
def opened (p : Presentation) : State := { small [p] with rdOpen := true, rdOpens := 1#32, rdBuf := p.bytes.take 1 }

/-! ### Decoding (30_encoding.md): words written out as OPC, RSV, IMM -/

theorem test_decode_control : decode 0b00000010_00000000_0000000000000001#32 = .ok (.setctrl true) := by decide
theorem test_decode_frequency : decode 0b00010001_00000000_0000000001000001#32 = .ok (.fadd 0x41#8) := by decide
theorem test_decode_tree : decode 0b00100000_00000000_0000000000000000#32 = .ok .tbuild := by decide
theorem test_decode_codetable : decode 0b00110010_00000000_0100000100000011#32 = .ok (.cbit 0x41#8 3#8) := by decide
theorem test_decode_header : decode 0b01000001_00000000_0000000000000000#32 = .ok .hread := by decide
theorem test_decode_writer : decode 0b01010010_00000000_0001001000110100#32 = .ok (.wshort 0x1234#16) := by decide
theorem test_decode_reader : decode 0b01100100_00000000_0000000000000000#32 = .ok .rshort := by decide
theorem test_decode_encode : decode 0b01110000_00000000_0000000011111111#32 = .ok (.esym 0xFF#8) := by decide
theorem test_decode_decode : decode 0b10000010_00000000_0000000000000000#32 = .ok .dscan := by decide

/-- The whole opcode map of R76, row by row. -/
theorem test_opcode_map :
    (Mnemonic.all.map fun m => (m.opc.toNat, m.format)) =
      [(0x01, .n), (0x02, .b), (0x10, .n), (0x11, .y), (0x12, .n), (0x13, .y), (0x20, .n), (0x30, .n), (0x31, .y),
       (0x32, .p), (0x40, .n), (0x41, .n), (0x50, .b), (0x51, .y), (0x52, .s), (0x53, .n), (0x60, .n), (0x61, .n),
       (0x62, .n), (0x63, .n), (0x64, .n), (0x65, .n), (0x70, .y), (0x71, .n), (0x80, .n), (0x81, .n), (0x82, .n)] := by
  decide

/-- An unassigned OPC, a set RSV bit, a set must-be-zero IMM bit of each format that has one (R79). -/
theorem test_decode_illegal :
    decode 0x00000000#32 = .error .unassignedOpcode ∧ decode 0xFF000000#32 = .error .unassignedOpcode ∧
    decode 0x11010041#32 = .error .fixedBitSet ∧ decode 0x52800000#32 = .error .fixedBitSet ∧
    decode 0x20000001#32 = .error .fixedBitSet ∧ decode 0x50000002#32 = .error .fixedBitSet ∧
    decode 0x51000100#32 = .error .fixedBitSet := by decide

theorem test_decodeTableWord : decodeTableWord 32 0x13000042 = some (.fget 0x42#8) := by decide

theorem test_withFetchWord :
    step (State.reset.withFetchWord 32 0x02000000) = .next { State.reset with ctrl := 0#32 } := rfl

/-! ### WellFormed (R80): a line the check refuses, for each check -/

theorem test_line_arity :
    (Line.mk .TBUILD [0]).wellFormed = false ∧ (Line.mk .FADD []).wellFormed = false ∧
    (Line.mk .CBIT [0x41]).wellFormed = false := by decide

theorem test_line_range_b : (Line.mk .WBIT [2]).wellFormed = false ∧ (Line.mk .WBIT [1]).wellFormed = true := by decide
theorem test_line_range_y : (Line.mk .FADD [256]).wellFormed = false ∧ (Line.mk .FADD [255]).wellFormed = true := by decide
theorem test_line_range_s :
    (Line.mk .WSHORT [65536]).wellFormed = false ∧ (Line.mk .WSHORT [65535]).wellFormed = true := by decide
theorem test_line_range_p :
    (Line.mk .CBIT [256, 0]).wellFormed = false ∧ (Line.mk .CBIT [0, 256]).wellFormed = false ∧
    (Line.mk .CBIT [255, 255]).wellFormed = true := by decide
theorem test_line_assembles : assemble ⟨.CBIT, [0x41, 3]⟩ = some 0x32004103#32 ∧ assemble ⟨.WBIT, [2]⟩ = none := by decide

/-! ### One step of each command: the examples of the family files -/

/-- R83's example: STATUS after SRESET. -/
theorem test_sreset : statusWord (after [.wbit true, .sreset] State.reset) = 0x00000020#32 := by decide +kernel
/-- R84's example. -/
theorem test_setctrl : (after [.setctrl false] State.reset).ctrl = 0#32 := by decide +kernel
/-- R86's example. -/
theorem test_fclear : (after [.fadd 7#8, .fclear, .fget 7#8] State.reset).result = 0#32 := by decide +kernel
/-- R87's example. -/
theorem test_fadd : (after [.fadd 0x41#8, .fadd 0x41#8, .fadd 0x41#8, .fget 0x41#8] State.reset).result = 3#32 := by
  decide +kernel

/-- The source of R88's example. -/
def aaab : List Byte := [0x41#8, 0x41#8, 0x41#8, 0x42#8]

/-- R88's example. -/
theorem test_fscan : nfreqWord (after [.ropen, .fscan] (withSources [aaab])) = 2#32 := by decide +kernel
/-- R89's example. -/
theorem test_fget : (after [.ropen, .fscan, .fget 0x42#8] (withSources [aaab])).result = 1#32 := by decide +kernel
/-- R92's example: node 1 is extracted first. -/
theorem test_tbuild :
    (after [.ropen, .fscan, .tbuild] (withSources [aaab])).nodes =
      [.leaf 0x41#8 3, .leaf 0x42#8 1, .internal 1 0 4] := by decide +kernel

/-- The state after the commands of R99's example. -/
def tabled : State := after [.ropen, .fscan, .tbuild, .cgen] (withSources [aaab])

/-- R99's example. -/
theorem test_cgen : cell tabled.ct 0x42#8 = some [false] ∧ cell tabled.ct 0x41#8 = some [true] := by decide +kernel
/-- R101's example. -/
theorem test_clen : (after [.clen 0x41#8] tabled).result = 0x00000101#32 := by decide +kernel
/-- R102's example. -/
theorem test_cbit :
    (after [.cbit 0x41#8 0#8] tabled).result = 3#32 ∧ (after [.cbit 0x41#8 1#8] tabled).result = 0#32 := by
  decide +kernel
/-- R106's example. -/
theorem test_hwrite :
    (after [.hwrite, .wflush] tabled).snk =
      [0x02#8, 0x00#8, 0x41#8, 0x01#8, 0x80#8, 0x42#8, 0x01#8, 0x00#8] := by decide +kernel

/-- The source of R107's example. -/
def headed : List Byte := [0x02#8, 0x00#8, 0x41#8, 0x01#8, 0x80#8, 0x42#8, 0x01#8, 0x00#8, 0xE0#8]

/-- R107's example. -/
theorem test_hread :
    (after [.ropen, .hread] (withSources [headed])).rdOff = 64 ∧
    cell (after [.ropen, .hread] (withSources [headed])).ct 0x41#8 = some [true] ∧
    ncodeWord (after [.ropen, .hread] (withSources [headed])) = 2#32 := by decide +kernel
/-- R109's example, in both bit orders. -/
theorem test_wbit :
    (after [.wbit true, .wbit false, .wbit true] State.reset).wrBuf.take 1 = [0xA0#8] ∧
    (after [.wbit true, .wbit false, .wbit true]
      { State.reset with params := ⟨1024, .lsbFirst, 32⟩ }).wrBuf.take 1 = [0x05#8] := by decide +kernel
/-- R110's examples: the byte, and the fault of an unaligned one. -/
theorem test_wbyte :
    (after [.wbyte 0x41#8, .wflush] State.reset).snk = [0x41#8] ∧
    (after [.wbit true, .wbyte 0x41#8] State.reset).fault = 4#32 ∧
    (after [.wbit true, .wbyte 0x41#8] State.reset).finfo = 1#32 := by decide +kernel
/-- R111's example. -/
theorem test_wshort : (after [.wshort 0x1234#16, .wflush] State.reset).snk = [0x34#8, 0x12#8] := by decide +kernel
/-- R112's example. -/
theorem test_wflush :
    (after [.wbit true, .wbit false, .wbit true, .wflush] State.reset).snk = [0xA0#8] := by decide +kernel
/-- R115's example. -/
theorem test_ropen : statusWord (after [.ropen] (withSources [[0xA5#8, 0x3C#8]])) = 0x0000003C#32 := by decide +kernel
/-- R116's example: the last bit read. -/
theorem test_rhasnext :
    (after [.ropen, .rhasnext] (withSources [[0xA5#8]])).result = 1#32 ∧
    (after ([.ropen] ++ List.replicate 8 .rbit ++ [.rhasnext]) (withSources [[0xA5#8]])).result = 0#32 := by
  decide +kernel
/-- R117, over 0x3C: the third bit is the first 1. -/
theorem test_rbit :
    (after [.ropen, .rbit, .rbit] (withSources [[0x3C#8]])).result = 0#32 ∧
    (after [.ropen, .rbit, .rbit, .rbit] (withSources [[0x3C#8]])).result = 1#32 := by decide +kernel
/-- R118's examples: exhaustion and an unaligned read. -/
theorem test_rbyte :
    (after [.ropen, .rbyte, .rbyte, .rbyte] (withSources [[0xA5#8, 0x3C#8]])).finfo = 16#32 ∧
    (after [.ropen, .rbit, .rbyte] (withSources [[0xA5#8, 0x3C#8]])).finfo = 0x80000001#32 := by decide +kernel
/-- R119's examples. -/
theorem test_rshort :
    (after [.ropen, .rshort] (withSources [[0x34#8, 0x12#8]])).result = 0x00001234#32 ∧
    (after [.ropen, .rshort] (withSources [[0x34#8]])).finfo = 8#32 := by decide +kernel
/-- R120's example. -/
theorem test_raligned :
    (after [.ropen, .raligned] (withSources [[0xA5#8]])).result = 1#32 ∧
    (after [.ropen, .rbit, .raligned] (withSources [[0xA5#8]])).result = 0#32 := by decide +kernel
/-- R124's examples. -/
theorem test_esym :
    (after [.esym 0x41#8, .esym 0x41#8, .esym 0x41#8, .esym 0x42#8, .wflush] tabled).snk = [0xE0#8] ∧
    (after [.esym 0x43#8] tabled).fault = 0x0A#32 ∧ (after [.esym 0x43#8] tabled).finfo = 0x43#32 := by decide +kernel

/-- The code table of R125's and R128's examples. -/
def abcTable : Table CodeEntry :=
  setCell (setCell (setCell (constTable none) 0x61#8 (some [true, false])) 0x62#8 (some [true, true])) 0x63#8
    (some [false])

/-- R125's example. -/
theorem test_escan :
    (after [.ropen, .escan] { withSources [[0x61#8, 0x62#8, 0x63#8, 0x63#8]] with ct := abcTable }).wrOff = 6 ∧
    (after [.ropen, .escan] { withSources [[0x61#8, 0x62#8, 0x63#8, 0x63#8]] with ct := abcTable }).wrBuf.take 1 =
      [0xB0#8] := by decide +kernel
/-- R128's example. -/
theorem test_dtrie :
    (after [.dtrie] { State.reset with ct := abcTable }).trie =
      .node .inner (.node (.term 0x63#8) .absent .absent)
        (.node .inner (.node (.term 0x61#8) .absent .absent) (.node (.term 0x62#8) .absent .absent)) := by
  decide +kernel
/-- R130's example. -/
theorem test_dsym :
    (after [.dtrie, .ropen, .dsym] { withSources [[0xB0#8]] with ct := abcTable }).result = 0x161#32 ∧
    (after ([.dtrie, .ropen] ++ List.replicate 7 .dsym) { withSources [[0xB0#8]] with ct := abcTable }).result =
      0#32 := by decide +kernel
/-- R131's example. -/
theorem test_dscan :
    (after [.ropen, .hread, .dtrie, .dscan, .wflush]
      (withSources [[0x03#8, 0x00#8, 0x61#8, 0x02#8, 0x80#8, 0x62#8, 0x02#8, 0xC0#8, 0x63#8, 0x01#8, 0x00#8,
        0xB0#8]])).snk = [0x61#8, 0x62#8, 0x63#8, 0x63#8, 0x63#8, 0x63#8] := by decide +kernel

/-! ### The end of an operation (R161) -/

/-- What a host that issues the commands does. -/
def issuing (is : List Instr) : List HostAction := is.map fun i => .write 32 0x00 (encode i)

/-- COMPRESS of the empty sequence delivers the two count bytes; without its WFLUSH it has not succeeded; a fault leaves no
result; before the last command it has not ended. -/
theorem test_operation_result :
    operationResult (issuing compressCommands) (after compressCommands (small [])) = some [0#8, 0#8] ∧
    operationResult (issuing [.sreset, .wbit true]) (after [.sreset, .wbit true] (small [])) = none ∧
    operationResult (issuing [.sreset, .rbit, .wflush]) (after [.sreset, .rbit, .wflush] (small [])) = none ∧
    operationResult [] { small [] with host := issuing [.wflush] } = none := by decide +kernel

/-- A later SRESET begins another operation. -/
theorem test_operation_restarts :
    operationResult (issuing [.wbit true, .wflush, .sreset]) (after [.wbit true, .wflush, .sreset] (small [])) = none ∧
    operationResult (issuing [.wbit true, .wflush, .sreset, .wbyte 7#8, .wflush])
      (after [.wbit true, .wflush, .sreset, .wbyte 7#8, .wflush] (small [])) = some [7#8] := by decide +kernel

/-- An operation that the next one's SRESET, or the reset input, follows has ended before it, and has its result; one whose own
WFLUSH is still to come has not. -/
theorem test_operation_before_the_next :
    operationResult (issuing [.wbyte 7#8, .wflush])
      { after [.wbyte 7#8, .wflush] (small []) with host := issuing decompressCommands } = some [7#8] ∧
    operationResult (issuing [.wbyte 7#8, .wflush])
      { after [.wbyte 7#8, .wflush] (small []) with host := .resetInput :: issuing [.wbyte 8#8] } = some [7#8] ∧
    operationResult (issuing [.wbyte 7#8])
      { after [.wbyte 7#8] (small []) with host := issuing [.wflush, .sreset] } = none := by decide +kernel

/-! ### Witnesses: for each statement with hypotheses, states and operands that meet them -/

/-- A block with one host action left. -/
def acting (a : HostAction) : State := { State.reset with host := [a] }

/-- A block in the fault state. -/
def faulty : State := { State.reset with fault := 0x00000001#32 }

theorem writerOk_of {s : State} (h1 : s.wrBuf.length = s.bufBytes) (h2 : s.wrOff < 8 * s.bufBytes)
    (h3 : ∀ k, k < 8 * s.bufBytes → s.wrOff ≤ k → bitAt s.params.bitOrder s.wrBuf k = false) : WriterOk s := by
  refine ⟨h1, h2, fun k hk => ?_⟩
  by_cases h : k < 8 * s.bufBytes
  · exact h3 k h hk
  · rw [bitAt, List.getD_eq_default _ _ (by rw [h1]; omega)]
    exact BitVec.getLsbD_zero

theorem sourceSound_of {s : State} (h : s.src.failAt = none) : SourceSound s := by
  intro j _ _
  simp [failsIn, h]

/-- On a buffer of one byte, a failure at index `k` is met once `8 * k` bits are consumed: it is beyond what is read. -/
theorem soundUntil_opened {bs : List Byte} {k left : Nat} (h : 8 * bs.length < 8 * k + left) :
    SoundUntil left (opened ⟨bs, some k⟩) := by
  intro j _ hl
  by_contra hf
  obtain ⟨i, hi⟩ := Option.ne_none_iff_exists'.mp hf
  obtain ⟨e, h1, h2⟩ := failsIn_failAt hi
  rw [show (opened ⟨bs, some k⟩).src.failAt = some k from rfl, Option.some.injEq] at e
  rw [show (opened ⟨bs, some k⟩).bufBytes = 1 from rfl] at h1 h2 hl
  rw [show (opened ⟨bs, some k⟩).src.bytes = bs from rfl] at hl
  omega

/-- The same: it lies before. -/
theorem not_soundUntil_opened {bs : List Byte} {k left : Nat} (hk : 0 < k) (h : 8 * k + left ≤ 8 * bs.length) :
    ¬ SoundUntil left (opened ⟨bs, some k⟩) := by
  intro hs
  have := hs k hk (by
    rw [show (opened ⟨bs, some k⟩).bufBytes = 1 from rfl, show (opened ⟨bs, some k⟩).src.bytes = bs from rfl]
    omega)
  simp [failsIn, opened, small, State.src, presentation, State.bufBytes] at this

theorem opened_readerOk (p : Presentation) : ReaderOk (opened p) :=
  ⟨rfl, (Nat.zero_mul _).trans_le (Nat.zero_le _), Nat.zero_le _, show 0 < 8 * 1 by decide⟩

theorem sinkTakes_of {s : State} (h : s.snkErr = none) (n : Nat) : sinkTakes n s := by
  intro j _
  simp [h]

theorem reset_writerOk : WriterOk State.reset := clearWriter_ok (s := State.reset) (by decide)

theorem small_writerOk (ps : List Presentation) : WriterOk (small ps) :=
  clearWriter_ok (s := small ps) (show 0 < 1 by decide)

theorem witness_EveryWordSelectsOneRowOrFaults :
    State.reset.busy = false ∧ State.reset.faulted = false ∧ decode 0x11000041#32 = .ok (.fadd 0x41#8) ∧
    decode 0x00000000#32 = .error .unassignedOpcode := by decide

/-- The first and the last OPC of every gap of the map, and each fixed bit at its boundary. -/
theorem witness_IllegalEncodings :
    State.reset.busy = false ∧ State.reset.faulted = false ∧
    [0x00000000#32, 0x03000000#32, 0x0F000000#32, 0x14000000#32, 0x1F000000#32, 0x21000000#32, 0x2F000000#32,
      0x33000000#32, 0x3F000000#32, 0x42000000#32, 0x4F000000#32, 0x54000000#32, 0x5F000000#32, 0x66000000#32,
      0x6F000000#32, 0x72000000#32, 0x7F000000#32, 0x83000000#32, 0xFF000000#32].map decode =
        List.replicate 19 (.error .unassignedOpcode) ∧
    [0x52010000#32, 0x32800000#32, 0x01000001#32, 0x01008000#32, 0x50000002#32, 0x50008000#32, 0x11000100#32,
      0x11008000#32].map decode = List.replicate 8 (.error .fixedBitSet) := by decide

theorem witness_AssemblerEncodesLines :
    (Line.mk .CBIT [255, 255]).wellFormed = true ∧ (Line.mk .CBIT [255, 256]).wellFormed = false := by decide

theorem witness_StepRunsDecodedCommand :
    (acting (.write 32 0x00 0x11000041#32)).host = .write 32 0x00 0x11000041#32 :: [] ∧
    (acting (.write 32 0x00 0x11000041#32)).busy = false ∧
    (acting (.write 32 0x00 0x11000041#32)).faulted = false ∧ decode 0x11000041#32 = .ok (.fadd 0x41#8) := by decide

theorem witness_FaultsAreSticky (w : Word) :
    ({ faulty with host := [.write 32 0x00 w] } : State).host = .write 32 0x00 w :: [] ∧
    ({ faulty with host := [.write 32 0x00 w] } : State).busy = false ∧
    ({ faulty with host := [.write 32 0x00 w] } : State).faulted = true ∧ 0x01000001#32 ≠ 0x01000000#32 :=
  ⟨rfl, rfl, rfl, by decide⟩

/-- A step of the fault state with each kind of action: a dropped word, the SRESET word, the reset input. -/
theorem witness_FaultsAreSticky_steps :
    step { faulty with host := [.write 32 0x00 0x11000041#32] } = .next { faulty with host := [] } ∧
    step { faulty with host := [.write 32 0x00 0x01000000#32] } = .next (resetState { faulty with host := [] }) ∧
    step { faulty with host := [.resetInput] } = .next (resetState { faulty with host := [] }) := ⟨rfl, rfl, rfl⟩

theorem witness_BusyHazard :
    ({ acting (.write 32 0x00 0#32) with busy := true } : State).busy = true ∧
    ({ acting (.read 32 0x04) with busy := true } : State).host = .read 32 0x04 :: [] := by decide

theorem witness_ResetInputResets : (acting .resetInput).host = .resetInput :: [] := by decide

theorem witness_HostReadReturnsTheRegister :
    (acting (.read 32 0x2C)).host = .read 32 0x2C :: [] ∧ (acting (.read 32 0x2C)).busy = false ∧
    (acting (.read 32 0x2C)).faulted = false ∧ (0x2C, 0x48554646#32) ∈ [(0x00, 0#32), (0x2C, 0x48554646#32)] ∧
    ({ faulty with host := [.read 32 0x18] } : State).busy = false ∧
    ({ faulty with host := [.read 32 0x18] } : State).faulted = true ∧
    step { faulty with host := [.read 32 0x0C] } =
      .next { faulty with hostReads := faulty.hostReads ++ [faulty.fault], freeIdx := faulty.freeIdx + 1 } := by
  refine ⟨by decide, by decide, by decide, by decide, by decide, by decide, rfl⟩

theorem witness_StepsStopOnlyOnRefusedAccesses :
    (acting (.write 32 0x2C 1#32)).host = .write 32 0x2C 1#32 :: [] ∧
    (acting (.read 8 0x04)).host = .read 8 0x04 :: [] ∧ (8 : Nat) ≠ 32 := by decide

theorem witness_IdleBlockHoldsItsState : State.reset.host = [] := rfl

theorem witness_StatusFields :
    (State.reset.busy = false ∧ State.reset.faulted = false) ∧ (faulty.busy = false ∧ faulty.faulted = true) ∧
    ({ State.reset with busy := true } : State).busy = true := by decide

/-- NFREQ and NCODE at the two ends of their range. -/
theorem witness_CountRegistersCount :
    State.reset.faulted = false ∧
    ({ State.reset with freq := constTable 1, ct := constTable (some []) } : State).faulted = false ∧
    regValue 0x18 { State.reset with freq := constTable 1, ct := constTable (some []) } = 256#32 ∧
    regValue 0x1C { State.reset with freq := constTable 1, ct := constTable (some []) } = 256#32 := by decide +kernel

theorem reset_cursorsOk : CursorsOk State.reset :=
  ⟨by decide, rfl, fun _ => ⟨reset_writerOk, fun h => absurd h (by decide), fun _ => ⟨rfl, rfl, rfl⟩⟩⟩

theorem witness_OffsetRegistersHoldTheCursors : CursorsOk State.reset ∧ State.reset.faulted = false :=
  ⟨reset_cursorsOk, by decide⟩

theorem witness_MissingReaderFaults :
    (Instr.rbit).mnemonic.needsReader = true ∧ State.reset.rdOpen = false := by decide

/-- No fault; and one of each kind that tells where the command starts: no open source, ROPEN's failure. -/
theorem witness_FaultsAreThoseListed :
    State.reset.fault = 0#32 ∧ exec .rbit State.reset = .next (faultEntry .state 0x62#32 State.reset) ∧
    exec .fclear State.reset = .next (State.reset.setFreq (constTable 0)) ∧
    (after [.ropen] (small [⟨[], some 0⟩])).fault = 0x00000007#32 ∧ (small []).fault = 0#32 :=
  ⟨rfl, rfl, rfl, by decide +kernel, rfl⟩

theorem witness_CommandFootprints :
    Instr.fclear ≠ .sreset ∧ State.reset.fault = 0#32 ∧
    exec .fclear State.reset = .next (State.reset.setFreq (constTable 0)) ∧
    (State.reset.setFreq (constTable 0)).fault = 0#32 := ⟨by decide, rfl, rfl, rfl⟩

theorem witness_OnlyNineCommandsWriteResult :
    ∃ s t, s.fault = 0#32 ∧ exec (.fget 0#8) s = .next t ∧ t.fault = 0#32 ∧ t.result ≠ s.result :=
  ⟨{ State.reset with freq := constTable 1 }, _, rfl, rfl, rfl, by decide⟩

theorem witness_SnkCountCountsTheDeliveredBytes :
    step State.reset = .next State.reset ∧ (acting .resetInput).host = .resetInput :: [] := ⟨rfl, rfl⟩

theorem witness_ResetMeetsTheInvariants : State.reset.params.legal = true := by decide

theorem reset_controlOk : ControlOk State.reset := ⟨by decide, rfl, by decide, fun _ => ⟨rfl, .inr rfl⟩⟩

theorem treeOf_none : TreeOf 0 [] none where
  size := rfl
  top := rfl
  leaf := fun _ _ h => nomatch h
  ascending := fun _ _ _ _ _ _ _ h => nomatch h
  inner := fun _ _ _ _ h => nomatch h
  child := fun _ h => nomatch h
  parent := fun _ _ _ _ _ h => nomatch h

theorem reset_storesOk : StoresOk State.reset := by
  refine ⟨by decide, rfl, fun _ => ⟨fun y => ?_, ⟨0, by omega, treeOf_none, fun _ h => nomatch h⟩, fun y c h => ?_,
    ⟨by decide, trivial, trivial⟩, by decide⟩⟩
  · rw [show State.reset.freq = constTable 0 from rfl, cell_constTable]
    decide
  · rw [show State.reset.ct = constTable none from rfl, cell_constTable] at h
    exact nomatch h

theorem witness_EveryStepKeepsControlOk : ControlOk State.reset ∧ step State.reset = .next State.reset :=
  ⟨reset_controlOk, rfl⟩
theorem witness_EveryStepKeepsCursorsOk : CursorsOk State.reset ∧ step State.reset = .next State.reset :=
  ⟨reset_cursorsOk, rfl⟩
theorem witness_EveryStepKeepsStoresOk : StoresOk State.reset ∧ step State.reset = .next State.reset :=
  ⟨reset_storesOk, rfl⟩

/-- A table of one code, of the greatest length. -/
def longTable : Table CodeEntry := setCell (constTable none) 0x41#8 (some (List.replicate 255 true))

theorem longTable_ok : CodesOk longTable := by
  intro y c h
  rw [longTable, cell_setCell] at h
  split at h
  · injection h with h
    rw [← h, List.length_replicate]
    exact le_rfl
  · rw [cell_constTable] at h
    exact nomatch h

/-- Index 254 is the last in range, 255 the first out of range; another symbol has no code. -/
theorem witness_ReadoutCommands :
    CodesOk longTable ∧ cell longTable 0x41#8 = some (List.replicate 255 true) ∧
    (List.replicate 255 true)[(254#8).toNat]? = some true ∧ (List.replicate 255 true).length ≤ (255#8).toNat ∧
    cell longTable 0x42#8 = none := ⟨longTable_ok, by decide +kernel, by decide +kernel, by decide +kernel, by decide +kernel⟩

theorem witness_FaddCountsOneByte :
    (small []).faulted = false ∧ cell (constTable (2 ^ 16 - 2)) 0#8 + 1 < 2 ^ (small []).params.wCnt ∧
    cell (constTable (2 ^ 16 - 1)) 0#8 + 1 = 2 ^ (small []).params.wCnt := by
  refine ⟨by decide, ?_, ?_⟩ <;> simp [small]

/-! Readers over a buffer of one byte: at the start of a source, at the last bit of its chunk, and with a failure in the next
chunk. -/

/-- A sound two-byte source, at its first bit. -/
def fresh : State := opened ⟨[0x41#8, 0x42#8], none⟩
/-- The same, one bit on. -/
def oneBitOn : State := { fresh with rdOff := 1 }
/-- The same, at the last bit of the first chunk. -/
def lastBit : State := { fresh with rdOff := 7 }
/-- A source whose second chunk fails. -/
def failing : State := opened ⟨[0x41#8, 0x42#8], some 1⟩
/-- A source with nothing unread. -/
def spent : State := opened ⟨[], none⟩

theorem readers_ok :
    (fresh.rdOpen = true ∧ ReaderOk fresh) ∧ (oneBitOn.rdOpen = true ∧ ReaderOk oneBitOn) ∧
    (lastBit.rdOpen = true ∧ ReaderOk lastBit) ∧ (failing.rdOpen = true ∧ ReaderOk failing) ∧
    (spent.rdOpen = true ∧ ReaderOk spent) := by
  unfold ReaderOk
  decide

theorem fresh_ready : Ready fresh := ⟨readers_ok.1.2, sourceSound_of rfl⟩
theorem oneBitOn_ready : Ready oneBitOn := ⟨readers_ok.2.1.2, sourceSound_of rfl⟩
theorem spent_ready : Ready spent := ⟨readers_ok.2.2.2.2.2, sourceSound_of rfl⟩

theorem failing_unsound : ¬ SourceSound failing := fun h => absurd (h 1 (by decide) (by decide)) (by decide)

/-- Every count is the largest of its width. -/
def fullCounts : Table Nat := constTable (2 ^ 16 - 1)

theorem witness_FscanCountsTheRestOfTheSource :
    (oneBitOn.rdOff % 8 ≠ 0) ∧
    (fresh.rdOff % 8 = 0 ∧ SourceSound fresh ∧
      ∀ y, cell fresh.freq y + (unreadBytes fresh).count y < 2 ^ fresh.params.wCnt) ∧
    (SourceSound { fresh with freq := fullCounts } ∧ CountsOk { fresh with freq := fullCounts } ∧
      unreadBytes { fresh with freq := fullCounts } = [] ++ 0x41#8 :: [0x42#8] ∧
      (∀ z, cell fullCounts z + ([] : List Byte).count z < 2 ^ fresh.params.wCnt) ∧
      2 ^ fresh.params.wCnt ≤ cell fullCounts 0x41#8 + ([] : List Byte).count 0x41#8 + 1) ∧
    (failing.rdOff % 8 = 0 ∧ ¬ SourceSound failing ∧
      ∀ y, cell failing.freq y + (unreadBytes failing).count y < 2 ^ failing.params.wCnt) := by
  have low : ∀ (p : Presentation) (y : Byte), (unreadBytes (opened p)).length ≤ 2 →
      cell (opened p).freq y + (unreadBytes (opened p)).count y < 2 ^ (opened p).params.wCnt := by
    intro p y h
    have h1 := List.count_le_length (a := y) (l := unreadBytes (opened p))
    rw [show (opened p).freq = constTable 0 from rfl, cell_constTable, show (opened p).params.wCnt = 16 from rfl]
    omega
  have full : ∀ y, cell fullCounts y = 2 ^ 16 - 1 := cell_constTable _
  exact ⟨by decide, ⟨rfl, sourceSound_of rfl, fun y => low _ y (by decide)⟩,
    ⟨sourceSound_of rfl, fun y => by rw [full]; decide, by decide, fun y => by rw [full, List.count_nil]; decide,
      by rw [full]; decide⟩,
    rfl, failing_unsound, fun y => low _ y (by decide)⟩

theorem witness_TbuildBuildsTheTree :
    (CountsOk { small [] with freq := constTable 1 } ∧ totalCount (constTable 1) < 2 ^ (small []).params.wCnt) ∧
    (CountsOk { small [] with freq := constTable 256 } ∧ 2 ^ (small []).params.wCnt ≤ totalCount (constTable 256)) := by
  have low : ∀ n, n < 2 ^ 16 → CountsOk { small [] with freq := constTable n } := fun n h y => by
    rw [show ({ small [] with freq := constTable n } : State).freq = constTable n from rfl, cell_constTable]
    exact h
  exact ⟨⟨low 1 (by decide), by decide +kernel⟩, low 256 (by decide), by decide +kernel⟩

theorem witness_TbuildMergesLeastKeysFirst :
    CountsOk { small [] with freq := constTable 255 } ∧ totalCount (constTable 255) < 2 ^ (small []).params.wCnt :=
  ⟨fun y => by
    rw [show ({ small [] with freq := constTable 255 } : State).freq = constTable 255 from rfl, cell_constTable]
    decide, by decide +kernel⟩

/-- The tree of a frequency table of `n` symbols whose sum fits. -/
theorem tree_of_counts {n : Nat} (t : Table Nat) (hn : (countedSymbols t).length = n) (h : totalCount t < 2 ^ 16) :
    ∃ s : State, TreeOf n s.nodes s.root := by
  have := buildTree_sat 16 t
  split at this
  · next ns r _ => exact ⟨{ small [] with nodes := ns, root := r }, hn ▸ this.1⟩
  · omega

/-- Trees of no leaf, of one, of two and of 256. -/
theorem witness_CgenReadsThePaths :
    TreeOf 0 State.reset.nodes State.reset.root ∧ (∃ s : State, TreeOf 1 s.nodes s.root) ∧
    (∃ s : State, TreeOf 2 s.nodes s.root) ∧ ∃ s : State, TreeOf 256 s.nodes s.root :=
  ⟨treeOf_none, tree_of_counts (setCell (constTable 0) 0x41#8 3) (by decide +kernel) (by decide +kernel),
    tree_of_counts (setCell (setCell (constTable 0) 0x41#8 3) 0x42#8 1) (by decide +kernel) (by decide +kernel),
    tree_of_counts (constTable 1) (by decide +kernel) (by decide +kernel)⟩

theorem witness_CgenCodesAreComplete : 2 ≤ 256 ∧ 256 ≤ 256 ∧ ∃ s : State, TreeOf 256 s.nodes s.root :=
  ⟨by omega, le_rfl, witness_CgenReadsThePaths.2.2.2⟩

/-- A small block one bit into its byte. -/
def smallUnaligned : State := { small [] with wrOff := 1 }

theorem smallUnaligned_writerOk : WriterOk smallUnaligned :=
  writerOk_of rfl (by decide) (by
    simp only [smallUnaligned, small, State.bufBytes]
    intro k h _
    interval_cases k <;> rfl)

/-- A small block whose sink refuses the first byte. -/
def refusing : State := { small [] with snkErr := some 0 }

theorem refusing_short {n : Nat} (h : 8 ≤ n) : ¬ sinkTakes (outBytes n refusing) refusing := by
  refine fun k => k 0 ?_ rfl
  simp only [outBytes, refusing, small, State.bufBytes]
  omega

theorem refusing_writerOk : WriterOk refusing := small_writerOk []

theorem witness_HwriteWritesTheHeader :
    (WriterOk smallUnaligned ∧ smallUnaligned.wrOff % 8 ≠ 0) ∧
    (WriterOk (small []) ∧ (small []).wrOff % 8 = 0 ∧
      sinkTakes (outBytes (headerBits (small []).params.bitOrder (small []).ct).length (small [])) (small [])) ∧
    (WriterOk refusing ∧ refusing.wrOff % 8 = 0 ∧
      ¬ sinkTakes (outBytes (headerBits refusing.params.bitOrder refusing.ct).length refusing) refusing) := by
  refine ⟨⟨smallUnaligned_writerOk, by decide⟩, ⟨small_writerOk [], rfl, sinkTakes_of rfl _⟩, refusing_writerOk, rfl,
    refusing_short ?_⟩
  simp only [headerBits, countBits, List.length_append, byteBits_length]
  omega

/-- A small block that has opened the bytes given. -/
def srcOf (bs : List Byte) : State := opened ⟨bs, none⟩

theorem srcOf_ready (bs : List Byte) : Ready (srcOf bs) :=
  ⟨opened_readerOk _, sourceSound_of rfl⟩

theorem srcOf_unread (bs : List Byte) : unreadBits (srcOf bs) = bytesBits .lsbFirst bs := rfl

/-- A header of one entry with padding bits set, one payload byte after it: with a sound source, with a failure in the chunk
after the last byte, which HREAD does not request, and with one in the chunk of the payload byte, which it does. -/
theorem witness_HreadParsesTheHeader :
    (∀ f, ReaderOk (opened ⟨[1#8, 0#8, 0x41#8, 1#8, 0xFF#8, 0x55#8], f⟩) ∧
      unreadBits (opened ⟨[1#8, 0#8, 0x41#8, 1#8, 0xFF#8, 0x55#8], f⟩) =
        countBits .lsbFirst 1 ++
          [HeaderEntry.mk 0x41#8 [true] (List.replicate 7 true)].flatMap (HeaderEntry.bits .lsbFirst) ++
          byteBits .lsbFirst 0x55#8) ∧
    (HeaderEntry.mk 0x41#8 [true] (List.replicate 7 true)).ok ∧
    SoundUntil 8 (srcOf [1#8, 0#8, 0x41#8, 1#8, 0xFF#8, 0x55#8]) ∧
    SoundUntil 8 (opened ⟨[1#8, 0#8, 0x41#8, 1#8, 0xFF#8, 0x55#8], some 6⟩) ∧
    ¬ SoundUntil 8 (opened ⟨[1#8, 0#8, 0x41#8, 1#8, 0xFF#8, 0x55#8], some 5⟩) :=
  ⟨fun f => ⟨opened_readerOk _, (by decide +kernel : unreadBits (srcOf [1#8, 0#8, 0x41#8, 1#8, 0xFF#8, 0x55#8]) = _)⟩,
    ⟨by decide, by decide⟩, (srcOf_ready _).sound.until _, soundUntil_opened (by decide),
    not_soundUntil_opened (by decide) (by decide)⟩

/-- A source unaligned; one that ends inside the count; one that ends before an entry's length; one inside its code; and two
of them with a failure in the chunk after the last byte. -/
theorem witness_HreadFaultsOnAShortHeader :
    (Ready oneBitOn ∧ oneBitOn.rdOff % 8 ≠ 0) ∧
    (Ready (srcOf [1#8]) ∧ (srcOf [1#8]).rdOff % 8 = 0 ∧ (unreadBits (srcOf [1#8])).length < 16) ∧
    (Ready (srcOf [1#8, 0#8, 0x41#8]) ∧
      unreadBits (srcOf [1#8, 0#8, 0x41#8]) = countBits .lsbFirst 1 ++
        ([] : List HeaderEntry).flatMap (HeaderEntry.bits .lsbFirst) ++ byteBits .lsbFirst 0x41#8 ∧
      (byteBits .lsbFirst 0x41#8).length < 16) ∧
    (Ready (srcOf [1#8, 0#8, 0x41#8, 9#8, 0#8]) ∧
      unreadBits (srcOf [1#8, 0#8, 0x41#8, 9#8, 0#8]) = countBits .lsbFirst 1 ++
        ([] : List HeaderEntry).flatMap (HeaderEntry.bits .lsbFirst) ++
        (byteBits .lsbFirst 0x41#8 ++ byteBits .lsbFirst 9#8 ++ List.replicate 8 false) ∧
      (List.replicate 8 false).length < (9#8).toNat) ∧
    (ReaderOk (opened ⟨[1#8], some 1⟩) ∧ (unreadBits (opened ⟨[1#8], some 1⟩)).length < 16 ∧
      ¬ SourceSound (opened ⟨[1#8], some 1⟩)) ∧
    (ReaderOk (opened ⟨[1#8, 0#8, 0x41#8], some 3⟩) ∧ ¬ SourceSound (opened ⟨[1#8, 0#8, 0x41#8], some 3⟩)) :=
  ⟨⟨oneBitOn_ready, by decide⟩, ⟨srcOf_ready _, rfl, by decide⟩,
    ⟨srcOf_ready _, by decide +kernel, by decide⟩, ⟨srcOf_ready _, by decide +kernel, by decide⟩,
    ⟨opened_readerOk _, by decide, not_soundUntil_opened (by decide) (by decide)⟩,
    opened_readerOk _, not_soundUntil_opened (by decide) (by decide)⟩

theorem witness_HeaderRoundTrip :
    WriterOk (small []) ∧ (small []).wrOff = 0 ∧ CodesOk (small []).ct ∧ (small []).snkErr = none ∧
    (small []).busy = false ∧ (small []).faulted = false ∧ (after [.hwrite, .wflush] (small [])).snk = [] ++ [0#8, 0#8] ∧
    (small [⟨[0#8, 0#8], none⟩]).params.legal = true ∧
    presentation (small [⟨[0#8, 0#8], none⟩]).srcs ((small [⟨[0#8, 0#8], none⟩]).rdOpens + 1#32) =
      ⟨[0#8, 0#8], none⟩ :=
  ⟨small_writerOk [], rfl, reset_storesOk.2.2 (by decide) |>.2.2.1, rfl, rfl, by decide, by decide +kernel, by decide,
    by decide⟩

/-- Each form, with a sink that takes what goes out and with one that refuses it. -/
theorem witness_WriterCommandsAppendTheirBits :
    (WriterOk (small []) ∧ (small []).wrOff % 8 = 0 ∧ ∀ n, sinkTakes (outBytes n (small [])) (small [])) ∧
    (WriterOk refusing ∧ refusing.wrOff % 8 = 0 ∧ ¬ sinkTakes (outBytes 8 refusing) refusing) ∧
    (WriterOk { refusing with wrOff := 7 } ∧ ¬ sinkTakes (outBytes 1 { refusing with wrOff := 7 }) { refusing with wrOff := 7 }) ∧
    cell longTable 0x41#8 = some (List.replicate 255 true) := by
  refine ⟨⟨small_writerOk [], rfl, fun n => sinkTakes_of rfl _⟩, ⟨refusing_writerOk, rfl, refusing_short le_rfl⟩,
    ⟨writerOk_of rfl (by decide) ?_, fun k => k 0 (by decide) rfl⟩, by decide +kernel⟩
  simp only [refusing, small, State.bufBytes]
  intro k h _
  interval_cases k
  rfl

theorem witness_WritesThatAreRefused : smallUnaligned.wrOff % 8 ≠ 0 ∧ cell (small []).ct 0#8 = none := by
  refine ⟨by decide, ?_⟩
  rw [show (small []).ct = constTable none from rfl, cell_constTable]

theorem witness_WflushDeliversThePendingBytes :
    (WriterOk smallUnaligned ∧ sinkTakes ((smallUnaligned.wrOff + 7) / 8) smallUnaligned) ∧
    (WriterOk { refusing with wrOff := 1 } ∧ 0 < (({ refusing with wrOff := 1 } : State).wrOff + 7) / 8 ∧
      sinkTakes 0 { refusing with wrOff := 1 } ∧
      refusing.snkErr = some (refusing.snkCount + BitVec.ofNat 32 0).toNat) :=
  ⟨⟨smallUnaligned_writerOk, sinkTakes_of rfl _⟩, smallUnaligned_writerOk, by decide, fun j h => absurd h (by omega),
    rfl⟩

theorem witness_WbyteIsEightWbits :
    WriterOk (small []) ∧ (small []).wrOff % 8 = 0 ∧ (small []).busy = false ∧ (small []).fault = 0#32 ∧
    sinkTakes (outBytes 8 (small [])) (small []) := ⟨small_writerOk [], rfl, rfl, rfl, sinkTakes_of rfl _⟩

/-- A presentation that fails only after the first chunk, and one that fails inside it. -/
theorem witness_RopenOpensTheNextPresentation :
    0 < (small []).params.bufBytes ∧
    presentation (small [⟨[0x41#8, 0x42#8], some 1⟩]).srcs 1#32 = ⟨[0x41#8, 0x42#8], some 1⟩ ∧
    (small []).params.bufBytes ≤ 1 ∧ presentation (small [⟨[], some 0⟩]).srcs 1#32 = ⟨[], some 0⟩ ∧
    0 < (small []).params.bufBytes := by decide

theorem witness_ReaderQueriesAreExact : fresh.rdOpen = true ∧ ReaderOk fresh ∧ spent.rdOpen = true ∧ ReaderOk spent :=
  ⟨rfl, readers_ok.1.2, rfl, readers_ok.2.2.2.2.2⟩

/-- Nothing unread; a bit inside the buffer; the last bit of a chunk whose successor fails. -/
theorem witness_RbitReadsTheNextBit :
    (ReaderOk spent ∧ unreadBits spent = []) ∧
    (ReaderOk lastBit ∧ unreadBits lastBit = false :: byteBits .lsbFirst 0x42#8 ∧ boundaryFailure 1 lastBit = none) ∧
    (boundaryFailure 1 { failing with rdOff := 7 } = some 1 ∧
      unreadBits { failing with rdOff := 7 } = false :: byteBits .lsbFirst 0x42#8) :=
  ⟨⟨readers_ok.2.2.2.2.2, by decide⟩, ⟨readers_ok.2.2.1.2, by decide, by decide⟩, by decide, by decide⟩

theorem witness_RbyteReadsTheNextByte :
    (ReaderOk oneBitOn ∧ oneBitOn.rdOff % 8 ≠ 0) ∧
    (ReaderOk spent ∧ spent.rdOff % 8 = 0 ∧ unreadBytes spent = []) ∧
    (ReaderOk fresh ∧ fresh.rdOff % 8 = 0 ∧ unreadBytes fresh = 0x41#8 :: [0x42#8] ∧ boundaryFailure 8 fresh = none) ∧
    (ReaderOk failing ∧ failing.rdOff % 8 = 0 ∧ unreadBytes failing = 0x41#8 :: [0x42#8] ∧
      boundaryFailure 8 failing = some 1) :=
  ⟨⟨readers_ok.2.1.2, by decide⟩, ⟨readers_ok.2.2.2.2.2, rfl, by decide⟩,
    ⟨readers_ok.1.2, rfl, by decide, by decide⟩, readers_ok.2.2.2.1.2, rfl, by decide, by decide⟩

/-- Unaligned; nothing left; one byte left, sound and failing; two, sound, failing beyond what is read, and failing in it. -/
theorem witness_RshortReadsLowByteFirst :
    (ReaderOk oneBitOn ∧ oneBitOn.rdOff % 8 ≠ 0) ∧ (ReaderOk spent ∧ unreadBytes spent = []) ∧
    (Ready (srcOf [0x34#8]) ∧ (unreadBytes (srcOf [0x34#8])).length = 1) ∧
    (ReaderOk (opened ⟨[0x34#8], some 1⟩) ∧ ¬ SourceSound (opened ⟨[0x34#8], some 1⟩)) ∧
    (Ready fresh ∧ fresh.rdOff % 8 = 0 ∧ unreadBytes fresh = 0x41#8 :: 0x42#8 :: []) ∧
    (unreadBytes (opened ⟨[0x41#8, 0x42#8, 0x43#8], some 3⟩) = 0x41#8 :: 0x42#8 :: [0x43#8] ∧
      SoundUntil (8 * 1) (opened ⟨[0x41#8, 0x42#8, 0x43#8], some 3⟩)) ∧
    (ReaderOk (opened ⟨[0x41#8, 0x42#8, 0x43#8], some 2⟩) ∧
      ¬ SoundUntil (8 * 1) (opened ⟨[0x41#8, 0x42#8, 0x43#8], some 2⟩)) :=
  ⟨⟨readers_ok.2.1.2, by decide⟩, ⟨readers_ok.2.2.2.2.2, by decide⟩, ⟨srcOf_ready _, by decide⟩,
    ⟨opened_readerOk _, not_soundUntil_opened (by decide) (by decide)⟩, ⟨fresh_ready, rfl, by decide⟩,
    ⟨by decide, soundUntil_opened (by decide)⟩, opened_readerOk _, not_soundUntil_opened (by decide) (by decide)⟩

theorem witness_RbyteIsEightRbits :
    fresh.rdOpen = true ∧ Ready fresh ∧ fresh.rdOff % 8 = 0 ∧ fresh.busy = false ∧ fresh.fault = 0#32 ∧
    unreadBytes fresh = 0x41#8 :: [0x42#8] := ⟨rfl, fresh_ready, rfl, rfl, rfl, by decide⟩

/-- Nine bits: two bytes go out, seven zeros pad the second; the reading block has another buffer size. -/
theorem witness_BitStreamRoundTrip :
    WriterOk (small []) ∧ (small []).wrOff = 0 ∧ (small []).snkErr = none ∧ (small []).busy = false ∧
    (small []).faulted = false ∧
    (after ((List.replicate 9 true).map Instr.wbit ++ [.wflush]) (small [])).snk = [0xFF#8, 0x01#8] ∧
    ({ withSources [[0xFF#8, 0x01#8]] with params := ⟨3, .lsbFirst, 16⟩ } : State).params.bitOrder =
      (small []).params.bitOrder ∧
    ({ withSources [[0xFF#8, 0x01#8]] with params := ⟨3, .lsbFirst, 16⟩ } : State).params.legal = true ∧
    presentation (withSources [[0xFF#8, 0x01#8]]).srcs (0#32 + 1#32) = ⟨[0xFF#8, 0x01#8], none⟩ :=
  ⟨small_writerOk [], rfl, rfl, rfl, by decide, by decide +kernel, rfl, by decide, by decide⟩

/-- A block as small as can be and one of the default buffer size. -/
theorem witness_BufferSizeDoesNotShowInTheBytes :
    WriterOk (small []) ∧ WriterOk { State.reset with params := ⟨1024, .lsbFirst, 32⟩ } ∧
    (∀ i ∈ [Instr.wbyte 0x41#8, .wbit true], i.mnemonic ∈ [Mnemonic.WBIT, .WBYTE, .WSHORT, .ESYM]) ∧
    runCommands ([.wbyte 0x41#8, .wbit true] ++ [.wflush]) (small []) =
      .next (after [.wbyte 0x41#8, .wbit true, .wflush] (small [])) ∧
    (after [.wbyte 0x41#8, .wbit true, .wflush] (small [])).faulted = false :=
  ⟨small_writerOk [], clearWriter_ok (s := { State.reset with params := ⟨1024, .lsbFirst, 32⟩ }) (by decide),
    by simp [Instr.mnemonic], rfl, by decide +kernel⟩

/-- The state of the table of two codes, over two bytes that have one. -/
def coded : State := { fresh with ct := setCell (setCell (constTable none) 0x41#8 (some [true])) 0x42#8 (some [false]) }

/-- A table of one code, of eight bits: what a byte buffer sends out at once. -/
def byteCode : Table CodeEntry := setCell (constTable none) 0x41#8 (some (List.replicate 8 true))

/-- Unaligned; a whole scan; a code the sink refuses; a chunk that fails after no byte; a byte with no code after none. -/
theorem witness_EscanAppendsTheCodes :
    (ReaderOk oneBitOn ∧ WriterOk oneBitOn ∧ oneBitOn.rdOff % 8 ≠ 0) ∧
    (ReaderOk coded ∧ WriterOk coded ∧ coded.rdOff % 8 = 0 ∧ SourceSound coded ∧
      (∀ y ∈ unreadBytes coded, cell coded.ct y ≠ none) ∧
      sinkTakes (outBytes (payloadBits coded.ct (unreadBytes coded)).length coded) coded) ∧
    (unreadBytes { fresh with ct := byteCode, snkErr := some 0 } = [0x41#8] ++ [0x42#8] ∧ cell byteCode 0x41#8 ≠ none ∧
      ¬ sinkTakes (outBytes (payloadBits byteCode [0x41#8]).length { fresh with ct := byteCode, snkErr := some 0 })
          { fresh with ct := byteCode, snkErr := some 0 } ∧
      SoundUntil (8 * 1) { fresh with ct := byteCode, snkErr := some 0 }) ∧
    (ReaderOk failing ∧ WriterOk failing ∧ unreadBytes failing = [] ++ 0x41#8 :: [0x42#8] ∧
      sinkTakes (outBytes (payloadBits failing.ct []).length failing) failing ∧ ¬ SoundUntil (8 * 1) failing) ∧
    (ReaderOk fresh ∧ WriterOk fresh ∧ sinkTakes (outBytes (payloadBits fresh.ct []).length fresh) fresh ∧
      SoundUntil (8 * 1) fresh ∧ unreadBytes fresh = [] ++ 0x41#8 :: [0x42#8] ∧ cell fresh.ct 0x41#8 = none) :=
  ⟨⟨readers_ok.2.1.2, small_writerOk [], by decide⟩,
    ⟨readers_ok.1.2, small_writerOk [], rfl, sourceSound_of rfl, by decide +kernel, sinkTakes_of rfl _⟩,
    ⟨by decide, by decide +kernel, fun h => h 0 (by decide +kernel) rfl, fresh_ready.sound.until _⟩,
    ⟨readers_ok.2.2.2.1.2, small_writerOk [], by decide, sinkTakes_of rfl _,
      not_soundUntil_opened (by decide) (by decide)⟩,
    readers_ok.1.2, small_writerOk [], sinkTakes_of rfl _, fresh_ready.sound.until _, by decide, by decide +kernel⟩

theorem witness_ScansReportSourceFailures :
    failing.rdOpen = true ∧ ReaderOk failing ∧ failing.fault = 0#32 ∧ ¬ SourceSound failing ∧
    ∀ i, ∃ t, exec i failing = .next t :=
  ⟨rfl, readers_ok.2.2.2.1.2, rfl, failing_unsound, fun i => exec_total i _⟩

theorem witness_PayloadLaw :
    WriterOk { small [⟨[0x41#8, 0x42#8], none⟩] with ct := coded.ct } ∧ (small []).wrOff = 0 ∧
    (small []).snkErr = none ∧ (small []).busy = false ∧ (small []).fault = 0#32 ∧
    presentation (small [⟨[0x41#8, 0x42#8], none⟩]).srcs (0#32 + 1#32) = ⟨[0x41#8, 0x42#8], none⟩ ∧
    ∀ y ∈ [0x41#8, 0x42#8], cell coded.ct y ≠ none :=
  ⟨small_writerOk [], rfl, rfl, rfl, rfl, by decide, by decide +kernel⟩

/-- The table of R128's second example: a code that begins another. -/
def clashing : Table CodeEntry := setCell (setCell (constTable none) 0x41#8 (some [false])) 0x42#8 (some [false, true])

theorem witness_DtrieHoldsTheCodes :
    (∀ x y : Byte, x.toNat < y.toNat → ¬ Conflict (constTable none) x y) ∧
    ((0x41#8).toNat < (0x42#8).toNat ∧ Conflict clashing 0x41#8 0x42#8) ∧
    ∀ x z : Byte, x.toNat < z.toNat → z.toNat < (0x42#8).toNat → ¬ Conflict clashing x z := by
  have none_of : ∀ y : Byte, y ≠ 0x41#8 → y ≠ 0x42#8 → cell clashing y = none := by
    intro y h1 h2
    rw [clashing, cell_setCell_ne _ _ h2, cell_setCell_ne _ _ h1, cell_constTable]
  refine ⟨?_, ⟨by decide, [false], [false, true], by decide +kernel, by decide +kernel, .inl (by decide)⟩, ?_⟩
  · rintro x y - ⟨c, d, h, -, -⟩
    rw [cell_constTable] at h
    exact nomatch h
  · rintro x z hx hz ⟨c, d, hc, -, -⟩
    have hx' : x.toNat < 0x41 := by
      have : (0x42#8).toNat = 0x42 := rfl
      omega
    rw [none_of x (fun e => by subst e; exact absurd hx' (by decide)) (fun e => by subst e; exact absurd hx' (by decide))] at hc
    exact nomatch hc

/-- A trie with one code, [1, 0]. -/
def oneCode : Trie := .node .inner .absent (.node .inner (.node (.term 0x41#8) .absent .absent) .absent)

/-- The sources of the decode witnesses, with that trie: bits 1 0 and more; nothing; eight bits of which the first leads
nowhere; and, one bit before the end, a partial path. -/
def decoding (bs : List Byte) : State := { srcOf bs with trie := oneCode }

theorem decoding_trieOk (bs : List Byte) : TrieOk (decoding bs) :=
  ⟨Trie.noConfusion, trivial, ⟨⟨rfl, rfl⟩, trivial⟩⟩

theorem decoding_ready (bs : List Byte) : Ready (decoding bs) := ⟨(srcOf_ready bs).ok, (srcOf_ready bs).sound⟩

/-- One bit before the end of its source, a 1. -/
def lastOne : State := { decoding [0x80#8] with rdOff := 7 }

theorem lastOne_ready : Ready lastOne := ⟨by unfold ReaderOk; decide, sourceSound_of rfl⟩

/-- Two bits before the end of a one-byte source whose next chunk fails, with the trie of the one code. -/
def atEnd (y : Byte) (off : Nat) : State := { opened ⟨[y], some 1⟩ with trie := oneCode, rdOff := off }

theorem atEnd_readerOk (y : Byte) {off : Nat} (h : off < 8) : ReaderOk (atEnd y off) :=
  ⟨rfl, (Nat.zero_mul _).trans_le (Nat.zero_le _), show off ≤ 8 * 1 by omega, show off < 8 * 1 by omega⟩

theorem atEnd_unsound (y : Byte) (off : Nat) : ¬ SoundUntil 0 (atEnd y off) :=
  not_soundUntil_opened (bs := [y]) (k := 1) (by decide) (by simp)

/-- Each case with a source that does not fail where it reads, and with one that does: a whole code, nothing, a partial
path, a bit with no child. -/
theorem witness_DsymDecodesOneSymbol :
    (Ready (decoding [0x01#8]) ∧ TrieOk (decoding [0x01#8]) ∧
      unreadBits (decoding [0x01#8]) = [true, false] ++ List.replicate 6 false ∧
      oneCode.lookup [true, false] = some (.term 0x41#8)) ∧
    (unreadBits (atEnd 0x01#8 0) = [true, false] ++ List.replicate 6 false ∧ SoundUntil 6 (atEnd 0x01#8 0)) ∧
    (ReaderOk (atEnd 0x40#8 6) ∧ TrieOk (atEnd 0x40#8 6) ∧ unreadBits (atEnd 0x40#8 6) = [true, false] ++ [] ∧
      ¬ SoundUntil 0 (atEnd 0x40#8 6)) ∧
    (Ready { spent with trie := oneCode } ∧ unreadBits { spent with trie := oneCode } = []) ∧
    (Ready lastOne ∧ unreadBits lastOne ≠ [] ∧ lastOne.trie.lookup (unreadBits lastOne) = some .inner) ∧
    (unreadBits (atEnd 0x80#8 7) = [true] ∧ oneCode.lookup [true] = some .inner ∧ ¬ SourceSound (atEnd 0x80#8 7)) ∧
    (Ready (decoding [0x03#8]) ∧ unreadBits (decoding [0x03#8]) = [true] ++ true :: List.replicate 6 false ∧
      oneCode.lookup [true] = some .inner ∧ oneCode.lookup ([true] ++ [true]) = none) ∧
    (unreadBits (atEnd 0xC0#8 6) = [true] ++ true :: [] ∧ ¬ SoundUntil 0 (atEnd 0xC0#8 6)) :=
  ⟨⟨decoding_ready _, decoding_trieOk _, by decide, by decide⟩,
    ⟨by decide, soundUntil_opened (bs := [0x01#8]) (k := 1) (by decide)⟩,
    ⟨atEnd_readerOk _ (by decide), decoding_trieOk [0x40#8], by decide, atEnd_unsound _ _⟩,
    ⟨⟨spent_ready.ok, spent_ready.sound⟩, by decide⟩, ⟨lastOne_ready, by decide, by decide⟩,
    ⟨by decide, by decide, atEnd_unsound _ _⟩, ⟨decoding_ready _, by decide, by decide, by decide⟩, by decide,
    atEnd_unsound _ _⟩

/-- Four codes and no tail; a partial path; three codes, and a bit with no child inside the fourth; a sink that refuses the
first symbol; a partial path at whose last bit the source fails. -/
theorem witness_DscanDecodesToTheEnd :
    (Ready (decoding [0x55#8]) ∧ TrieOk (decoding [0x55#8]) ∧ WriterOk (decoding [0x55#8]) ∧
      unreadBits (decoding [0x55#8]) = (List.replicate 4 ([true, false], 0x41#8)).flatMap Prod.fst ++ [] ∧
      (∀ x ∈ List.replicate 4 ([true, false], 0x41#8), x.1 ≠ [] ∧ oneCode.lookup x.1 = some (.term x.2)) ∧
      sinkTakes (outBytes (8 * 4) (decoding [0x55#8])) (decoding [0x55#8])) ∧
    (Ready lastOne ∧ WriterOk lastOne ∧ unreadBits lastOne = ([] : List (Bits × Byte)).flatMap Prod.fst ++ [true] ∧
      lastOne.trie.lookup [true] = some .inner) ∧
    (unreadBits (decoding [0xD5#8]) = (List.replicate 3 ([true, false], 0x41#8)).flatMap Prod.fst ++ [true, true] ∧
      oneCode.lookup [true] = some .inner ∧ oneCode.lookup ([true] ++ [true]) = none) ∧
    (¬ sinkTakes (outBytes (8 * 4) { decoding [0x55#8] with snkErr := some 0 }) { decoding [0x55#8] with snkErr := some 0 } ∧
      SoundUntil 0 { decoding [0x55#8] with snkErr := some 0 }) ∧
    (unreadBits (atEnd 0x80#8 7) = ([] : List (Bits × Byte)).flatMap Prod.fst ++ ([] ++ true :: []) ∧
      WriterOk (atEnd 0x80#8 7) ∧ ¬ SourceSound (atEnd 0x80#8 7)) :=
  ⟨⟨decoding_ready _, decoding_trieOk _, small_writerOk [], by decide, by decide, sinkTakes_of rfl _⟩,
    ⟨lastOne_ready, small_writerOk [], by decide, by decide⟩, ⟨by decide, by decide, by decide⟩,
    ⟨fun h => h 0 (by decide) rfl, (decoding_ready [0x55#8]).sound⟩, by decide, small_writerOk [], atEnd_unsound _ _⟩

theorem witness_DscanNeedsAnAlignedWriter :
    (Ready { decoding [0x01#8] with wrOff := 1 } ∧ TrieOk { decoding [0x01#8] with wrOff := 1 } ∧ 1 % 8 ≠ 0 ∧
      unreadBits { decoding [0x01#8] with wrOff := 1 } = [true, false] ++ List.replicate 6 false ∧
      oneCode.lookup [true, false] = some (.term 0x41#8)) ∧
    (ReaderOk { atEnd 0x40#8 6 with wrOff := 1 } ∧ unreadBits { atEnd 0x40#8 6 with wrOff := 1 } = [true, false] ++ [] ∧
      ¬ SoundUntil 0 { atEnd 0x40#8 6 with wrOff := 1 }) :=
  ⟨⟨⟨(decoding_ready [0x01#8]).ok, (decoding_ready [0x01#8]).sound⟩, decoding_trieOk [0x01#8], by decide, by decide,
    by decide⟩, atEnd_readerOk 0x40#8 (by decide), by decide, atEnd_unsound 0x40#8 6⟩

/-- A sequence, and the empty one; the second block is given what the first delivers. -/
theorem witness_CompressThenDecompress :
    (∀ xs : List Byte, (small [⟨xs, none⟩, ⟨xs, none⟩]).params.legal = true ∧
      presentation (small [⟨xs, none⟩, ⟨xs, none⟩]).srcs 1#32 = ⟨xs, none⟩ ∧
      presentation (small [⟨xs, none⟩, ⟨xs, none⟩]).srcs 2#32 = ⟨xs, none⟩) ∧
    (small []).busy = false ∧ (small []).faulted = false ∧ (small []).snkErr = none ∧
    aaab.length < 2 ^ (small []).params.wCnt ∧
    (after compressCommands (small [⟨aaab, none⟩, ⟨aaab, none⟩])).snk =
      [2#8, 0#8, 0x41#8, 1#8, 1#8, 0x42#8, 1#8, 0#8, 7#8] :=
  ⟨fun _ => ⟨rfl, rfl, rfl⟩, rfl, by decide, rfl, by decide, by decide +kernel⟩

end Sys2Proof.Tests
end

section
/-! SUPPORT. Every step keeps the invariants of the four stores (10_state.md R32 to R37, 42_tree.md R95). A command that ends
with no fault leaves a store outside its footprint as it was (`exec_within`); the commands that write one have a case each. -/

namespace Sys2Proof.Machine
open Sys2Proof

/-- What a body keeps, its command keeps where it ends with no fault. -/
theorem Res.Keeps.next {r : Res Unit} {P : State → Prop} (h : r.Keeps P) {t : State} (hr : finish r = .next t)
    (ht : t.faulted = false) : P t := by
  rcases finish_next h hr with hP | ⟨e, i, u, -, rfl⟩
  · exact hP
  · simp at ht

theorem withReader_keeps {P : State → Prop} {body : State → Res Unit} {s : State} (opc : BitVec 8)
    (h : (body s).Keeps P) : (withReader opc body s).Keeps P := by
  unfold withReader
  split
  · exact h
  · trivial

/-- The empty trie is a root without children (R37). -/
theorem trieEmpty_okBelow : Trie.empty ≠ .absent ∧ Trie.empty.okBelow Config.maxLen :=
  ⟨by simp [Trie.empty], trivial, trivial⟩

/-! ### Commands that end with no fault -/

section Exec
variable {i : Instr} {s t : State} (hi : i ≠ .sreset) (he : exec i s = .next t) (ht : t.faulted = false)
include hi he ht

theorem exec_frame_of_running : Frame (footprint i.mnemonic) s t := by
  rcases exec_next hi he with ⟨hf, -⟩ | ⟨e, info, u, -, -, rfl, -⟩
  · exact hf
  · simp at ht

/-- FCLEAR, FADD and FSCAN are the commands that write FREQ (R32, R85). -/
theorem exec_countsOk (h : CountsOk s) : CountsOk t := by
  have hf := exec_frame_of_running hi he ht
  cases i with
  | fclear =>
    injection he with he
    intro y
    simp [← he]
  | fadd y => exact (countByte_countsOk y h).next he ht
  | fscan => exact (withReader_keeps _ (scan_countsOk _ h)).next he ht
  | _ => intro y; rw [hf.freq rfl, hf.params]; exact h y

/-- TBUILD is the command that writes TREE; it merges counts that fit `W_CNT` bits, of at most 256 symbols (R34, R91). -/
theorem exec_treeOk (hc : CountsOk s) (h : TreeOk s) : TreeOk t := by
  have hf := exec_frame_of_running hi he ht
  cases i with
  | tbuild =>
    refine Res.Keeps.next ?_ he ht
    have hb := buildTree_sat s.params.wCnt s.freq
    split
    · next ns r hns =>
      rw [hns] at hb
      obtain ⟨htree, -, -, -, hw⟩ := hb
      exact ⟨_, countedSymbols_le s.freq, htree, (hw hc).1⟩
    · trivial
  | _ => rw [TreeOk, (hf.tree rfl).1, (hf.tree rfl).2, hf.params]; exact h

/-- CGEN writes the codes of a tree of at most 256 leaves (R95), HREAD codes whose length one byte held (R107). -/
theorem exec_codesOk (htree : TreeOk s) (h : CodesOk s.ct) : CodesOk t.ct := by
  have hf := exec_frame_of_running hi he ht
  cases i with
  | cgen =>
    obtain ⟨n, hn, hns, -⟩ := htree
    injection he with he
    exact he ▸ codesOf_ok hns hn s.single1
  | hread => exact (withReader_keeps _ (readHeader_codesOk s)).next he ht
  | _ => rw [hf.ct rfl]; exact h

/-- DTRIE builds a trie from codes of at most 255 bits: that bounds its depth and its size (R6, R37). -/
theorem exec_trieOk (hc : CodesOk s.ct) (h : TrieOk s ∧ s.trie.size ≤ Config.trieNodes) :
    TrieOk t ∧ t.trie.size ≤ Config.trieNodes := by
  have hf := exec_frame_of_running hi he ht
  cases i with
  | dtrie =>
    refine Res.Keeps.next (P := fun u => TrieOk u ∧ u.trie.size ≤ Config.trieNodes) ?_ he ht
    split
    · next u hu =>
      exact ⟨insertCodes_okBelow s.ct hc allBytes hu trieEmpty_okBelow, insertCodes_fits hc hu⟩
    · trivial
  | _ => rw [TrieOk, hf.trie rfl]; exact h

end Exec

/-! ### Reset and the fault state -/

/-- The tree store of a block just reset holds no tree (R45). -/
theorem treeOf_zero : TreeOf 0 [] none := by
  constructor <;> simp

theorem resetState_storesOk {s : State} (h : s.params.legal = true) : StoresOk (resetState s) := by
  have hcounts : CountsOk (resetState s) := fun y => by simp
  have htree : TreeOk (resetState s) := ⟨0, by simp, treeOf_zero, by simp⟩
  have hcodes : CodesOk (resetState s).ct := fun y c hc => by simp at hc
  have hsize : Trie.empty.size ≤ Config.trieNodes := by decide
  exact ⟨h, rfl, fun _ => ⟨hcounts, htree, hcodes, trieEmpty_okBelow, hsize⟩⟩

/-- In the fault state the stores hold any value (R136). -/
theorem faultEntry_storesOk {s : State} (h : s.params.legal = true) (e : ErrorCode) (info : Word) :
    StoresOk (faultEntry e info s) :=
  ⟨h, rfl, fun hf => by simp at hf⟩

/-! ### One step -/

theorem exec_storesOk {i : Instr} {s t : State} (h : StoresOk s) (hs : s.faulted = false) (he : exec i s = .next t) :
    StoresOk t := by
  obtain ⟨hlegal, hbusy, hstores⟩ := h
  obtain ⟨hcounts, htree, hcodes, htrie⟩ := hstores hs
  by_cases hi : i = .sreset
  · subst hi
    injection he with he
    exact he ▸ resetState_storesOk hlegal
  · rcases exec_next hi he with ⟨hf, -⟩ | ⟨e, info, u, -, -, rfl, hf, -⟩
    · exact ⟨hf.params ▸ hlegal, hf.busy ▸ hbusy, fun ht =>
        ⟨exec_countsOk hi he ht hcounts, exec_treeOk hi he ht hcounts htree, exec_codesOk hi he ht htree hcodes,
          exec_trieOk hi he ht hcodes htrie⟩⟩
    · exact faultEntry_storesOk (hf.params ▸ hlegal) e info

theorem issue_storesOk {w : Word} {s t : State} (h : StoresOk s) (hw : issue w s = .next t) : StoresOk t := by
  have ⟨hlegal, hbusy, _⟩ := h
  rw [issue, if_neg (by simp [hbusy])] at hw
  split at hw
  · split at hw
    · injection hw with hw
      exact hw ▸ resetState_storesOk hlegal
    · injection hw with hw
      exact hw ▸ h
  · next hs =>
    split at hw
    · injection hw with hw
      exact hw ▸ faultEntry_storesOk hlegal _ _
    · exact exec_storesOk h (by simpa using hs) hw

theorem hostAct_storesOk {a : HostAction} {s t : State} (h : StoresOk s) (ha : hostAct a s = .next t) : StoresOk t := by
  cases a with
  | read width offset =>
    simp only [hostAct, hostRead] at ha
    split at ha
    · injection ha with ha
      subst ha
      split <;> exact h
    · exact nomatch ha
  | write width offset v =>
    simp only [hostAct, hostWrite] at ha
    split at ha
    · split at ha
      · exact issue_storesOk h ha
      · injection ha with ha
        exact ha ▸ h
    · exact nomatch ha
  | resetInput =>
    injection ha with ha
    exact ha ▸ resetState_storesOk h.1

/-- Settles O26: the stores' invariants are inductive, each command's writes to a store resting on the store it reads. -/
theorem everyStepKeepsStoresOk : Obligations.EveryStepKeepsStoresOk := by
  intro s t h hst
  unfold step at hst
  split at hst
  · injection hst with hst
    exact hst ▸ h
  · next rest _ => exact hostAct_storesOk (s := s.setHost rest) h hst

end Sys2Proof.Machine
end

section
/-! SUPPORT. What one step can do, said once (10_state.md R17, R19, R42, 30_encoding.md R78, 70_reset_and_hazards.md R150):
the block keeps its state, resets, enters the fault state, or runs one command. -/

namespace Sys2Proof.Machine
open Sys2Proof

/-! ### Accesses to the register window -/

theorem accessOk_iff {width offset : Nat} :
    accessOk width offset = true ↔ width = 32 ∧ offset % 4 = 0 ∧ offset ≤ 0x2C := by
  simp [accessOk, and_assoc]

theorem step_cons {s : State} {a : HostAction} {rest : List HostAction} (h : s.host = a :: rest) :
    step s = hostAct a (s.setHost rest) := by
  rw [step, h]

theorem hostRead_ok {width offset : Nat} (h : accessOk width offset = true) (s : State) :
    hostRead width offset s =
      .next (if s.busy || s.faulted then (s.pushRead (readValue offset s)).bumpFree
        else s.pushRead (readValue offset s)) := if_pos h

/-- A write to a register other than CMD is ignored (R19). -/
theorem hostWrite_readOnly {offset : Nat} (h : accessOk 32 offset = true) (h0 : offset ≠ 0) (v : Word) (s : State) :
    hostWrite 32 offset v s = .next s := by
  rw [hostWrite, if_pos h, if_neg h0]

theorem issue_total (w : Word) (s : State) : ∃ t, issue w s = .next t := by
  unfold issue
  split
  · exact ⟨_, rfl⟩
  · split
    · split
      · exact exec_total _ s
      · exact ⟨_, rfl⟩
    · split
      · exact ⟨_, rfl⟩
      · exact exec_total _ s

/-! ### The cases of a step -/

/-- The host's next action resets the block: the reset input, or the SRESET word where the block is not busy (R83, R150). -/
def ResetsNext (s : State) : Prop :=
  ∃ rest, s.host = .resetInput :: rest ∨ (s.host = .write 32 0x00 0x01000000#32 :: rest ∧ s.busy = false)

theorem resetsNext_write {s : State} {width offset : Nat} {v : Word} {rest : List HostAction}
    (h : s.host = .write width offset v :: rest) :
    ResetsNext s ↔ (width = 32 ∧ offset = 0 ∧ v = sresetWord) ∧ s.busy = false := by
  simp [ResetsNext, h, sresetWord]

/-- Nothing of the block differs: only what the host has left to do, what it has read, and the model's counter of free
values. -/
def onlyHost (s t : State) : Prop := t = { s with host := t.host, hostReads := t.hostReads, freeIdx := t.freeIdx }

/-- What a step from `s` with a next state can be. -/
inductive StepCase (s : State) : State → Prop where
  | held {t : State} (hr : ¬ ResetsNext s) (ht : onlyHost s t) : StepCase s t
  | reset {rest : List HostAction} (hr : ResetsNext s) : StepCase s (resetState (s.setHost rest))
  | fault {rest : List HostAction} (hr : ¬ ResetsNext s) (e : ErrorCode) (w : Word) :
      StepCase s (faultEntry e w (s.setHost rest))
  | ran (rest : List HostAction) {i : Instr} {t : State} (hr : ¬ ResetsNext s) (hi : i ≠ .sreset)
      (hs : s.faulted = false) (he : exec i (s.setHost rest) = .next t) : StepCase s t

/-- A CMD write: E_BUSY, the fault state's filter, E_ILLEGAL, then the command (R78, R135). -/
theorem issue_case {s t : State} {w : Word} {rest : List HostAction} (hh : s.host = .write 32 0 w :: rest)
    (h : issue w (s.setHost rest) = .next t) : StepCase s t := by
  have hr := resetsNext_write hh
  unfold issue at h
  split at h
  · next hb =>
    injection h with h
    exact h ▸ .fault (fun k => by simp [(hr.mp k).2] at hb) _ _
  · next hb =>
    have hb : s.busy = false := by simpa using hb
    split at h
    · split at h
      · next hw =>
        injection h with h
        exact h ▸ .reset (hr.mpr ⟨⟨rfl, rfl, hw⟩, hb⟩)
      · next hw =>
        injection h with h
        exact h ▸ .held (fun k => hw (hr.mp k).1.2.2) rfl
    · next hf =>
      split at h
      · next hd =>
        injection h with h
        refine h ▸ .fault (fun k => ?_) _ _
        rw [(hr.mp k).1.2.2] at hd
        exact nomatch hd
      · next i hd =>
        by_cases hi : i = .sreset
        · subst hi
          injection h with h
          exact h ▸ .reset (hr.mpr ⟨⟨rfl, rfl, sresetWord_of_decode hd⟩, hb⟩)
        · refine .ran rest (fun k => hi ?_) hi (Bool.eq_false_of_not_eq_true hf) h
          rw [(hr.mp k).1.2.2] at hd
          injection hd with hd
          exact hd.symm

theorem step_case {s t : State} (h : step s = .next t) : StepCase s t := by
  cases hh : s.host with
  | nil =>
    rw [step, hh] at h
    injection h with h
    exact h ▸ .held (by simp [ResetsNext, hh]) rfl
  | cons a rest =>
    rw [step_cons hh] at h
    cases a with
    | read width offset =>
      simp only [hostAct, hostRead] at h
      split at h
      · injection h with h
        refine .held (by simp [ResetsNext, hh]) (h ▸ ?_)
        split <;> rfl
      · exact nomatch h
    | write width offset v =>
      simp only [hostAct, hostWrite] at h
      split at h
      · next ha =>
        obtain ⟨rfl, -, -⟩ := accessOk_iff.mp ha
        split at h
        · next h0 => exact issue_case (h0 ▸ hh) h
        · next h0 =>
          injection h with h
          exact h ▸ .held (fun k => h0 ((resetsNext_write hh).mp k).1.2.1) rfl
      · exact nomatch h
    | resetInput =>
      injection h with h
      exact h ▸ .reset ⟨rest, .inl hh⟩

theorem onlyHost.grows {s t : State} (h : onlyHost s t) : Grows s t := by
  rw [h]
  exact .of_eq rfl rfl

/-- A step that is no reset only ever appends to SNK, and SNK_COUNT counts what it appends (R30). -/
theorem step_grows {s t : State} (h : step s = .next t) (hr : ¬ ResetsNext s) : Grows s t := by
  cases step_case h with
  | held _ ht => exact ht.grows
  | reset hr' => exact absurd hr' hr
  | fault _ e w => exact .of_eq rfl rfl
  | ran _ _ hi _ he =>
    rcases exec_next hi he with ⟨-, hg⟩ | ⟨e, info, u, -, -, rfl, -, hg⟩
    · exact hg
    · exact hg

theorem step_resets {s t : State} (h : step s = .next t) (hr : ResetsNext s) :
    ∃ rest, t = resetState (s.setHost rest) := by
  cases step_case h with
  | reset _ => exact ⟨_, rfl⟩
  | held hr' _ => exact absurd hr hr'
  | fault hr' _ _ => exact absurd hr hr'
  | ran _ hr' _ _ _ => exact absurd hr hr'

/-- A step leaves the presentations, the failure indexes and the build as they are (R43). -/
theorem step_ports {s t : State} (h : step s = .next t) :
    t.srcs = s.srcs ∧ t.snkErr = s.snkErr ∧ t.params = s.params := by
  cases step_case h with
  | held _ ht =>
    rw [ht]
    exact ⟨rfl, rfl, rfl⟩
  | reset _ => exact ⟨rfl, rfl, rfl⟩
  | fault _ _ _ => exact ⟨rfl, rfl, rfl⟩
  | ran _ _ hi _ he =>
    rcases exec_next hi he with ⟨hf, -⟩ | ⟨e, info, u, -, -, rfl, hf, -⟩
    · exact ⟨hf.srcs, hf.snkErr, hf.params⟩
    · exact ⟨hf.srcs, hf.snkErr, hf.params⟩

/-- Settles O21: a reset leaves SNK alone, and every other step grows it by what SNK_COUNT counts. -/
theorem snkCountCountsTheDeliveredBytes : Obligations.SnkCountCountsTheDeliveredBytes := by
  refine ⟨rfl, fun s t h => ⟨?_, step_ports h⟩⟩
  by_cases hr : ResetsNext s
  · obtain ⟨rest, rfl⟩ := step_resets h hr
    exact ⟨[], by simp, fun _ => ⟨rfl, rfl⟩, fun hn => absurd hr hn⟩
  · obtain ⟨ys, hsnk, hcount⟩ := step_grows h hr
    refine ⟨ys, hsnk, fun k => absurd k hr, fun _ => ?_⟩
    rw [hcount, BitVec.toNat_add, BitVec.toNat_ofNat, Nat.add_mod_mod]

/-- Settles O11: each command answers with a next state, so what is left is the width and the offset of the access. -/
theorem stepsStopOnlyOnRefusedAccesses : Obligations.StepsStopOnlyOnRefusedAccesses := by
  refine ⟨fun s rest offset v hh ho => ?_, fun s => ?_⟩
  · have hok : accessOk 32 offset = true ∧ offset ≠ 0 := by
      simp only [List.mem_cons, List.not_mem_nil, or_false] at ho
      rw [accessOk_iff]
      omega
    rw [step_cons hh]
    exact hostWrite_readOnly hok.1 hok.2 v _
  · have hno : ∀ width offset : Nat,
        (width ≠ 32 ∨ offset % 4 ≠ 0 ∨ 0x2C < offset) ↔ accessOk width offset = false := by
      intro width offset
      rw [← Bool.not_eq_true, accessOk_iff]
      omega
    simp only [hno]
    cases hh : s.host with
    | nil => simp [step, hh]
    | cons a rest =>
      rw [step_cons hh]
      cases a with
      | read width offset => cases hok : accessOk width offset <;> simp [hostAct, hostRead, hok]
      | write width offset v =>
        cases hok : accessOk width offset with
        | false => simp [hostAct, hostWrite, hok]
        | true =>
          by_cases h0 : offset = 0
          · subst h0
            simp [hostAct, hostWrite, hok, issue_total]
          · simp [hostAct, hostWrite, hok, h0]
      | resetInput => simp [hostAct]

/-! ### Registers a host reads -/

/-- What the host has left to do shows in no register. -/
theorem readValue_setHost (offset : Nat) (s : State) (rest : List HostAction) :
    readValue offset (s.setHost rest) = readValue offset s := rfl

/-- A read of a register while the block is not busy (R19). -/
theorem step_read {s : State} {offset : Nat} {rest : List HostAction} (hh : s.host = .read 32 offset :: rest)
    (hb : s.busy = false) (hok : accessOk 32 offset = true) :
    ∃ k, step s = .next { s with host := rest, hostReads := s.hostReads ++ [regValue offset s], freeIdx := k } := by
  have hv : readValue offset (s.setHost rest) = regValue offset s := by
    rw [readValue_setHost, readValue, hb]
    rfl
  rw [step_cons hh, hostAct, hostRead_ok hok, hv]
  split
  · exact ⟨_, rfl⟩
  · exact ⟨_, rfl⟩

/-- Settles O10: the window's table is `regValue`'s, register by register. -/
theorem hostReadReturnsTheRegister : Obligations.HostReadReturnsTheRegister := by
  intro s rest offset v hh hb
  refine ⟨fun hs hv => ?_, fun _ ho => ?_⟩
  · have hwr : BitVec.setWidth 32 (BitVec.ofNat 16 s.wrOff) = regValue 0x20 s := (wrOffWord_running hs).symm
    have hrd : BitVec.setWidth 32 (BitVec.ofNat 16 s.rdOff) = regValue 0x24 s := (rdOffWord_running hs).symm
    have hreg : accessOk 32 offset = true ∧ regValue offset s = v := by
      simp only [hwr, hrd, List.mem_cons, Prod.mk.injEq, List.not_mem_nil, or_false] at hv
      rcases hv with h | h | h | h | h | h | h | h | h | h | h | h <;> obtain ⟨rfl, rfl⟩ := h <;> exact ⟨rfl, rfl⟩
    exact hreg.2 ▸ step_read hh hb hreg.1
  · have hok : accessOk 32 offset = true := by
      simp only [List.mem_cons, List.not_mem_nil, or_false] at ho
      rw [accessOk_iff]
      omega
    obtain ⟨k, hstep⟩ := step_read hh hb hok
    refine ⟨regValue offset s, _, hstep, rfl, rfl, rfl, rfl, hb, rfl, rfl, rfl, rfl, rfl, fun hv => ?_⟩
    simp only [List.mem_cons, Prod.mk.injEq, List.not_mem_nil, or_false] at hv
    rcases hv with h | h | h | h | h | h <;> obtain ⟨rfl, rfl⟩ := h <;> rfl

end Sys2Proof.Machine
end

section
/-! SUPPORT. The registers the spec computes from other state (10_state.md R21, R26 to R29), and reset (R45, R149). -/

namespace Sys2Proof.Machine
open Sys2Proof

/-! ### STATUS -/

/-- STATUS bit 0 is BUSY (R21). -/
theorem statusWord_busy (s : State) : (statusWord s).getLsbD 0 = s.busy := by
  unfold statusWord
  split
  · next h => rw [h, BitVec.getLsbD_append, BitVec.getLsbD_append]; rfl
  · next h => rw [BitVec.getLsbD_append, BitVec.getLsbD_append, BitVec.getLsbD_append]; simp [h]

/-- STATUS bits 31:7 are reserved (R21). -/
theorem statusWord_reserved (s : State) {k : Nat} (h : 7 ≤ k) : (statusWord s).getLsbD k = false := by
  unfold statusWord
  split <;> rw [BitVec.getLsbD_append, if_neg (by omega), BitVec.getLsbD_zero]

section Idle
variable {s : State} (hb : s.busy = false)
include hb

/-- STATUS bit 1 is FAULTED (R21). -/
theorem statusWord_faulted : (statusWord s).getLsbD 1 = s.faulted := by
  rw [statusWord, if_neg (by simp [hb]), BitVec.getLsbD_append, BitVec.getLsbD_append, BitVec.getLsbD_append]
  simp

/-- STATUS bits 6:2 are the five flags (R21). -/
theorem statusWord_flag {k : Nat} (hk : k < 5) : (statusWord s).getLsbD (k + 2) = (statusFlags s).getLsbD k := by
  rw [statusWord, if_neg (by simp [hb]), BitVec.getLsbD_append, BitVec.getLsbD_append, if_pos (by omega),
    if_neg (by omega)]
  rfl

/-- The five flags with no fault, from bit 2 up (R21). -/
theorem statusWord_flags (hs : s.faulted = false) :
    (statusWord s).getLsbD 2 = s.rdOpen ∧ (statusWord s).getLsbD 3 = flagRdHasNext s ∧
    (statusWord s).getLsbD 4 = flagRdAligned s ∧ (statusWord s).getLsbD 5 = wrAligned s ∧
    (statusWord s).getLsbD 6 = flagTreeValid s := by
  have hflags : statusFlags s = ((((BitVec.ofBool (flagTreeValid s)).concat (wrAligned s)).concat
      (flagRdAligned s)).concat (flagRdHasNext s)).concat s.rdOpen := if_neg (by simp [hs])
  rw [statusWord_flag hb (k := 0) (by decide), statusWord_flag hb (k := 1) (by decide),
    statusWord_flag hb (k := 2) (by decide), statusWord_flag hb (k := 3) (by decide),
    statusWord_flag hb (k := 4) (by decide), hflags]
  simp [BitVec.getElem_concat]

end Idle

/-- Settles O13: bit by bit from the layout of STATUS. -/
theorem statusFields : Obligations.StatusFields := by
  intro s
  refine ⟨fun hb hs => ?_, fun hb hs => ?_, fun hb => ?_⟩
  · obtain ⟨hopen, hnext, haligned, hwriter, htree⟩ := statusWord_flags hb hs
    refine ⟨(statusWord_busy s).trans hb, (statusWord_faulted hb).trans hs, hopen, ?_, ?_, ?_, ?_,
      fun k hk => statusWord_reserved s hk⟩
    · rw [hnext]; simp [flagRdHasNext, hasNext]
    · rw [haligned]; simp [flagRdAligned, rdAligned]
    · rw [hwriter]; simp [wrAligned]
    · rw [htree]; simp [flagTreeValid, Option.isSome_iff_ne_none]
  · exact ⟨(statusWord_busy s).trans hb, (statusWord_faulted hb).trans hs, fun k hk => statusWord_reserved s hk⟩
  · exact ⟨(statusWord_busy s).trans hb, fun k hk => statusWord_reserved s hk⟩

/-! ### NFREQ and NCODE -/

/-- Counting the cells with a property is counting their symbols. -/
theorem countP_table {α : Type} (p : α → Bool) (t : Table α) :
    t.toList.countP p = (allBytes.filter fun y => p (cell t y)).length := by
  rw [toList_eq_map_cell, List.countP_map, List.countP_eq_length_filter]
  rfl

/-- A register that holds a number up to 256 holds it in bits 8:0. -/
theorem ofNat_countRegister {n : Nat} (h : n ≤ 256) :
    (BitVec.ofNat 32 n).toNat = n ∧ ∀ k, 9 ≤ k → (BitVec.ofNat 32 n).getLsbD k = false := by
  refine ⟨by rw [BitVec.toNat_ofNat]; omega, fun k hk => ?_⟩
  have hlt : n < 2 ^ k := lt_of_lt_of_le (by omega) (Nat.pow_le_pow_right (by decide) hk)
  simp [BitVec.getLsbD_ofNat, Nat.testBit_lt_two_pow hlt]

theorem nfreqWord_of_empty {s : State} (hs : s.faulted = false) (h : s.freq = constTable 0) : nfreqWord s = 0#32 := by
  rw [nfreqWord_running hs, h, countP_table]
  simp

theorem ncodeWord_of_empty {s : State} (hs : s.faulted = false) (h : s.ct = constTable none) :
    ncodeWord s = 0#32 := by
  rw [ncodeWord_running hs, h, codeCount, countP_table]
  simp

/-- Settles O14: both registers count cells of a table of 256. -/
theorem countRegistersCount : Obligations.CountRegistersCount := by
  refine ⟨fun s hs => ?_, nfreqWord_of_empty rfl rfl, ncodeWord_of_empty rfl rfl⟩
  have hf := ofNat_countRegister (countP_table_le (· != 0) s.freq)
  have hc := ofNat_countRegister (countP_table_le (·.isSome) s.ct)
  have ef : (allBytes.filter fun y => cell s.freq y ≠ 0).length = s.freq.toList.countP (· != 0) := by
    rw [countP_table]
    congr 2
    funext y
    simp [bne, Bool.beq_eq_decide_eq]
  have ec : (allBytes.filter fun y => cell s.ct y ≠ none).length = s.ct.toList.countP (·.isSome) := by
    rw [countP_table]
    congr 2
    funext y
    cases cell s.ct y <;> rfl
  rw [show regValue 0x18 s = _ from nfreqWord_running hs, show regValue 0x1C s = _ from ncodeWord_running hs, ef, ec,
    codeCount, hf.1, hc.1]
  exact ⟨rfl, countP_table_le _ _, hf.2, rfl, countP_table_le _ _, hc.2⟩

/-! ### WR_OFF and RD_OFF -/

theorem Params.legal_bufBytes {p : Config.Params} (h : p.legal = true) : 1 ≤ p.bufBytes ∧ p.bufBytes ≤ 8191 := by
  simp only [Config.Params.legal, Bool.and_eq_true, decide_eq_true_eq] at h
  omega

theorem offsetWord_toNat {off : Nat} (h : off < 65536) : (offsetWord off).toNat = off := by
  simp [offsetWord]
  omega

/-- Outside the fault state both offsets lie in their buffers. -/
theorem CursorsOk.offsets {s : State} (h : CursorsOk s) (hs : s.faulted = false) :
    s.wrOff < 8 * s.params.bufBytes ∧ s.rdOff < 8 * s.params.bufBytes := by
  obtain ⟨hlegal, -, hc⟩ := h
  obtain ⟨⟨-, hw, -⟩, hopen, hclosed⟩ := hc hs
  have hB := Params.legal_bufBytes hlegal
  cases hr : s.rdOpen with
  | true => exact ⟨hw, (hopen hr).2.2.2⟩
  | false =>
    obtain ⟨-, -, h0⟩ := hclosed hr
    exact ⟨hw, by omega⟩

/-- Settles O15: a legal buffer has at most 8191 bytes, so its offsets stay below 65528. -/
theorem offsetRegistersHoldTheCursors : Obligations.OffsetRegistersHoldTheCursors := by
  intro s h hs
  obtain ⟨hw, hr⟩ := h.offsets hs
  have hB := Params.legal_bufBytes h.1
  refine ⟨?_, ?_, rfl, rfl⟩
  · rw [show regValue 0x20 s = _ from wrOffWord_running hs]
    exact offsetWord_toNat (by omega)
  · rw [show regValue 0x24 s = _ from rdOffWord_running hs]
    exact offsetWord_toNat (by omega)

/-! ### Reset -/

/-- Settles O22: the registers and stores of `resetState`, one by one. -/
theorem sresetLoadsTheResetValues : Obligations.SresetLoadsTheResetValues := by
  intro s
  have hstatus : regValue 0x04 (resetState s) = 0x00000020#32 := by
    simp [regValue, statusWord, statusFlags, flagTreeValid, wrAligned, flagRdAligned, flagRdHasNext]
  have hnfreq : regValue 0x18 (resetState s) = 0#32 := nfreqWord_of_empty rfl rfl
  have hncode : regValue 0x1C (resetState s) = 0#32 := ncodeWord_of_empty rfl rfl
  have hfreq : ∀ y, cell (resetState s).freq y = 0 := by simp
  have hct : ∀ y, cell (resetState s).ct y = none := by simp
  refine ⟨resetState s, rfl, hstatus, rfl, rfl, rfl, rfl, hnfreq, hncode, rfl, rfl, rfl, rfl, hfreq, rfl, rfl, hct,
    rfl, rfl, rfl, rfl, rfl, rfl, rfl, rfl, rfl, rfl, rfl, rfl, rfl, rfl, rfl, rfl⟩

theorem resetState_controlOk {s : State} (h : s.params.legal = true) : ControlOk (resetState s) :=
  ⟨h, rfl, by simp, fun _ => ⟨rfl, .inr rfl⟩⟩

/-- A writer just reset holds a zeroed buffer and no bit (R38, R45). -/
theorem resetState_writerOk {s : State} (h : s.params.legal = true) : WriterOk (resetState s) :=
  clearWriter_ok (s := s) (Params.legal_bufBytes h).1

theorem resetState_cursorsOk {s : State} (h : s.params.legal = true) : CursorsOk (resetState s) :=
  ⟨h, rfl, fun _ => ⟨resetState_writerOk h, by simp, by simp⟩⟩

/-- Settles O23: the state right after reset is what SRESET leaves of it. -/
theorem resetMeetsTheInvariants : Obligations.ResetMeetsTheInvariants := by
  have reset_ok : ∀ s : State, s.params.legal = true →
      ControlOk (resetState s) ∧ CursorsOk (resetState s) ∧ StoresOk (resetState s) := fun s h =>
    ⟨resetState_controlOk h, resetState_cursorsOk h, resetState_storesOk h⟩
  exact ⟨reset_ok State.reset rfl, fun s h => ⟨resetState s, rfl, reset_ok s h⟩⟩

/-! ### CGEN and RESULT -/

/-- Settles O35: codes are paths to leaves, from any store. -/
theorem cgenIsPrefixFree : Obligations.CgenIsPrefixFree := fun _ => ⟨_, rfl, codesOf_prefixFree _ _ _⟩

theorem footprint_result (m : Mnemonic) : (footprint m).result = m.writesResult := by
  cases m <;> rfl

/-- Settles O20: a command whose footprint leaves out RESULT keeps it (R22, R155). -/
theorem onlyNineCommandsWriteResult : Obligations.OnlyNineCommandsWriteResult := by
  intro i s t _ he ht hne
  by_cases hi : i = .sreset
  · exact .inl hi
  · right
    rcases exec_next hi he with ⟨hf, -⟩ | ⟨e, info, u, -, -, rfl, -⟩
    · have hw : i.mnemonic.writesResult = true := by
        rw [← footprint_result, ← Bool.not_eq_false]
        exact fun hno => hne (hf.result hno)
      revert hw
      cases i.mnemonic <;> decide
    · exact absurd ht (faultEntry_fault_ne e info u)

end Sys2Proof.Machine
end

section
/-! SUPPORT. Every step keeps the control registers' and the cursors' invariants (10_state.md R23 to R25, R38 to R42). -/

namespace Sys2Proof.Machine
open Sys2Proof

/-! ### The control registers -/

theorem ErrorCode.code_le (e : ErrorCode) : (e.code.setWidth 32 : Word).toNat ≤ 0x0B := by
  cases e <;> decide

theorem faultEntry_controlOk {s : State} (h : s.params.legal = true) (e : ErrorCode) (info : Word) :
    ControlOk (faultEntry e info s) :=
  ⟨h, rfl, e.code_le, fun h0 => absurd h0 (faultEntry_fault_ne e info s)⟩

/-- SETCTRL is the command that writes CTRL, with a bit (R25, R84). -/
theorem exec_controlOk {i : Instr} {s t : State} (hi : i ≠ .sreset) (h : ControlOk s) (he : exec i s = .next t) :
    ControlOk t := by
  obtain ⟨hlegal, hbusy, hcode, hrun⟩ := h
  rcases exec_next hi he with ⟨hf, -⟩ | ⟨e, info, u, -, -, rfl, hf, -⟩
  · refine ⟨hf.params ▸ hlegal, hf.busy ▸ hbusy, hf.fault ▸ hcode, fun h0 => ?_⟩
    obtain ⟨hinfo, hctrl⟩ := hrun (hf.fault ▸ h0)
    refine ⟨hf.finfo ▸ hinfo, ?_⟩
    cases i with
    | setctrl b =>
      injection he with he
      subst he
      cases b with
      | false => exact .inl rfl
      | true => exact .inr rfl
    | _ => rw [hf.ctrl rfl]; exact hctrl
  · exact faultEntry_controlOk (hf.params ▸ hlegal) e info

/-- Settles O24: by the cases of a step. -/
theorem everyStepKeepsControlOk : Obligations.EveryStepKeepsControlOk := by
  intro s t h hst
  cases step_case hst with
  | held _ ht => rw [ht]; exact h
  | reset _ => exact resetState_controlOk h.1
  | fault _ e w => exact faultEntry_controlOk h.1 e w
  | ran rest _ hi _ he => exact exec_controlOk (s := s.setHost rest) hi h he

/-! ### The cursors -/

/-- The reader's part of `CursorsOk`. -/
def ReaderPart (s : State) : Prop :=
  (s.rdOpen = true → ReaderOk s) ∧ (s.rdOpen = false → s.rdBuf = [] ∧ s.rdChunk = 0 ∧ s.rdOff = 0)

theorem Frame.writerOk {fp : Footprint} {s t : State} (h : Frame fp s t) (hw : fp.writer = false) (k : WriterOk s) :
    WriterOk t := by
  obtain ⟨hbuf, hoff, -, -⟩ := h.writer hw
  rw [WriterOk, State.bufBytes, h.params, hbuf, hoff]
  exact k

theorem Frame.readerPart {fp : Footprint} {s t : State} (h : Frame fp s t) (hp : fp.position = false)
    (ho : fp.opening = false) (k : ReaderPart s) : ReaderPart t := by
  obtain ⟨hbuf, hchunk, hoff⟩ := h.position hp
  rw [ReaderPart, ReaderOk, State.bufBytes, State.rdValid, h.src ho, h.params, hbuf, hchunk, hoff, (h.opening ho).1]
  exact k

/-- A piece that appends bits to the writer keeps its cursor. -/
theorem Res.Sat.keepsWriter {α : Type} {bs : Bits} {s : State} {r : Res α} {E : ErrorCode → Word → State → Prop}
    (h : r.Sat (fun _ t => Wrote bs s t) E) (hs : WriterOk s) : r.Keeps WriterOk :=
  .of_sat h fun _ _ ht => (ht.law hs).1

theorem writeByte_keepsWriter (y : Byte) {s : State} (hs : WriterOk s) : (writeByte y s).Keeps WriterOk :=
  .of_sat (writeByte_sat y s) fun _ _ ht => (ht.1.law hs).1

theorem emitCode_keepsWriter (y : Byte) {s : State} (hs : WriterOk s) : (emitCode y s).Keeps WriterOk := by
  unfold emitCode
  split
  · trivial
  · exact (writeBits_sat _ s).keepsWriter hs

/-- HWRITE's body: from an unaligned writer the first count byte faults (R106). -/
theorem writeHeader_keepsWriter (v : BitVec 16) {s : State} (hs : WriterOk s) :
    ((writeShort v s).bind fun _ t => writeEntries s.ct allBytes t).Keeps WriterOk := by
  by_cases ha : s.wrOff % 8 = 0
  · refine Res.Keeps.bind (P := fun t => WriterOk t ∧ t.wrOff % 8 = 0)
      (.of_sat (writeShort_sat v hs ha) fun _ _ ht => ⟨(ht.1.law hs).1, ht.2⟩) fun _ t ht => ?_
    exact .of_sat (writeEntries_sat s.ct allBytes ht.1 ht.2) fun _ _ hu => (hu.1.law ht.1).1
  · simp only [writeShort, writeByte, wrAligned, ha]
    trivial

theorem footprint_opening_of_needsReader {m : Mnemonic} (h : m.needsReader = true) :
    (footprint m).opening = false := by
  revert h
  cases m <;> decide

/-- A command that needs the reader is a body behind the check of RD_OPEN, and its body keeps both cursors (R78). -/
theorem exec_reading {i : Instr} (hn : i.mnemonic.needsReader = true) (s : State) :
    ∃ opc body, exec i s = finish (withReader opc body s) ∧ (BothOk s → (body s).Keeps BothOk) := by
  cases i with
  | fscan => exact ⟨_, _, rfl, scanBytes_keeps (fun _ => readByte_keeps) (fun y _ => countByte_keeps y) _⟩
  | hread => exact ⟨_, _, rfl, readHeader_keeps⟩
  | rhasnext => exact ⟨_, _, rfl, id⟩
  | rbit => exact ⟨_, _, rfl, fun h => (readBit_keeps h).bind fun _ _ ht => ht⟩
  | rbyte => exact ⟨_, _, rfl, fun h => (readByte_keeps h).bind fun _ _ ht => ht⟩
  | rshort => exact ⟨_, _, rfl, fun h => (readShort_keeps h).bind fun _ _ ht => ht⟩
  | raligned => exact ⟨_, _, rfl, id⟩
  | escan => exact ⟨_, _, rfl, scanBytes_keeps (fun _ => readByte_keeps) (fun y _ => emitCode_keeps y) _⟩
  | dsym => exact ⟨_, _, rfl, decodeOne_keeps _ _⟩
  | dscan => exact ⟨_, _, rfl, decodeAll_keeps _ _⟩
  | _ => exact nomatch hn

section Exec
variable {i : Instr} {s t : State} (hi : i ≠ .sreset) (he : exec i s = .next t) (ht : t.faulted = false)
include hi he ht

/-- A command that needs the reader and ends with no fault began with an open one, and leaves it open. -/
theorem exec_cursors_of_needsReader (hn : i.mnemonic.needsReader = true) (hw : WriterOk s) (hr : ReaderPart s) :
    WriterOk t ∧ ReaderPart t := by
  have hf := exec_frame_of_running hi he ht
  obtain ⟨opc, body, hex, hbody⟩ := exec_reading hn s
  rw [hex, withReader] at he
  split at he
  · next ho =>
    have hot : t.rdOpen = true := (hf.opening (footprint_opening_of_needsReader hn)).1.trans ho
    obtain ⟨hwt, hrt⟩ := (hbody ⟨hw, hr.1 ho⟩).next he ht
    exact ⟨hwt, fun _ => hrt, fun hc => by simp [hot] at hc⟩
  · injection he with he
    simp [← he] at ht

/-- The writer's own commands keep its cursor (R39); the others that need no reader leave it alone. -/
theorem exec_writerOk_of_not_needsReader (hn : i.mnemonic.needsReader = false) (hw : WriterOk s) : WriterOk t := by
  have hf := exec_frame_of_running hi he ht
  cases i with
  | hwrite => exact (writeHeader_keepsWriter _ hw).next he ht
  | wbit b => exact ((writeBit_sat b s).keepsWriter hw).next he ht
  | wbyte y => exact (writeByte_keepsWriter y hw).next he ht
  | wshort v =>
    exact ((writeByte_keepsWriter _ hw).bind fun _ _ hu => writeByte_keepsWriter _ hu).next he ht
  | wflush => exact (Res.Keeps.of_sat (flush_sat s) fun _ _ ⟨_, _, _, hk⟩ => (hk hw).1).next he ht
  | esym y => exact (emitCode_keepsWriter y hw).next he ht
  | escan | dscan => exact nomatch hn
  | _ => exact hf.writerOk rfl hw

/-- ROPEN holds the first chunk at offset 0 (R54); the others that need no reader leave it alone. -/
theorem exec_readerPart_of_not_needsReader (hn : i.mnemonic.needsReader = false) (hB : 1 ≤ s.bufBytes)
    (hr : ReaderPart s) : ReaderPart t := by
  have hf := exec_frame_of_running hi he ht
  cases i with
  | ropen =>
    refine Res.Keeps.next ?_ he ht
    unfold openSource
    rcases refill_cases 0 s.nextOpen with ⟨-, h⟩ | ⟨k, -, h⟩
    · rw [h]
      exact ⟨fun _ => ⟨rfl, by simp, Nat.zero_le _, Nat.mul_pos (by decide) hB⟩, by simp⟩
    · rw [h]
      trivial
  | fscan | hread | rhasnext | rbit | rbyte | rshort | raligned | escan | dsym | dscan => exact nomatch hn
  | _ => exact hf.readerPart rfl rfl hr

end Exec

theorem faultEntry_cursorsOk {s : State} (h : s.params.legal = true) (e : ErrorCode) (info : Word) :
    CursorsOk (faultEntry e info s) :=
  ⟨h, rfl, fun hf => by simp at hf⟩

theorem exec_cursorsOk {i : Instr} {s t : State} (hi : i ≠ .sreset) (h : CursorsOk s) (hs : s.faulted = false)
    (he : exec i s = .next t) : CursorsOk t := by
  obtain ⟨hlegal, hbusy, hc⟩ := h
  obtain ⟨hw, hr⟩ := hc hs
  rcases exec_next hi he with ⟨hf, -⟩ | ⟨e, info, u, -, -, rfl, hf, -⟩
  · refine ⟨hf.params ▸ hlegal, hf.busy ▸ hbusy, fun ht => ?_⟩
    cases hn : i.mnemonic.needsReader with
    | true => exact exec_cursors_of_needsReader hi he ht hn hw hr
    | false =>
      exact ⟨exec_writerOk_of_not_needsReader hi he ht hn hw,
        exec_readerPart_of_not_needsReader hi he ht hn (Params.legal_bufBytes hlegal).1 hr⟩
  · exact faultEntry_cursorsOk (hf.params ▸ hlegal) e info

/-- Settles O25: by the cases of a step; a command that ends with no fault needs the reader, opens it, or leaves it alone. -/
theorem everyStepKeepsCursorsOk : Obligations.EveryStepKeepsCursorsOk := by
  intro s t h hst
  cases step_case hst with
  | held _ ht => rw [ht]; exact h
  | reset _ => exact resetState_cursorsOk h.1
  | fault _ e w => exact faultEntry_cursorsOk h.1 e w
  | ran rest _ hi hs he => exact exec_cursorsOk (s := s.setHost rest) hi h hs he

end Sys2Proof.Machine
end

section
/-! SUPPORT. Commands issued one after another (30_encoding.md R73 to R78): a command's word decodes to the command, and a
block that is idle and in no fault state runs it. -/

namespace Sys2Proof
open Sys2Proof.Machine

/-! ### A command's word gives back its operands -/

/-- A command's word matches its row of the opcode map (R76). -/
theorem encode_matches (i : Instr) : encode i &&& i.mnemonic.format.mask = i.mnemonic.matchWord := by
  cases i with
  | setctrl b => exact Laws.RowMatches.setctrl b
  | wbit b => exact Laws.RowMatches.wbit b
  | fadd y => exact Laws.RowMatches.fadd y
  | fget y => exact Laws.RowMatches.fget y
  | clen y => exact Laws.RowMatches.clen y
  | wbyte y => exact Laws.RowMatches.wbyte y
  | esym y => exact Laws.RowMatches.esym y
  | wshort v => exact Laws.RowMatches.wshort v
  | cbit x j => exact Laws.RowMatches.cbit x j
  | _ => rfl

theorem operandB_encode {i : Instr} {b : Bool} (h : i.imm = (BitVec.ofBool b).setWidth 16) :
    operandB (encode i) = b := by
  rw [operandB, bit_imm i (by decide), h]
  simp

/-- The `n` bits of IMM from bit `k` up, as the operands read them. -/
theorem extract_encode (i : Instr) {k n : Nat} (h : k + n ≤ 16) :
    (encode i).extractLsb' k n = i.imm.extractLsb' k n := by
  apply BitVec.eq_of_getLsbD_eq
  intro j hj
  simp only [BitVec.getLsbD_extractLsb', hj, decide_true, Bool.true_and]
  exact bit_imm i (by omega)

theorem operandY_encode {i : Instr} {y : Byte} (h : i.imm = y.setWidth 16) : operandY (encode i) = y := by
  rw [operandY, extract_encode i (by decide), h]
  apply BitVec.eq_of_getLsbD_eq
  intro j hj
  simp [hj, show j < 16 by omega]

/-- The operands a command's word holds are the command's (R75). -/
theorem buildInstr_encode (i : Instr) : buildInstr (encode i) i.mnemonic = i := by
  cases i with
  | setctrl b => exact congrArg Instr.setctrl (operandB_encode rfl)
  | wbit b => exact congrArg Instr.wbit (operandB_encode rfl)
  | fadd y => exact congrArg Instr.fadd (operandY_encode rfl)
  | fget y => exact congrArg Instr.fget (operandY_encode rfl)
  | clen y => exact congrArg Instr.clen (operandY_encode rfl)
  | wbyte y => exact congrArg Instr.wbyte (operandY_encode rfl)
  | esym y => exact congrArg Instr.esym (operandY_encode rfl)
  | wshort v =>
    refine congrArg Instr.wshort ?_
    rw [operandV, extract_encode _ (by decide)]
    exact BitVec.extractLsb'_eq_self
  | cbit x j =>
    refine congrArg₂ Instr.cbit ?_ ?_
    · rw [operandS, extract_encode _ (by decide)]
      exact BitVec.extractLsb'_append_eq_left
    · rw [operandI, extract_encode _ (by decide)]
      exact BitVec.extractLsb'_append_eq_right
  | _ => rfl

theorem decode_encode (i : Instr) : decode (encode i) = .ok i := by
  rw [decode, opcField_encode, rowOf_opc]
  simp only [encode_matches, if_true, buildInstr_encode]

end Sys2Proof

namespace Sys2Proof.Machine
open Sys2Proof

/-- A block that is idle and in no fault state: it runs the command it is given (R78). -/
def Running (s : State) : Prop := s.busy = false ∧ s.faulted = false

theorem running_of_fault {s : State} (hb : s.busy = false) (hf : s.fault = 0#32) : Running s :=
  ⟨hb, by simp [State.faulted, State.faultCode, hf]⟩

theorem Frame.running {fp : Footprint} {s t : State} (h : Frame fp s t) (hs : Running s) : Running t := by
  rw [Running, State.faulted, State.faultCode, h.busy, h.fault]
  exact hs

theorem Running.issue_encode {s : State} (h : Running s) (i : Instr) : issue (encode i) s = exec i s := by
  obtain ⟨hb, hf⟩ := h
  simp [issue, hb, hf, decode_encode]

/-- A command is run, and the rest from where it ends. -/
theorem runCommands_cons {s t : State} {i : Instr} (hs : Running s) (h : exec i s = .next t) (is : List Instr) :
    runCommands (i :: is) s = runCommands is t := by
  simp [runCommands, issueAll, hs.issue_encode, h]

end Sys2Proof.Machine
end

section
/-! SUPPORT. The writer's own statements (20_memory.md R49 to R51, R62 to R66): what bits are appended decides the state, a
flush delivers the pending bytes, and the writes that are refused. -/

namespace Sys2Proof.Machine
open Sys2Proof

/-! ### The appended bits decide the state -/

/-- Two byte sequences with the same bits are the same. -/
theorem bytesBits_inj (o : Config.BitOrder) {xs ys : List Byte} (h : bytesBits o xs = bytesBits o ys) : xs = ys := by
  induction xs generalizing ys with
  | nil =>
    have := congrArg List.length h
    simp only [bytesBits_length, List.length_nil] at this
    exact (List.length_eq_zero_iff.mp (by omega)).symm
  | cons x xs ih =>
    cases ys with
    | nil => exact absurd (congrArg List.length h) (by simp)
    | cons y ys =>
      obtain ⟨hx, hxs⟩ := List.append_inj h (by simp)
      rw [byteBits_inj o hx, ih hxs]

/-- A consistent buffer is its pending bits and zeros after them (R39). -/
theorem WriterOk.bytesBits_eq {s : State} (h : WriterOk s) :
    bytesBits s.params.bitOrder s.wrBuf =
      pendingBits s ++ List.replicate (8 * s.bufBytes - s.wrOff) false := by
  obtain ⟨hlen, -, hzero⟩ := h
  conv_lhs => rw [← List.take_append_drop s.wrOff (bytesBits s.params.bitOrder s.wrBuf)]
  rw [pendingBits]
  congr 1
  refine List.eq_replicate_iff.mpr ⟨by simp [hlen], fun b hb => ?_⟩
  obtain ⟨k, hk, rfl⟩ := List.getElem_of_mem hb
  have := hzero (s.wrOff + k) (by omega)
  rw [bitAt_eq_getD] at this
  rw [List.getElem_drop]
  rwa [List.getD_eq_getElem] at this

/-- Two writes of the same bits leave the same state (R50, R62, R63). -/
theorem Wrote.unique {bs : Bits} {s t u : State} (hs : WriterOk s) (ht : Wrote bs s t) (hu : Wrote bs s u) : t = u := by
  obtain ⟨htok, htstream⟩ := ht.law hs
  obtain ⟨huok, hustream⟩ := hu.law hs
  have hpt := ht.frame.params
  have hpu := hu.frame.params
  have hoff : t.wrOff = u.wrOff := (ht.wrOff hs).trans (hu.wrOff hs).symm
  have hstream : sentBits t = sentBits u := htstream.trans hustream.symm
  rw [sentBits, sentBits] at hstream
  obtain ⟨hsnkBits, hpending⟩ := List.append_inj hstream (by
    rw [bytesBits_length, bytesBits_length, ht.blocks hs, hu.blocks hs])
  rw [hpt, hpu] at hsnkBits
  have hsnk : t.snk = u.snk := bytesBits_inj _ hsnkBits
  have hbuf : t.wrBuf = u.wrBuf := by
    have := htok.bytesBits_eq
    rw [hpending, hoff, State.bufBytes, hpt, ← hpu, ← State.bufBytes, ← huok.bytesBits_eq] at this
    exact bytesBits_inj _ this
  rw [ht.frame, hu.frame, hbuf, hoff, hsnk, ht.snkCount hs, hu.snkCount hs]

/-! ### Writes that end with no fault -/

/-- From an aligned writer a byte is written wherever the sink takes what goes out (R63). -/
theorem writeByte_ok (y : Byte) {s : State} (hs : WriterOk s) (ha : s.wrOff % 8 = 0) (hk : sinkTakes (outBytes 8 s) s) :
    ∃ t, writeByte y s = .ok () t ∧ Wrote (byteBits s.params.bitOrder y) s t := by
  rcases writeSymbol_cases y hs ha with ⟨t, ht, hw, -⟩ | ⟨_, _, -, -, -, hno⟩
  · exact ⟨t, ht, hw⟩
  · exact absurd hk hno

/-- A bit string is written wherever the sink takes what goes out (R62). -/
theorem writeBits_ok (bs : Bits) {s : State} (hs : WriterOk s) (hk : sinkTakes (outBytes bs.length s) s) :
    ∃ t, writeBits bs s = .ok () t ∧ Wrote bs s t := by
  have h := writeBits_sat bs s
  cases hr : writeBits bs s with
  | ok a t =>
    rw [hr] at h
    exact ⟨t, rfl, h⟩
  | raised e i t =>
    rw [hr] at h
    exact absurd hk (h.short hs)

/-- One WBIT after another writes the bits one after another (R109). -/
theorem runCommands_wbits {bs : Bits} {s t : State} (hs : Running s) (h : writeBits bs s = .ok () t) :
    runCommands (bs.map Instr.wbit) s = .next t := by
  induction bs generalizing s with
  | nil =>
    injection h with _ h
    exact h ▸ rfl
  | cons b bs ih =>
    have hw := writeBit_within (fp := footprint .WBIT) (es := [.snkIo]) rfl (by decide) b s
    cases hb : writeBit b s with
    | raised e i u => simp [writeBits, hb] at h
    | ok a u =>
      rw [hb] at hw
      rw [writeBits, hb, bind_ok] at h
      have he : exec (.wbit b) s = .next u := congrArg finish hb
      rw [List.map_cons, runCommands_cons hs he]
      exact ih (hw.1.running hs) h

/-- Settles O44: the two ways to write append the same bits, `byteBits` in either BIT_ORDER, and the appended bits decide the
state. -/
theorem wbyteIsEightWbits : Obligations.WbyteIsEightWbits := by
  intro s y hs ha hb hf hk
  obtain ⟨t, ht, hwt⟩ := writeByte_ok y hs ha hk
  obtain ⟨u, hu, hwu⟩ := writeBits_ok (byteBits s.params.bitOrder y) hs (by rwa [byteBits_length])
  obtain rfl := hwt.unique hs hwu
  refine ⟨t, congrArg finish ht, Eq.trans ?_ (runCommands_wbits (running_of_fault hb hf) hu)⟩
  cases s.params.bitOrder <;> rfl

/-! ### WFLUSH -/

/-- The pending bytes are there, the last one perhaps in part. -/
theorem WriterOk.pendingBytes_length {s : State} (h : WriterOk s) :
    (s.wrBuf.take ((s.wrOff + 7) / 8)).length = (s.wrOff + 7) / 8 := by
  obtain ⟨hlen, hoff, -⟩ := h
  rw [List.length_take, hlen]
  omega

/-- Settles O43: a flush delivers the pending bytes or stops at the first one the sink refuses, and there is one first. -/
theorem wflushDeliversThePendingBytes : Obligations.WflushDeliversThePendingBytes := by
  intro s hs
  have hlen := hs.pendingBytes_length
  have hcases := emitBuffer_cases ((s.wrOff + 7) / 8) s
  rw [hlen] at hcases
  refine ⟨fun hk => ?_, fun j hj hk herr => ?_⟩
  · rcases hcases with ⟨-, hr⟩ | ⟨j, hj, -, herr, -⟩
    · have hsent := flush_sat s
      rw [flush, hr] at hsent
      obtain ⟨hframe, -, hoff, hlaw⟩ := hsent
      obtain ⟨hok, hstream, -⟩ := hlaw hs
      refine ⟨_, congrArg finish hr, hframe.toFrame rfl, hok, hoff, rfl, ?_, ?_⟩
      · exact congrArg (fun n => s.snkCount + BitVec.ofNat 32 n) hlen
      · rw [sentBits_clearWriter] at hstream
        exact hstream
    · exact absurd herr (hk j hj)
  · rcases hcases with ⟨hall, -⟩ | ⟨i, hi, hbefore, hrefused, hr⟩
    · exact absurd herr (hall j hj)
    · obtain rfl : i = j := by
        rcases Nat.lt_trichotomy i j with h | h | h
        · exact absurd hrefused (hk i h)
        · exact h
        · exact absurd herr (hbefore j h)
      refine ⟨_, congrArg finish hr, rfl, rfl, ?_, ?_⟩
      · simp [delivered, List.take_take, Nat.min_eq_left (Nat.le_of_lt hi)]
      · simp [delivered, List.length_take, hlen, Nat.min_eq_left (Nat.le_of_lt hi)]

/-! ### Writes that are refused -/

theorem writeByte_unaligned (y : Byte) {s : State} (ha : s.wrOff % 8 ≠ 0) :
    writeByte y s = .raised .align (BitVec.ofNat 32 s.wrOff) s := by
  simp [writeByte, wrAligned, ha, offsetInfo]

theorem writeShort_unaligned (v : BitVec 16) {s : State} (ha : s.wrOff % 8 ≠ 0) :
    writeShort v s = .raised .align (BitVec.ofNat 32 s.wrOff) s := by
  rw [writeShort, writeByte_unaligned _ ha, bind_raised]

/-- Settles O42: each of the three begins with a byte write, and ESYM with its look into CT. -/
theorem writesThatAreRefused : Obligations.WritesThatAreRefused := by
  refine fun s => ⟨fun ha => ⟨fun y v => ⟨?_, ?_⟩, ?_⟩, fun y hy => ?_⟩
  · exact congrArg finish (writeByte_unaligned y ha)
  · exact congrArg finish (writeShort_unaligned v ha)
  · rw [exec, execHwrite, writeShort_unaligned _ ha, bind_raised, finish_raised]
  · rw [exec, execEsym, emitCode, hy, finish_raised]

end Sys2Proof.Machine
end

section
/-! SUPPORT. The reader's own statements (20_memory.md R49, R50, R54 to R60): the unread bits decide a consistent reader's
position, RBIT reads them one by one, and ROPEN makes a presentation's bytes the unread ones. -/

namespace Sys2Proof.Machine
open Sys2Proof

/-! ### ROPEN -/

/-- A reader at the start of its source holds up to one buffer of it (R54). -/
theorem readerOk_at_start {s : State} (hB : 0 < s.bufBytes) (hbuf : s.rdBuf = s.src.bytes.take s.bufBytes)
    (hchunk : s.rdChunk = 0) (hoff : s.rdOff = 0) : ReaderOk s ∧ unreadBytes s = s.src.bytes := by
  refine ⟨⟨?_, ?_, ?_, ?_⟩, ?_⟩
  · rw [hbuf, chunkOf, hchunk, Nat.zero_mul, List.drop_zero]
  · rw [hchunk, Nat.zero_mul]
    exact Nat.zero_le _
  · rw [hoff]
    exact Nat.zero_le _
  · rw [hoff]
    omega
  · simp [unreadBytes, consumed, hchunk, hoff]

theorem failureInfo_toNat {k : Nat} (h : k < 2 ^ 32) : (failureInfo k).toNat = k := by
  rw [failureInfo, if_pos h, BitVec.toNat_ofNat, Nat.mod_eq_of_lt h]

/-- Settles O45: an open loads the first chunk, or meets the failure that lies in it. -/
theorem ropenOpensTheNextPresentation : Obligations.RopenOpensTheNextPresentation := by
  intro s p hB hp
  subst hp
  refine ⟨fun hfar => ?_, fun k hk hlt => ⟨?_, failureInfo_toNat⟩⟩
  · rcases openSource_cases s with ⟨-, hr⟩ | ⟨k, hk, hlt, -⟩
    · obtain ⟨hok, hunread⟩ := readerOk_at_start
        (s := s.nextOpen.setReader (s.nextOpen.src.bytes.take s.bufBytes) 0 0) hB rfl rfl rfl
      exact ⟨_, congrArg finish hr, (nextOpen_frame rfl s).trans (setReader_frame rfl _ _ _ _), rfl, rfl, rfl, rfl, rfl,
        hok, hunread⟩
    · exact absurd hlt (Nat.not_lt.mpr (hfar k hk))
  · rcases openSource_cases s with ⟨hno, -⟩ | ⟨j, hj, -, hr⟩
    · have hk' : s.nextOpen.src.failAt = some k := hk
      simp [failsIn, hk', State.bufBytes, hlt] at hno
    · obtain rfl : j = k := Option.some.inj (hj.symm.trans hk)
      rw [exec, execRopen, hr, finish_raised, faultEntry_frame (fp := footprint .ROPEN) rfl (nextOpen_frame rfl s)]

/-! ### The unread bits decide the position -/

/-- A reader's chunk and offset are the quotient and the rest of what it has consumed (R41). -/
theorem ReaderOk.position {s : State} (h : ReaderOk s) :
    s.rdChunk = consumed s / (8 * s.bufBytes) ∧ s.rdOff = consumed s % (8 * s.bufBytes) := by
  obtain ⟨-, -, -, hoff⟩ := h
  rw [consumed, Nat.mul_add_div (by omega), Nat.div_eq_of_lt hoff, Nat.mul_add_mod, Nat.mod_eq_of_lt hoff]
  exact ⟨rfl, rfl⟩

/-- Two consistent readers of one source with the same bits unread stand at one position (R41). -/
theorem ReaderOk.position_unique {t u : State} (ht : ReaderOk t) (hu : ReaderOk u) (hp : t.params = u.params)
    (hsrc : t.src = u.src) (hunread : unreadBits t = unreadBits u) :
    t.rdBuf = u.rdBuf ∧ t.rdChunk = u.rdChunk ∧ t.rdOff = u.rdOff := by
  have hB : t.bufBytes = u.bufBytes := congrArg Config.Params.bufBytes hp
  have hconsumed : consumed t = consumed u := by
    obtain ⟨-, -, hct⟩ := ht.sizes
    obtain ⟨-, -, hcu⟩ := hu.sizes
    rw [hsrc, hunread] at hct
    omega
  obtain ⟨hchunkt, hofft⟩ := ht.position
  obtain ⟨hchunku, hoffu⟩ := hu.position
  have hchunk : t.rdChunk = u.rdChunk := by rw [hchunkt, hchunku, hconsumed, hB]
  refine ⟨?_, hchunk, by rw [hofft, hoffu, hconsumed, hB]⟩
  rw [ht.1, hu.1, hB, hsrc, hchunk]

/-! ### Reading bit by bit -/

/-- RBIT and RBYTE commands have been run from `s`, to where the bits `rest` are unread: nothing differs but RESULT and the
reader's position (R117, R118). -/
structure ReadOn (rest : Bits) (s t : State) : Prop where
  frame : Frame (footprint .RBIT) s t
  ready : Ready t
  unread : unreadBits t = rest

theorem ReadOn.trans {r r' : Bits} {s t u : State} (h : ReadOn r s t) (k : ReadOn r' t u) : ReadOn r' s u :=
  ⟨h.frame.trans k.frame, k.ready, k.unread⟩

/-- Where only RESULT and the reader's position may differ, they say all. -/
theorem Frame.eq_update {s t : State} (h : Frame (footprint .RBIT) s t) :
    t = (s.setReader t.rdBuf t.rdChunk t.rdOff).setResult t.result := by
  obtain ⟨hnodes, hroot⟩ := h.tree rfl
  obtain ⟨hwrBuf, hwrOff, hsnk, hsnkCount⟩ := h.writer rfl
  obtain ⟨hopen, hopens⟩ := h.opening rfl
  simp only [State.setReader, State.setResult, ← h.params, ← h.srcs, ← h.snkErr, ← h.host, ← h.hostReads, ← h.freeIdx,
    ← h.fault, ← h.finfo, ← h.busy, ← h.ctrl rfl, ← h.freq rfl, ← h.ct rfl, ← h.trie rfl, ← hnodes, ← hroot, ← hwrBuf,
    ← hwrOff, ← hsnk, ← hsnkCount, ← hopen, ← hopens]

/-- The bits left unread decide the state but for RESULT. -/
theorem ReadOn.unique {rest : Bits} {s t u : State} (ht : ReadOn rest s t) (hu : ReadOn rest s u) :
    { u with result := t.result } = t := by
  obtain ⟨hbuf, hchunk, hoff⟩ := ht.ready.ok.position_unique hu.ready.ok
    (ht.frame.params.trans hu.frame.params.symm) ((ht.frame.src rfl).trans (hu.frame.src rfl).symm)
    (ht.unread.trans hu.unread.symm)
  rw [ht.frame.eq_update, hu.frame.eq_update, hbuf, hchunk, hoff]
  rfl

/-- A read whose value goes to RESULT. -/
theorem Reads.readOn {α : Type} {r : Res α} {a : α} {P : State → Prop} {rest : Bits} {s : State}
    (h : Reads r a P rest s) (hP : ∀ t, P t → onlyReader s t) (hs : SourceSound s) (f : α → Word) :
    ∃ t, (r.bind fun a t => .ok () (t.setResult (f a))) = .ok () t ∧ ReadOn rest s t ∧ t.result = f a := by
  obtain ⟨t, hr, ht, hpassed⟩ := h.ok (hs.until _)
  have hframe : Frame (footprint .RBIT) s t := by
    rw [hP t ht]
    exact setReader_frame rfl s _ _ _
  refine ⟨t.setResult (f a), by rw [hr, bind_ok], ⟨hframe.trans (setResult_frame rfl t _), ?_, ?_⟩, rfl⟩
  · exact (hpassed.setResult _).ready hs
  · exact (hpassed.setResult _).unread

theorem withReader_open {s : State} (h : s.rdOpen = true) (opc : BitVec 8) (body : State → Res Unit) :
    withReader opc body s = body s := if_pos h

section Open
variable {s : State} (ho : s.rdOpen = true) (h : Ready s)
include ho h

theorem exec_rbit_readOn {b : Bool} {rest : Bits} (hu : unreadBits s = b :: rest) :
    ∃ t, exec .rbit s = .next t ∧ ReadOn rest s t ∧ t.result = if b then 1#32 else 0#32 := by
  obtain ⟨t, hr, ht, hres⟩ := (readBit_reads h.ok hu).readOn (fun _ => id) h.sound
    fun b => (BitVec.ofBool b).setWidth 32
  refine ⟨t, ?_, ht, hres.trans (by cases b <;> rfl)⟩
  rw [exec, execRbit, withReader_open ho, hr, finish_ok]

theorem exec_rbyte_readOn {y : Byte} {rest : Bits} (ha : s.rdOff % 8 = 0)
    (hu : unreadBits s = byteBits s.params.bitOrder y ++ rest) :
    ∃ t, exec .rbyte s = .next t ∧ ReadOn rest s t ∧ t.result = y.setWidth 32 := by
  obtain ⟨t, hr, ht, hres⟩ := (readByte_reads h.ok ha hu).readOn (fun _ => And.left) h.sound
    fun y => y.setWidth 32
  refine ⟨t, ?_, ht, hres⟩
  rw [exec, execRbyte, withReader_open ho, hr, finish_ok]

/-- One RBIT after another reads the unread bits one after another, the last of them left in RESULT (R59, R117). -/
theorem runCommands_rbits (hs : Running s) {c rest : Bits} {b : Bool} (hu : unreadBits s = c ++ b :: rest) :
    ∃ t, runCommands (List.replicate (c.length + 1) .rbit) s = .next t ∧ ReadOn rest s t ∧
      t.result = if b then 1#32 else 0#32 := by
  induction c generalizing s with
  | nil =>
    obtain ⟨t, he, ht, hres⟩ := exec_rbit_readOn ho h hu
    exact ⟨t, runCommands_cons hs he [], ht, hres⟩
  | cons a c ih =>
    obtain ⟨t, he, ht, -⟩ := exec_rbit_readOn ho h hu
    obtain ⟨u, hr, hu, hres⟩ := ih ((ht.frame.opening rfl).1.trans ho) ht.ready (ht.frame.running hs) ht.unread
    exact ⟨u, (runCommands_cons hs he _).trans hr, ht.trans hu, hres⟩

end Open

/-- Bit `k` of a byte's eight, with those before and after it (R49). -/
theorem byteBits_split (o : Config.BitOrder) (y : Byte) {k : Nat} (hk : k < 8) :
    byteBits o y = (byteBits o y).take k ++ y.getLsbD (bitPos o k) :: (byteBits o y).drop (k + 1) := by
  have hlt : k < (byteBits o y).length := by rwa [byteBits_length]
  have hget : (byteBits o y)[k] = y.getLsbD (bitPos o k) := by simp [byteBits]
  rw [← hget, List.cons_getElem_drop_succ, List.take_append_drop]

/-- Settles O50: both ways to read leave the same bits unread, which decide the reader's position. -/
theorem rbyteIsEightRbits : Obligations.RbyteIsEightRbits := by
  intro s y rest ho h ha hb hf hbytes
  have hs := running_of_fault hb hf
  have hu : unreadBits s = byteBits s.params.bitOrder y ++ bytesBits s.params.bitOrder rest := by
    rw [unreadBits_eq_bytes ha, hbytes, bytesBits_cons]
  have hrun : ∀ k, k < 8 → ∃ t, runCommands (List.replicate (k + 1) .rbit) s = .next t ∧
      ReadOn ((byteBits s.params.bitOrder y).drop (k + 1) ++ bytesBits s.params.bitOrder rest) s t ∧
      t.result = if y.getLsbD (bitPos s.params.bitOrder k) then 1#32 else 0#32 := fun k hk => by
    rw [byteBits_split _ y hk, List.append_assoc, List.cons_append] at hu
    have := runCommands_rbits ho h hs hu
    rwa [List.length_take, byteBits_length, Nat.min_eq_left hk.le] at this
  refine ⟨fun k hk => ?_, ?_⟩
  · obtain ⟨t, hr, -, hres⟩ := hrun k hk
    refine ⟨t, hr, hres.trans ?_⟩
    cases s.params.bitOrder <;> simp [bitPos, Nat.mod_eq_of_lt hk]
  · obtain ⟨t, he, ht, hres⟩ := exec_rbyte_readOn ho h ha hu
    obtain ⟨u, hr, hu8, -⟩ := hrun 7 (by decide)
    have hdone : (byteBits s.params.bitOrder y).drop (7 + 1) = [] := List.drop_of_length_le (by simp)
    rw [hdone, List.nil_append] at hu8
    exact ⟨t, u, he, hres, hr, ht.unique hu8⟩

end Sys2Proof.Machine
end

section
/-! SUPPORT. A scan that ends with no fault has read to the end of its source, and so has met every chunk of it (20_memory.md
R55, R56, R69). -/

namespace Sys2Proof.Machine
open Sys2Proof

/-! ### Reads towards the end of the source -/

/-- What leaves the reader alone leaves its unread bits and the failures ahead of them. -/
theorem Frame.passed {fp : Footprint} {s t : State} (h : Frame fp s t) (hp : fp.position = false)
    (ho : fp.opening = false) (hr : ReaderOk s) : Passed (unreadBits s) s t := by
  obtain ⟨hbuf, hchunk, hoff⟩ := h.position hp
  have hsrc := h.src ho
  refine ⟨h.params, hsrc, ?_, ?_, fun m _ => ?_⟩
  · rw [ReaderOk, State.bufBytes, State.rdValid, hsrc, h.params, hbuf, hchunk, hoff]
    exact hr
  · rw [unreadBits, consumed, State.bufBytes, hsrc, h.params, hchunk, hoff]
    rfl
  · rw [SoundUntil, SoundUntil, State.bufBytes, State.bufBytes, hsrc, h.params, hchunk]

theorem readBit_passes {s : State} (hr : ReaderOk s) :
    (readBit s).Sat (fun _ t => Passed (unreadBits t) s t ∧ (unreadBits s).length = (unreadBits t).length + 1)
      fun _ _ _ => True := by
  refine (readBit_sat s).mono (fun b t ht => ?_) fun _ _ _ _ => trivial
  obtain ⟨honly, -, hlaw⟩ := ht
  obtain ⟨hok, hunread, -, hahead⟩ := hlaw hr
  exact ⟨⟨honly.params, honly.src, hok, rfl, hahead⟩, by rw [hunread, List.length_cons]⟩

theorem readByte_passes {s : State} (hr : ReaderOk s) :
    (readByte s).Sat (fun _ t => Passed (unreadBits t) s t ∧ (unreadBits s).length = (unreadBits t).length + 8)
      fun _ _ _ => True := by
  refine (readByte_sat s).mono (fun y t ht => ?_) fun _ _ _ _ => trivial
  obtain ⟨honly, -, -, hlaw⟩ := ht
  obtain ⟨hok, -, hunread, -, -, hahead⟩ := hlaw hr
  exact ⟨⟨honly.params, honly.src, hok, rfl, hahead⟩, by
    rw [hunread, List.length_append, byteBits_length, Nat.add_comm]⟩

/-- A reader with nothing unread has no failure ahead. -/
theorem sourceSound_of_spent {s : State} (hr : ReaderOk s) (h : (unreadBits s).length = 0) : SourceSound s := by
  refine sourceSound_of_exhausted hr ?_
  rw [← Bool.not_eq_true, hasNext_iff_unread hr]
  exact not_not_intro (List.length_eq_zero_iff.mp h)

/-! ### The scans -/

/-- A loop that has met no failure from where the reader has passed to has met none from before. -/
theorem Res.Keeps.soundBefore {α : Type} {r : Res α} {rest : Bits} {s t : State} (p : Passed rest s t)
    (h : r.Keeps fun _ => SourceSound t) : r.Keeps fun _ => SourceSound s :=
  h.mono (fun _ _ => p.sound.mpr) fun _ _ _ => id

/-- A piece that leaves the reader alone, and then a loop that meets no failure. -/
theorem Within.thenSound {fp : Footprint} {es : List ErrorCode} (hp : fp.position = false) (ho : fp.opening = false)
    {r : Res Unit} {f : Unit → State → Res Unit} {s : State} (h : Within fp es s r) (hr : ReaderOk s)
    (hf : ∀ a u, ReaderOk u → unreadBits u = unreadBits s → (f a u).Keeps fun _ => SourceSound u) :
    (r.bind f).Keeps fun _ => SourceSound s := by
  have hframe : r.Keeps (Frame fp s) := .of_sat h fun _ _ ht => ht.1
  refine hframe.bind fun a u hu => ?_
  have pu := hu.passed hp ho hr
  exact (hf a u pu.ok pu.unread).soundBefore pu

/-- FSCAN's and ESCAN's loop, whose body leaves the reader alone: where it ends with no fault, no failure lay ahead. -/
theorem scanBytes_sound {fp : Footprint} {es : List ErrorCode} {body : Byte → State → Res Unit}
    (hp : fp.position = false) (ho : fp.opening = false) (hbody : ∀ y s, Within fp es s (body y s)) {n : Nat} {s : State}
    (hr : ReaderOk s) (hn : (unreadBits s).length ≤ 8 * n) : (scanBytes body n s).Keeps fun _ => SourceSound s := by
  induction n generalizing s with
  | zero => exact sourceSound_of_spent hr (by omega)
  | succ n ih =>
    unfold scanBytes
    split
    · refine Res.Sat.bind (readByte_passes hr) fun y t ⟨ht, hlen⟩ => Res.Keeps.soundBefore ht ?_
      exact (hbody y t).thenSound hp ho ht.ok fun _ u hu hunread => ih hu (by rw [hunread]; omega)
    · next hx => exact sourceSound_of_exhausted hr (by simpa using hx)

/-- DSCAN's loop: where it ends with no fault, no failure lay ahead. -/
theorem decodeAll_sound {n : Nat} {p : Bits} {s : State} (hr : ReaderOk s) (hn : (unreadBits s).length ≤ n) :
    (decodeAll n p s).Keeps fun _ => SourceSound s := by
  induction n generalizing p s with
  | zero => exact sourceSound_of_spent hr (by omega)
  | succ n ih =>
    unfold decodeAll
    split
    · rw [trieStep, Res.bind_assoc]
      refine Res.Sat.bind (readBit_passes hr) fun b t ⟨ht, hlen⟩ => Res.Keeps.soundBefore ht ?_
      split
      · trivial
      · rw [bind_ok]
        split
        · next y _ =>
          have hwrite : Within (footprint .WBYTE) [.align, .snkIo] t (writeByte y t) :=
            writeByte_within rfl (by decide) (by decide) y t
          exact hwrite.thenSound rfl rfl ht.ok fun _ u hu hunread => ih hu (by rw [hunread]; omega)
        · exact ih ht.ok (by omega)
    · next hx => exact sourceSound_of_exhausted hr (by simpa using hx)

/-- A scan that ends with no fault had no failure ahead (R55, R69). -/
theorem scan_sound {i : Instr} (hi : i ∈ [Instr.fscan, .escan, .dscan]) {s t : State} (hr : ReaderOk s)
    (he : exec i s = .next t) (ht : t.faulted = false) : SourceSound s := by
  simp only [List.mem_cons, List.not_mem_nil, or_false] at hi
  rcases hi with rfl | rfl | rfl
  · exact (withReader_keeps _ (scanBytes_sound (fp := footprint .FADD) (es := [.ovf]) rfl rfl
      (fun y s => countByte_within rfl rfl (by decide) y s) hr (unreadBits_le s))).next he ht
  · exact (withReader_keeps _ (scanBytes_sound (fp := footprint .ESYM) (es := [.snkIo, .noCode]) rfl rfl
      (fun y s => emitCode_within rfl (by decide) (by decide) y s) hr (unreadBits_le s))).next he ht
  · exact (withReader_keeps _ (decodeAll_sound hr (unreadBits_le s))).next he ht

theorem ErrorCode.eq_srcIo {e : ErrorCode} (h : (e.code.setWidth 32 : Word) = 0x00000007#32) : e = .srcIo := by
  cases e with
  | srcIo => rfl
  | _ => exact absurd h (by decide)

/-- Settles O54: a scan that ends with no fault has met every chunk; a fault E_SRC_IO names the failure's index. -/
theorem scansReportSourceFailures : Obligations.ScansReportSourceFailures := by
  intro i s t hi _ hr hf hunsound he
  have hne : i ≠ .sreset ∧ (footprint i.mnemonic).opening = false := by
    simp only [List.mem_cons, List.not_mem_nil, or_false] at hi
    rcases hi with rfl | rfl | rfl <;> decide
  have ht : t.faulted = true := by
    rw [← Bool.not_eq_false]
    exact fun ht => hunsound (scan_sound hi hr he ht)
  refine ⟨ht, fun hcode => ?_⟩
  rcases exec_next hne.1 he with ⟨hframe, -⟩ | ⟨e, info, u, -, hform, rfl, -⟩
  · exact absurd (hcode.symm.trans (hframe.fault.trans hf)) (by decide)
  · obtain rfl := ErrorCode.eq_srcIo hcode
    exact hform hne.2

end Sys2Proof.Machine
end

section
/-! SUPPORT. Decoding, said once (30_encoding.md R73 to R77): the words of a row are those with the row's OPC and zeros above
its operand bits, and a word of a row is the encoding of the command it decodes to. -/

namespace Sys2Proof
open Sys2Proof.Machine

/-! ### The bits a format leaves to operands (R74) -/

/-- How many of the low bits of a word are operand bits under a format. -/
def Machine.Format.operandBits : Format → Nat
  | .n => 0
  | .b => 1
  | .y => 8
  | .s | .p => 16

theorem Machine.Format.operandBits_le (f : Format) : f.operandBits ≤ 16 := by cases f <;> decide

/-- A format fixes every bit above its operand bits and no other. -/
theorem mask_getLsbD (f : Format) {k : Nat} (hk : k < 32) : f.mask.getLsbD k = decide (f.operandBits ≤ k) := by
  cases f <;> interval_cases k <;> rfl

/-- The word lies in the row: it has the row's OPC, and under the row's mask it is the row's match word (R76, R77). -/
def InRow (w : Word) (m : Mnemonic) : Prop := m.opc = opcField w ∧ w &&& m.format.mask = m.matchWord

/-- A word lies in at most one row. -/
theorem InRow.unique {w : Word} {m n : Mnemonic} (hm : InRow w m) (hn : InRow w n) : m = n :=
  opc_inj (hm.1.trans hn.1.symm)

theorem encode_inRow (i : Instr) : InRow (encode i) i.mnemonic := ⟨(opcField_encode i).symm, encode_matches i⟩

theorem opcField_getLsbD (w : Word) {k : Nat} (h : k < 8) : (opcField w).getLsbD k = w.getLsbD (24 + k) := by
  simp [opcField, h]

theorem matchWord_getLsbD (m : Mnemonic) (k : Nat) :
    m.matchWord.getLsbD k = if k < 24 then false else m.opc.getLsbD (k - 24) := by
  rw [Mnemonic.matchWord, BitVec.getLsbD_append, BitVec.getLsbD_zero]

/-- The words of a row are those with its OPC and zeros in bits 23 down to its operand bits (R73, R74). -/
theorem inRow_iff {w : Word} {m : Mnemonic} :
    InRow w m ↔ m.opc = opcField w ∧ ∀ k, m.format.operandBits ≤ k → k < 24 → w.getLsbD k = false := by
  refine and_congr_right fun hopc => ⟨fun h k hlow hk => ?_, fun h => BitVec.eq_of_getLsbD_eq fun k hk => ?_⟩
  · have hbit := congrArg (fun v => v.getLsbD k) h
    simpa [mask_getLsbD _ (show k < 32 by omega), matchWord_getLsbD, hlow, hk] using hbit
  · rw [BitVec.getLsbD_and, mask_getLsbD _ hk, matchWord_getLsbD]
    have hle := m.format.operandBits_le
    by_cases hlow : m.format.operandBits ≤ k
    · by_cases h24 : k < 24
      · simp [h24, h k hlow h24]
      · rw [hopc, opcField_getLsbD w (by omega), show 24 + (k - 24) = k by omega]
        simp [h24, hlow]
    · simp [hlow, show k < 24 by omega]

/-- A field of a word is zero where its bits are. -/
theorem extract_eq_zero_iff (w : Word) (a n : Nat) :
    w.extractLsb' a n = 0#n ↔ ∀ k, a ≤ k → k < a + n → w.getLsbD k = false := by
  refine ⟨fun h k ha hk => ?_, fun h => BitVec.eq_of_getLsbD_eq fun k hk => ?_⟩
  · have hbit := congrArg (fun v => v.getLsbD (k - a)) h
    simpa [show k - a < n by omega, show a + (k - a) = k by omega] using hbit
  · simp [hk, h (a + k) (by omega) (by omega)]

/-! ### A word of a row is its command's encoding -/

/-- The bits IMM has in a command read from a word: the word's own operand bits (R75). -/
theorem imm_buildInstr (w : Word) (m : Mnemonic) {k : Nat} (hk : k < m.format.operandBits) :
    (buildInstr w m).imm.getLsbD k = w.getLsbD k := by
  cases m with
  | SETCTRL | WBIT =>
    obtain rfl : k = 0 := Nat.lt_one_iff.mp hk
    simp [buildInstr, Instr.imm, operandB]
  | FADD | FGET | CLEN | WBYTE | ESYM =>
    have hk : k < 8 := hk
    simp [buildInstr, Instr.imm, operandY, hk, show k < 16 by omega]
  | WSHORT =>
    have hk : k < 16 := hk
    simp [buildInstr, Instr.imm, operandV, hk]
  | CBIT =>
    have hk : k < 16 := hk
    simp only [buildInstr, Instr.imm, operandS, operandI, BitVec.getLsbD_append, BitVec.getLsbD_extractLsb']
    by_cases h8 : k < 8
    · simp [h8]
    · simp [h8, show k - 8 < 8 by omega, show 8 + (k - 8) = k by omega]
  | _ => exact absurd hk (Nat.not_lt_zero k)

theorem encode_buildInstr {w : Word} {m : Mnemonic} (h : InRow w m) : encode (buildInstr w m) = w := by
  obtain ⟨hopc, hzero⟩ := inRow_iff.mp h
  have hown := encode_inRow (buildInstr w m)
  rw [buildInstr_mnemonic, inRow_iff] at hown
  obtain ⟨hopc', hzero'⟩ := hown
  refine BitVec.eq_of_getLsbD_eq fun k hk => ?_
  have hle := m.format.operandBits_le
  by_cases hlow : k < m.format.operandBits
  · rw [bit_imm _ (by omega), imm_buildInstr w m hlow]
  · by_cases h24 : k < 24
    · rw [hzero k (by omega) h24, hzero' k (by omega) h24]
    · have hbit : ∀ v : Word, v.getLsbD k = (opcField v).getLsbD (k - 24) := fun v => by
        rw [opcField_getLsbD v (by omega), show 24 + (k - 24) = k by omega]
      rw [hbit, hbit, ← hopc, ← hopc']

@[simp] theorem operands_buildInstr (w : Word) (m : Mnemonic) : (buildInstr w m).operands = m.format.operands w := by
  cases m <;> rfl

/-! ### Decoding by rows -/

theorem decode_of_inRow {w : Word} {m : Mnemonic} (h : InRow w m) : decode w = .ok (buildInstr w m) := by
  rw [decode, ← h.1, rowOf_opc]
  exact if_pos h.2

/-- A word in no row is illegal (R77, R79). -/
theorem decode_of_no_row {w : Word} (h : ∀ m, ¬ InRow w m) : ∃ e, decode w = .error e := by
  unfold decode
  split
  · exact ⟨_, rfl⟩
  · next m hm => exact ⟨_, if_neg fun hmatch => h m ⟨opc_of_rowOf hm, hmatch⟩⟩

theorem decode_ok_iff {w : Word} {i : Instr} : decode w = .ok i ↔ ∃ m, InRow w m ∧ i = buildInstr w m := by
  refine ⟨fun h => ?_, fun ⟨m, hm, hi⟩ => hi ▸ decode_of_inRow hm⟩
  by_cases hrow : ∃ m, InRow w m
  · obtain ⟨m, hm⟩ := hrow
    exact ⟨m, hm, Except.ok.inj (h.symm.trans (decode_of_inRow hm))⟩
  · obtain ⟨e, he⟩ := decode_of_no_row (not_exists.mp hrow)
    exact nomatch h.symm.trans he

theorem decode_error_iff {w : Word} : (∃ e, decode w = .error e) ↔ ∀ m, ¬ InRow w m := by
  refine ⟨?_, decode_of_no_row⟩
  rintro ⟨e, he⟩ m hm
  exact nomatch he.symm.trans (decode_of_inRow hm)

/-- Settles O1: a word in a row is the encoding of the command it decodes to, and a command's word decodes to it. -/
theorem decodeInvertsEncode : Obligations.DecodeInvertsEncode := by
  refine fun w i => ⟨fun h => ?_, fun h => h ▸ decode_encode i⟩
  obtain ⟨m, hm, rfl⟩ := decode_ok_iff.mp h
  exact encode_buildInstr hm

/-! ### Issuing a word -/

theorem issue_decoded {w : Word} {s : State} {i : Instr} (hs : Running s) (h : decode w = .ok i) :
    issue w s = exec i s := by
  simp [issue, hs.1, hs.2, h]

theorem issue_illegal {w : Word} {s : State} (hs : Running s) (h : ∃ e, decode w = .error e) :
    issue w s = .next (faultEntry .illegal w s) := by
  obtain ⟨e, he⟩ := h
  simp [issue, hs.1, hs.2, he]

/-- Settles O2: a word lies in one row, whose command runs, or in none. -/
theorem everyWordSelectsOneRowOrFaults : Obligations.EveryWordSelectsOneRowOrFaults := by
  intro w s hb hf
  by_cases hrow : ∃ m, InRow w m
  · obtain ⟨m, hm⟩ := hrow
    have hd := decode_of_inRow hm
    refine .inl ⟨⟨m, hm, fun n hn => InRow.unique hn hm⟩, buildInstr w m, hd, ?_⟩
    rw [buildInstr_mnemonic, operands_buildInstr]
    exact ⟨hm.1, hm.2, rfl, issue_decoded ⟨hb, hf⟩ hd⟩
  · have hno := not_exists.mp hrow
    exact .inr ⟨hno, issue_illegal ⟨hb, hf⟩ (decode_of_no_row hno)⟩

/-! ### The illegal words (R79) -/

/-- The OPC values in no row of the map, as R79 lists them in ascending runs. -/
def unassignedOpcodes : List Nat :=
  [0x00] ++ List.range' 0x03 13 ++ List.range' 0x14 12 ++ List.range' 0x21 15 ++ List.range' 0x33 13 ++
    List.range' 0x42 14 ++ List.range' 0x54 12 ++ List.range' 0x66 10 ++ List.range' 0x72 14 ++ List.range' 0x83 125

theorem unassigned_iff (op : BitVec 8) : op.toNat ∈ unassignedOpcodes ↔ ∀ m : Mnemonic, m.opc ≠ op := by
  have hlt := op.isLt
  simp only [ne_eq, ← BitVec.toNat_inj, unassignedOpcodes, List.mem_append, List.mem_singleton, List.mem_range'_1]
  generalize op.toNat = n at hlt ⊢
  constructor
  · intro h m
    cases m <;> simp only [Mnemonic.opc, BitVec.toNat_ofNat] <;> omega
  · intro h
    have hall : ∀ m ∈ Mnemonic.all, m.opc.toNat ≠ n := fun m _ => h m
    simp [Mnemonic.all, Mnemonic.opc] at hall
    omega

/-- The must-be-zero bits of IMM under a format, as R74 gives them. -/
def FixedImmSet (f : Format) (w : Word) : Prop :=
  (f = .n ∧ w.extractLsb' 0 16 ≠ 0#16) ∨ (f = .b ∧ w.extractLsb' 1 15 ≠ 0#15) ∨ (f = .y ∧ w.extractLsb' 8 8 ≠ 0#8)

theorem fixedImmSet_iff (f : Format) (w : Word) :
    FixedImmSet f w ↔ ∃ k, f.operandBits ≤ k ∧ k < 16 ∧ w.getLsbD k = true := by
  cases f <;> simp [FixedImmSet, extract_eq_zero_iff, Format.operandBits]
  all_goals exact fun k hlow hk => absurd hk (Nat.not_lt.mpr hlow)

theorem rsvField_ne_zero_iff (w : Word) : rsvField w ≠ 0#8 ↔ ∃ k, 16 ≤ k ∧ k < 24 ∧ w.getLsbD k = true := by
  rw [rsvField, Ne, extract_eq_zero_iff]
  simp

/-- Settles O3: a word lies in no row where its OPC is unassigned or a bit above its row's operand bits is set. -/
theorem illegalEncodings : Obligations.IllegalEncodings := by
  refine fun w s hb hf => ⟨Iff.trans ?_ decode_error_iff.symm, fun h =>
    ⟨_, issue_illegal ⟨hb, hf⟩ h, rfl, rfl, rfl, rfl, rfl⟩⟩
  refine (or_congr (unassigned_iff (opcField w)) Iff.rfl).trans ⟨?_, fun h => ?_⟩
  · rintro (hno | hrsv | ⟨m, hopc, himm⟩) n hn
    · exact hno n hn.1
    · obtain ⟨k, hlow, hk, hset⟩ := (rsvField_ne_zero_iff w).mp hrsv
      exact Bool.noConfusion (((inRow_iff.mp hn).2 k (n.format.operandBits_le.trans hlow) hk).symm.trans hset)
    · obtain rfl : m = n := opc_inj (hopc.trans hn.1.symm)
      obtain ⟨k, hlow, hk, hset⟩ := (fixedImmSet_iff m.format w).mp himm
      exact Bool.noConfusion (((inRow_iff.mp hn).2 k hlow (by omega)).symm.trans hset)
  · by_cases hopc : ∃ m : Mnemonic, m.opc = opcField w
    · obtain ⟨m, hm⟩ := hopc
      have hbit : ∃ k, m.format.operandBits ≤ k ∧ k < 24 ∧ w.getLsbD k = true := by
        by_contra hno
        push Not at hno
        exact h m (inRow_iff.mpr ⟨hm, fun k hlow hk => by simpa using hno k hlow hk⟩)
      obtain ⟨k, hlow, hk, hset⟩ := hbit
      by_cases h16 : k < 16
      · exact .inr (.inr ⟨m, hm, (fixedImmSet_iff m.format w).mpr ⟨k, hlow, h16, hset⟩⟩)
      · exact .inr (.inl ((rsvField_ne_zero_iff w).mpr ⟨k, by omega, hk, hset⟩))
    · exact .inl (not_exists.mp hopc)

/-! ### Assembler lines (R80) -/

/-- The number a line's operands make in IMM: the operands' fields side by side, the last one lowest (R74, R80). -/
def operandValue : List Nat → Nat
  | [] => 0
  | [a] => a
  | a :: b :: _ => 256 * a + b

theorem assemble_wellFormed {l : Line} (h : l.wellFormed = true) :
    assemble l = some (l.mnemonic.matchWord ||| BitVec.ofNat 32 (operandValue l.operands)) := by
  rw [assemble, if_pos h]
  rcases l.operands with _ | ⟨a, _ | ⟨b, r⟩⟩
  · simp [operandValue]
  · rfl
  · rfl

/-- A list of operands a format takes: as many as it has, each in range (R80). -/
def Machine.Format.Takes (f : Format) (ops : List Nat) : Prop :=
  ops.length = f.bounds.length ∧ ∀ p ∈ ops.zip f.bounds, p.1 < p.2

theorem wellFormed_iff {l : Line} : l.wellFormed = true ↔ l.mnemonic.format.Takes l.operands := by
  simp [Line.wellFormed, Line.arityOk, Line.rangesOk, Machine.Format.Takes]

/-- The operands of a word are ones its format takes. -/
theorem operands_taken (f : Format) (w : Word) : f.Takes (f.operands w) := by
  refine ⟨by cases f <;> rfl, ?_⟩
  cases f with
  | n => simp [Format.operands]
  | b => simpa [Format.operands, Format.bounds] using Bool.toNat_lt (operandB w)
  | y => simpa [Format.operands, Format.bounds] using (operandY w).isLt
  | s => simpa [Format.operands, Format.bounds] using (operandV w).isLt
  | p => simpa [Format.operands, Format.bounds] using ⟨(operandS w).isLt, (operandI w).isLt⟩

theorem operandB_toNat (w : Word) : (operandB w).toNat = w.toNat % 2 := by
  rw [operandB, BitVec.getLsbD, Nat.toNat_testBit, pow_zero, Nat.div_one]

theorem operandY_toNat (w : Word) : (operandY w).toNat = w.toNat % 256 := by simp [operandY]

theorem operandV_toNat (w : Word) : (operandV w).toNat = w.toNat % 65536 := by simp [operandV]

theorem operandS_toNat (w : Word) : (operandS w).toNat = w.toNat / 256 % 256 := by
  simp [operandS, Nat.shiftRight_eq_div_pow]

/-- Operands in range fill operand bits and no bit above, and a word that has them there has them as its operands (R74,
R75). -/
theorem Machine.Format.Takes.value {f : Format} {ops : List Nat} (h : f.Takes ops) :
    operandValue ops < 2 ^ f.operandBits ∧
      ∀ w : Word, w.toNat % 65536 = operandValue ops → f.operands w = ops := by
  obtain ⟨hlen, hrange⟩ := h
  cases f with
  | n =>
    obtain rfl := List.length_eq_zero_iff.mp hlen
    exact ⟨by decide, fun _ _ => rfl⟩
  | b | y | s =>
    obtain ⟨a, rfl⟩ := List.length_eq_one_iff.mp hlen
    simp only [Format.bounds, List.zip_cons_cons, List.zip_nil_left, List.mem_singleton, forall_eq] at hrange
    refine ⟨hrange, fun w hw => ?_⟩
    simp only [operandValue] at hw
    simp only [Format.operands, operandB_toNat, operandY_toNat, operandV_toNat]
    exact congrArg (fun n => [n]) (by omega)
  | p =>
    obtain ⟨a, b, rfl⟩ := List.length_eq_two.mp hlen
    simp only [Format.bounds, List.zip_cons_cons, List.zip_nil_left, List.forall_mem_cons, List.not_mem_nil] at hrange
    obtain ⟨ha, hb, -⟩ := hrange
    refine ⟨show 256 * a + b < 65536 by omega, fun w hw => ?_⟩
    simp only [operandValue] at hw
    have hI : (operandI w).toNat = w.toNat % 256 := operandY_toNat w
    simp only [Format.operands, operandS_toNat, hI]
    exact congrArg₂ (fun m n => [m, n]) (by omega) (by omega)

/-- A row's match word with a number in its operand bits lies in the row, and has the number as its low 16 bits. -/
theorem matchWord_or_ofNat (m : Mnemonic) {v : Nat} (hv : v < 2 ^ m.format.operandBits) :
    InRow (m.matchWord ||| BitVec.ofNat 32 v) m ∧ (m.matchWord ||| BitVec.ofNat 32 v).toNat % 65536 = v := by
  have hv16 : v < 2 ^ 16 := hv.trans_le (Nat.pow_le_pow_right (by decide) m.format.operandBits_le)
  have hclear : ∀ k, m.format.operandBits ≤ k → v.testBit k = false := fun k hk =>
    Nat.testBit_lt_two_pow (hv.trans_le (Nat.pow_le_pow_right (by decide) hk))
  have hle := m.format.operandBits_le
  refine ⟨inRow_iff.mpr ⟨BitVec.eq_of_getLsbD_eq fun k hk => ?_, fun k hlow hk => ?_⟩, ?_⟩
  · rw [opcField_getLsbD _ hk, BitVec.getLsbD_or, matchWord_getLsbD, BitVec.getLsbD_ofNat, hclear _ (by omega)]
    simp
  · rw [BitVec.getLsbD_or, matchWord_getLsbD, BitVec.getLsbD_ofNat, hclear k hlow]
    simp [hk]
  · rw [BitVec.toNat_or, Mnemonic.matchWord, BitVec.toNat_append, BitVec.toNat_ofNat, BitVec.toNat_ofNat,
      Nat.mod_eq_of_lt (show v < 2 ^ 32 by omega), Nat.zero_mod, Nat.or_zero,
      ← Nat.shiftLeft_add_eq_or_of_lt (show v < 2 ^ 24 by omega), Nat.shiftLeft_eq]
    omega

/-- The operands of a word say which command of a row it is. -/
theorem buildInstr_congr {w v : Word} {m : Mnemonic} (h : m.format.operands w = m.format.operands v) :
    buildInstr w m = buildInstr v m := by
  cases m with
  | SETCTRL | WBIT =>
    have hinj : ∀ a b : Bool, a.toNat = b.toNat → a = b := by decide
    have hb : operandB w = operandB v := hinj _ _ (List.cons.inj h).1
    simp only [buildInstr, hb]
  | FADD | FGET | CLEN | WBYTE | ESYM =>
    have hy : operandY w = operandY v := BitVec.eq_of_toNat_eq (List.cons.inj h).1
    simp only [buildInstr, hy]
  | WSHORT =>
    have hv : operandV w = operandV v := BitVec.eq_of_toNat_eq (List.cons.inj h).1
    simp only [buildInstr, hv]
  | CBIT =>
    obtain ⟨hs, hrest⟩ := List.cons.inj h
    have hsym : operandS w = operandS v := BitVec.eq_of_toNat_eq hs
    have hidx : operandI w = operandI v := BitVec.eq_of_toNat_eq (List.cons.inj hrest).1
    simp only [buildInstr, hsym, hidx]
  | _ => rfl

/-- The operands of a command are those of its word. -/
theorem operands_encode (i : Instr) : i.mnemonic.format.operands (encode i) = i.operands := by
  rw [← operands_buildInstr, buildInstr_encode]

/-- A command is its mnemonic and its operands. -/
theorem Instr.ext_operands {i j : Instr} (hm : i.mnemonic = j.mnemonic) (ho : i.operands = j.operands) : i = j := by
  rw [← buildInstr_encode i, ← buildInstr_encode j, hm]
  exact buildInstr_congr (by rw [operands_encode, ← hm, operands_encode, ho])

/-- A line in range is the word of the command it names (R80). -/
theorem assemble_line {l : Line} (h : l.wellFormed = true) :
    ∃ i, assemble l = some (encode i) ∧ i.mnemonic = l.mnemonic ∧ i.operands = l.operands := by
  obtain ⟨hlt, hops⟩ := (wellFormed_iff.mp h).value
  obtain ⟨hrow, hlow⟩ := matchWord_or_ofNat l.mnemonic hlt
  refine ⟨_, (assemble_wellFormed h).trans (congrArg some (encode_buildInstr hrow).symm), buildInstr_mnemonic _ _, ?_⟩
  rw [operands_buildInstr, hops _ hlow]

/-- Settles O4: a line's word lies in the line's row, and a command is its mnemonic and its operands. -/
theorem assemblerEncodesLines : Obligations.AssemblerEncodesLines := by
  refine ⟨fun l hl => ?_, fun l hl => if_neg (by simp [hl]), fun i => ?_⟩
  · obtain ⟨i, henc, hm, ho⟩ := assemble_line hl
    exact ⟨i, henc, decode_encode i, hm, ho⟩
  · have hl : (Line.mk i.mnemonic i.operands).wellFormed = true :=
      wellFormed_iff.mpr (operands_encode i ▸ operands_taken i.mnemonic.format (encode i))
    obtain ⟨j, henc, hm, ho⟩ := assemble_line hl
    obtain rfl := Instr.ext_operands hm ho
    exact ⟨hl, henc⟩

/-- Settles O5: each of the words is its command's encoding. -/
theorem writtenWordsDecode : Obligations.WrittenWordsDecode :=
  ⟨decode_encode .sreset, decode_encode (.setctrl true), decode_encode (.fadd 0x41#8), decode_encode .tbuild,
    decode_encode (.cbit 0x41#8 3#8), decode_encode .hwrite, decode_encode (.wbyte 0x41#8),
    decode_encode (.wshort 256#16), decode_encode .ropen, decode_encode (.esym 0x43#8), decode_encode .dsym⟩

end Sys2Proof

namespace Sys2Proof.Machine
open Sys2Proof

/-! ### Issue (R78) -/

/-- Settles O6: the CMD write issues the word, and the decoder gives the command. -/
theorem stepRunsDecodedCommand : Obligations.StepRunsDecodedCommand := by
  intro s rest w i hhost hb hf hd
  rw [step_cons hhost]
  exact issue_decoded (s := s.setHost rest) ⟨hb, hf⟩ hd

/-- A command that needs the reader is a body behind the check of RD_OPEN, which names the command's own OPC (R78). -/
theorem exec_withReader {i : Instr} (hn : i.mnemonic.needsReader = true) (s : State) :
    ∃ body, exec i s = finish (withReader i.mnemonic.opc body s) := by
  cases i with
  | fscan | hread | rhasnext | rbit | rbyte | rshort | raligned | escan | dsym | dscan => exact ⟨_, rfl⟩
  | _ => exact nomatch hn

/-- Settles O17: the check of RD_OPEN comes before the body. -/
theorem missingReaderFaults : Obligations.MissingReaderFaults := by
  intro i s hn ho
  obtain ⟨body, hbody⟩ := exec_withReader hn s
  rw [hbody, withReader, if_neg (by simp [ho]), finish_raised]

end Sys2Proof.Machine
end

section
/-! SUPPORT. What each command of COMPRESS and DECOMPRESS does where nothing fails (30_encoding.md R81, R82): no source
failure lies ahead, the sink takes every byte, and the counts fit. -/

namespace Sys2Proof.Machine
open Sys2Proof

/-! ### Runs -/

/-- One list of commands is run, and another from where it ends. -/
theorem runCommands_append {is js : List Instr} {s t : State} (h : runCommands is s = .next t) :
    runCommands (is ++ js) s = runCommands js t := by
  induction is generalizing s with
  | nil =>
    injection h with h
    exact h ▸ rfl
  | cons i is ih =>
    simp only [runCommands, List.cons_append, List.map_cons, issueAll] at h ⊢
    cases hi : issue (encode i) s with
    | next u =>
      rw [hi] at h
      exact ih h
    | fault e => exact nomatch e
    | refused e =>
      rw [hi] at h
      exact nomatch h

/-- A footprint lies inside another. -/
def Footprint.inside (a b : Footprint) : Bool :=
  (!a.result || b.result) && (!a.ctrl || b.ctrl) && (!a.freq || b.freq) && (!a.tree || b.tree) && (!a.ct || b.ct) &&
    (!a.trie || b.trie) && (!a.writer || b.writer) && (!a.position || b.position) && (!a.opening || b.opening)

/-- What stays inside a footprint stays inside a larger one. -/
theorem Frame.widen {a b : Footprint} {s t : State} (h : Frame a s t) (hab : a.inside b = true) : Frame b s t := by
  have outside : ∀ {x y : Bool}, (!x || y) = true → y = false → x = false := by decide
  simp only [Footprint.inside, Bool.and_eq_true] at hab
  obtain ⟨⟨⟨⟨⟨⟨⟨⟨hresult, hctrl⟩, hfreq⟩, htree⟩, hct⟩, htrie⟩, hwriter⟩, hposition⟩, hopening⟩ := hab
  exact ⟨h.params, h.srcs, h.snkErr, h.host, h.hostReads, h.freeIdx, h.fault, h.finfo, h.busy,
    h.result ∘ outside hresult, h.ctrl ∘ outside hctrl, h.freq ∘ outside hfreq, h.tree ∘ outside htree,
    h.ct ∘ outside hct, h.trie ∘ outside htrie, h.writer ∘ outside hwriter, h.position ∘ outside hposition,
    h.opening ∘ outside hopening⟩

/-- A body that raises nothing ends in a next state inside its footprint. -/
theorem Within.completes {fp : Footprint} {es : List ErrorCode} {s : State} {r : Res Unit} {P : State → Prop}
    (hw : Within fp es s r) (h : r.Sat (fun _ => P) fun _ _ _ => False) :
    ∃ t, finish r = .next t ∧ Frame fp s t ∧ P t := by
  cases r with
  | ok a t => exact ⟨t, rfl, hw.1, h⟩
  | raised e i t => exact h.elim

theorem sinkTakes_of_never {s : State} (h : s.snkErr = none) (n : Nat) : sinkTakes n s := fun j _ => by simp [h]

/-! ### The source -/

/-- A presentation with no failure index fails nowhere. -/
theorem sourceSound_of_never {s : State} (h : s.src.failAt = none) : SourceSound s := fun j _ _ => by
  simp [failsIn, h]

/-- ROPEN of a presentation that never fails: the reader stands at its first byte (R54, R115). -/
theorem exec_ropen_opens {s : State} {xs : List Byte} (hB : 0 < s.params.bufBytes)
    (hp : presentation s.srcs (s.rdOpens + 1#32) = ⟨xs, none⟩) :
    ∃ t, exec .ropen s = .next t ∧ Frame (footprint .ROPEN) s t ∧ t.rdOpen = true ∧ t.rdOpens = s.rdOpens + 1#32 ∧
      Ready t ∧ t.rdOff = 0 ∧ unreadBytes t = xs := by
  obtain ⟨t, he, hf, ho, hopens, -, hchunk, hoff, hr, hunread⟩ :=
    (ropenOpensTheNextPresentation s _ hB hp).1 fun k hk => nomatch hk
  have hsrc : t.src = ⟨xs, none⟩ := by rw [State.src, hf.srcs, hopens, hp]
  exact ⟨t, he, hf, ho, hopens, ⟨hr, sourceSound_of_never (by rw [hsrc])⟩, hoff, hunread⟩

/-- FSCAN of a source that does not fail, every count fitting the width (R85, R88). -/
theorem exec_fscan_counts {s : State} (ho : s.rdOpen = true) (h : Ready s) (ha : s.rdOff % 8 = 0)
    (hfit : ∀ y, cell s.freq y + (unreadBytes s).count y < 2 ^ s.params.wCnt) :
    ∃ t, exec .fscan s = .next t ∧ Frame (footprint .FSCAN) s t ∧ ReaderOk t ∧ unreadBits t = [] ∧
      ∀ y, cell t.freq y = cell s.freq y + (unreadBytes s).count y := by
  have hw : Within (footprint .FSCAN) [.srcIo, .align, .ovf] s (scanBytes countByte (bytesLeft s) s) :=
    scanBytes_within rfl (by decide) (by decide) (fun y s => countByte_within rfl rfl (by decide) y s) _ _
  rw [exec, execFscan, withReader_open ho]
  refine hw.completes ((scan_counts _ h.ok ha (unreadBytes_le s)).mono
    (fun _ t ⟨hr, hu, _, hc⟩ => ⟨hr, hu, hc⟩) fun e i t he => ?_)
  rcases he with ⟨-, -, hunsound⟩ | ⟨-, before, y, after, hbytes, -, hover, -⟩
  · exact hunsound h.sound
  · have hy := hfit y
    rw [hbytes, List.count_append, List.count_cons_self] at hy
    omega

/-- ESCAN of a source that does not fail, every byte having a code, to a sink that takes what goes out (R125). -/
theorem exec_escan_encodes {s : State} (ho : s.rdOpen = true) (h : Ready s) (ha : s.rdOff % 8 = 0) (hw : WriterOk s)
    (hc : ∀ y ∈ unreadBytes s, cell s.ct y ≠ none) (hk : s.snkErr = none) :
    ∃ t, exec .escan s = .next t ∧ Frame (footprint .ESCAN) s t ∧ WriterOk t ∧
      sentBits t = sentBits s ++ payloadBits s.ct (unreadBytes s) := by
  have hin : Within (footprint .ESCAN) [.srcIo, .align, .snkIo, .noCode] s (scanBytes emitCode (bytesLeft s) s) :=
    scanBytes_within rfl (by decide) (by decide) (fun y s => emitCode_within rfl (by decide) (by decide) y s) _ _
  rw [exec, execEscan, withReader_open ho]
  refine hin.completes ((scan_emits _ h.ok ha hw (unreadBytes_le s)).mono
    (fun _ t ⟨_, _, _, _, hwt, hsent, _, _⟩ => ⟨hwt, hsent⟩) fun e i t he => ?_)
  rcases he with ⟨-, -, _, _, _, -, -, -, hunsound⟩ | ⟨-, herr, -⟩ | ⟨-, before, y, after, hbytes, -, hno, -⟩
  · exact hunsound (h.sound.until _)
  · exact nomatch hk.symm.trans herr
  · exact hc y (by simp [hbytes]) hno

/-! ### The stores -/

/-- TBUILD of counts whose sum fits the width (R91, R92). -/
theorem exec_tbuild_builds {s : State} (h : totalCount s.freq < 2 ^ s.params.wCnt) :
    ∃ ns r, exec .tbuild s = .next (s.setTree ns r) ∧ TreeOf (countedSymbols s.freq).length ns r ∧
      leavesOf s.freq <+: ns := by
  have hb := buildTree_sat s.params.wCnt s.freq
  rw [exec, execTbuild]
  cases hr : buildTree s.params.wCnt s.freq with
  | tree ns r =>
    rw [hr] at hb
    obtain ⟨htree, -, hleaves, -⟩ := hb
    exact ⟨ns, r, rfl, htree, hleaves⟩
  | overflow k =>
    rw [hr] at hb
    obtain ⟨hover, -⟩ := hb
    omega

theorem exec_cgen_codes (s : State) : exec .cgen s = .next (s.setCt (codesOf s.single1 s.nodes s.root)) := rfl

/-- Codes of which none begins another's conflict only with themselves (R36, R127). -/
theorem PrefixFree.eq_of_conflict {t : Table CodeEntry} (h : PrefixFree t) {x y : Byte} (hc : Conflict t x y) : x = y := by
  obtain ⟨c, d, hx, hy, hcd⟩ := hc
  by_contra hne
  rcases hcd with hcd | hdc
  · exact h x y c d hne hx hy hcd
  · exact h y x d c (Ne.symm hne) hy hx hdc

/-- DTRIE of codes of which none begins another's (R127, R128). -/
theorem exec_dtrie_builds {s : State} (h : PrefixFree s.ct) (hc : CodesOk s.ct) :
    ∃ u, exec .dtrie s = .next (s.setTrie u) ∧ TrieHolds u s.ct ∧ u.okBelow Config.maxLen := by
  have hs := insertCodes_sat s.ct [] allBytes Trie.empty (.inr rfl) fun p y => by
    cases p with
    | nil => simp [Trie.empty]
    | cons b p => simp
  rw [exec, execDtrie]
  cases hr : insertCodes s.ct allBytes Trie.empty with
  | ok u =>
    rw [hr] at hs
    obtain ⟨-, hlookup, -⟩ := hs
    refine ⟨u, rfl, fun p y => ?_, (insertCodes_okBelow s.ct hc allBytes hr trieEmpty_okBelow).2⟩
    simpa [mem_allBytes] using hlookup p y
  | error y =>
    rw [hr] at hs
    obtain ⟨l, r, hall, ⟨x, hx, hconflict⟩, -⟩ := hs
    have hnodup := nodup_allBytes
    rw [hall, List.nodup_append] at hnodup
    obtain ⟨-, -, hdisjoint⟩ := hnodup
    exact absurd (h.eq_of_conflict hconflict) (hdisjoint x (by simpa using hx) y List.mem_cons_self)

/-! ### The header -/

/-- HWRITE from an aligned writer to a sink that takes what goes out (R103, R106). -/
theorem exec_hwrite_writes {s : State} (hs : WriterOk s) (ha : s.wrOff % 8 = 0) (hk : s.snkErr = none) :
    ∃ t, exec .hwrite s = .next t ∧ Wrote (headerBits s.params.bitOrder s.ct) s t ∧ t.wrOff % 8 = 0 := by
  have h := writeHeader_sat hs ha
  rw [exec, execHwrite]
  cases hr : (writeShort (BitVec.ofNat 16 (codeCount s.ct)) s).bind fun _ s1 => writeEntries s.ct allBytes s1 with
  | ok a t =>
    rw [hr] at h
    exact ⟨t, rfl, h.1, h.2⟩
  | raised e i t =>
    rw [hr] at h
    exact nomatch hk.symm.trans h.sink

/-- HREAD of a source that does not fail and holds a table's header: the table, and the reader aligned after it (R107). -/
theorem exec_hread_reads {s : State} {ct : Table CodeEntry} {rest : Bits} (ho : s.rdOpen = true) (h : Ready s)
    (ha : s.rdOff % 8 = 0) (hc : CodesOk ct) (hu : unreadBits s = headerBits s.params.bitOrder ct ++ rest) :
    ∃ t, exec .hread s = .next t ∧ Frame (footprint .HREAD) s t ∧ Ready t ∧ unreadBits t = rest ∧ t.ct = ct := by
  have hw : Within (footprint .HREAD) [.srcIo, .align, .fmt] s (readHeader s) :=
    readHeader_within rfl rfl (by decide) (by decide) (by decide) s
  obtain ⟨t, hr, ⟨-, -, hct⟩, hpassed⟩ := (readHeader_of_table ct hc h.ok ha hu).ok (h.sound.until _)
  rw [hr] at hw
  refine ⟨t, ?_, hw.1, hpassed.ready h.sound, hpassed.unread, hct⟩
  rw [exec, execHread, withReader_open ho, hr, finish_ok]

/-! ### The payload -/

/-- WFLUSH to a sink that takes what goes out (R66, R112). -/
theorem exec_wflush_delivers {s : State} (hs : WriterOk s) (hk : s.snkErr = none) :
    ∃ t, exec .wflush s = .next t ∧ Frame (footprint .WFLUSH) s t ∧
      bytesBits s.params.bitOrder t.snk = sentBits s ++ List.replicate (padLen s.wrOff) false := by
  obtain ⟨t, he, hf, -, -, -, -, hbits⟩ := (wflushDeliversThePendingBytes s hs).1 (sinkTakes_of_never hk _)
  exact ⟨t, he, hf, hbits⟩

/-- DSCAN from an aligned writer over whole codes and at the end a part of one, to a sink that takes what goes out
(R131). -/
theorem exec_dscan_decodes {s : State} {cs : List (Bits × Byte)} {tail : Bits} {d : Nat} (ho : s.rdOpen = true)
    (h : Ready s) (hok : s.trie.okBelow d) (hw : WriterOk s) (ha : s.wrOff % 8 = 0) (hk : s.snkErr = none)
    (hu : unreadBits s = cs.flatMap Prod.fst ++ tail)
    (hcs : ∀ x ∈ cs, x.1 ≠ [] ∧ s.trie.lookup x.1 = some (.term x.2))
    (htail : tail = [] ∨ s.trie.lookup tail = some .inner) :
    ∃ t, exec .dscan s = .next t ∧ Frame (footprint .DSCAN) s t ∧ WriterOk t ∧
      sentBits t = sentBits s ++ bytesBits s.params.bitOrder (cs.map Prod.snd) := by
  have hin : Within (footprint .DSCAN) [.srcIo, .snkIo, .align, .trie] s (decodeAll (bitsLeft s) [] s) :=
    decodeAll_within rfl rfl rfl (by decide) (by decide) (by decide) (by decide) _ (.inl rfl)
  have hlen : ∃ n, bitsLeft s = (cs.flatMap Prod.fst).length + n ∧ tail.length ≤ n := by
    have := unreadBits_le s
    rw [hu, List.length_append] at this
    exact ⟨bitsLeft s - (cs.flatMap Prod.fst).length, by rw [bitsLeft]; omega, by rw [bitsLeft]; omega⟩
  obtain ⟨n, hn, htl⟩ := hlen
  have hends : Ends (decodeAll (bitsLeft s) [] s) (fun r => ∃ t, r = .ok () t ∧ WriterOk t ∧
      sentBits t = sentBits s ++ bytesBits s.params.bitOrder (cs.map Prod.snd)) 0 s := by
    rw [hn]
    refine decodeAll_codes cs h.ok hw ha hok hu hcs (sinkTakes_of_never hk _) (Nat.zero_le _)
      fun t hp hwt htrie hsent _ => ?_
    refine (decodeAll_end hp.ok (htrie ▸ hok) hp.unread (htrie ▸ htail) htl).mono fun ⟨u, hr, honly, _⟩ => ?_
    exact ⟨u, hr, honly.writerOk.mpr hwt, honly.sentBits.trans hsent⟩
  obtain ⟨t, hr, hwt, hsent⟩ := hends.ok h.sound
  rw [hr] at hin
  refine ⟨t, ?_, hin.1, hwt, hsent⟩
  rw [exec, execDscan, withReader_open ho, hr, finish_ok]

end Sys2Proof.Machine
end

section
/-! SUPPORT. The code table COMPRESS makes of a byte sequence (42_tree.md R90 to R92, 43_codetable.md R97 to R100): every byte
of the sequence has a code, no code is empty or begins another, and one code is all zeros. -/

namespace Sys2Proof.Machine
open Sys2Proof

/-! ### Every slot is reached from the root -/

/-- A parent's child is one bit further on the path (R97). -/
theorem slotAt_snoc_of_hasChild {ns : List Node} {r j k : Nat} {nd : Node} {p : Bits} (hp : slotAt ns r p = some j)
    (hj : ns[j]? = some nd) (hk : nd.hasChild k) : ∃ b, slotAt ns r (p ++ [b]) = some k := by
  cases nd with
  | leaf y w => exact hk.elim
  | internal z o w =>
    rcases hk with rfl | rfl
    · exact ⟨false, by simp [slotAt_append, hp, slotAt, hj]⟩
    · exact ⟨true, by simp [slotAt_append, hp, slotAt, hj]⟩

/-- A child's slot lies below its parent's (R90). -/
theorem TreeOf.lt_of_hasChild {n : Nat} {ns : List Node} {root : Option Nat} (h : TreeOf n ns root) {j k : Nat}
    {nd : Node} (hj : ns[j]? = some nd) (hk : nd.hasChild k) : k < j := by
  cases nd with
  | leaf y w => exact hk.elim
  | internal z o w =>
    obtain ⟨hz, ho, -⟩ := h.inner _ _ _ _ hj
    rcases hk with rfl | rfl
    · exact hz
    · exact ho

/-- Every slot of a tree is on a path from the root (R34). -/
theorem TreeOf.path_to {n : Nat} {ns : List Node} {root : Option Nat} (h : TreeOf n ns root) {k : Nat}
    (hk : k < ns.length) : ∃ p, slotAt ns (2 * n - 2) p = some k := by
  by_cases hroot : k + 1 < ns.length
  · obtain ⟨j, nd, hj, hchild⟩ := h.child k hroot
    have hlt := h.lt_of_hasChild hj hchild
    have hjlen := lt_of_node hj
    obtain ⟨p, hp⟩ := h.path_to hjlen
    obtain ⟨b, hb⟩ := slotAt_snoc_of_hasChild hp hj hchild
    exact ⟨p ++ [b], hb⟩
  · refine ⟨[], ?_⟩
    rw [slotAt, show 2 * n - 2 = k by have := h.size; omega]
termination_by ns.length - k

/-! ### The codes -/

/-- What the codes of a byte sequence have to do with it, as COMPRESS makes them with SINGLE1 = 1 (R36, R95, R98 to R100). -/
structure CodesFor (xs : List Byte) (t : Table CodeEntry) : Prop where
  ok : CodesOk t
  prefixFree : PrefixFree t
  nonempty : ∀ y c, cell t y = some c → c ≠ []
  coded : ∀ y ∈ xs, cell t y ≠ none
  zeros : xs ≠ [] → ∃ y d, 0 < d ∧ cell t y = some (List.replicate d false)

/-- The codes of a tree that is one leaf, with SINGLE1 = 1: the 1-bit code (R98). -/
theorem codesOf_single {ns : List Node} {root : Option Nat} (h : TreeOf 1 ns root) {x : Byte} {w : Nat}
    (hx : ns[0]? = some (Node.leaf x w)) : codesOf true ns root = setCell (constTable none) x (some [false]) := by
  rw [h.top]
  simp [codesOf, hx]

/-- The root of a tree of two leaves or more is no leaf, so no code is empty (R99). -/
theorem TreeOf.code_ne_nil {n : Nat} {ns : List Node} {root : Option Nat} (h : TreeOf n ns root) (hn : 2 ≤ n) {c : Bits}
    {y : Byte} (hc : leafAt ns (2 * n - 2) c y) : c ≠ [] := by
  rintro rfl
  obtain ⟨w, hw⟩ := leafAt_nil.mp hc
  have hlow := h.leaf _ _ hw
  simp only [Node.isLeaf, true_eq_decide_iff] at hlow
  omega

/-- A long enough string of zeros runs from the root through a leaf, so some code is all zeros (R100). -/
theorem TreeOf.zero_code {n : Nat} {ns : List Node} {root : Option Nat} (h : TreeOf n ns root) (hn : 2 ≤ n) :
    ∃ y d, 0 < d ∧ leafAt ns (2 * n - 2) (List.replicate d false) y := by
  have hlen : 2 * n - 2 < ns.length := by rw [h.size]; omega
  obtain ⟨c, y, hc, hy⟩ := h.leaf_on (2 * n - 2) (List.replicate n false) hlen (by simp; omega)
  have hzero : c = List.replicate c.length false :=
    List.eq_replicate_iff.mpr ⟨rfl, fun b hb => List.eq_of_mem_replicate (hc.subset hb)⟩
  exact ⟨y, c.length, List.length_pos_iff.mpr (h.code_ne_nil hn hy), hzero ▸ hy⟩

/-- No sequence of any byte needs a code of the empty table (R99). -/
theorem codesFor_nil : CodesFor [] (constTable none) where
  ok y c hc := by simp at hc
  prefixFree y z c d _ hc := by simp at hc
  nonempty y c hc := by simp at hc
  coded y hy := by simp at hy
  zeros h := absurd rfl h

/-- One code of one zero serves a sequence of one symbol (R98). -/
theorem codesFor_single {xs : List Byte} {x : Byte} (hxs : ∀ y ∈ xs, y = x) :
    CodesFor xs (setCell (constTable none) x (some [false])) := by
  have honly : ∀ {y c}, cell (setCell (constTable none) x (some [false])) y = some c → y = x ∧ c = [false] := by
    intro y c hc
    rw [cell_setCell, cell_constTable] at hc
    split at hc
    · next hy => exact ⟨hy, (Option.some.inj hc).symm⟩
    · exact nomatch hc
  refine ⟨fun y c hc => ?_, fun y z c d hne hc hd => ?_, fun y c hc => ?_, fun y hy => ?_,
    fun _ => ⟨x, 1, Nat.one_pos, by simp⟩⟩
  · simp [(honly hc).2, Config.maxLen]
  · exact absurd ((honly hc).1.trans (honly hd).1.symm) hne
  · simp [(honly hc).2]
  · simp [hxs y hy]

/-- The codes of a tree of two leaves or more serve a sequence of its leaves' symbols (R97, R99, R100). -/
theorem TreeOf.codesFor_of_two {n : Nat} {ns : List Node} {root : Option Nat} (h : TreeOf n ns root) (h2 : 2 ≤ n)
    (hn : n ≤ 256) {xs : List Byte} (hleaf : ∀ y ∈ xs, ∃ k w : Nat, ns[k]? = some (Node.leaf y w)) :
    CodesFor xs (codesOf true ns root) := by
  have hcode := codesOf_tree h h2 true
  refine ⟨codesOf_ok h hn true, codesOf_prefixFree true ns root, fun y c hc => h.code_ne_nil h2 ((hcode y c).mp hc),
    fun y hy => ?_, fun _ => ?_⟩
  · obtain ⟨k, w, hk⟩ := hleaf y hy
    obtain ⟨c, hc⟩ := h.path_to (lt_of_node hk)
    rw [(hcode y c).mpr ⟨k, w, hc, hk⟩]
    exact Option.some_ne_none c
  · obtain ⟨y, d, hd, hy⟩ := h.zero_code h2
    exact ⟨y, d, hd, (hcode y _).mpr hy⟩

/-- The codes CGEN makes, with SINGLE1 = 1, of a tree that has a leaf for each byte of a sequence (R97 to R99). -/
theorem TreeOf.codesFor {n : Nat} {ns : List Node} {root : Option Nat} (h : TreeOf n ns root) (hn : n ≤ 256)
    {xs : List Byte} (hleaf : ∀ y ∈ xs, ∃ k w : Nat, ns[k]? = some (Node.leaf y w)) :
    CodesFor xs (codesOf true ns root) := by
  have hsize := h.size
  match n, h, hn with
  | 0, h, _ =>
    have hxs : xs = [] := List.eq_nil_iff_forall_not_mem.mpr fun y hy => by
      obtain ⟨k, w, hk⟩ := hleaf y hy
      exact absurd (lt_of_node hk) (by omega)
    rw [hxs, h.top]
    exact codesFor_nil
  | 1, h, _ =>
    obtain ⟨nd, hnd⟩ := h.node (k := 0) (by omega)
    cases nd with
    | internal z o w => exact nomatch h.leaf _ _ hnd
    | leaf x w =>
      rw [codesOf_single h hnd]
      refine codesFor_single fun y hy => ?_
      obtain ⟨k, v, hk⟩ := hleaf y hy
      obtain rfl : k = 0 := by have := lt_of_node hk; omega
      exact (Node.leaf.inj (Option.some.inj (hk.symm.trans hnd))).1
  | n + 2, h, hn => exact h.codesFor_of_two (by omega) hn hleaf

/-- A symbol with a count stands at a leaf of the tree TBUILD builds (R92). -/
theorem leaf_of_counted {f : Table Nat} {ns : List Node} (h : leavesOf f <+: ns) {y : Byte} (hy : cell f y ≠ 0) :
    ∃ k : Nat, ns[k]? = some (Node.leaf y (cell f y)) := by
  refine List.mem_iff_getElem?.mp (h.subset ?_)
  rw [leavesOf_eq]
  exact List.mem_map_of_mem (List.mem_filter.mpr ⟨mem_allBytes y, by simpa using hy⟩)

/-- The counts of a sequence's members, each taken once, sum to its length. -/
theorem sum_count_eq_length {α : Type} [DecidableEq α] {l xs : List α} (hl : l.Nodup) (hmem : ∀ y ∈ xs, y ∈ l) :
    (l.map fun y => xs.count y).sum = xs.length := by
  rw [← List.sum_toFinset _ hl]
  simpa using Multiset.sum_count_eq_card (m := (xs : Multiset α)) fun y hy => List.mem_toFinset.mpr (hmem y hy)

theorem totalCount_of_counts {f : Table Nat} {xs : List Byte} (hf : ∀ y, cell f y = xs.count y) :
    totalCount f = xs.length :=
  (congrArg List.sum (List.map_congr_left fun y _ => hf y)).trans
    (sum_count_eq_length nodup_allBytes fun y _ => mem_allBytes y)

end Sys2Proof.Machine
end

section
/-! SUPPORT. COMPRESS and DECOMPRESS as runs of commands (30_encoding.md R81, R82), and the round trip they make (48_decode.md
R132, R133). -/

namespace Sys2Proof.Machine
open Sys2Proof

/-! ### COMPRESS -/

/-- What COMPRESS writes before it writes its output: the reader, the counts, the tree and the codes. -/
def analysisFootprint : Footprint := { freq := true, tree := true, ct := true, position := true, opening := true }

/-- What COMPRESS writes to put out its payload: the reader and the writer. -/
def payloadFootprint : Footprint := { writer := true, position := true, opening := true }

/-- ROPEN, FSCAN, TBUILD and CGEN from a block just reset make the codes of the source's bytes (R81). -/
theorem run_analysis {s : State} {xs : List Byte} (hs : Running s) (hB : 0 < s.params.bufBytes)
    (hp : presentation s.srcs (s.rdOpens + 1#32) = ⟨xs, none⟩) (hzero : ∀ y, cell s.freq y = 0)
    (h1 : s.single1 = true) (hlen : xs.length < 2 ^ s.params.wCnt) :
    ∃ t, runCommands [.ropen, .fscan, .tbuild, .cgen] s = .next t ∧ Frame analysisFootprint s t ∧
      t.rdOpens = s.rdOpens + 1#32 ∧ CodesFor xs t.ct := by
  obtain ⟨a, ha, fa, hopen, hopens, hready, hoff, hbytes⟩ := exec_ropen_opens hB hp
  have hcount : ∀ y, cell a.freq y + (unreadBytes a).count y = xs.count y := fun y => by
    rw [fa.freq rfl, hzero, hbytes, Nat.zero_add]
  obtain ⟨b, hb, fb, -, -, hfreq⟩ := exec_fscan_counts hopen hready (by rw [hoff]) fun y => by
    rw [hcount, fa.params]
    exact List.count_le_length.trans_lt hlen
  have hfreq' : ∀ y, cell b.freq y = xs.count y := fun y => (hfreq y).trans (hcount y)
  obtain ⟨ns, root, hc, htree, hleaves⟩ := exec_tbuild_builds (s := b) (by
    rw [totalCount_of_counts hfreq', fb.params, fa.params]
    exact hlen)
  have hsingle : (b.setTree ns root).single1 = true := by
    rw [State.single1, State.setTree_ctrl, fb.ctrl rfl, fa.ctrl rfl]
    exact h1
  have hd : exec .cgen (b.setTree ns root) = .next ((b.setTree ns root).setCt (codesOf true ns root)) := by
    rw [exec_cgen_codes, hsingle, State.setTree_nodes, State.setTree_root]
  have hcodes : CodesFor xs (codesOf true ns root) := htree.codesFor (countedSymbols_le _) fun y hy => by
    obtain ⟨k, hk⟩ := leaf_of_counted hleaves (y := y) (by rw [hfreq']; exact (List.count_pos_iff.mpr hy).ne')
    exact ⟨k, _, hk⟩
  have fc : Frame (footprint .TBUILD) b (b.setTree ns root) := setTree_frame rfl b ns root
  have fd : Frame (footprint .CGEN) (b.setTree ns root) _ := setCt_frame rfl _ (codesOf true ns root)
  refine ⟨(b.setTree ns root).setCt (codesOf true ns root), ?_, ?_, ?_, hcodes⟩
  · rw [runCommands_cons hs ha, runCommands_cons (fa.running hs) hb, runCommands_cons (fb.running (fa.running hs)) hc,
      runCommands_cons (fc.running (fb.running (fa.running hs))) hd]
    rfl
  · exact (((fa.widen rfl).trans (fb.widen rfl)).trans (fc.widen rfl)).trans (fd.widen rfl)
  · exact (fb.opening rfl).2.trans hopens

/-- The padding of some bits after whole bytes is the padding of the bits. -/
theorem padLen_congr {m n : Nat} (h : m % 8 = n % 8) : padLen m = padLen n := by
  rw [padLen, padLen, h]

/-- ROPEN, ESCAN and WFLUSH from an aligned writer put out the codes of the source's bytes and zeros that fill the last byte
(R81, R126). -/
theorem run_payload {s : State} {xs : List Byte} (hs : Running s) (hw : WriterOk s) (ha : s.wrOff % 8 = 0)
    (hk : s.snkErr = none) (hp : presentation s.srcs (s.rdOpens + 1#32) = ⟨xs, none⟩)
    (hc : ∀ y ∈ xs, cell s.ct y ≠ none) :
    ∃ t, runCommands [.ropen, .escan, .wflush] s = .next t ∧ Frame payloadFootprint s t ∧
      bytesBits s.params.bitOrder t.snk = sentBits s ++ payloadBits s.ct xs ++
        List.replicate (padLen (payloadBits s.ct xs).length) false := by
  have hB : 0 < s.bufBytes := by
    obtain ⟨-, hlt, -⟩ := hw
    omega
  obtain ⟨a, hra, fa, hopen, -, hready, hoff, hbytes⟩ := exec_ropen_opens hB hp
  have hwa := fa.writerOk rfl hw
  have hct := fa.ct rfl
  have hsent_a : sentBits a = sentBits s := by
    obtain ⟨hbuf, hwoff, hsnk, -⟩ := fa.writer rfl
    rw [sentBits, sentBits, pendingBits, pendingBits, hbuf, hwoff, hsnk, fa.params]
  obtain ⟨b, hrb, fb, hwb, hsent⟩ := exec_escan_encodes hopen hready (by rw [hoff]) hwa
    (by rw [hbytes, hct]; exact hc) (fa.snkErr.trans hk)
  rw [hsent_a, hbytes, hct] at hsent
  obtain ⟨c, hrc, fc, hbits⟩ := exec_wflush_delivers hwb (fb.snkErr.trans (fa.snkErr.trans hk))
  have hpad : padLen b.wrOff = padLen (payloadBits s.ct xs).length := by
    have hlen := congrArg List.length hsent
    rw [sentBits_length hwb, List.length_append, sentBits_length hw] at hlen
    exact padLen_congr (by omega)
  refine ⟨c, ?_, ?_, ?_⟩
  · rw [runCommands_cons hs hra, runCommands_cons (fa.running hs) hrb,
      runCommands_cons (fb.running (fa.running hs)) hrc]
    rfl
  · exact ((fa.widen rfl).trans (fb.widen rfl)).trans (fc.widen rfl)
  · rw [hsent, hpad, fb.params, fa.params] at hbits
    exact hbits

/-- A writer with nothing pending has sent what is in SNK. -/
theorem sentBits_of_empty {s : State} (h : s.wrOff = 0) : sentBits s = bytesBits s.params.bitOrder s.snk := by
  simp [sentBits, pendingBits, h]

/-- Bytes whose bits go on from those of other bytes go on from those bytes. -/
theorem bytes_of_bits_append {o : Config.BitOrder} {xs ys : List Byte} {bits : Bits}
    (h : bytesBits o ys = bytesBits o xs ++ bits) : ∃ zs, ys = xs ++ zs ∧ bytesBits o zs = bits := by
  have hlen : (bytesBits o xs).length = 8 * xs.length := bytesBits_length o xs
  refine ⟨ys.drop xs.length, ?_, ?_⟩
  · have hxs : ys.take xs.length = xs := bytesBits_inj o (by rw [bytesBits_take, h, List.take_left' hlen])
    conv_lhs => rw [← List.take_append_drop xs.length ys, hxs]
  · rw [bytesBits_drop, h, List.drop_left' hlen]

/-- COMPRESS delivers the header of the codes it makes, and the codes of the bytes, padded with zeros (R81, R132). -/
theorem run_compress {s : State} {xs : List Byte} (hs : Running s) (hlegal : s.params.legal = true)
    (hk : s.snkErr = none) (hp1 : presentation s.srcs 1#32 = ⟨xs, none⟩) (hp2 : presentation s.srcs 2#32 = ⟨xs, none⟩)
    (hlen : xs.length < 2 ^ s.params.wCnt) :
    ∃ t stream, runCommands compressCommands s = .next t ∧ Running t ∧ CodesFor xs t.ct ∧ t.snk = s.snk ++ stream ∧
      bytesBits s.params.bitOrder stream = headerBits s.params.bitOrder t.ct ++ (payloadBits t.ct xs ++
        List.replicate (padLen (payloadBits t.ct xs).length) false) := by
  have hr : Running (resetState s) := ⟨rfl, rfl⟩
  have hw := resetState_writerOk hlegal
  obtain ⟨a, hra, fa, hopens, hcodes⟩ := run_analysis (s := resetState s) hr (Params.legal_bufBytes hlegal).1 hp1
    (fun y => by simp) (show (1#32).getLsbD 0 = true by decide) hlen
  have hwa := fa.writerOk rfl hw
  obtain ⟨-, hoff, hsnk, -⟩ := fa.writer rfl
  have hempty : a.wrOff = 0 := hoff
  have hka : a.snkErr = none := fa.snkErr.trans hk
  obtain ⟨b, hrb, hwrote, halign⟩ := exec_hwrite_writes hwa (by rw [hempty]) hka
  have fb : Frame (footprint .HWRITE) a b := hwrote.frame.toFrame rfl
  obtain ⟨hwb, hsent⟩ := hwrote.law hwa
  have hra' := fa.running hr
  obtain ⟨c, hrc, fc, hbits⟩ := run_payload (xs := xs) (fb.running hra') hwb halign (fb.snkErr.trans hka)
    (by rw [fb.srcs, fa.srcs, (fb.opening rfl).2, hopens]; exact hp2) (by rw [fb.ct rfl]; exact hcodes.coded)
  have hct : c.ct = a.ct := (fc.ct rfl).trans (fb.ct rfl)
  have hparams : a.params = s.params := fa.params
  rw [hsent, sentBits_of_empty hempty, hsnk, fb.ct rfl, fb.params, hparams, List.append_assoc, List.append_assoc] at hbits
  obtain ⟨stream, hstream, hstreamBits⟩ := bytes_of_bits_append hbits
  refine ⟨c, stream, ?_, fc.running (fb.running hra'), hct ▸ hcodes, hstream, ?_⟩
  · have hreset : exec .sreset s = .next (resetState s) := rfl
    rw [compressCommands, runCommands_cons hs hreset]
    exact (runCommands_append hra).trans ((runCommands_cons hra' hrb _).trans hrc)
  · rw [hct, hstreamBits]

/-! ### DECOMPRESS -/

/-- The codes of some symbols, each with its symbol. -/
def codedSymbols (t : Table CodeEntry) (ys : List Byte) : List (Bits × Byte) := ys.map fun y => ((cell t y).getD [], y)

theorem codedSymbols_bits (t : Table CodeEntry) (ys : List Byte) :
    (codedSymbols t ys).flatMap Prod.fst = payloadBits t ys := by
  simp [codedSymbols, payloadBits, List.flatMap_map]

theorem codedSymbols_symbols (t : Table CodeEntry) (ys : List Byte) : (codedSymbols t ys).map Prod.snd = ys := by
  simp [codedSymbols, Function.comp_def]

/-- What DECOMPRESS writes before it writes its output: the reader, the codes and the trie. -/
def loadingFootprint : Footprint := { ct := true, trie := true, position := true, opening := true }

/-- ROPEN, HREAD and DTRIE load the trie of the codes whose header the source begins with (R82, R107, R128). -/
theorem run_loading {s : State} {ct : Table CodeEntry} {stream : List Byte} {rest : Bits} (hs : Running s)
    (hB : 0 < s.params.bufBytes) (hp : presentation s.srcs (s.rdOpens + 1#32) = ⟨stream, none⟩) (hok : CodesOk ct)
    (hfree : PrefixFree ct)
    (hbits : bytesBits s.params.bitOrder stream = headerBits s.params.bitOrder ct ++ rest) :
    ∃ t, runCommands [.ropen, .hread, .dtrie] s = .next t ∧ Frame loadingFootprint s t ∧ t.rdOpen = true ∧ Ready t ∧
      unreadBits t = rest ∧ TrieHolds t.trie ct ∧ t.trie.okBelow Config.maxLen := by
  obtain ⟨a, hra, fa, hopen, -, hready, hoff, hbytes⟩ := exec_ropen_opens hB hp
  have hunread : unreadBits a = headerBits a.params.bitOrder ct ++ rest := by
    rw [unreadBits_eq_bytes (by rw [hoff]), hbytes, fa.params, hbits]
  obtain ⟨b, hrb, fb, hreadyb, hrest, hct⟩ := exec_hread_reads hopen hready (by rw [hoff]) hok hunread
  obtain ⟨trie, hrc, hholds, hdepth⟩ := exec_dtrie_builds (s := b) (hct ▸ hfree) (hct ▸ hok)
  have fc : Frame (footprint .DTRIE) b (b.setTrie trie) := setTrie_frame rfl b trie
  refine ⟨b.setTrie trie, ?_, ((fa.widen rfl).trans (fb.widen rfl)).trans (fc.widen rfl),
    (fb.opening rfl).1.trans hopen, ⟨hreadyb.ok, hreadyb.sound⟩, hrest, hct ▸ hholds, hdepth⟩
  rw [runCommands_cons hs hra, runCommands_cons (fa.running hs) hrb, runCommands_cons (fb.running (fa.running hs)) hrc]
  rfl

/-- DSCAN and WFLUSH from a writer with nothing pending deliver the symbols whose codes are unread, and drop a part of a code
at the end (R82, R131). -/
theorem run_output {s : State} {ct : Table CodeEntry} {ys : List Byte} {tail : Bits} {d : Nat} (hs : Running s)
    (ho : s.rdOpen = true) (h : Ready s) (hw : WriterOk s) (hempty : s.wrOff = 0) (hk : s.snkErr = none)
    (hholds : TrieHolds s.trie ct) (hdepth : s.trie.okBelow d) (hne : ∀ y c, cell ct y = some c → c ≠ [])
    (hcoded : ∀ y ∈ ys, cell ct y ≠ none) (hu : unreadBits s = payloadBits ct ys ++ tail)
    (htail : tail = [] ∨ ∃ y b q, cell ct y = some (tail ++ b :: q)) :
    ∃ t, runCommands [.dscan, .wflush] s = .next t ∧ Running t ∧ t.snk = s.snk ++ ys := by
  have hcodes : ∀ x ∈ codedSymbols ct ys, x.1 ≠ [] ∧ s.trie.lookup x.1 = some (.term x.2) := by
    intro x hx
    obtain ⟨y, hy, rfl⟩ := List.mem_map.mp hx
    obtain ⟨c, hc⟩ := Option.ne_none_iff_exists'.mp (hcoded y hy)
    simp only [hc, Option.getD_some]
    exact ⟨hne y c hc, (hholds c y).mpr hc⟩
  have hpart : tail = [] ∨ s.trie.lookup tail = some .inner := htail.imp_right fun ⟨y, b, q, hy⟩ =>
    lookup_inner_of_more hdepth (by rw [(hholds _ y).mpr hy]; exact Option.some_ne_none _)
  obtain ⟨a, hra, fa, hwa, hsent⟩ := exec_dscan_decodes ho h hdepth hw (by rw [hempty]) hk
    (by rw [codedSymbols_bits]; exact hu) hcodes hpart
  rw [sentBits_of_empty hempty, codedSymbols_symbols, ← bytesBits_append] at hsent
  obtain ⟨b, hrb, fb, hbits⟩ := exec_wflush_delivers hwa (fa.snkErr.trans hk)
  have hpad : padLen a.wrOff = 0 := by
    have hlen := congrArg List.length hsent
    rw [sentBits_length hwa, bytesBits_length] at hlen
    exact padLen_congr (n := 0) (by omega)
  refine ⟨b, ?_, fb.running (fa.running hs), ?_⟩
  · rw [runCommands_cons hs hra, runCommands_cons (fa.running hs) hrb]
    rfl
  · rw [hsent, hpad, fa.params, List.replicate_zero, List.append_nil] at hbits
    exact bytesBits_inj _ hbits

/-- DECOMPRESS of a table's header, the codes of some symbols and a part of a code delivers the symbols (R82, R131). -/
theorem run_decompress {r : State} {ct : Table CodeEntry} {stream ys : List Byte} {tail : Bits} (hs : Running r)
    (hlegal : r.params.legal = true) (hk : r.snkErr = none) (hp : presentation r.srcs 1#32 = ⟨stream, none⟩)
    (hok : CodesOk ct) (hfree : PrefixFree ct) (hne : ∀ y c, cell ct y = some c → c ≠ [])
    (hcoded : ∀ y ∈ ys, cell ct y ≠ none)
    (hbits : bytesBits r.params.bitOrder stream = headerBits r.params.bitOrder ct ++ (payloadBits ct ys ++ tail))
    (htail : tail = [] ∨ ∃ y b q, cell ct y = some (tail ++ b :: q)) :
    ∃ u, runCommands decompressCommands r = .next u ∧ Running u ∧ u.snk = r.snk ++ ys := by
  have hr : Running (resetState r) := ⟨rfl, rfl⟩
  obtain ⟨a, hra, fa, hopen, hready, hunread, hholds, hdepth⟩ :=
    run_loading (s := resetState r) hr (Params.legal_bufBytes hlegal).1 hp hok hfree hbits
  obtain ⟨-, hoff, hsnk, -⟩ := fa.writer rfl
  obtain ⟨u, hru, hu, hout⟩ := run_output (fa.running hr) hopen hready (fa.writerOk rfl (resetState_writerOk hlegal))
    hoff (fa.snkErr.trans hk) hholds hdepth hne hcoded hunread htail
  refine ⟨u, ?_, hu, hout.trans (congrArg (· ++ ys) hsnk)⟩
  have hreset : exec .sreset r = .next (resetState r) := rfl
  rw [decompressCommands, runCommands_cons hs hreset]
  exact (runCommands_append hra).trans hru

/-! ### The round trip -/

/-- Zeros are copies of a code of zeros, and a part of one (R133). -/
theorem zeros_eq_codes {t : Table CodeEntry} {y : Byte} {d : Nat} (hy : cell t y = some (List.replicate d false))
    (z : Nat) : List.replicate z false = payloadBits t (List.replicate (z / d) y) ++ List.replicate (z % d) false := by
  have hcodes : payloadBits t (List.replicate (z / d) y) = List.replicate (z / d * d) false := by
    induction z / d with
    | zero => simp [payloadBits]
    | succ n ih =>
      rw [List.replicate_succ, payloadBits_cons _ _ hy, ih, ← List.replicate_add, Nat.succ_mul, Nat.add_comm]
  rw [hcodes, ← List.replicate_add, Nat.div_add_mod']

/-- Fewer zeros than a code of zeros has are a part of it. -/
theorem part_of_zeros {t : Table CodeEntry} {y : Byte} {d m : Nat} (hy : cell t y = some (List.replicate d false))
    (hm : m < d) : ∃ z b q, cell t z = some (List.replicate m false ++ b :: q) := by
  refine ⟨y, false, List.replicate (d - m - 1) false, ?_⟩
  rw [hy, ← List.replicate_succ, ← List.replicate_add, show m + (d - m - 1 + 1) = d by omega]

theorem payloadBits_append (t : Table CodeEntry) (xs ys : List Byte) :
    payloadBits t (xs ++ ys) = payloadBits t xs ++ payloadBits t ys := by simp [payloadBits]

/-- Settles O60: the zeros that pad the payload are read as copies of the code of zeros, and a part of it that is dropped. -/
theorem compressThenDecompress : Obligations.CompressThenDecompress := by
  intro s xs hlegal hb hf hk hp1 hp2 hlen
  obtain ⟨t, stream, hrun, ht, hcodes, hsnk, hbits⟩ := run_compress ⟨hb, hf⟩ hlegal hk hp1 hp2 hlen
  refine ⟨t, stream, hrun, ht.2, hsnk, fun r hlegalr horder hbr hfr hkr hpr => ?_⟩
  rw [← horder] at hbits
  have hdecode := fun ys tail => run_decompress (ys := ys) (tail := tail) ⟨hbr, hfr⟩ hlegalr hkr hpr hcodes.ok
    hcodes.prefixFree hcodes.nonempty
  by_cases hxs : xs = []
  · subst hxs
    obtain ⟨u, hu, hrunu, hsnku⟩ := hdecode [] _ (by simp) hbits (.inl (by simp [payloadBits, padLen]))
    exact ⟨u, hu, hrunu.2, fun _ => hsnku.trans (List.append_nil _), fun hne => absurd rfl hne⟩
  · obtain ⟨y, d, hd, hy⟩ := hcodes.zeros hxs
    have hcoded : ∀ x ∈ xs ++ List.replicate (padLen (payloadBits t.ct xs).length / d) y, cell t.ct x ≠ none := by
      intro x hx
      rcases List.mem_append.mp hx with hx | hx
      · exact hcodes.coded x hx
      · rw [List.eq_of_mem_replicate hx, hy]
        exact Option.some_ne_none _
    rw [zeros_eq_codes hy, ← List.append_assoc (payloadBits t.ct xs), ← payloadBits_append] at hbits
    obtain ⟨u, hu, hrunu, hsnku⟩ := hdecode _ _ hcoded hbits (.inr (part_of_zeros hy (Nat.mod_lt _ hd)))
    exact ⟨u, hu, hrunu.2, fun h => absurd h hxs, fun _ => ⟨y, d, hd, hy, by rw [hsnku, List.append_assoc]⟩⟩

end Sys2Proof.Machine
end

section
/-! SUPPORT. Block control: what SETCTRL leaves of the state (40_control.md R84). -/

namespace Sys2Proof.Machine
open Sys2Proof

/-- A one-bit operand widened to a register word: `zext_32(b)`. -/
theorem setWidth_ofBool (b : Bool) : (BitVec.ofBool b).setWidth 32 = if b then 1#32 else 0#32 := by
  cases b <;> rfl

/-- SETCTRL is one update of CTRL and raises nothing. -/
theorem exec_setctrl (b : Bool) (s : State) :
    exec (.setctrl b) s = .next (s.setCtrl ((BitVec.ofBool b).setWidth 32)) := rfl

/-- Settles O27: the one update is of CTRL, with the operand's zero extension. -/
theorem setctrlWritesCtrl : Obligations.SetctrlWritesCtrl := by
  intro b s
  rw [exec_setctrl, setWidth_ofBool, State.setCtrl]

end Sys2Proof.Machine
end

section
/-! SUPPORT. The readout commands: what FGET, CLEN and CBIT write to RESULT (41_frequency.md R89, 43_codetable.md R101,
R102). -/

namespace Sys2Proof.Machine
open Sys2Proof

/-! ### CLEN's word -/

/-- The length word of a code holds valid = 1 in bit 8 above the length in bits 7:0 (R101). -/
theorem lenWord_some_toNat {c : Bits} (h : c.length ≤ Config.maxLen) : (lenWord (some c)).toNat = 256 + c.length := by
  have hlen : c.length < 2 ^ 8 := Nat.lt_succ_of_le h
  rw [lenWord, BitVec.toNat_setWidth, BitVec.toNat_append, BitVec.toNat_ofNat, BitVec.toNat_ofNat,
    Nat.mod_eq_of_lt hlen, ← Nat.shiftLeft_add_eq_or_of_lt hlen]
  omega

/-! ### CBIT's word -/

/-- In range, the bit word holds 1 in bit 1 above the code's bit (R102). -/
theorem bitWord_inside {code : Bits} {i : Nat} {b : Bool} (h : code[i]? = some b) :
    (bitWord (some code) i).toNat = 2 + b.toNat := by
  rw [show bitWord (some code) i = (1#1 ++ BitVec.ofBool b).setWidth 32 by simp only [bitWord, h]]
  cases b <;> rfl

/-- From the code's length on, the bit word is 0 (R102). -/
theorem bitWord_beyond {code : Bits} {i : Nat} (h : code.length ≤ i) : bitWord (some code) i = 0#32 := by
  simp only [bitWord, List.getElem?_eq_none h]

/-- No code of at most 255 bits has a bit 255 (R35, R102). -/
theorem bitWord_255 {e : CodeEntry} (h : ∀ c, e = some c → c.length ≤ Config.maxLen) : bitWord e 255 = 0#32 := by
  cases e with
  | none => rfl
  | some c => exact bitWord_beyond (h c rfl)

/-! ### The commands -/

/-- Settles O28: each is one update of RESULT, with the word laid out above. -/
theorem readoutCommands : Obligations.ReadoutCommands := by
  refine ⟨fun y s => ⟨_, rfl, BitVec.toNat_ofNat _ _⟩, fun y s hcodes => ⟨_, rfl, ?_, ?_⟩,
    fun y i s hcodes => ⟨_, rfl, ?_, ?_, ?_, ?_⟩⟩
  · intro hnone
    rw [hnone, lenWord]
  · intro c hc
    rw [hc, lenWord_some_toNat (hcodes y c hc)]
  · intro code b hcode hb
    rw [hcode, bitWord_inside hb]
  · intro hnone
    rw [hnone, bitWord]
  · intro code hcode hi
    rw [hcode, bitWord_beyond hi]
  · rintro rfl
    exact bitWord_255 (hcodes y)

end Sys2Proof.Machine
end

section
/-! SUPPORT. The frequency table: FCLEAR, FADD and FSCAN (41_frequency.md R85 to R88), and NFREQ (10_state.md R26). -/

namespace Sys2Proof.Machine
open Sys2Proof

/-! ### FCLEAR -/

/-- Settles O29: the one update writes the table of zeros. -/
theorem fclearZeroesTheCounts : Obligations.FclearZeroesTheCounts := fun s =>
  ⟨s.setFreq (constTable 0), rfl, setFreq_frame rfl s _, cell_constTable 0, fun hs => nfreqWord_of_empty hs rfl⟩

/-! ### FADD -/

/-- Writing one cell of a table moves it into or out of those counted. -/
theorem countP_setCell {α : Type} (p : α → Bool) (t : Table α) (y : Byte) (a : α) :
    (setCell t y a).toList.countP p + (if p (cell t y) then 1 else 0) =
      t.toList.countP p + (if p a then 1 else 0) := by
  have hy : y.toNat < t.toList.length := by rw [Vector.length_toList]; exact y.isLt
  have hcell : t.toList[y.toNat] = cell t y := Vector.getElem_toList hy
  have hle := List.boole_getElem_le_countP (p := p) hy
  rw [setCell, Vector.toList_set, List.countP_set hy]
  rw [hcell] at hle ⊢
  omega

/-- With no fault NFREQ rises by 1 where a count leaves 0 (R26). -/
theorem nfreqWord_count (y : Byte) {s : State} (hs : s.faulted = false) :
    (nfreqWord (s.setFreq (setCell s.freq y (cell s.freq y + 1)))).toNat =
      (nfreqWord s).toNat + (if cell s.freq y = 0 then 1 else 0) := by
  have hcount := countP_setCell (· != 0) s.freq y (cell s.freq y + 1)
  rw [nfreqWord_running hs, nfreqWord_running (s := s.setFreq (setCell s.freq y (cell s.freq y + 1))) hs,
    (ofNat_countRegister (countP_table_le _ _)).1, (ofNat_countRegister (countP_table_le _ _)).1, State.setFreq_freq]
  by_cases h : cell s.freq y = 0
  · simpa [h] using hcount
  · simpa [h] using hcount

/-- Below the largest count of the width, a byte is counted (R85). -/
theorem countByte_below {y : Byte} {s : State} (h : cell s.freq y + 1 < 2 ^ s.params.wCnt) :
    countByte y s = .ok () (s.setFreq (setCell s.freq y (cell s.freq y + 1))) := if_neg (Nat.not_le.mpr h)

/-- At the largest count of the width, or above, counting a byte overflows (R85). -/
theorem countByte_full {y : Byte} {s : State} (h : 2 ^ s.params.wCnt ≤ cell s.freq y + 1) :
    countByte y s = .raised .ovf (0x01000000#32 ||| y.setWidth 32) s := if_pos h

/-- Settles O30: FADD is one count. -/
theorem faddCountsOneByte : Obligations.FaddCountsOneByte := by
  intro y s
  constructor
  · intro h
    refine ⟨s.setFreq (setCell s.freq y (cell s.freq y + 1)), congrArg finish (countByte_below h),
      setFreq_frame rfl s _, fun z => cell_setCell _ _ _ _, nfreqWord_count y⟩
  · exact fun h => congrArg finish (countByte_full h.ge)

/-! ### FSCAN: the faults -/

/-- A body that leaves the writer alone and raises a fault enters the fault state as if from where it started (R136). -/
theorem Within.faults {fp : Footprint} {es : List ErrorCode} {s : State} {r : Res Unit} {E : ErrorCode → Word → Prop}
    (hw : Within fp es s r) (hwriter : fp.writer = false) (h : r.Sat (fun _ _ => False) fun e i _ => E e i) :
    ∃ e i, E e i ∧ finish r = .next (faultEntry e i s) := by
  cases r with
  | ok a t => exact h.elim
  | raised e i t =>
    obtain ⟨-, hframe, -⟩ := hw
    exact ⟨e, i, h, by rw [finish_raised, faultEntry_frame hwriter hframe]⟩

/-- FSCAN's loop moves the reader and writes FREQ (R88). -/
theorem scan_within (n : Nat) (s : State) :
    Within (footprint .FSCAN) [.srcIo, .align, .ovf] s (scanBytes countByte n s) :=
  scanBytes_within rfl (by decide) (by decide) (fun y s => countByte_within rfl rfl (by decide) y s) n s

/-- A loop of FSCAN that only raises gives FSCAN's fault. -/
theorem exec_fscan_faults {s : State} (ho : s.rdOpen = true) {E : ErrorCode → Word → Prop}
    (h : (scanBytes countByte (bytesLeft s) s).Sat (fun _ _ => False) fun e i _ => E e i) :
    ∃ e i, E e i ∧ exec .fscan s = .next (faultEntry e i s) := by
  rw [exec, execFscan, withReader_open ho]
  exact (scan_within _ s).faults rfl h

/-- Where FSCAN's loop ends with no fault, every count fits the width. -/
theorem scan_fits (n : Nat) {s : State} (h : CountsOk s) :
    (scanBytes countByte n s).Keeps fun t => ∀ z, cell t.freq z < 2 ^ s.params.wCnt := by
  refine ((scan_within n s).and (scan_countsOk n h)).mono (fun _ t ⟨⟨hframe, _⟩, hcounts⟩ z => ?_) fun _ _ _ _ => trivial
  rw [← hframe.params]
  exact hcounts z

/-- An unaligned reader has a bit to read, and the scan's first byte read meets the alignment check (R60, R135). -/
theorem scanBytes_unaligned (body : Byte → State → Res Unit) {s : State} (hr : ReaderOk s) (ha : s.rdOff % 8 ≠ 0) :
    scanBytes body (bytesLeft s) s = .raised .align (rdAlignInfo s) s := by
  obtain ⟨-, -, hoff, -⟩ := hr
  have hvalid : s.rdOff < 8 * s.rdBuf.length := lt_of_le_of_ne hoff fun h => ha (by rw [h, Nat.mul_mod_right])
  have hread : readByte s = .raised .align (rdAlignInfo s) s := by simp [readByte, rdAligned, ha]
  obtain ⟨n, hn⟩ : ∃ n, bytesLeft s = n + 1 := Nat.exists_eq_add_one.mpr (by rw [bytesLeft]; omega)
  rw [hn, scanBytes, if_pos (hasNext_iff.mpr hvalid), hread, bind_raised]

/-! ### FSCAN: the first byte that overflows

Of one byte sequence, counted on from the counts `f`: what fits from its start is no longer than what stands before a byte
that overflows, so the first overflow is one place. -/

theorem length_le_of_fits {f : Byte → Nat} {w : Nat} {pre post pre' post' : List Byte} {y : Byte}
    (hsplit : pre ++ y :: post = pre' ++ post') (hfit : ∀ z, f z + pre'.count z < w)
    (hover : w ≤ f y + pre.count y + 1) : pre'.length ≤ pre.length := by
  by_contra hlt
  have hstart : pre ++ [y] <+: pre' := by
    refine List.prefix_of_prefix_length_le (l₃ := pre ++ y :: post) ⟨post, by simp⟩ ⟨post', hsplit.symm⟩ ?_
    rw [List.length_append, List.length_singleton]
    omega
  have hcount := hstart.sublist.count_le y
  rw [List.count_append, List.count_singleton_self] at hcount
  have := hfit y
  omega

theorem first_overflow_unique {f : Byte → Nat} {w : Nat} {pre post pre' post' : List Byte} {y y' : Byte}
    (hsplit : pre ++ y :: post = pre' ++ y' :: post')
    (hfit : ∀ z, f z + pre.count z < w) (hover : w ≤ f y + pre.count y + 1)
    (hfit' : ∀ z, f z + pre'.count z < w) (hover' : w ≤ f y' + pre'.count y' + 1) : y = y' := by
  have hlen : pre.length = pre'.length :=
    le_antisymm (length_le_of_fits hsplit.symm hfit hover') (length_le_of_fits hsplit hfit' hover)
  obtain ⟨-, htail⟩ := List.append_inj hsplit hlen
  exact (List.cons.inj htail).1

/-- FSCAN of a source that does not fail stops at the first byte whose count would pass the width (R85, R88). -/
theorem exec_fscan_overflows {s : State} (ho : s.rdOpen = true) (h : Ready s) (ha : s.rdOff % 8 = 0) (hc : CountsOk s)
    {pre post : List Byte} {y : Byte} (hbytes : unreadBytes s = pre ++ y :: post)
    (hfit : ∀ z, cell s.freq z + pre.count z < 2 ^ s.params.wCnt)
    (hover : 2 ^ s.params.wCnt ≤ cell s.freq y + pre.count y + 1) :
    exec .fscan s = .next (faultEntry .ovf (0x01000000#32 ||| y.setWidth 32) s) := by
  have hscan := (scan_counts _ h.ok ha (unreadBytes_le s)).and (scan_fits (bytesLeft s) hc)
  suffices hloop : (scanBytes countByte (bytesLeft s) s).Sat (fun _ _ => False)
      fun e i _ => e = .ovf ∧ i = 0x01000000#32 ||| y.setWidth 32 by
    obtain ⟨_, _, ⟨rfl, rfl⟩, hexec⟩ := exec_fscan_faults ho hloop
    exact hexec
  refine hscan.mono ?_ ?_
  · rintro - t ⟨⟨-, -, -, hcounts⟩, hfits⟩
    have hy := hfits y
    rw [hcounts, hbytes, List.count_append, List.count_cons_self] at hy
    omega
  · rintro e i - ⟨⟨-, -, hunsound⟩ | ⟨he, pre', y', post', hbytes', hi, hover', hfit'⟩, -⟩
    · exact absurd h.sound hunsound
    · obtain rfl := first_overflow_unique (hbytes.symm.trans hbytes') hfit hover (hfit' hc) hover'
      exact ⟨he, hi⟩

/-- FSCAN whose counts all fit, with a source failure ahead, meets that failure (R55, R88). -/
theorem exec_fscan_srcIo {s : State} (ho : s.rdOpen = true) (hr : ReaderOk s) (ha : s.rdOff % 8 = 0)
    (hunsound : ¬ SourceSound s) (hfit : ∀ y, cell s.freq y + (unreadBytes s).count y < 2 ^ s.params.wCnt) :
    ∃ k, s.src.failAt = some k ∧ exec .fscan s = .next (faultEntry .srcIo (failureInfo k) s) := by
  suffices hloop : (scanBytes countByte (bytesLeft s) s).Sat (fun _ _ => False)
      fun e i _ => e = .srcIo ∧ ∃ k, s.src.failAt = some k ∧ i = failureInfo k by
    obtain ⟨_, _, ⟨rfl, k, hk, rfl⟩, hexec⟩ := exec_fscan_faults ho hloop
    exact ⟨k, hk, hexec⟩
  refine (scan_counts _ hr ha (unreadBytes_le s)).mono ?_ ?_
  · rintro - t ⟨-, -, hsound, -⟩
    exact hunsound hsound
  · rintro e i - (⟨he, hsource, -⟩ | ⟨-, pre, y, post, hbytes, -, hover, -⟩)
    · exact ⟨he, hsource⟩
    · have hy := hfit y
      rw [hbytes, List.count_append, List.count_cons_self] at hy
      omega

/-- Settles O31: the loop's law `scan_counts` lists the ways it ends, and each clause leaves one of them. -/
theorem fscanCountsTheRestOfTheSource : Obligations.FscanCountsTheRestOfTheSource := by
  intro s ho hr
  refine ⟨fun ha => ?_, fun ha hsound => exec_fscan_counts ho ⟨hr, hsound⟩ ha,
    fun ha hsound hc pre y post => exec_fscan_overflows ho ⟨hr, hsound⟩ ha hc, fun ha => exec_fscan_srcIo ho hr ha⟩
  rw [exec, execFscan, withReader_open ho, scanBytes_unaligned countByte hr ha, finish_raised, rdAlignInfo, offsetInfo]

end Sys2Proof.Machine
end

section
/-! SUPPORT. The tree: TBUILD completes where the counts' sum fits the width, and raises E_OVF where it does not
(42_tree.md R90 to R95). -/

namespace Sys2Proof.Machine
open Sys2Proof

/-- What the merges leave where the counts' sum fits the width (R91, R92, R95). -/
theorem buildTree_completes {w : Nat} {f : Table Nat} (hc : ∀ y, cell f y < 2 ^ w) (h : totalCount f < 2 ^ w) :
    ∃ ns r, buildTree w f = .tree ns r ∧ TreeOf (countedSymbols f).length ns r ∧ LeastFirst ns ∧ leavesOf f <+: ns ∧
      (∀ nd ∈ ns, nd.weight < 2 ^ w) ∧
      (0 < (countedSymbols f).length → weightAt ns (2 * (countedSymbols f).length - 2) = totalCount f) := by
  have hb := buildTree_sat w f
  cases hr : buildTree w f with
  | tree ns r =>
    rw [hr] at hb
    obtain ⟨htree, hleast, hleaves, htop, hw⟩ := hb
    exact ⟨ns, r, rfl, htree, hleast, hleaves, (hw hc).1, htop⟩
  | overflow k =>
    rw [hr] at hb
    exact absurd h (Nat.not_lt.mpr hb.1)

/-- The merge the builder stops at where the counts' sum does not fit the width (R91). -/
theorem buildTree_overflows {w : Nat} {f : Table Nat} (hc : ∀ y, cell f y < 2 ^ w) (h : 2 ^ w ≤ totalCount f) :
    ∃ k, buildTree w f = .overflow k ∧ (countedSymbols f).length ≤ k ∧ k + 1 < 2 * (countedSymbols f).length := by
  have hb := buildTree_sat w f
  cases hr : buildTree w f with
  | tree ns r =>
    rw [hr] at hb
    obtain ⟨-, -, -, -, hw⟩ := hb
    exact absurd (hw hc).2 (Nat.not_lt.mpr h)
  | overflow k =>
    rw [hr] at hb
    exact ⟨k, rfl, hb.2⟩

theorem exec_tbuild_of_tree {s : State} {ns : List Node} {r : Option Nat}
    (h : buildTree s.params.wCnt s.freq = .tree ns r) : exec .tbuild s = .next (s.setTree ns r) := by
  rw [exec, execTbuild, h, finish_ok]

theorem exec_tbuild_of_overflow {s : State} {k : Nat} (h : buildTree s.params.wCnt s.freq = .overflow k) :
    exec .tbuild s = .next (faultEntry .ovf (0x02000000#32 ||| BitVec.ofNat 32 k) s) := by
  rw [exec, execTbuild, h, finish_raised]

/-- The `k`-th counted symbol stands at the leaf of slot `k` (R90). -/
theorem leaf_of_counted_at {f : Table Nat} {ns : List Node} (h : leavesOf f <+: ns) {k : Nat} {y : Byte}
    (hy : (countedSymbols f)[k]? = some y) : ns[k]? = some (Node.leaf y (cell f y)) := by
  have hleaf : (leavesOf f)[k]? = some (Node.leaf y (cell f y)) := by rw [leavesOf_eq, List.getElem?_map, hy]; rfl
  rw [List.prefix_iff_getElem?.mp h k (lt_of_node hleaf), ← List.getElem?_eq_getElem, hleaf]

/-- A tree with a root has a leaf, and its root is its last slot (R34). -/
theorem TreeOf.root_eq {n r : Nat} {ns : List Node} {root : Option Nat} (h : TreeOf n ns root) (hr : root = some r) :
    0 < n ∧ r = 2 * n - 2 := by
  have htop := h.top.symm.trans hr
  split at htop
  · exact nomatch htop
  · next hn => exact ⟨Nat.pos_of_ne_zero hn, (Option.some.inj htop).symm⟩

/-- Settles O32: the loop's law `buildTree_sat` says what the merges end in, and the sum decides which end it is. -/
theorem tbuildBuildsTheTree : Obligations.TbuildBuildsTheTree := by
  intro s hc
  refine ⟨fun h => ?_, fun h => ?_⟩
  · obtain ⟨ns, r, hb, htree, -, hleaves, hw, htop⟩ := buildTree_completes hc h
    refine ⟨s.setTree ns r, exec_tbuild_of_tree hb, setTree_frame rfl s ns r, htree,
      ⟨_, countedSymbols_le s.freq, htree, hw⟩, fun k y hy => leaf_of_counted_at hleaves hy, fun k hk => ?_⟩
    obtain ⟨hpos, rfl⟩ := htree.root_eq hk
    exact htop hpos
  · obtain ⟨k, hb, hlow, hhigh⟩ := buildTree_overflows hc h
    exact ⟨k, hlow, hhigh, exec_tbuild_of_overflow hb⟩

/-- Settles O33: the order of the merges is part of the loop's invariant, `Merging.order`. -/
theorem tbuildMergesLeastKeysFirst : Obligations.TbuildMergesLeastKeysFirst := by
  intro s hc h
  obtain ⟨ns, r, hb, -, hleast, -⟩ := buildTree_completes hc h
  exact ⟨s.setTree ns r, exec_tbuild_of_tree hb, hleast⟩

end Sys2Proof.Machine
end

section
/-! SUPPORT. What CGEN makes of a tree: a path for each leaf, and together a complete code (43_codetable.md R97 to R100). -/

namespace Sys2Proof.Machine
open Sys2Proof

/-- A tree of one leaf is that leaf, and is its own root (R34). -/
theorem TreeOf.one {ns : List Node} {root : Option Nat} (h : TreeOf 1 ns root) :
    root = some 0 ∧ ∃ x w, ns[0]? = some (Node.leaf x w) := by
  obtain ⟨nd, hnd⟩ := h.node (k := 0) (by have := h.size; omega)
  cases nd with
  | leaf x w => exact ⟨h.top, x, w, hnd⟩
  | internal z o w => exact nomatch h.leaf _ _ hnd

/-- The table of a root that is a leaf has one code, as SINGLE1 says (R98). -/
theorem cell_codesOf_leaf {ns : List Node} {r w : Nat} {x : Byte} (h : ns[r]? = some (Node.leaf x w)) (single1 : Bool)
    (y : Byte) : cell (codesOf single1 ns (some r)) y =
      if y = x then some (if single1 then [false] else []) else none := by
  simp only [codesOf, h, cell_setCell, cell_constTable]

/-- Settles O34: no tree, a root that is a leaf, and `codesOf_tree` for the rest. -/
theorem cgenReadsThePaths : Obligations.CgenReadsThePaths := by
  intro s n hn h
  refine ⟨_, exec_cgen_codes s, setCt_frame rfl s _, codesOf_ok h hn s.single1, ?_, ?_,
    fun h2 => codesOf_tree h h2 s.single1, fun h2 y c hc => h.code_ne_nil h2 ((codesOf_tree h h2 s.single1 y c).mp hc)⟩
  · rintro rfl y
    rw [State.setCt_ct, h.top]
    exact cell_constTable none y
  · rintro rfl
    obtain ⟨hroot, x, w, hx⟩ := h.one
    refine ⟨x, w, hx, fun y => ?_⟩
    rw [State.setCt_ct, hroot]
    exact cell_codesOf_leaf hx s.single1 y

/-- Of the codes of one table that are prefix-free, no two begin the same bit string (R36). -/
theorem PrefixFree.entry_unique {t : Table CodeEntry} (h : PrefixFree t) {p : Bits} {a b : Byte × Bits}
    (ha : cell t a.1 = some a.2 ∧ a.2 <+: p) (hb : cell t b.1 = some b.2 ∧ b.2 <+: p) : a = b := by
  have hsym : a.1 = b.1 :=
    h.eq_of_conflict ⟨a.2, b.2, ha.1, hb.1, List.prefix_or_prefix_of_prefix ha.2 hb.2⟩
  exact Prod.ext hsym (Option.some.inj (ha.1.symm.trans (hsym ▸ hb.1)))

/-- The codes of a tree are complete: one of them begins each bit string of 255 bits, and only one (R100). -/
theorem TreeOf.codes_complete {n : Nat} {ns : List Node} {root : Option Nat} (h : TreeOf n ns root) (h2 : 2 ≤ n)
    (hn : n ≤ 256) (single1 : Bool) {p : Bits} (hp : Config.maxLen ≤ p.length) :
    ∃! yc : Byte × Bits, cell (codesOf single1 ns root) yc.1 = some yc.2 ∧ yc.2 <+: p := by
  simp only [Config.maxLen] at hp
  obtain ⟨c, y, hc, hy⟩ := h.leaf_on (2 * n - 2) p (by rw [h.size]; omega) (by omega)
  have hcode := (codesOf_tree h h2 single1 y c).mpr hy
  exact ⟨(y, c), ⟨hcode, hc⟩, fun _ hb => (codesOf_prefixFree single1 ns root).entry_unique hb ⟨hcode, hc⟩⟩

/-- Settles O36: the one code that begins 255 zeros is the one that is all zeros, no code being longer. -/
theorem cgenCodesAreComplete : Obligations.CgenCodesAreComplete := by
  intro s n h2 hn h
  refine ⟨_, exec_cgen_codes s, fun p hp => h.codes_complete h2 hn s.single1 hp, ?_⟩
  have hzeros := h.codes_complete h2 hn s.single1 (p := List.replicate Config.maxLen false) (by simp)
  exact (existsUnique_congr fun yc => and_congr_right fun hc =>
    List.prefix_replicate_iff.trans (and_iff_right (codesOf_ok h hn s.single1 _ _ hc))).mp hzeros

end Sys2Proof.Machine
end

section
/-! SUPPORT. The header's own statements (44_header.md R103 to R108): what HWRITE writes, what HREAD makes of a whole header and
of one cut short, and the round trip they make. -/

namespace Sys2Proof.Machine
open Sys2Proof

/-! ### HWRITE -/

/-- A body that writes some bits completes where the sink takes the bytes that go out. -/
theorem Res.Sat.writes {r : Res Unit} {bs : Bits} {P : State → Prop} {s : State} (hs : WriterOk s)
    (h : r.Sat (fun _ t => Wrote bs s t ∧ P t) (SinkFailed bs.length s)) (hk : sinkTakes (outBytes bs.length s) s) :
    ∃ t, finish r = .next t ∧ Wrote bs s t ∧ P t := by
  cases r with
  | ok a t => exact ⟨t, rfl, h⟩
  | raised e i t => exact absurd hk (h.short hs)

/-- A body that writes some bits raises E_SNK_IO, with the index of the byte refused, where the sink refuses one of the bytes
that go out (R65). -/
theorem Res.Sat.refused {r : Res Unit} {bs : Bits} {P : State → Prop} {s : State} (hs : WriterOk s)
    (h : r.Sat (fun _ t => Wrote bs s t ∧ P t) (SinkFailed bs.length s)) (hk : ¬ sinkTakes (outBytes bs.length s) s) :
    ∃ t, finish r = .next t ∧ t.fault = 0x00000008#32 ∧ s.snkErr = some t.finfo.toNat ∧ t.finfo = t.snkCount ∧
      Grows s t := by
  cases r with
  | ok a t => exact absurd (h.1.takes hs) hk
  | raised e i t =>
    obtain ⟨rfl, hsink, hcount, -, hgrows, -⟩ := h
    exact ⟨_, rfl, rfl, hsink, hcount, hgrows⟩

/-- Settles O37: `writeHeader_sat` says what HWRITE's body writes from an aligned writer; from an unaligned one its first byte
is refused. -/
theorem hwriteWritesTheHeader : Obligations.HwriteWritesTheHeader := by
  intro s hs
  refine ⟨fun ha => ((writesThatAreRefused s).1 ha).2, fun ha hk => ?_, fun ha hk => (writeHeader_sat hs ha).refused hs hk⟩
  obtain ⟨t, he, hwrote, halign⟩ := (writeHeader_sat hs ha).writes hs hk
  exact ⟨t, he, hwrote.frame.toFrame rfl, hwrote.appended hs, halign⟩

/-! ### HREAD -/

theorem hread_within (s : State) : Within (footprint .HREAD) [.srcIo, .align, .fmt] s (readHeader s) :=
  readHeader_within rfl rfl (by decide) (by decide) (by decide) s

section Open
variable {s : State} (ho : s.rdOpen = true)
include ho

/-- HREAD of a body that ends with no fault (R78). -/
theorem exec_hread_of_ok {t : State} (h : readHeader s = .ok () t) :
    exec .hread s = .next t ∧ Frame (footprint .HREAD) s t := by
  have hw := hread_within s
  rw [h] at hw
  exact ⟨by rw [exec, execHread, withReader_open ho, h, finish_ok], hw.1⟩

/-- HREAD of a body that raises: the fault state is entered as if from where HREAD started (R136). -/
theorem exec_hread_of_raised {e : ErrorCode} {i : Word} {t : State} (h : readHeader s = .raised e i t) :
    exec .hread s = .next (faultEntry e i s) := by
  have hw := hread_within s
  rw [h] at hw
  obtain ⟨-, hframe, -⟩ := hw
  rw [exec, execHread, withReader_open ho, h, finish_raised, faultEntry_frame rfl hframe]

/-- HREAD meets a source failure in a chunk it requests on its way (R55, R56). -/
theorem exec_hread_srcIo {Q : Res Unit → Prop} {left : Nat} (h : Ends (readHeader s) Q left s)
    (hs : ¬ SoundUntil left s) : ∃ k, s.src.failAt = some k ∧ exec .hread s = .next (faultEntry .srcIo (failureInfo k) s) := by
  obtain ⟨k, t, hk, hr⟩ := h.failed hs
  exact ⟨k, hk, exec_hread_of_raised ho hr⟩

/-- HREAD of a header cut short: the format error, or the source failure it meets before (R55, R107). -/
theorem exec_hread_short {i : Word} (h : Ends (readHeader s) (fun r => ∃ t, r = .raised .fmt i t) 0 s) :
    (SourceSound s → exec .hread s = .next (faultEntry .fmt i s)) ∧
      (¬ SourceSound s →
        ∃ k, s.src.failAt = some k ∧ exec .hread s = .next (faultEntry .srcIo (failureInfo k) s)) := by
  refine ⟨fun hs => ?_, exec_hread_srcIo ho h⟩
  obtain ⟨t, hr⟩ := h.ok hs
  exact exec_hread_of_raised ho hr

/-- HREAD over an unaligned reader (R107). -/
theorem exec_hread_unaligned (ha : s.rdOff % 8 ≠ 0) :
    exec .hread s = .next (faultEntry .align (0x80000000#32 ||| BitVec.ofNat 32 s.rdOff) s) := by
  have hno : ¬ rdAligned (s.setCt (constTable none)) = true := fun h => ha (of_decide_eq_true h)
  exact exec_hread_of_raised ho (if_neg hno)

end Open

/-- Settles O38: `readHeader_reads` says where HREAD's body ends, and whether a failure lies in a chunk it requests. -/
theorem hreadParsesTheHeader : Obligations.HreadParsesTheHeader := by
  intro s entries rest ho hr ha hn hok hu
  have hreads := readHeader_reads entries hr ha (Nat.lt_succ_of_le hn) hok hu
  refine ⟨fun hs => ?_, exec_hread_srcIo ho hreads⟩
  obtain ⟨t, hbody, ⟨-, halign, hct⟩, hpassed⟩ := hreads.ok hs
  obtain ⟨he, hframe⟩ := exec_hread_of_ok ho hbody
  exact ⟨t, he, hframe, hpassed.ok, hpassed.sound.mp, halign, hpassed.unread, hct⟩

/-- Settles O39: the source ends inside the count, or inside the entry after those that are whole. -/
theorem hreadFaultsOnAShortHeader : Obligations.HreadFaultsOnAShortHeader := by
  intro s ho hr
  refine ⟨exec_hread_unaligned ho, fun ha hu => exec_hread_short ho (readHeader_shortCount hr ha hu), ?_⟩
  intro ha entries n part hn hlt hok hu hpart
  exact exec_hread_short ho (readHeader_shortEntry entries n hr ha (Nat.lt_succ_of_le hn) hlt hok hu hpart)

/-! ### The round trip -/

/-- HWRITE and WFLUSH from an empty writer deliver the header and nothing else: it ends on a byte boundary, so the flush pads
nothing (R104, R106). -/
theorem run_writeHeader {s : State} (hs : Running s) (hw : WriterOk s) (hempty : s.wrOff = 0) (hk : s.snkErr = none) :
    ∃ t stream, runCommands [.hwrite, .wflush] s = .next t ∧ Running t ∧ t.snk = s.snk ++ stream ∧
      bytesBits s.params.bitOrder stream = headerBits s.params.bitOrder s.ct := by
  obtain ⟨a, hra, hwrote, halign⟩ := exec_hwrite_writes hw (by rw [hempty]) hk
  have fa : Frame (footprint .HWRITE) s a := hwrote.frame.toFrame rfl
  obtain ⟨hwa, hsent⟩ := hwrote.law hw
  obtain ⟨b, hrb, fb, hbits⟩ := exec_wflush_delivers hwa (fa.snkErr.trans hk)
  have hpad : padLen a.wrOff = 0 := padLen_congr (n := 0) halign
  rw [hpad, List.replicate_zero, List.append_nil, hsent, sentBits_of_empty hempty, fa.params] at hbits
  obtain ⟨stream, hstream, hheader⟩ := bytes_of_bits_append hbits
  refine ⟨b, stream, ?_, fb.running (fa.running hs), hstream, hheader⟩
  rw [runCommands_cons hs hra, runCommands_cons (fa.running hs) hrb]
  rfl

/-- ROPEN and HREAD of a table's header, and nothing after it, read the table and leave nothing unread (R107). -/
theorem run_readHeader {r : State} {ct : Table CodeEntry} {stream : List Byte} (hr : Running r)
    (hB : 0 < r.params.bufBytes) (hp : presentation r.srcs (r.rdOpens + 1#32) = ⟨stream, none⟩) (hok : CodesOk ct)
    (hbits : bytesBits r.params.bitOrder stream = headerBits r.params.bitOrder ct) :
    ∃ u, runCommands [.ropen, .hread] r = .next u ∧ Running u ∧ u.ct = ct ∧ unreadBits u = [] := by
  obtain ⟨a, hra, fa, hopen, -, hready, hoff, hbytes⟩ := exec_ropen_opens hB hp
  have hunread : unreadBits a = headerBits a.params.bitOrder ct ++ [] := by
    rw [unreadBits_eq_bytes (by rw [hoff]), hbytes, fa.params, hbits, List.append_nil]
  obtain ⟨b, hrb, fb, -, hrest, hct⟩ := exec_hread_reads hopen hready (by rw [hoff]) hok hunread
  refine ⟨b, ?_, fb.running (fa.running hr), hct, hrest⟩
  rw [runCommands_cons hr hra, runCommands_cons (fa.running hr) hrb]
  rfl

/-- Settles O40: the bytes delivered are the table's header, bit for bit, in the one BIT_ORDER of both blocks. -/
theorem headerRoundTrip : Obligations.HeaderRoundTrip := by
  intro s r hw hempty hok hk hb hf
  obtain ⟨t, stream, hrun, ht, hsnk, hbits⟩ := run_writeHeader ⟨hb, hf⟩ hw hempty hk
  refine ⟨t, hrun, ht.2, stream, hsnk, fun horder hlegal hbr hfr hp => ?_⟩
  obtain ⟨u, hrunr, hu, hct, hunread⟩ :=
    run_readHeader ⟨hbr, hfr⟩ (Params.legal_bufBytes hlegal).1 hp hok (horder ▸ hbits)
  exact ⟨u, hrunr, hu.2, hct, hunread⟩

end Sys2Proof.Machine
end

section
/-! SUPPORT. The writer's commands (45_bitwriter.md R109 to R113, 47_encode.md R123, R124): the bits each of WBIT, WBYTE, WSHORT
and ESYM appends, and that what a run of them and a flush deliver does not depend on the buffer's size. -/

namespace Sys2Proof.Machine
open Sys2Proof

/-! ### The bits a command appends -/

/-- From `s` the command appends the bits, where the sink takes the bytes that go out. WBYTE and WSHORT need an aligned writer
(R63, R64), ESYM a byte that has a code (R123). -/
inductive Appends (s : State) : Instr → Bits → Prop where
  | wbit (b : Bool) : Appends s (.wbit b) [b]
  | wbyte (y : Byte) (ha : s.wrOff % 8 = 0) : Appends s (.wbyte y) (byteBits s.params.bitOrder y)
  | wshort (v : BitVec 16) (ha : s.wrOff % 8 = 0) :
    Appends s (.wshort v) (byteBits s.params.bitOrder (v.extractLsb' 0 8) ++ byteBits s.params.bitOrder (v.extractLsb' 8 8))
  | esym (y : Byte) {c : Bits} (hc : cell s.ct y = some c) : Appends s (.esym y) c

/-- The command's body writes the bits, or the sink refuses one of the bytes that go out. -/
theorem Appends.body {i : Instr} {bits : Bits} {s : State} (h : Appends s i bits) (hs : WriterOk s) :
    ∃ r, exec i s = finish r ∧
      r.Sat (fun _ t => Wrote bits s t ∧ Frame (footprint i.mnemonic) s t) (SinkFailed bits.length s) := by
  cases h with
  | wbit b => exact ⟨_, rfl, (writeBit_sat b s).mono (fun _ _ hw => ⟨hw, hw.frame.toFrame rfl⟩) fun _ _ _ hf => hf⟩
  | wbyte y ha =>
    refine ⟨_, rfl, (writeByte_sat y s).mono (fun _ _ ⟨hw, _⟩ => ⟨hw, hw.frame.toFrame rfl⟩) ?_⟩
    rintro e info t (hf | ⟨-, -, -, hunaligned⟩)
    · rwa [byteBits_length]
    · exact absurd ha hunaligned
  | wshort v ha =>
    refine ⟨_, rfl, (writeShort_sat v hs ha).mono (fun _ _ ⟨hw, _⟩ => ⟨hw, hw.frame.toFrame rfl⟩) fun e info t hf => ?_⟩
    rwa [List.length_append, byteBits_length, byteBits_length]
  | esym y hc =>
    refine ⟨_, by rw [exec, execEsym, emitCode, hc], ?_⟩
    exact (writeBits_sat bits s).mono (fun _ _ hw => ⟨hw, hw.frame.toFrame rfl⟩) fun _ _ _ hf => hf

/-- Settles O41: the four forms are those of `Appends`, whose body's law says what is written and when the sink refuses. -/
theorem writerCommandsAppendTheirBits : Obligations.WriterCommandsAppendTheirBits := by
  intro s i bits hs hform
  have happ : Appends s i bits := by
    rcases hform with ⟨b, rfl, rfl⟩ | ⟨ha, y, rfl, rfl⟩ | ⟨ha, v, rfl, rfl⟩ | ⟨y, rfl, hc⟩
    · exact .wbit b
    · exact .wbyte y ha
    · exact .wshort v ha
    · exact .esym y hc
  obtain ⟨r, he, hr⟩ := happ.body hs
  rw [he]
  refine ⟨fun hk => ?_, hr.refused hs⟩
  obtain ⟨t, ht, hwrote, hframe⟩ := hr.writes hs hk
  exact ⟨t, ht, hframe, hwrote.appended hs⟩

/-! ### Commands that append nothing -/

/-- The commands that append bits of their own: the operand's, or the code of the operand. -/
def writerCommands : List Mnemonic := [.WBIT, .WBYTE, .WSHORT, .ESYM]

/-- Such a command appends some bits, or raises E_ALIGN or E_NOCODE before it writes any (R51, R123). -/
theorem appends_or_faults {i : Instr} (hi : i.mnemonic ∈ writerCommands) (s : State) :
    (∃ bits, Appends s i bits) ∨ ∃ e info, exec i s = .next (faultEntry e info s) := by
  obtain ⟨hunaligned, hnoCode⟩ := writesThatAreRefused s
  cases i with
  | wbit b => exact .inl ⟨_, .wbit b⟩
  | wbyte y =>
    by_cases ha : s.wrOff % 8 = 0
    · exact .inl ⟨_, .wbyte y ha⟩
    · exact .inr ⟨_, _, ((hunaligned ha).1 y 0#16).1⟩
  | wshort v =>
    by_cases ha : s.wrOff % 8 = 0
    · exact .inl ⟨_, .wshort v ha⟩
    · exact .inr ⟨_, _, ((hunaligned ha).1 0#8 v).2⟩
  | esym y =>
    cases hc : cell s.ct y with
    | none => exact .inr ⟨_, _, hnoCode y hc⟩
    | some c => exact .inl ⟨c, .esym y hc⟩
  | _ => simp [writerCommands, Instr.mnemonic] at hi

/-- In the fault state every command but SRESET is dropped (R138). -/
theorem issue_encode_faulted {i : Instr} (hi : i ≠ .sreset) {s : State} (hb : s.busy = false) (hf : s.faulted = true) :
    issue (encode i) s = .next s := by
  have hne : encode i ≠ sresetWord := fun h =>
    hi (Except.ok.inj ((decode_encode i).symm.trans ((congrArg decode h).trans (decode_encode .sreset))))
  simp [issue, hb, hf, hne]

/-- A run with no SRESET leaves the fault state as it is (R138). -/
theorem runCommands_faulted {is : List Instr} (his : ∀ i ∈ is, i ≠ .sreset) {s : State} (hb : s.busy = false)
    (hf : s.faulted = true) : runCommands is s = .next s := by
  induction is with
  | nil => rfl
  | cons i is ih =>
    rw [List.forall_mem_cons] at his
    rw [runCommands, List.map_cons, issueAll, issue_encode_faulted his.1 hb hf]
    exact ih his.2

/-! ### Two blocks whose buffers differ -/

/-- A block that can write: it runs the command it is given, its writer's buffer is in order, and its sink refuses nothing. -/
structure Writing (s : State) : Prop where
  running : Running s
  ok : WriterOk s
  sink : s.snkErr = none

/-- Two blocks have sent the same bits, in SNK and pending together, with one BIT_ORDER and one code table. How many of the bits
are still pending may differ with the buffers. -/
structure SameStream (s r : State) : Prop where
  order : r.params.bitOrder = s.params.bitOrder
  ct : r.ct = s.ct
  sent : sentBits r = sentBits s

/-- Blocks that have sent the same bits stand at the same place in a byte. -/
theorem SameStream.offset {s r : State} (h : SameStream s r) (hs : WriterOk s) (hr : WriterOk r) :
    r.wrOff % 8 = s.wrOff % 8 := by
  have hlen := congrArg List.length h.sent
  rw [sentBits_length hs, sentBits_length hr] at hlen
  omega

/-- They append the same bits for a command. -/
theorem Appends.same {s r : State} {i : Instr} {bits : Bits} (h : Appends s i bits) (hsame : SameStream s r)
    (hs : WriterOk s) (hr : WriterOk r) : Appends r i bits := by
  have hoff := hsame.offset hs hr
  cases h with
  | wbit b => exact .wbit b
  | wbyte y ha => exact hsame.order ▸ .wbyte y (hoff.trans ha)
  | wshort v ha => exact hsame.order ▸ .wshort v (hoff.trans ha)
  | esym y hc => exact .esym y (hsame.ct ▸ hc)

/-- A block that can write runs a command that appends bits, and can still write. -/
theorem Appends.runs {s : State} {i : Instr} {bits : Bits} (h : Appends s i bits) (hs : Writing s) :
    ∃ t, exec i s = .next t ∧ Wrote bits s t ∧ Writing t := by
  obtain ⟨r, he, hr⟩ := h.body hs.ok
  obtain ⟨t, ht, hwrote, hframe⟩ := hr.writes hs.ok (sinkTakes_of_never hs.sink _)
  exact ⟨t, he.trans ht, hwrote, hframe.running hs.running, (hwrote.law hs.ok).1, hframe.snkErr.trans hs.sink⟩

/-- Writes of the same bits keep two streams the same. -/
theorem SameStream.wrote {s r s' r' : State} {bits : Bits} (h : SameStream s r) (hs : WriterOk s) (hr : WriterOk r)
    (hws : Wrote bits s s') (hwr : Wrote bits r r') : SameStream s' r' where
  order := by rw [hws.frame.params, hwr.frame.params, h.order]
  ct := by rw [hws.frame.ct, hwr.frame.ct, h.ct]
  sent := by rw [(hws.law hs).2, (hwr.law hr).2, h.sent]

/-- A flush makes the bytes delivered the same: the bits sent are, and so is the padding (R66). -/
theorem SameStream.flush {s r : State} (h : SameStream s r) (hs : Writing s) (hr : Writing r) :
    ∃ t u, exec .wflush s = .next t ∧ exec .wflush r = .next u ∧ u.faulted = false ∧ u.snk = t.snk := by
  obtain ⟨t, ht, -, htbits⟩ := exec_wflush_delivers hs.ok hs.sink
  obtain ⟨u, hu, fu, hubits⟩ := exec_wflush_delivers hr.ok hr.sink
  refine ⟨t, u, ht, hu, (fu.running hr.running).2, bytesBits_inj s.params.bitOrder ?_⟩
  calc bytesBits s.params.bitOrder u.snk
      _ = sentBits r ++ List.replicate (padLen r.wrOff) false := by rw [← h.order, hubits]
      _ = sentBits s ++ List.replicate (padLen s.wrOff) false := by rw [h.sent, padLen_congr (h.offset hs.ok hr.ok)]
      _ = bytesBits s.params.bitOrder t.snk := htbits.symm

/-- Two blocks with the same stream run the same writer commands side by side, to the flush that ends them; a command that
faults in one block leaves it in the fault state to the end. -/
theorem SameStream.run {is : List Instr} (his : ∀ i ∈ is, i.mnemonic ∈ writerCommands) {s r t : State}
    (h : SameStream s r) (hs : Writing s) (hr : Writing r) (hrun : runCommands (is ++ [.wflush]) s = .next t)
    (ht : t.faulted = false) : ∃ u, runCommands (is ++ [.wflush]) r = .next u ∧ u.faulted = false ∧ u.snk = t.snk := by
  induction is generalizing s r with
  | nil =>
    obtain ⟨t', u, hs', hr', hfaulted, hsnk⟩ := h.flush hs hr
    obtain rfl : t' = t := Host.Outcome.next.inj ((runCommands_cons hs.running hs' []).symm.trans hrun)
    exact ⟨u, runCommands_cons hr.running hr' [], hfaulted, hsnk⟩
  | cons i is ih =>
    obtain ⟨hi, his⟩ := List.forall_mem_cons.mp his
    rcases appends_or_faults hi s with ⟨bits, happ⟩ | ⟨e, info, he⟩
    · obtain ⟨a, ha, hwa, hsa⟩ := happ.runs hs
      obtain ⟨b, hb, hwb, hrb⟩ := (happ.same h hs.ok hr.ok).runs hr
      rw [List.cons_append, runCommands_cons hs.running ha] at hrun
      rw [List.cons_append, runCommands_cons hr.running hb]
      exact ih his (h.wrote hs.ok hr.ok hwa hwb) hsa hrb hrun
    · have hne : ∀ j ∈ is ++ [.wflush], j ≠ .sreset := by
        rintro j hj rfl
        rcases List.mem_append.mp hj with hj | hj
        · exact absurd (his _ hj) (by decide)
        · simp at hj
      rw [List.cons_append, runCommands_cons hs.running he, runCommands_faulted hne rfl (faultEntry_faulted ..)] at hrun
      obtain rfl := Host.Outcome.next.inj hrun
      simp at ht

/-- Settles O52: two blocks with nothing pending and the same bytes in SNK have the same stream, and `SameStream.run` keeps
it. -/
theorem bufferSizeDoesNotShowInTheBytes : Obligations.BufferSizeDoesNotShowInTheBytes := by
  intro s r t is his hws hwr hos hor hks hkr hbs hbr hfs hfr horder hct hsnk hrun ht
  have hsame : SameStream s r :=
    ⟨horder, hct, by rw [sentBits_of_empty hos, sentBits_of_empty hor, horder, hsnk]⟩
  exact hsame.run his ⟨⟨hbs, hfs⟩, hws, hks⟩ ⟨⟨hbr, hfr⟩, hwr, hkr⟩ hrun ht

end Sys2Proof.Machine
end

section
/-! SUPPORT. A bit string's round trip (45_bitwriter.md R113, 46_bitreader.md R121): the bits WBIT sends come back through RBIT,
whatever the buffers' sizes. -/

namespace Sys2Proof.Machine
open Sys2Proof

/-- WBIT after WBIT and a flush, from an empty writer, deliver the bits and zeros that fill the last byte (R109, R112). -/
theorem run_wbits_wflush (bits : Bits) {s : State} (hs : Writing s) (hempty : s.wrOff = 0) :
    ∃ t stream, runCommands (bits.map Instr.wbit ++ [.wflush]) s = .next t ∧ Running t ∧ t.snk = s.snk ++ stream ∧
      bytesBits s.params.bitOrder stream = bits ++ List.replicate (padLen bits.length) false := by
  obtain ⟨a, hwrite, hwrote⟩ := writeBits_ok bits hs.ok (sinkTakes_of_never hs.sink _)
  have fa : Frame (footprint .WBIT) s a := hwrote.frame.toFrame rfl
  obtain ⟨hwa, hsent⟩ := hwrote.law hs.ok
  obtain ⟨b, hrb, fb, hbits⟩ := exec_wflush_delivers hwa (fa.snkErr.trans hs.sink)
  have hpad : padLen a.wrOff = padLen bits.length := by
    have hlen := congrArg List.length hsent
    rw [sentBits_length hwa, List.length_append, sentBits_length hs.ok] at hlen
    exact padLen_congr (by omega)
  rw [hpad, hsent, sentBits_of_empty hempty, fa.params, List.append_assoc] at hbits
  obtain ⟨stream, hstream, hstreamBits⟩ := bytes_of_bits_append hbits
  have hra := fa.running hs.running
  exact ⟨b, stream, (runCommands_append (runCommands_wbits hs.running hwrite)).trans (runCommands_cons hra hrb []),
    fb.running hra, hstream, hstreamBits⟩

section Opened
variable {r : State} {stream : List Byte} (hr : Running r) (hB : 0 < r.params.bufBytes)
  (hp : presentation r.srcs (r.rdOpens + 1#32) = ⟨stream, none⟩)
include hr hB hp

/-- An open of a presentation that never fails leaves all its bits unread (R54, R115). -/
theorem exec_ropen_unread :
    ∃ a, exec .ropen r = .next a ∧ Running a ∧ a.rdOpen = true ∧ Ready a ∧
      unreadBits a = bytesBits r.params.bitOrder stream := by
  obtain ⟨a, he, fa, hopen, -, hready, hoff, hbytes⟩ := exec_ropen_opens hB hp
  exact ⟨a, he, fa.running hr, hopen, hready, by rw [unreadBits_eq_bytes (by rw [hoff]), hbytes, fa.params]⟩

/-- An open and then RBIT after RBIT read a stream's bits from the first on, the last one read left in RESULT (R115, R117). -/
theorem run_ropen_rbits {c rest : Bits} {b : Bool} (hbits : bytesBits r.params.bitOrder stream = c ++ b :: rest) :
    ∃ u, runCommands (.ropen :: List.replicate (c.length + 1) .rbit) r = .next u ∧ Running u ∧
      unreadBits u = rest ∧ u.result = if b then 1#32 else 0#32 := by
  obtain ⟨a, he, ha, hopen, hready, hunread⟩ := exec_ropen_unread hr hB hp
  obtain ⟨u, hrun, hu, hres⟩ := runCommands_rbits hopen hready ha (hunread.trans hbits)
  exact ⟨u, (runCommands_cons hr he _).trans hrun, hu.frame.running ha, hu.unread, hres⟩

/-- As many RBITs as some bits that a stream begins with leave the others unread; with no such bit the open does. -/
theorem run_ropen_rbits_unread {bits rest : Bits} (hbits : bytesBits r.params.bitOrder stream = bits ++ rest) :
    ∃ u, runCommands (.ropen :: List.replicate bits.length .rbit) r = .next u ∧ Running u ∧ unreadBits u = rest := by
  rcases List.eq_nil_or_concat bits with rfl | ⟨c, b, rfl⟩
  · obtain ⟨a, he, ha, -, -, hunread⟩ := exec_ropen_unread hr hB hp
    exact ⟨a, runCommands_cons hr he [], ha, hunread.trans hbits⟩
  · rw [List.concat_eq_append, List.append_assoc] at hbits
    obtain ⟨u, hrun, hu, hunread, -⟩ := run_ropen_rbits hr hB hp hbits
    exact ⟨u, by rwa [List.length_concat], hu, hunread⟩

end Opened

/-- Settles O51: the stream's bits are those written and the padding, and an RBIT reads each in its turn. -/
theorem bitStreamRoundTrip : Obligations.BitStreamRoundTrip := by
  intro s r bits hw hempty hk hb hf
  obtain ⟨t, stream, hrun, ht, hsnk, hbits⟩ := run_wbits_wflush bits ⟨⟨hb, hf⟩, hw, hk⟩ hempty
  refine ⟨t, stream, hrun, ht.2, hsnk, fun horder hlegal hbr hfr hp => ?_⟩
  have hr : Running r := ⟨hbr, hfr⟩
  have hB := (Params.legal_bufBytes hlegal).1
  rw [← horder] at hbits
  refine ⟨fun k b hkb => ?_, ?_⟩
  · obtain ⟨hlt, rfl⟩ := List.getElem?_eq_some_iff.mp hkb
    have hbits' : bytesBits r.params.bitOrder stream =
        bits.take k ++ bits[k] :: (bits.drop (k + 1) ++ List.replicate (padLen bits.length) false) := by
      rw [hbits, ← List.cons_append, ← List.append_assoc, List.cons_getElem_drop_succ, List.take_append_drop]
    obtain ⟨u, hrunu, hu, -, hres⟩ := run_ropen_rbits hr hB hp hbits'
    rw [List.length_take, Nat.min_eq_left hlt.le] at hrunu
    exact ⟨u, hrunu, hu.2, hres⟩
  · obtain ⟨u, hrunu, hu, hunread⟩ := run_ropen_rbits_unread hr hB hp hbits
    exact ⟨u, hrunu, hu.2, hunread⟩

end Sys2Proof.Machine
end

section
/-! SUPPORT. The reader's queries and its three reads (46_bitreader.md R116 to R120): what each puts into RESULT, and which fault
it raises where. -/

namespace Sys2Proof.Machine
open Sys2Proof

/-! ### RHASNEXT and RALIGNED -/

/-- A flag in RESULT. -/
theorem ofBool_word (b : Bool) : (BitVec.ofBool b).setWidth 32 = if b then 1#32 else 0#32 := by cases b <;> rfl

/-- A bit is unread just where not all of the source is consumed (R41, R57). -/
theorem ReaderOk.hasNext_eq {s : State} (h : ReaderOk s) : hasNext s = decide (consumed s < 8 * s.src.bytes.length) := by
  obtain ⟨-, -, hlen⟩ := h.sizes
  rw [Bool.eq_iff_iff, hasNext_iff_unread h, ne_eq, ← List.length_eq_zero_iff, decide_eq_true_iff]
  omega

/-- Chunks are whole bytes, so the offset tells the alignment (R41, R58). -/
theorem consumed_mod_eight (s : State) : consumed s % 8 = s.rdOff % 8 := by
  rw [consumed, Nat.mul_assoc, Nat.mul_add_mod]

/-- Settles O46: the two flags are exact, and the queries write nothing but RESULT. -/
theorem readerQueriesAreExact : Obligations.ReaderQueriesAreExact := by
  intro s ho hr
  constructor
  · rw [exec, execRhasnext, withReader_open ho, finish_ok, ofBool_word, hr.hasNext_eq]
    simp only [decide_eq_true_iff, State.setResult]
  · rw [exec, execRaligned, withReader_open ho, finish_ok, ofBool_word, rdAligned, ← consumed_mod_eight]
    simp only [decide_eq_true_iff, State.setResult]

/-! ### Where a read ends -/

/-- The count of consumed bits rises by what is no longer unread (R41). -/
theorem Passed.consumed {rest : Bits} {s t : State} (p : Passed rest s t) (h : ReaderOk s) {n : Nat}
    (hn : (unreadBits s).length = n + rest.length) : Machine.consumed t = Machine.consumed s + n := by
  obtain ⟨-, -, hs⟩ := h.sizes
  obtain ⟨-, -, ht⟩ := p.ok.sizes
  rw [p.unread, p.src] at ht
  omega

/-- A reader that has passed to where whole bytes are unread has those bytes unread. -/
theorem Passed.unreadBytes {ys : List Byte} {s t : State} (p : Passed (bytesBits s.params.bitOrder ys) s t) :
    Machine.unreadBytes t = ys := by
  have ha : t.rdOff % 8 = 0 := by
    have := unread_align p.ok
    rw [p.unread, bytesBits_length] at this
    omega
  exact bytesBits_inj t.params.bitOrder (by rw [← unreadBits_eq_bytes ha, p.unread, p.params])

/-- A read of `n` bits that stays inside the buffer requests a chunk only where it ends at the buffer's end, and then the
next one (R56). -/
theorem ReaderOk.soundUntil_iff {s : State} (h : ReaderOk s) {n left : Nat} (hn : s.rdOff + n ≤ 8 * s.bufBytes)
    (hleft : (unreadBits s).length = n + left) : SoundUntil left s ↔ boundaryFailure n s = none := by
  obtain ⟨-, -, hlen⟩ := h.sizes
  obtain ⟨-, -, -, hoff⟩ := h
  have hnext : 8 * s.bufBytes * (s.rdChunk + 1) = 8 * s.bufBytes * s.rdChunk + 8 * s.bufBytes := by ring
  have hcons : consumed s = 8 * s.bufBytes * s.rdChunk + s.rdOff := rfl
  unfold boundaryFailure
  split
  · next hend =>
    refine ⟨fun hs => hs _ (Nat.lt_succ_self _) (by omega), fun hno j hj hl => ?_⟩
    have hpos : 0 < 8 * s.bufBytes := Nat.zero_lt_of_lt hoff
    have hle : j ≤ s.rdChunk + 1 := Nat.le_of_mul_le_mul_left (by omega : 8 * s.bufBytes * j ≤ _) hpos
    rwa [Nat.le_antisymm hle hj]
  · exact iff_of_true (soundUntil_of_near (by omega)) rfl

theorem boundaryFailure_failAt {n k : Nat} {s : State} (h : boundaryFailure n s = some k) : s.src.failAt = some k := by
  unfold boundaryFailure at h
  split at h
  · exact (failsIn_failAt h).1
  · exact nomatch h

/-! ### A read whose value goes to RESULT -/

/-- The body of RBIT, RBYTE and RSHORT (R117 to R119): what is read goes to RESULT. -/
def toResult {α : Type} (f : α → Word) (r : Res α) : Res Unit := r.bind fun a t => .ok () (t.setResult (f a))

section Read
variable {α : Type} {r : Res α} {es : List ErrorCode} {s : State} (hw : Within (footprint .RBIT) es s r) (f : α → Word)
include hw

/-- What the read raises is the command's fault, entered as if from where it started (R136). -/
theorem finish_toResult_raised {e : ErrorCode} {i : Word} {t : State} (h : r = .raised e i t) :
    finish (toResult f r) = .next (faultEntry e i s) := by
  rw [h] at hw ⊢
  obtain ⟨-, hframe, -⟩ := hw
  exact congrArg Host.Outcome.next (faultEntry_frame rfl hframe e i)

/-- A read that meets no failure ends with its value in RESULT, and nothing else but the reader's position differs. -/
theorem Reads.finish_toResult {a : α} {P : State → Prop} {rest : Bits} (h : Reads r a P rest s)
    (hs : SoundUntil rest.length s) :
    ∃ t, finish (toResult f r) = .next t ∧ Frame (footprint .RBIT) s t ∧ t.result = f a ∧ Passed rest s t := by
  obtain ⟨t, hr, -, hpassed⟩ := h.ok hs
  rw [hr] at hw ⊢
  obtain ⟨hframe, -⟩ := hw
  exact ⟨t.setResult (f a), rfl, hframe.trans (setResult_frame rfl t _), rfl, hpassed.setResult _⟩

/-- A failure in a chunk the read requests is E_SRC_IO with its index (R55). -/
theorem Ends.finish_toResult_srcIo {Q : Res α → Prop} {left : Nat} (h : Ends r Q left s) (hs : ¬ SoundUntil left s) :
    ∃ k, s.src.failAt = some k ∧ finish (toResult f r) = .next (faultEntry .srcIo (failureInfo k) s) := by
  obtain ⟨k, t, hk, hr⟩ := h.failed hs
  exact ⟨k, hk, finish_toResult_raised hw f hr⟩

/-- A read of `n` bits inside the buffer: it ends with its value, or meets the failure at the buffer's end (R55, R56). -/
theorem Reads.finish_toResult_boundary {a : α} {P : State → Prop} {rest : Bits} {n : Nat} (h : Reads r a P rest s)
    (hr : ReaderOk s) (hn : s.rdOff + n ≤ 8 * s.bufBytes) (hrest : (unreadBits s).length = n + rest.length) :
    (boundaryFailure n s = none →
      ∃ t, finish (toResult f r) = .next t ∧ Frame (footprint .RBIT) s t ∧ t.result = f a ∧ Passed rest s t) ∧
    ∀ k, boundaryFailure n s = some k → finish (toResult f r) = .next (faultEntry .srcIo (failureInfo k) s) := by
  have hiff := hr.soundUntil_iff hn hrest
  refine ⟨fun hno => h.finish_toResult hw f (hiff.mpr hno), fun k hk => ?_⟩
  obtain ⟨j, hj, hfault⟩ := Ends.finish_toResult_srcIo hw f h fun hs => nomatch (hiff.mp hs).symm.trans hk
  obtain rfl : j = k := Option.some.inj (hj.symm.trans (boundaryFailure_failAt hk))
  exact hfault

end Read

section Commands
variable {s : State} (ho : s.rdOpen = true)
include ho

theorem exec_rbit_open : exec .rbit s = finish (toResult (fun b => (BitVec.ofBool b).setWidth 32) (readBit s)) := by
  rw [exec, execRbit, withReader_open ho, toResult]

theorem exec_rbyte_open : exec .rbyte s = finish (toResult (fun y => y.setWidth 32) (readByte s)) := by
  rw [exec, execRbyte, withReader_open ho, toResult]

theorem exec_rshort_open : exec .rshort s = finish (toResult (fun v => v.setWidth 32) (readShort s)) := by
  rw [exec, execRshort, withReader_open ho, toResult]

end Commands

theorem rbit_within (s : State) : Within (footprint .RBIT) [.srcIo, .exh] s (readBit s) :=
  readBit_within rfl (by decide) fun _ => by decide

theorem rbyte_within (s : State) : Within (footprint .RBIT) [.srcIo, .align, .exh] s (readByte s) :=
  readByte_within rfl (by decide) (by decide) fun _ => by decide

theorem rshort_within (s : State) : Within (footprint .RBIT) [.srcIo, .align, .exh] s (readShort s) :=
  readShort_within rfl (by decide) (by decide) (by decide) s

/-! ### RBIT -/

theorem readBit_exhausted {s : State} (h : ReaderOk s) (hu : unreadBits s = []) :
    readBit s = .raised .exh (BitVec.ofNat 32 s.rdOff) s := if_neg fun hx => (hasNext_iff_unread h).mp hx hu

/-- Settles O47: a bit read needs no more than the buffer holds, and requests a chunk only at its end. -/
theorem rbitReadsTheNextBit : Obligations.RbitReadsTheNextBit := by
  intro s ho hr
  rw [exec_rbit_open ho]
  refine ⟨fun hu => finish_toResult_raised (rbit_within s) _ (readBit_exhausted hr hu), fun b rest hu => ?_⟩
  have hlen : (unreadBits s).length = 1 + rest.length := by rw [hu, List.length_cons, Nat.add_comm]
  have hn : s.rdOff + 1 ≤ 8 * s.bufBytes := by
    obtain ⟨-, -, -, hoff⟩ := hr
    exact hoff
  obtain ⟨hreads, hfails⟩ := (readBit_reads hr hu).finish_toResult_boundary (rbit_within s)
    (fun b => (BitVec.ofBool b).setWidth 32) hr hn hlen
  refine ⟨fun hno => ?_, hfails⟩
  obtain ⟨t, he, hframe, hres, hpassed⟩ := hreads hno
  exact ⟨t, he, hframe, hres.trans (ofBool_word b), hpassed.ok, hpassed.unread, hpassed.consumed hr hlen⟩

/-! ### RBYTE -/

theorem readByte_unaligned {s : State} (ha : s.rdOff % 8 ≠ 0) :
    readByte s = .raised .align (0x80000000#32 ||| BitVec.ofNat 32 s.rdOff) s :=
  if_neg fun h => ha (of_decide_eq_true h)

theorem readByte_exhausted {s : State} (h : ReaderOk s) (ha : s.rdOff % 8 = 0) (hu : unreadBytes s = []) :
    readByte s = .raised .exh (BitVec.ofNat 32 s.rdOff) s := by
  have hx : ¬ hasNext s = true := fun hx => (hasNext_iff_bytes h ha).mp hx hu
  rw [readByte, rdAligned, if_pos (decide_eq_true ha), if_neg hx, offsetInfo]

/-- An aligned reader's unread bytes, the first one apart, as bits. -/
theorem unreadBits_of_bytes_cons {s : State} {y : Byte} {ys : List Byte} (ha : s.rdOff % 8 = 0)
    (hbytes : unreadBytes s = y :: ys) :
    unreadBits s = byteBits s.params.bitOrder y ++ bytesBits s.params.bitOrder ys := by
  rw [unreadBits_eq_bytes ha, hbytes, bytesBits_cons]

/-- Settles O48: the alignment, the exhaustion, and then a byte read that stays inside the buffer. -/
theorem rbyteReadsTheNextByte : Obligations.RbyteReadsTheNextByte := by
  intro s ho hr
  rw [exec_rbyte_open ho]
  refine ⟨fun ha => finish_toResult_raised (rbyte_within s) _ (readByte_unaligned ha),
    fun ha hu => finish_toResult_raised (rbyte_within s) _ (readByte_exhausted hr ha hu), fun y rest ha hbytes => ?_⟩
  have hu := unreadBits_of_bytes_cons ha hbytes
  have hlen : (unreadBits s).length = 8 + (bytesBits s.params.bitOrder rest).length := by
    rw [hu, List.length_append, byteBits_length]
  have hn : s.rdOff + 8 ≤ 8 * s.bufBytes := by
    obtain ⟨-, -, -, hoff⟩ := hr
    omega
  obtain ⟨hreads, hfails⟩ := (readByte_reads hr ha hu).finish_toResult_boundary (rbyte_within s)
    (fun y => y.setWidth 32) hr hn hlen
  refine ⟨fun hno => ?_, hfails⟩
  obtain ⟨t, he, hframe, hres, hpassed⟩ := hreads hno
  refine ⟨t, he, hframe, ?_, hpassed.ok, hpassed.unreadBytes, hpassed.consumed hr hlen⟩
  rw [hres, BitVec.toNat_setWidth_of_le (by decide)]

/-! ### RSHORT -/

/-- RSHORT's first byte raises what a byte read raises (R61). -/
theorem readShort_raised {s t : State} {e : ErrorCode} {i : Word} (h : readByte s = .raised e i t) :
    readShort s = .raised e i t := by rw [readShort, h, bind_raised]

/-- A byte read ends where an advance by a byte ends (R56, R60). -/
theorem readByte_reads_offset {s : State} {y : Byte} {rest : Bits} (h : ReaderOk s) (ha : s.rdOff % 8 = 0)
    (hu : unreadBits s = byteBits s.params.bitOrder y ++ rest) :
    Reads (readByte s) y
      (fun t => t.rdOff % 8 = 0 ∧ t.rdOff = if s.rdOff + 8 = 8 * s.bufBytes then 0 else s.rdOff + 8) rest s := by
  refine (readByte_reads h ha hu).mono fun ⟨t, hr, ⟨_, hat⟩, hpassed⟩ => ⟨t, hr, ⟨hat, ?_⟩, hpassed⟩
  have htold := readByte_told s
  rw [hr] at htold
  exact htold.2

/-- With one byte left RSHORT consumes it, and its second byte read finds nothing unread (R52, R61). -/
theorem readShort_loneByte {s : State} (h : ReaderOk s) (ha : s.rdOff % 8 = 0) (hone : (unreadBytes s).length = 1) :
    Ends (readShort s) (fun r => ∃ t, r = .raised .exh
      (BitVec.ofNat 32 (if s.rdOff + 8 = 8 * s.params.bufBytes then 0 else s.rdOff + 8)) t) 0 s := by
  obtain ⟨y, hbytes⟩ := List.length_eq_one_iff.mp hone
  have hu := unreadBits_of_bytes_cons ha hbytes
  refine (readByte_reads_offset h ha hu).andThen (Nat.zero_le _) fun t ⟨hat, hoff⟩ pt => ?_
  refine Ends.now (rest := []) pt.ok pt.unread ⟨t, ?_⟩
  rw [readByte_exhausted pt.ok hat pt.unreadBytes, bind_raised, hoff, State.bufBytes]

/-- A word of two bytes. -/
theorem append_toNat (hi lo : Byte) : (hi ++ lo : BitVec 16).toNat = 256 * hi.toNat + lo.toNat := by
  rw [BitVec.toNat_append, ← Nat.shiftLeft_add_eq_or_of_lt lo.isLt, Nat.shiftLeft_eq, Nat.mul_comm]

/-- Settles O49: the faults of the first byte read, those of the second, and two bytes read. -/
theorem rshortReadsLowByteFirst : Obligations.RshortReadsLowByteFirst := by
  intro s ho hr
  have hw := rshort_within s
  rw [exec_rshort_open ho]
  refine ⟨fun ha => finish_toResult_raised hw _ (readShort_raised (readByte_unaligned ha)),
    fun ha hu => finish_toResult_raised hw _ (readShort_raised (readByte_exhausted hr ha hu)), fun ha hone => ?_,
    fun lo hi rest ha hbytes => ?_⟩
  · have hends := readShort_loneByte hr ha hone
    refine ⟨fun hs => ?_, hends.finish_toResult_srcIo hw _⟩
    obtain ⟨t, hraised⟩ := hends.ok hs
    exact finish_toResult_raised hw _ hraised
  · have hu := unreadBits_of_bytes_cons ha hbytes
    rw [bytesBits_cons] at hu
    have hreads := readShort_reads hr ha hu
    rw [← bytesBits_length s.params.bitOrder]
    refine ⟨fun hs => ?_, hreads.finish_toResult_srcIo hw _⟩
    obtain ⟨t, he, hframe, hres, hpassed⟩ := hreads.finish_toResult hw (fun v => v.setWidth 32) hs
    refine ⟨t, he, hframe, ?_, hpassed.ok, hpassed.unreadBytes, hpassed.consumed hr ?_⟩
    · rw [hres, BitVec.toNat_setWidth_of_le (by decide), append_toNat]
    · simp only [hu, List.length_append, byteBits_length]
      omega

end Sys2Proof.Machine
end

section
/-! SUPPORT. Faults and reset (60_exceptions.md R134 to R138, 70_reset_and_hazards.md R148 to R155): what a command's fault tells,
what a command leaves alone, what the fault state drops, and the host's actions on a busy, a faulted or an idle block. -/

namespace Sys2Proof.Machine
open Sys2Proof

/-! ### The fault a command raises -/

/-- A command that is not SRESET and enters the fault state does so with a fault listed for it, whose FINFO is the table's
(R134). -/
theorem exec_faultInfo {i : Instr} (hi : i ≠ .sreset) {s u : State} {e : ErrorCode} {info : Word}
    (he : exec i s = .next (faultEntry e info u)) (hs : s.fault = 0#32) (hlisted : e ∈ raisedBy i.mnemonic)
    (hform : FaultForm (footprint i.mnemonic) e info s u) : FaultInfo i.mnemonic e info s u := by
  obtain ⟨r, hr, htells⟩ := exec_tells i hi s
  rcases finish_next htells (hr ▸ he) with hkept | ⟨e', info', u', hstart, heq⟩
  · exact absurd (hkept.trans hs) (faultEntry_fault_ne e info u)
  · obtain ⟨rfl, rfl⟩ := faultEntry_inj heq
    exact hform.toInfo hlisted hstart

/-- Settles O18: `exec_next` gives the footprint and the fault's code, and where the command starts tells the rest. -/
theorem faultsAreThoseListed : Obligations.FaultsAreThoseListed := by
  intro i s t hs he
  by_cases hi : i = .sreset
  · subst hi
    injection he with he
    exact .inl (he ▸ rfl)
  · rcases exec_next hi he with ⟨hframe, -⟩ | ⟨e, info, u, hlisted, hform, rfl, hframe, -⟩
    · exact .inl (hframe.fault.trans hs)
    · exact .inr ⟨e, info, u, hlisted, exec_faultInfo hi he hs hlisted hform, rfl, hframe⟩

theorem faulted_of_fault_zero {s : State} (h : s.fault = 0#32) : s.faulted = false := by
  simp [State.faulted, State.faultCode, h]

/-- Settles O19: a command that ends with no fault has stayed inside its footprint. -/
theorem commandFootprints : Obligations.CommandFootprints := fun _ _ _ hi _ he ht =>
  exec_frame_of_running hi he (faulted_of_fault_zero ht)

/-- Settles O16: field by field from `faultEntry`; no fault's CODE is 0. -/
theorem faultEntryDefines : Obligations.FaultEntryDefines := fun e info s =>
  ⟨rfl, rfl, rfl, faultEntry_faulted s e info, rfl, rfl, rfl, rfl, rfl, rfl, rfl, rfl⟩

/-! ### What the host does to a block in the fault state -/

/-- The host's CMD write issues its word (R20, R78). -/
theorem step_write_cmd {s : State} {w : Word} {rest : List HostAction} (h : s.host = .write 32 0x00 w :: rest) :
    step s = issue w (s.setHost rest) := step_cons h

/-- In the fault state every word but SRESET's is dropped (R78, R138). -/
theorem issue_dropped {w : Word} {s : State} (hb : s.busy = false) (hf : s.faulted = true) (hw : w ≠ sresetWord) :
    issue w s = .next s := by
  simp [issue, hb, hf, hw]

/-- In the fault state SRESET's word runs SRESET (R78, R138). -/
theorem issue_sresetWord_faulted {s : State} (hb : s.busy = false) (hf : s.faulted = true) :
    issue sresetWord s = exec .sreset s := by
  simp [issue, hb, hf]

/-- In the fault state a host action that does not reset the block leaves FAULT and FINFO as they are (R138). -/
theorem hostAct_keeps_fault {a : HostAction} {s t : State} (hb : s.busy = false) (hf : s.faulted = true)
    (hinput : a ≠ .resetInput) (hword : a ≠ .write 32 0x00 sresetWord) (h : hostAct a s = .next t) :
    t.fault = s.fault ∧ t.finfo = s.finfo := by
  cases a with
  | read width offset =>
    simp only [hostAct, hostRead] at h
    split at h
    · injection h with h
      rw [← h, hf, Bool.or_true, if_pos rfl]
      exact ⟨rfl, rfl⟩
    · exact nomatch h
  | write width offset v =>
    simp only [hostAct, hostWrite] at h
    split at h
    · next hok =>
      obtain ⟨rfl, -, -⟩ := accessOk_iff.mp hok
      split at h
      · next h0 =>
        rw [issue_dropped hb hf fun hv => hword (by rw [h0, hv])] at h
        injection h with h
        exact h ▸ ⟨rfl, rfl⟩
      · injection h with h
        exact h ▸ ⟨rfl, rfl⟩
    · exact nomatch h
  | resetInput => exact absurd rfl hinput

/-- Settles O7: a CMD write is dropped or runs SRESET, and only a reset clears FAULT and FINFO. -/
theorem faultsAreSticky : Obligations.FaultsAreSticky := by
  constructor
  · intro s rest w hh hb hf
    rw [step_write_cmd hh]
    exact ⟨issue_dropped (s := s.setHost rest) hb hf,
      fun hw => hw ▸ issue_sresetWord_faulted (s := s.setHost rest) hb hf⟩
  · intro s t a rest hh hb hf hstep
    constructor
    · intro hreset
      have hr : ResetsNext s :=
        ⟨rest, hreset.imp (fun ha => by rw [hh, ha]) fun ha => ⟨by rw [hh, ha], hb⟩⟩
      obtain ⟨rest', rfl⟩ := step_resets hstep hr
      exact ⟨rfl, rfl⟩
    · rintro ⟨hinput, hword⟩
      rw [step_cons hh] at hstep
      exact hostAct_keeps_fault (s := s.setHost rest) hb hf hinput hword hstep

/-! ### What the host does to a busy block, an idle one, and any -/

/-- Settles O8: issuing checks BUSY first, and STATUS is read as `statusFields` says. -/
theorem busyHazard : Obligations.BusyHazard := by
  constructor
  · intro s rest w hh hb
    have hissue : issue w (s.setHost rest) = .next (faultEntry .busy w (s.setHost rest)) := if_pos hb
    exact ⟨_, (step_write_cmd hh).trans hissue, rfl, rfl, rfl, rfl, rfl, rfl⟩
  · intro s rest hh hb
    obtain ⟨-, -, hbusy⟩ := statusFields s
    obtain ⟨hbit, hzero⟩ := hbusy hb
    have hvalue : readValue 0x04 (s.setHost rest) = statusWord s := by
      rw [readValue_setHost, readValue, bne_self_eq_false, Bool.and_false]
      rfl
    refine ⟨statusWord s, ((s.setHost rest).pushRead (statusWord s)).bumpFree, ?_, rfl, hbit, hzero, hb⟩
    rw [step_cons hh, hostAct, hostRead_ok rfl, hvalue, State.setHost_busy, hb, Bool.true_or, if_pos rfl]

/-- Settles O9: the reset input's action and SRESET's are the one reset (R149, R150). -/
theorem resetInputResets : Obligations.ResetInputResets := fun _ _ hh => step_cons hh

/-- Settles O12: a step is the host's next action, and there is none. -/
theorem idleBlockHoldsItsState : Obligations.IdleBlockHoldsItsState := fun s hh => by
  rw [step, hh]

end Sys2Proof.Machine
end

section
/-! SUPPORT. ESCAN and the payload (47_encode.md R123 to R126): of the events that end the scan, the end of the source, a source
failure, a byte with no code and a byte the sink refuses, the first one decides. -/

namespace Sys2Proof.Machine
open Sys2Proof

/-! ### A fault after bytes have been delivered -/

/-- A body that only raises: its command enters the fault state, with SNK grown by what the body had delivered (R136). -/
theorem Within.faultsAfterDelivery {fp : Footprint} {es : List ErrorCode} {s : State} {r : Res Unit} {e : ErrorCode}
    {P : Word → State → Prop} (hw : Within fp es s r) (h : r.Sat (fun _ _ => False) fun e' i u => e' = e ∧ P i u) :
    ∃ i u, P i u ∧ Grows s u ∧ finish r = .next (faultEntry e i u) := by
  cases r with
  | ok a t => exact h.elim
  | raised e' i u =>
    obtain ⟨rfl, hp⟩ := h
    obtain ⟨-, -, hgrows, -⟩ := hw
    exact ⟨i, u, hp, hgrows, rfl⟩

/-! ### The order of events

An event stands at a byte of the source: what comes before it is a part of the bytes from their start. -/

/-- A split of a list stands before an element, or past it. -/
theorem split_before_or_past {α : Type} {pre post pre' post' : List α} {y : α} (h : pre ++ post = pre' ++ y :: post') :
    (∃ a, pre' = pre ++ a ∧ post = a ++ y :: post') ∨ ∃ c, pre = pre' ++ y :: c ∧ post' = c ++ post := by
  rcases List.append_eq_append_iff.mp h with ⟨a, hpre, hpost⟩ | ⟨c, hpre, hpost⟩
  · exact .inl ⟨a, hpre, hpost⟩
  · cases c with
    | nil => exact .inl ⟨[], by simp [hpre], hpost.symm⟩
    | cons z c =>
      obtain ⟨rfl, htail⟩ := List.cons.inj hpost
      exact .inr ⟨c, hpre, htail⟩

/-- The sink that takes what the codes of some bytes send out takes what those of the first of them do. -/
theorem CodesGoOut.of_append {pre post : List Byte} {s : State} (h : CodesGoOut (pre ++ post) s) : CodesGoOut pre s :=
  sinkTakes_mono (outBytes_mono s (by simp [payloadBits])) h

theorem AllCoded.not_uncoded {pre post : List Byte} {y : Byte} {s : State} (h : AllCoded (pre ++ y :: post) s) :
    cell s.ct y ≠ none := h y (by simp)

/-- What no failure hinders up to a byte, none hinders up to an earlier one. -/
theorem soundUntil_earlier {a rest post : List Byte} {y z : Byte} {s : State} (h : SoundUntil (8 * post.length) s)
    (hsplit : y :: rest = a ++ z :: post) : SoundUntil (8 * rest.length) s := by
  have hlen := congrArg List.length hsplit
  simp only [List.length_append, List.length_cons] at hlen
  exact h.mono (by omega)

/-! ### ESCAN -/

theorem escan_within (s : State) : Within (footprint .ESCAN) [.srcIo, .align, .snkIo, .noCode] s
    (scanBytes emitCode (bytesLeft s) s) :=
  scanBytes_within rfl (by decide) (by decide) (fun y s => emitCode_within rfl (by decide) (by decide) y s) _ _

section Open
variable {s : State} (ho : s.rdOpen = true)
include ho

/-- ESCAN over an unaligned reader (R60, R125). -/
theorem exec_escan_unaligned (hr : ReaderOk s) (ha : s.rdOff % 8 ≠ 0) :
    exec .escan s = .next (faultEntry .align (0x80000000#32 ||| BitVec.ofNat 32 s.rdOff) s) := by
  rw [exec, execEscan, withReader_open ho, scanBytes_unaligned emitCode hr ha, finish_raised, rdAlignInfo, offsetInfo]

/-- A loop of ESCAN that only raises gives ESCAN's fault. -/
theorem exec_escan_faults {e : ErrorCode} {P : Word → State → Prop}
    (h : (scanBytes emitCode (bytesLeft s) s).Sat (fun _ _ => False) fun e' i u => e' = e ∧ P i u) :
    ∃ i u, P i u ∧ Grows s u ∧ exec .escan s = .next (faultEntry e i u) := by
  rw [exec, execEscan, withReader_open ho]
  exact (escan_within s).faultsAfterDelivery h

variable (hr : ReaderOk s) (ha : s.rdOff % 8 = 0) (hw : WriterOk s)
include hr ha hw

/-- ESCAN where no event stops it (R125, R126). -/
theorem exec_escan_completes (hsound : SourceSound s) (hc : AllCoded (unreadBytes s) s)
    (hgo : CodesGoOut (unreadBytes s) s) :
    ∃ t, exec .escan s = .next t ∧ Frame (footprint .ESCAN) s t ∧ ReaderOk t ∧ unreadBits t = [] ∧ WriterOk t ∧
      sentBits t = sentBits s ++ payloadBits s.ct (unreadBytes s) ∧
      t.snk.length = s.snk.length + outBytes (payloadBits s.ct (unreadBytes s)).length s := by
  rw [exec, execEscan, withReader_open ho]
  refine (escan_within s).completes ((scan_emits _ hr ha hw (unreadBytes_le s)).mono ?_ ?_)
  · rintro - t ⟨hrt, hunread, -, -, hwt, hsent, hlen, -⟩
    exact ⟨hrt, hunread, hwt, hsent, hlen⟩
  · rintro e i u (⟨-, -, _, _, _, -, -, -, hfail⟩ | ⟨-, -, -, pre, post, hsplit, -, hno, -⟩ |
      ⟨-, pre, y, post, hsplit, -, huncoded, -⟩)
    · exact hfail (hsound.until _)
    · exact hno (hsplit ▸ hgo).of_append
    · exact (hsplit ▸ hc).not_uncoded huncoded

variable {pre : List Byte}

/-- ESCAN where the sink refuses a byte of the codes of `pre`, before any other event (R65). -/
theorem exec_escan_snkIo {post : List Byte} (hbytes : unreadBytes s = pre ++ post) (hc : AllCoded pre s)
    (hno : ¬ CodesGoOut pre s) (hsound : SoundUntil (8 * post.length) s) :
    ∃ i u, (s.snkErr = some i.toNat ∧ i = u.snkCount) ∧ Grows s u ∧ exec .escan s = .next (faultEntry .snkIo i u) := by
  refine exec_escan_faults ho ((scan_emits _ hr ha hw (unreadBytes_le s)).mono ?_ ?_)
  · rintro - t ⟨-, -, -, -, -, -, -, hgo⟩
    exact hno (hbytes ▸ hgo).of_append
  · rintro e i u (⟨-, -, pre', y, post', hsplit, -, hgo, hfail⟩ | ⟨he, hsink, hcount, -⟩ |
      ⟨-, pre', y, post', hsplit, -, huncoded, -, hgo, -⟩)
    · exfalso
      rcases split_before_or_past (hbytes.symm.trans hsplit) with ⟨a, rfl, -⟩ | ⟨c, -, rfl⟩
      · exact hno hgo.of_append
      · exact hfail (hsound.mono (by simp))
    · exact ⟨he, hsink, hcount⟩
    · exfalso
      rcases split_before_or_past (hbytes.symm.trans hsplit) with ⟨a, rfl, -⟩ | ⟨c, rfl, -⟩
      · exact hno hgo.of_append
      · exact hc.not_uncoded huncoded

variable {y : Byte} {rest : List Byte} (hbytes : unreadBytes s = pre ++ y :: rest) (hc : AllCoded pre s)
  (hgo : CodesGoOut pre s)
include hbytes hc hgo

/-- ESCAN where a source failure is met by the byte after `pre` at the latest, before any other event (R55). -/
theorem exec_escan_srcIo (hfail : ¬ SoundUntil (8 * rest.length) s) :
    ∃ i u, (∃ k, s.src.failAt = some k ∧ i = failureInfo k) ∧ Grows s u ∧
      exec .escan s = .next (faultEntry .srcIo i u) := by
  refine exec_escan_faults ho ((scan_emits _ hr ha hw (unreadBytes_le s)).mono ?_ ?_)
  · rintro - t ⟨-, -, hsound, -⟩
    exact hfail (hsound.until _)
  · rintro e i u (⟨he, hsource, -⟩ | ⟨-, -, -, pre', post', hsplit, -, hno, hsound⟩ |
      ⟨-, pre', z, post', hsplit, -, huncoded, -, -, hsound⟩)
    · exact ⟨he, hsource⟩
    · exfalso
      rcases split_before_or_past (hsplit.symm.trans hbytes) with ⟨a, rfl, -⟩ | ⟨c, -, rfl⟩
      · exact hno hgo.of_append
      · exact hfail (hsound.mono (by simp))
    · exfalso
      rcases split_before_or_past (hbytes.symm.trans hsplit) with ⟨a, -, hpost⟩ | ⟨c, rfl, -⟩
      · exact hfail (soundUntil_earlier hsound hpost)
      · exact hc.not_uncoded huncoded

/-- ESCAN where the byte after `pre` has no code, and no other event comes before it (R123). -/
theorem exec_escan_noCode (hsound : SoundUntil (8 * rest.length) s) (hy : cell s.ct y = none) :
    ∃ i u, i = y.setWidth 32 ∧ Grows s u ∧ exec .escan s = .next (faultEntry .noCode i u) := by
  refine exec_escan_faults ho ((scan_emits _ hr ha hw (unreadBytes_le s)).mono ?_ ?_)
  · rintro - t ⟨-, -, -, hall, -⟩
    exact (hbytes ▸ hall).not_uncoded hy
  · rintro e i u (⟨-, -, pre', z, post', hsplit, hc', -, hfail⟩ | ⟨-, -, -, pre', post', hsplit, hc', hno, -⟩ |
      ⟨he, pre', z, post', hsplit, hi, huncoded, hc', -⟩)
    · exfalso
      rcases split_before_or_past (hsplit.symm.trans hbytes) with ⟨a, -, hpost⟩ | ⟨c, rfl, -⟩
      · exact hfail (soundUntil_earlier hsound hpost)
      · exact hc'.not_uncoded hy
    · exfalso
      rcases split_before_or_past (hsplit.symm.trans hbytes) with ⟨a, rfl, -⟩ | ⟨c, rfl, -⟩
      · exact hno hgo.of_append
      · exact hc'.not_uncoded hy
    · rcases split_before_or_past (hsplit.symm.trans hbytes) with ⟨a, rfl, hpost⟩ | ⟨c, rfl, -⟩
      · cases a with
        | nil => exact ⟨he, (List.cons.inj hpost).1 ▸ hi⟩
        | cons x a =>
          obtain ⟨rfl, -⟩ := List.cons.inj hpost
          exact absurd huncoded hc.not_uncoded
      · exact absurd hy hc'.not_uncoded

end Open

/-- Settles O53: `scan_emits` lists the events that end the scan, and in each clause only the first one can be its end. -/
theorem escanAppendsTheCodes : Obligations.EscanAppendsTheCodes := by
  intro s ho hr hw
  refine ⟨exec_escan_unaligned ho hr, fun ha => exec_escan_completes ho hr ha hw, fun ha pre post hbytes hc => ?_⟩
  refine ⟨fun hno hsound => ?_, fun hgo y rest hpost => ?_⟩
  · obtain ⟨i, u, ⟨hsink, hcount⟩, hgrows, he⟩ := exec_escan_snkIo ho hr ha hw hbytes hc hno hsound
    exact ⟨_, he, rfl, hsink, hcount, hgrows⟩
  · subst hpost
    refine ⟨fun hfail => ?_, fun hsound hy => ?_⟩
    · obtain ⟨_, u, ⟨k, hk, rfl⟩, hgrows, he⟩ := exec_escan_srcIo ho hr ha hw hbytes hc hgo hfail
      exact ⟨k, _, hk, he, rfl, rfl, hgrows⟩
    · obtain ⟨i, u, hi, hgrows, he⟩ := exec_escan_noCode ho hr ha hw hbytes hc hgo hsound hy
      exact ⟨_, he, rfl, hi, hgrows⟩

/-! ### The payload -/

/-- Settles O55: a writer with nothing pending has sent what is in SNK, and the bits' length gives the bytes'. -/
theorem payloadLaw : Obligations.PayloadLaw := by
  intro s xs hw hempty hk hb hf hp hc
  obtain ⟨t, hrun, hframe, hbits⟩ := run_payload (running_of_fault hb hf) hw (by rw [hempty]) hk hp hc
  rw [sentBits_of_empty hempty] at hbits
  refine ⟨t, hrun, hframe.fault.trans hf, hbits, ?_⟩
  have hlen := congrArg List.length hbits
  simp only [List.length_append, bytesBits_length, List.length_replicate, padLen] at hlen
  omega

end Sys2Proof.Machine
end

section
/-! SUPPORT. DTRIE and DSYM (48_decode.md R127 to R130): the trie of a code table, or the first symbol whose code conflicts with a
smaller one's; and the ends of a walk of one symbol. -/

namespace Sys2Proof.Machine
open Sys2Proof

/-! ### DTRIE -/

/-- In ascending byte value the symbols that stand before one are the smaller ones. -/
theorem mem_before_iff {l r : List Byte} {y : Byte} (h : allBytes = l ++ y :: r) (x : Byte) :
    x ∈ l ↔ x.toNat < y.toNat := by
  have hsorted := allBytes_sorted
  rw [h, List.pairwise_append, List.pairwise_cons] at hsorted
  obtain ⟨-, ⟨hafter, -⟩, hbefore⟩ := hsorted
  refine ⟨fun hx => hbefore x hx y List.mem_cons_self, fun hlt => ?_⟩
  have hx := mem_allBytes x
  rw [h, List.mem_append, List.mem_cons] at hx
  rcases hx with hx | rfl | hx
  · exact hx
  · exact absurd hlt (Nat.lt_irrefl _)
  · exact absurd hlt (Nat.lt_asymm (hafter x hx))

theorem trieEmpty_noTerm (t : Table CodeEntry) (p : Bits) (y : Byte) :
    Trie.empty.lookup p = some (.term y) ↔ y ∈ ([] : List Byte) ∧ cell t y = some p := by
  cases p with
  | nil => simp [Trie.empty]
  | cons b p => simp

section Insert
variable {t : Table CodeEntry}

/-- Codes that all go into the trie stand there, and none conflicts with a smaller symbol's (R127). -/
theorem insertCodes_ok {u : Trie} (h : insertCodes t allBytes Trie.empty = .ok u) :
    TrieHolds u t ∧ ∀ x y : Byte, x.toNat < y.toNat → ¬ Conflict t x y := by
  have hs := insertCodes_sat t [] allBytes Trie.empty (.inr rfl) (trieEmpty_noTerm t)
  rw [h] at hs
  obtain ⟨-, hlookup, hnone⟩ := hs
  refine ⟨fun p y => ?_, fun x y hlt => ?_⟩
  · simpa [mem_allBytes] using hlookup p y
  · obtain ⟨l, r, hsplit⟩ := List.append_of_mem (mem_allBytes y)
    exact hnone l y r hsplit x ((mem_before_iff hsplit x).mpr hlt)

/-- The symbol whose code does not go in is the first to conflict with a smaller symbol's (R128). -/
theorem insertCodes_error {y : Byte} (h : insertCodes t allBytes Trie.empty = .error y) :
    (∃ x : Byte, x.toNat < y.toNat ∧ Conflict t x y) ∧
      ∀ x z : Byte, x.toNat < z.toNat → z.toNat < y.toNat → ¬ Conflict t x z := by
  have hs := insertCodes_sat t [] allBytes Trie.empty (.inr rfl) (trieEmpty_noTerm t)
  rw [h] at hs
  obtain ⟨l, r, hsplit, ⟨x, hx, hconflict⟩, hfirst⟩ := hs
  refine ⟨⟨x, (mem_before_iff hsplit x).mp hx, hconflict⟩, fun x z hxz hzy => ?_⟩
  obtain ⟨l', r', hl⟩ := List.append_of_mem ((mem_before_iff hsplit z).mpr hzy)
  have hsplit' : allBytes = l' ++ z :: (r' ++ y :: r) := by rw [hsplit, hl, List.append_assoc, List.cons_append]
  exact hfirst l' z r' hl x ((mem_before_iff hsplit' x).mpr hxz)

end Insert

/-- Settles O56: a table without conflicts cannot stop the insertion, and one with conflicts stops it at the first. -/
theorem dtrieHoldsTheCodes : Obligations.DtrieHoldsTheCodes := by
  intro s
  refine ⟨fun hnone => ?_, fun y ⟨x, hxy, hconflict⟩ hfirst => ?_⟩
  · cases hr : insertCodes s.ct allBytes Trie.empty with
    | ok u => exact ⟨s.setTrie u, by rw [exec, execDtrie, hr, finish_ok], setTrie_frame rfl s u, (insertCodes_ok hr).1⟩
    | error y =>
      obtain ⟨⟨x, hxy, hconflict⟩, -⟩ := insertCodes_error hr
      exact absurd hconflict (hnone x y hxy)
  · cases hr : insertCodes s.ct allBytes Trie.empty with
    | ok u => exact absurd hconflict ((insertCodes_ok hr).2 x y hxy)
    | error z =>
      obtain ⟨⟨w, hwz, hconflict'⟩, hfirst'⟩ := insertCodes_error hr
      have hzy : ¬ z.toNat < y.toNat := fun hlt => hfirst w z hwz hlt hconflict'
      have hyz : ¬ y.toNat < z.toNat := fun hlt => hfirst' x y hxy hlt hconflict
      obtain rfl : z = y := BitVec.eq_of_toNat_eq (by omega)
      rw [exec, execDtrie, hr, finish_raised]

/-! ### DSYM -/

/-- The loops of DSYM and DSCAN are given as many passes as bits are unread (R162). -/
theorem unread_split_le {s : State} {c rest : Bits} (hu : unreadBits s = c ++ rest) :
    c.length + rest.length ≤ bitsLeft s := by
  rw [← List.length_append, ← hu]
  exact unreadBits_le s

theorem dsym_within (s : State) : Within (footprint .DSYM) [.srcIo, .trie] s (decodeOne (bitsLeft s + 1) [] s) :=
  decodeOne_within rfl rfl rfl (by decide) (by decide) _ (.inl rfl)

/-- DSYM's word for a decoded symbol: bit 8, and the symbol below it (R130). -/
theorem symbolWord_toNat (y : Byte) : (0x00000100#32 ||| y.setWidth 32).toNat = 0x100 + y.toNat := by
  rw [BitVec.toNat_or, BitVec.toNat_setWidth_of_le (by decide)]
  exact (Nat.two_pow_add_eq_or_of_lt y.isLt 1).symm

section Open
variable {s : State} (ho : s.rdOpen = true)
include ho

/-- DSYM of a loop that raises: the fault state is entered as if from where DSYM started (R136). -/
theorem exec_dsym_of_raised {e : ErrorCode} {i : Word} {t : State}
    (h : decodeOne (bitsLeft s + 1) [] s = .raised e i t) : exec .dsym s = .next (faultEntry e i s) := by
  have hw := dsym_within s
  rw [h] at hw
  obtain ⟨-, hframe, -⟩ := hw
  rw [exec, execDsym, withReader_open ho, h, finish_raised, faultEntry_frame rfl hframe]

/-- DSYM meets a source failure in a chunk that the bits of its walk request (R55, R56). -/
theorem exec_dsym_srcIo {Q : Res Unit → Prop} {left : Nat} (h : Ends (decodeOne (bitsLeft s + 1) [] s) Q left s)
    (hs : ¬ SoundUntil left s) :
    ∃ k, s.src.failAt = some k ∧ exec .dsym s = .next (faultEntry .srcIo (failureInfo k) s) := by
  obtain ⟨k, t, hk, hr⟩ := h.failed hs
  exact ⟨k, hk, exec_dsym_of_raised ho hr⟩

/-- DSYM of a walk that meets no failure ends with its value in RESULT. -/
theorem exec_dsym_reads {v : Word} {rest : Bits}
    (h : Reads (decodeOne (bitsLeft s + 1) [] s) () (fun t => t.result = v) rest s) (hs : SoundUntil rest.length s) :
    ∃ t, exec .dsym s = .next t ∧ Frame (footprint .DSYM) s t ∧ t.result = v ∧ Passed rest s t := by
  obtain ⟨t, hr, hres, hpassed⟩ := h.ok hs
  have hw := dsym_within s
  rw [hr] at hw
  obtain ⟨hframe, -⟩ := hw
  exact ⟨t, by rw [exec, execDsym, withReader_open ho, hr, finish_ok], hframe, hres, hpassed⟩

end Open

/-- Settles O57: each of the four ends of the walk has its law, and a failure on the way is E_SRC_IO in all of them. -/
theorem dsymDecodesOneSymbol : Obligations.DsymDecodesOneSymbol := by
  intro s ho hr ⟨_, hok⟩
  refine ⟨fun code y rest hu hc hk => ?_, fun hu => ?_, fun hne hk => ?_, fun path b rest hu hk hmiss => ?_⟩
  · have hlen := unread_split_le hu
    have hreads := decodeOne_code (n := bitsLeft s + 1) hr hok hu hc hk (by omega)
    refine ⟨fun hs => ?_, exec_dsym_srcIo ho hreads⟩
    obtain ⟨t, he, hframe, hres, hpassed⟩ := exec_dsym_reads ho hreads hs
    exact ⟨t, he, hframe, hpassed.ok, hpassed.sound.mp, hpassed.unread, by rw [hres, symbolWord_toNat]⟩
  · have hreads := decodeOne_end (n := bitsLeft s + 1) hr hok hu (.inl rfl) (Nat.succ_pos _)
    obtain ⟨t, he, hframe, hres, -⟩ := exec_dsym_reads ho hreads (sourceSound_of_spent hr (by rw [hu]; rfl))
    exact ⟨t, he, hframe, hres⟩
  · have hlen := unread_split_le (List.append_nil (unreadBits s)).symm
    have hreads := decodeOne_end (n := bitsLeft s + 1) hr hok rfl (.inr hk) (by omega)
    refine ⟨fun hs => ?_, exec_dsym_srcIo ho hreads⟩
    obtain ⟨t, he, hframe, hres, hpassed⟩ := exec_dsym_reads ho hreads hs
    exact ⟨t, he, hframe, by rw [hres, if_neg hne], hpassed.unread⟩
  · have hlen := unread_split_le hu
    have hends := decodeOne_missing (n := bitsLeft s + 1) hr hok hu hk hmiss (by omega)
    refine ⟨fun hs => ?_, exec_dsym_srcIo ho hends⟩
    obtain ⟨t, hraised⟩ := hends.ok hs
    exact exec_dsym_of_raised ho hraised

end Sys2Proof.Machine
end

section
/-! SUPPORT. DSCAN (48_decode.md R131): the symbols of whole codes, then the end of the source, a bit with no child or a source
failure; and what stops it before, the sink or an unaligned writer. -/

namespace Sys2Proof.Machine
open Sys2Proof

theorem dscan_within (s : State) : Within (footprint .DSCAN) [.srcIo, .snkIo, .align, .trie] s
    (decodeAll (bitsLeft s) [] s) :=
  decodeAll_within rfl rfl rfl (by decide) (by decide) (by decide) (by decide) _ (.inl rfl)

/-! ### The command and its loop -/

section Open
variable {s : State} (ho : s.rdOpen = true)
include ho

theorem exec_dscan_of_ok {t : State} (h : decodeAll (bitsLeft s) [] s = .ok () t) :
    exec .dscan s = .next t ∧ Frame (footprint .DSCAN) s t := by
  have hw := dscan_within s
  rw [h] at hw
  exact ⟨by rw [exec, execDscan, withReader_open ho, h, finish_ok], hw.1⟩

/-- DSCAN of a loop that raises: the fault state keeps the bytes the loop had delivered (R136). -/
theorem exec_dscan_of_raised {e : ErrorCode} {i : Word} {t : State} (h : decodeAll (bitsLeft s) [] s = .raised e i t) :
    exec .dscan s = .next (faultEntry e i t) ∧ Grows s t := by
  have hw := dscan_within s
  rw [h] at hw
  obtain ⟨-, -, hgrows, -⟩ := hw
  exact ⟨by rw [exec, execDscan, withReader_open ho, h, finish_raised], hgrows⟩

/-- DSCAN meets a source failure in a chunk that a bit of the walk requests (R55, R56). -/
theorem exec_dscan_srcIo {Q : Res Unit → Prop} {left : Nat} (h : Ends (decodeAll (bitsLeft s) [] s) Q left s)
    (hs : ¬ SoundUntil left s) :
    ∃ k t, s.src.failAt = some k ∧ exec .dscan s = .next t ∧ t.fault = 0x00000007#32 ∧ t.finfo = failureInfo k ∧
      Grows s t := by
  obtain ⟨k, t, hk, hr⟩ := h.failed hs
  obtain ⟨he, hgrows⟩ := exec_dscan_of_raised ho hr
  exact ⟨k, _, hk, he, rfl, rfl, hgrows⟩

end Open

/-! ### Whole codes, from an aligned writer -/

section Codes
variable {s : State} {codes : List (Bits × Byte)} {tail : Bits} (hr : ReaderOk s) (hok : TrieOk s) (hw : WriterOk s)
  (ha : s.wrOff % 8 = 0) (hu : unreadBits s = codes.flatMap Prod.fst ++ tail)
  (hcodes : ∀ x ∈ codes, x.1 ≠ [] ∧ s.trie.lookup x.1 = some (.term x.2))
include hr hok hw ha hu hcodes

/-- Where the sink refuses a byte of the symbols, DSCAN's loop stops there (R65, R131). -/
theorem dscan_refused (hno : ¬ sinkTakes (outBytes (8 * codes.length) s) s) (hsound : SoundUntil tail.length s) :
    ∃ i t, decodeAll (bitsLeft s) [] s = .raised .snkIo i t ∧ s.snkErr = some i.toNat ∧ i = t.snkCount := by
  obtain ⟨n, hn⟩ := Nat.exists_eq_add_of_le (Nat.le_of_add_right_le (unread_split_le hu))
  rw [hn]
  exact decodeAll_refused codes hr hw ha hok.2 hu hcodes hno hsound

variable (htakes : sinkTakes (outBytes (8 * codes.length) s) s)
include htakes

/-- Where the sink takes the symbols' bytes, DSCAN's loop goes on with the bits after the codes, from the root of the trie
(R131). -/
theorem dscan_after_codes {left : Nat} {Q : Res Unit → Prop} (hl : left ≤ tail.length)
    (hf : ∀ n t, tail.length ≤ n → Passed tail s t → WriterOk t → t.trie = s.trie →
      sentBits t = sentBits s ++ bytesBits s.params.bitOrder (codes.map Prod.snd) →
      Ends (decodeAll n [] t) Q left t) :
    Ends (decodeAll (bitsLeft s) [] s) Q left s := by
  have hlen := unread_split_le hu
  obtain ⟨n, hn⟩ := Nat.exists_eq_add_of_le (Nat.le_of_add_right_le hlen)
  rw [hn] at hlen ⊢
  exact decodeAll_codes codes hr hw ha hok.2 hu hcodes htakes hl fun t hpassed hwt htrie hsent _ =>
    hf n t (by omega) hpassed hwt htrie hsent

/-- An unfinished path after the codes is dropped at the end of the source (R131). -/
theorem dscan_end (htail : tail = [] ∨ s.trie.lookup tail = some .inner) :
    Ends (decodeAll (bitsLeft s) [] s) (fun r => ∃ t, r = .ok () t ∧ unreadBits t = [] ∧ WriterOk t ∧
      sentBits t = sentBits s ++ bytesBits s.params.bitOrder (codes.map Prod.snd)) 0 s := by
  refine dscan_after_codes hr hok hw ha hu hcodes htakes (Nat.zero_le _) fun n t hn hpassed hwt htrie hsent => ?_
  refine (decodeAll_end hpassed.ok (htrie ▸ hok.2) hpassed.unread (htrie ▸ htail) hn).mono fun ⟨u, hbody, honly, hend⟩ => ?_
  exact ⟨u, hbody, hend.unread, honly.writerOk.mpr hwt, honly.sentBits.trans hsent⟩

variable {path rest : Bits} {b : Bool} (htail : tail = path ++ b :: rest)
  (hpath : path = [] ∨ s.trie.lookup path = some .inner)
include htail hpath

/-- The bit after a path to an INNER node is read before anything else can fault. -/
theorem dscan_nextBit : Ends (decodeAll (bitsLeft s) [] s) (fun _ => True) rest.length s := by
  have hlen := congrArg List.length htail
  rw [List.length_append, List.length_cons] at hlen
  refine dscan_after_codes hr hok hw ha hu hcodes htakes (by omega) fun n t hn hpassed _ htrie _ => ?_
  exact decodeAll_nextBit hpassed.ok (htrie ▸ hok.2) (hpassed.unread.trans htail) (htrie ▸ hpath) (by omega)

/-- A bit with no child after a path to an INNER node is E_TRIE with the missing node's depth (R129). -/
theorem dscan_missing (hmiss : s.trie.lookup (path ++ [b]) = none) :
    Ends (decodeAll (bitsLeft s) [] s)
      (fun r => ∃ t, r = .raised .trie (0x02000000#32 ||| BitVec.ofNat 32 (path.length + 1)) t) rest.length s := by
  have hlen := congrArg List.length htail
  rw [List.length_append, List.length_cons] at hlen
  refine dscan_after_codes hr hok hw ha hu hcodes htakes (by omega) fun n t hn hpassed _ htrie _ => ?_
  exact decodeAll_missing hpassed.ok (htrie ▸ hok.2) (hpassed.unread.trans htail) (htrie ▸ hpath) (htrie ▸ hmiss)
    (by omega)

end Codes

/-- Settles O58: the sink's refusal first, then the three ways on after whole codes. -/
theorem dscanDecodesToTheEnd : Obligations.DscanDecodesToTheEnd := by
  intro s codes tail ho hr hok hw ha hu hcodes
  refine ⟨fun hno hsound => ?_, fun htakes => ⟨fun htail => ?_, fun path b rest htail hpath => ?_⟩⟩
  · obtain ⟨i, t, hraised, hsink, hcount⟩ := dscan_refused hr hok hw ha hu hcodes hno hsound
    obtain ⟨he, hgrows⟩ := exec_dscan_of_raised ho hraised
    exact ⟨_, he, rfl, hsink, hcount, hgrows⟩
  · have hends := dscan_end hr hok hw ha hu hcodes htakes htail
    refine ⟨fun hsound => ?_, exec_dscan_srcIo ho hends⟩
    obtain ⟨t, hbody, hunread, hwt, hsent⟩ := hends.ok hsound
    obtain ⟨he, hframe⟩ := exec_dscan_of_ok ho hbody
    exact ⟨t, he, hframe, hunread, hwt, hsent⟩
  · refine ⟨fun hsound hmiss => ?_, exec_dscan_srcIo ho (dscan_nextBit hr hok hw ha hu hcodes htakes htail hpath)⟩
    obtain ⟨t, hraised⟩ := (dscan_missing hr hok hw ha hu hcodes htakes htail hpath hmiss).ok hsound
    obtain ⟨he, hgrows⟩ := exec_dscan_of_raised ho hraised
    exact ⟨_, he, rfl, rfl, hgrows⟩

/-! ### An unaligned writer -/

theorem onlyReader.toFrame {fp : Footprint} (hp : fp.position = true) {s t : State} (h : onlyReader s t) :
    Frame fp s t := by
  rw [h]
  exact setReader_frame hp s _ _ _

/-- From an unaligned writer the first symbol's byte is refused, only the reader having moved (R63, R131). -/
theorem dscan_unaligned {s : State} {code rest : Bits} {y : Byte} (hr : ReaderOk s) (hok : TrieOk s)
    (ha : s.wrOff % 8 ≠ 0) (hu : unreadBits s = code ++ rest) (hc : code ≠ [])
    (hk : s.trie.lookup code = some (.term y)) :
    Ends (decodeAll (bitsLeft s) [] s)
      (fun r => ∃ t, r = .raised .align (BitVec.ofNat 32 s.wrOff) t ∧ onlyReader s t) rest.length s := by
  obtain ⟨n, hn⟩ := Nat.exists_eq_add_of_le (Nat.le_of_add_right_le (unread_split_le hu))
  rw [hn]
  refine decodeAll_code hr hok.2 hu hc hk le_rfl fun t honly hpassed => ?_
  rw [writeByte_unaligned y (by rwa [honly.wrOff]), bind_raised, honly.wrOff]
  exact .now hpassed.ok hpassed.unread ⟨t, rfl, honly⟩

/-- Settles O59: the first symbol's byte write meets the alignment check, unless the source fails before. -/
theorem dscanNeedsAnAlignedWriter : Obligations.DscanNeedsAnAlignedWriter := by
  intro s code y rest ho hr hok ha hu hc hk
  have hends := dscan_unaligned hr hok ha hu hc hk
  refine ⟨fun hsound => ?_, exec_dscan_srcIo ho hends⟩
  obtain ⟨t, hraised, honly⟩ := hends.ok hsound
  rw [(exec_dscan_of_raised ho hraised).1,
    faultEntry_frame (fp := footprint .RBIT) rfl (honly.toFrame rfl)]

end Sys2Proof.Machine
end
